-- ==== Sys2Proof/Word.lean ====
section
/-! DEFINITION. The numbers of the KB808: bytes, 32-bit registers, the 48-bit tick count and the index ranges of
its repeated blocks, with their plainest arithmetic. -/

namespace Sys2Proof

/-- One byte of card memory. -/
abbrev Byte := BitVec 8

/-- One 32-bit register of the register window. -/
abbrev Word := BitVec 32

/-- A 48-bit tick count (R1). -/
abbrev Tick := BitVec 48

/-- Bays 0 to 7 (spec/00_scope.md, 3.3). -/
abbrev Bay := Fin 8

/-- Job slots 0 to 63. -/
abbrev Slot := Fin 64

/-- Trace pages 0 to 2,047. -/
abbrev Page := Fin 2048

/-- The two scan engines. -/
abbrev EngineId := Fin 2

/-- The six monitored input lines of a bay, numbered as R48's table. -/
abbrev InLine := Fin 6

/-- The four driven lines of a bay, numbered as R175. -/
abbrev OutLine := Fin 4

/-- The three rails of a bay (R69). -/
abbrev RailId := Fin 3

/-- R16: the ticks elapsed from a captured time to a later count, modulo 2^48. -/
def elapsed (since now : Tick) : Nat := (now - since).toNat

/-- One entry of a table changed by a function, the others kept. -/
def upd {α : Type} {n : Nat} (v : Vector α n) (i : Fin n) (f : α → α) : Vector α n :=
  v.set i.val (f v[i.val]) i.isLt

/-- A count that stays at its maximum when it would pass it (spec/00_scope.md, 3.3). -/
def saturate (max n : Nat) : Nat := if n ≤ max then n else max

end Sys2Proof
end

