-- ==== Sys2Proof/Syntax.lean ====
section
/-! DEFINITION. The commands of the KB808: one constructor per row of spec/opcode_table.json, in the table's order.
A row gives no bits and no operands; an operand here is what the row's rule needs to name its subject (a bay, a
line, a slot, an engine) or the value that comes from outside the device with the event (a register value, a
sampled level, a converter code, the TDO bits). -/

namespace Sys2Proof

/-- R190: the three link events that are a link reset. -/
inductive LinkResetCause where
  | hotReset
  | linkReturn
  | perstRelease
  deriving DecidableEq, Repr

/-- R190: how the link is lost without a reset. -/
inductive LinkDownCause where
  | linkLost
  | perstAsserted
  deriving DecidableEq, Repr

/-- R59 to R62: the two wire conditions that can end a code frame. -/
inductive CodeCond where
  | start
  | stop
  deriving DecidableEq, Repr

/-- R60: an edge of CODE_CLK. -/
inductive ClkEdge where
  | rise
  | fall
  deriving DecidableEq, Repr

/-- 7.3: the three lanes of a bay. -/
inductive Lane where
  | access
  | drive
  | setup
  deriving DecidableEq, Repr

/-- The commands. `b` is a bay, `e` a scan engine, `lanes` the byte lanes of a register access (bit i for byte i). -/
inductive Instr where
  | powerOnReset
  | linkReset (cause : LinkResetCause)
  | qualificationRunStart
  | referenceMilestoneRaise
  | referenceLoss
  | selectBench
  | selectInternal
  | syncRawChange
  | syncCapture
  | syncQualifiedFall
  | timeHighRead (lanes : BitVec 4)
  | timeLowRead (lanes : BitVec 4)
  | writeRecord
  | flushClose
  | drainEnd
  | tLastLapse (b : Bay)
  | release (value : Word)
  | lineRawChange (b : Bay) (line : InLine)
  | lineQualify (b : Bay) (line : InLine)
  | settleMilestoneRaise (b : Bay)
  | codeArrival (b : Bay) (cond : CodeCond)
  | codeErr (b : Bay) (cond : CodeCond)
  | codeFrameStall (b : Bay)
  | stallReferenceLapse (b : Bay)
  | conversion (code : BitVec 12)
  | falseStart (b : Bay)
  | goodByte (b : Bay)
  | framingError (b : Bay)
  | breakSettled (b : Bay)
  | batchIdleClose (b : Bay)
  | characterEnd (b : Bay)
  | gapEnd (b : Bay)
  | codeStallEvent (b : Bay)
  | elapsedEvent (b : Bay)
  | armReadEnd (b : Bay)
  | post (value : Word)
  | bayhold (value : Word)
  | dispatch (b : Bay) (lane : Lane)
  | jobEnd (slot : Slot)
  | deadlineExpiry (slot : Slot)
  | loadingEnd (e : EngineId)
  | entryPathEnd (e : EngineId)
  | tdiRegionRead (e : EngineId)
  | resetTap (e : EngineId)
  | shiftEnd (e : EngineId) (tdo : Nat)
  | resultWrite (e : EngineId)
  | idleStepEnd (e : EngineId)
  | scanDelayEnd (e : EngineId)
  | check (e : EngineId)
  | endStep (e : EngineId)
  | scanPowerLossStop (e : EngineId)
  | lineDelayEnd (b : Bay) (line : OutLine)
  | widthEnd (b : Bay) (line : OutLine)
  | start
  | profileReadEnd
  | startInstant
  | stop
  | returnToIdle
  | restart
  | unknownCommand (code : Word)
  | noticeRead (lanes : BitVec 4)
  | registerWriteIgnored (offset : Nat) (lanes : BitVec 4) (value : Word)
  | referenceRisingEdge
  | codeStartCondition (b : Bay)
  | codeClkEdge (b : Bay) (edge : ClkEdge) (dat : Bool)
  | conRxFall (b : Bay)
  | bitSample (b : Bay) (level : Bool)
  | breakCandidate (b : Bay)
  | breakHoldRise (b : Bay)
  | abortedIdleClockEnd (e : EngineId)
  | linkDown (cause : LinkDownCause)
  deriving DecidableEq, Repr

end Sys2Proof
end

