-- ==== Sys2Proof/Decode.lean ====
section
/-! DEFINITION. The commands that table words spell. -/

namespace Sys2Proof

/-- The command that a word spells by the bits of spec/opcode_table.json. The table gives bits to no row: a command
reaches the block as a register access, an edge of a pin or an instant of a duration, so no word spells one. -/
def decodeTableWord (_nbits _w : Nat) : Option Instr := none

end Sys2Proof
end

