-- ==== Sys2Proof/Config.lean ====
section
/-! DEFINITION. The free values: what the spec leaves undefined or unstated and the machine goes on with. Each is a
constant with no body, so nothing can be proved of its value. -/

namespace Sys2Proof.Config

/-- R186: card memory contents are undefined after power-on. The byte at an address after the power-on reset that
drew the free number `draw` (notes/assumptions/2.md). -/
opaque powerOnByte (draw address : Nat) : Byte

/-- R193 keeps the offset of the first clamped field and does not say whether fields are taken in the order of its
table or of the profile layout. True when the layout's order is meant (notes/assumptions/4.md). -/
opaque firstClampByOffset : Bool

/-- R119, R160, R192: a write during a read of the device reaches the bytes not yet read. Whether a reader (0 for
Control, 1 + b for the ARM job of bay b, 9 + e for scan engine e) had read the byte at an address at the write that drew
the free number `draw` (notes/assumptions/12.md). -/
opaque byteRead (draw reader address : Nat) : Bool

/-- R21: a link reset or RESTART abandons the writer service in flight. The bay whose service was in flight at the
reset that drew the free number `draw`: none when it names a bay without work (notes/assumptions/37.md). -/
opaque abandonedBay (draw : Nat) : Bay

/-- R21, R164, R195, R198: a reset leaves card memory as whatever the start sequence, the writer service or the result
write that it abandons had written. How many of its groups of writes had been made whole at the reset that drew the free
number `draw` (notes/assumptions/3.md, notes/assumptions/37.md, notes/assumptions/47.md). -/
opaque groupsDone (draw : Nat) : Nat

/-- R21, R164, R195, R198: whether, of the group of writes in progress at the reset that drew the free number `draw`,
the access at an address had been made (notes/assumptions/3.md, notes/assumptions/37.md, notes/assumptions/47.md). -/
opaque accessMade (draw address : Nat) : Bool

/-- R169, R170: an abort request or a power-loss report can be taken in the very instant at which a CHECK completes, and
no rule gives a CHECK's time. Whether the CHECK in hand completes at the instant of the request or the report that drew
the free number `draw` (notes/assumptions/23.md). -/
opaque checkCompletes (draw : Nat) : Bool

end Sys2Proof.Config
end

