-- ==== Sys2Proof/Machine/Memory.lean ====
section
/-! DEFINITION. Card memory: 16 MiB of bytes (R186) as a list of (address, byte) cells in one canonical form, and
its little-endian fields (R206). -/

namespace Sys2Proof.Machine

/-- Card memory. A byte that no cell lists reads 0 (notes/assumptions/1.md). -/
abbrev Memory := List Host.Cell

/-- R186: the first offset past the 16 MiB of card memory. -/
def cardMemorySize : Nat := 0x1000000

/-- The canonical form: addresses strictly rising and inside card memory, and no cell holding the value that an
unlisted address reads as. -/
abbrev Memory.wf (m : Memory) : Prop :=
  m.Pairwise (fun x y => x.1 < y.1) ∧ ∀ c ∈ m, c.2 ≠ 0#8 ∧ c.1 < cardMemorySize

/-- The byte at an address. -/
def Memory.read : Memory → Nat → Byte
  | [], _ => 0#8
  | (x, v) :: rest, a => if x = a then v else Memory.read rest a

/-- The cells with the byte at `a` set to `v`, in canonical form. -/
def Memory.put : Memory → Nat → Byte → Memory
  | [], a, v => if v = 0#8 then [] else [(a, v)]
  | (x, w) :: rest, a, v =>
    if a < x then (if v = 0#8 then (x, w) :: rest else (a, v) :: (x, w) :: rest)
    else if a = x then (if v = 0#8 then rest else (a, v) :: rest)
    else (x, w) :: Memory.put rest a v

/-- A write of one byte. There is no byte at or above 16 MiB (R186), so a write there stores nothing. -/
def Memory.write (m : Memory) (a : Nat) (v : Byte) : Memory :=
  if a < cardMemorySize then m.put a v else m

/-- A write of consecutive bytes, lowest address first. -/
def Memory.writeBytes : Memory → Nat → List Byte → Memory
  | m, _, [] => m
  | m, a, v :: rest => Memory.writeBytes (m.write a v) (a + 1) rest

/-- R119, R160, R192: memory as a read sees it that has taken the listed bytes before a write changed them. -/
def Memory.asRead (m : Memory) (early : List Host.Cell) : Memory := early.foldl (fun m c => m.write c.1 c.2) m

/-- The `n` bytes from `a`, lowest address first. -/
def Memory.readBytes (m : Memory) (a : Nat) : Nat → List Byte
  | 0 => []
  | n + 1 => m.read a :: m.readBytes (a + 1) n

/-- Every byte of `[lo, hi)` set to 0: no cell is listed there. -/
def Memory.zeroRange (m : Memory) (lo hi : Nat) : Memory :=
  m.filter (fun c => c.1 < lo || hi ≤ c.1)

/-- R206: the number that little-endian bytes hold. -/
def leNat : List Byte → Nat
  | [] => 0
  | v :: rest => v.toNat + 256 * leNat rest

/-- R206: the `n` little-endian bytes of a number. -/
def leBytes : Nat → Nat → List Byte
  | 0, _ => []
  | n + 1, v => BitVec.ofNat 8 v :: leBytes n (v / 256)

/-- R206: the little-endian field of `n` bytes at `a`. -/
def Memory.field (m : Memory) (a n : Nat) : Nat := leNat (m.readBytes a n)

/-- R93, R119, R160, R181: a region lies in the job data area when its first byte is at or above 0x010000 and its
last byte at or below 0x7FFFFF. -/
def inJobArea (offset length : Nat) : Bool :=
  0x010000 ≤ offset && offset + length - 1 ≤ 0x7FFFFF

/-- Where the card of a slot begins (7). -/
def cardAddr (slot : Slot) : Nat := 0x002000 + 128 * slot.val

/-- Where a trace page begins (2.3). -/
def pageAddr (p : Page) : Nat := 0x800000 + 4096 * p.val

/-- The page state map byte of a page (R22). -/
def mapAddr (p : Page) : Nat := 0x005000 + p.val

/-- The record slot `i` of a page (2.3). -/
def recordAddr (p : Page) (i : Nat) : Nat := pageAddr p + 32 + 16 * i

end Sys2Proof.Machine
end

