-- ==== Sys2Proof/Machine/State.lean ====
section
/-! DEFINITION. The state of the KB808: every item the spec's chapters list for its blocks, as plain data, the
queue of waiting commands, and the machine right after reset. -/

namespace Sys2Proof.Machine

/-! ### Codes shared by the blocks -/

/-- R3: the two sources of ticks. -/
inductive Source where
  | internal
  | bench
  deriving DecidableEq, Repr

/-- R10: why the source changed. -/
inductive SourceCause where
  | select
  | loss
  deriving DecidableEq, Repr

/-- 10.3: the device states. -/
inductive DeviceState where
  | idle
  | running
  | stopping
  deriving DecidableEq, Repr

/-- R192, R194: the steps of a start sequence. -/
inductive StartSeq where
  | none
  | reading
  | initialising
  deriving DecidableEq, Repr

/-- R191: the last command outcome. -/
inductive CmdOutcome where
  | none
  | pending
  | accepted
  | refused
  deriving DecidableEq, Repr

/-- R192: the profile errors. -/
inductive ProfileError where
  | none
  | badSignature
  | noBays
  | shiftRange
  | railWindow
  deriving DecidableEq, Repr

/-- R137: the engine arbitration modes. -/
inductive Arbitration where
  | fixed
  | rotating
  deriving DecidableEq, Repr

/-- The statuses a card can end with, in the order of their codes (12.4). -/
inductive Status where
  | ok
  | cancelled
  | timeout
  | stopped
  | badCard
  | bayDisabled
  | dataRange
  | powerLost
  | checkFailed
  | superseded
  | badProgram
  | streamBusy
  | notInterruptible
  | nothingToCancel
  deriving DecidableEq, Repr

/-- The reasons a detail field carries (12.4). -/
inductive Reason where
  | bayRange
  | kind
  | gate
  | parameter
  | target
  | list
  | step
  | stepField
  | stepKind
  | entry
  | progSize
  | progKind
  | progStage
  | progCount
  | progOutcome
  | progParameter
  | progReach
  | progPattern
  | progPreset
  | progAction
  deriving DecidableEq, Repr

/-- The kinds of job (7.1). -/
inductive JobKind where
  | scan
  | send
  | lines
  | arm
  | trace
  | cancel
  deriving DecidableEq, Repr

/-! ### Time Base (chapter 1) -/

/-- R4: a qualification run: its start, and its last rising edge, from which R5 measures the loss. -/
structure RefRun where
  start : Tick
  lastEdge : Tick
  deriving DecidableEq, Repr

/-- The items of the Time Base, with the raw level of the SYNC pin and its pending change (R11). -/
structure TimeBase where
  count : Tick
  source : Source
  milestone : Nat
  run : Option RefRun
  syncRaw : Bool
  syncQual : Bool
  syncPending : Option Tick
  lastSync : Tick
  syncCount : BitVec 32
  latch : BitVec 32
  latchValid : Bool
  deriving DecidableEq, Repr

/-! ### Host link -/

/-- R202: the two forms of the notice line on the link. -/
inductive LinkForm where
  | message
  | level
  deriving DecidableEq, Repr

/-- R202: what the device sends over the link for the notice line. -/
inductive LinkSignal where
  | message
  | assertLine
  | deassertLine
  deriving DecidableEq, Repr

/-- The PCIe link as the device sees it: down, PERST# held, the host's choice of interrupt form, what the device has
sent (oldest first), and the bytes the last register read returned. -/
structure Link where
  down : Bool
  perst : Bool
  form : LinkForm
  sent : List LinkSignal
  readData : List Byte
  deriving DecidableEq, Repr

/-! ### The fixture profile (R192, R193, 12.2) -/

/-- The bay block of the profile, in the profile's units. -/
structure BayProfile where
  k : Nat
  level : Nat
  enables : BitVec 4
  rest : Vector Bool 4
  qualMicros : Vector Nat 6
  divisor : Nat
  tck : Nat
  deriving DecidableEq, Repr

/-- The rail block of the profile, in mV. -/
structure RailProfile where
  fullScale : Nat
  low : Nat
  high : Nat
  hyst : Nat
  deriving DecidableEq, Repr

/-- The accepted and clamped profile, with the clamp record of R193. -/
structure ProfileCopy where
  mask : BitVec 8
  arbitration : Arbitration
  poolLow : Nat
  bays : Vector BayProfile 8
  rails : Vector RailProfile 24
  clampCount : Nat
  firstClamp : Nat
  deriving DecidableEq, Repr

/-! ### Control (chapter 10) -/

/-- The items of Control. `enabled`, `clampCount` and `firstClamp` are taken from the copy at the start instant
(R194, R199), so the mirror shows the run's values while a later START is in progress. `earlyBytes` holds the bytes of
the profile area that the READING step had read before a write changed them (R192). -/
structure Control where
  device : DeviceState
  startSeq : StartSeq
  copy : Option ProfileCopy
  outcome : CmdOutcome
  profileError : ProfileError
  errorIndex : Nat
  earlyBytes : List Host.Cell
  runNumber : BitVec 32
  enabled : BitVec 8
  clampCount : Nat
  firstClamp : Nat
  deriving DecidableEq, Repr

/-! ### Notice Unit (chapter 11) -/

/-- R200: the pending flags of groups 0 to 8, and the level and enables of each bay's group. -/
structure Notices where
  pend : Vector (BitVec 4) 9
  level : Vector Nat 8
  enable : Vector (BitVec 4) 8
  deriving DecidableEq, Repr

/-! ### Line Monitor (chapter 3) -/

/-- One monitored line: the pin, and the monitor's items (3, R48). -/
structure MonLine where
  pin : Bool
  raw : Bool
  qual : Bool
  edge : Option Tick
  q : Nat
  deriving DecidableEq, Repr

/-- The Line Monitor of a bay. -/
structure Monitor where
  lines : Vector MonLine 6
  settleBase : Option Tick
  milestone : Nat
  deriving DecidableEq, Repr

/-! ### Code Lane Receiver (chapter 3) -/

/-- R58: the receiver's states. -/
inductive CodeState where
  | idle
  | data
  | stopWait
  deriving DecidableEq, Repr

/-- R64: why a frame is in error. -/
inductive CodeErrCause where
  | parity
  | short
  | stalled
  deriving DecidableEq, Repr

/-- The Code Lane Receiver of a bay, with the bay's stall reference (R66, R67). -/
structure CodeRx where
  state : CodeState
  bits : Nat
  shift : BitVec 17
  frameStart : Tick
  lastClk : Tick
  lastCode : Option (BitVec 16)
  lastCodeTime : Tick
  errors : BitVec 32
  stallRef : Option Tick
  stallLapsed : Bool
  deriving DecidableEq, Repr

/-! ### Rail Scanner (chapter 4) -/

/-- 4: the window states. -/
inductive RailWindow where
  | unknown
  | inside
  | low
  | high
  deriving DecidableEq, Repr

/-- One rail: its settings (R69) and its items. -/
structure Rail where
  fullScale : Nat
  lowLimit : Nat
  highLimit : Nat
  hyst : Nat
  value : Nat
  window : RailWindow
  lastConv : Option Tick
  deriving DecidableEq, Repr

/-- A conversion in progress (4, R71). -/
structure Conversion where
  bay : Bay
  rail : RailId
  start : Tick
  deriving DecidableEq, Repr

/-- The shared converter. -/
structure Scanner where
  position : Option (Bay × RailId)
  conv : Option Conversion
  deriving DecidableEq, Repr

/-! ### Console Port (chapter 5) -/

/-- 5: the receiver's states. -/
inductive RxState where
  | idle
  | receiving
  | breakCheck
  | breakHold
  deriving DecidableEq, Repr

/-- R85: an open receive batch: each byte with its error flag, the first byte's start-bit time, the last stop
sample time. -/
structure Batch where
  time : Tick
  bytes : List (Byte × Bool)
  lastStop : Tick
  deriving DecidableEq, Repr

/-- 5: the transmit states; FINISHING carries the abort's status (R95). -/
inductive TxState where
  | idle
  | sending
  | finishing (status : Status)
  deriving DecidableEq, Repr

/-- R94: what the transmitter is doing since an instant: a character, or the gap after one. -/
inductive TxPhase where
  | character (start : Tick)
  | gap (start : Tick)
  deriving DecidableEq, Repr

/-- 5: the transmit job, with the byte being sent. -/
structure TxJob where
  slot : Slot
  offset : Nat
  length : Nat
  gap : Nat
  next : Nat
  sent : Nat
  byte : Byte
  phase : TxPhase
  deriving DecidableEq, Repr

/-- The Console Port of a bay. -/
structure Console where
  divisor : Nat
  rx : RxState
  fall : Tick
  sample : Nat
  data : Byte
  batch : Option Batch
  window : List Byte
  received : BitVec 32
  framing : BitVec 32
  breaks : BitVec 32
  tx : TxState
  job : Option TxJob
  deriving DecidableEq, Repr

/-! ### Line programs (R176) -/

/-- R176: the three forms of a line program; delays and widths in µs. -/
inductive LineProg where
  | timed (delay width : Nat)
  | force (delay : Nat)
  | release
  deriving DecidableEq, Repr

/-! ### Trigger Sequencer (chapter 6) -/

/-- R98: the sequencer's states. -/
inductive SeqState where
  | disarmed
  | armed
  | fired
  deriving DecidableEq, Repr

/-- The edge an entry of kind LINE names (12.6). -/
inductive EdgeSel where
  | rise
  | fall
  | either
  deriving DecidableEq, Repr

/-- The state an entry of kind RAIL names (R108). -/
inductive RailSel where
  | low
  | high
  | out
  deriving DecidableEq, Repr

/-- 6.3: the nine kinds of condition with their parameters; times in µs. -/
inductive Condition where
  | code (value mask : BitVec 16)
  | codeStall (budget : Nat)
  | line (line : Nat) (edge : EdgeSel)
  | glitch (line : Nat)
  | consoleMatch (pattern : Nat)
  | rail (rail : Nat) (state : RailSel)
  | settle (milestone : Nat)
  | jobFail
  | elapsed (time : Nat)
  deriving DecidableEq, Repr

/-- R102: the outcomes of a completed entry. -/
inductive EntryOutcome where
  | next
  | fire
  | restart
  deriving DecidableEq, Repr

/-- R100: an entry of a program. -/
structure Entry where
  stage : Nat
  cond : Condition
  needed : Nat
  outcome : EntryOutcome
  deriving DecidableEq, Repr

/-- R99: a trigger program. `actions` is coded as the image's action set (12.6). -/
structure Program where
  entries : List Entry
  patterns : List (List Byte)
  presets : List LineProg
  actions : BitVec 8
  pulsePreset : Nat
  pulseLine : Nat
  releaseSlot : Nat
  postCount : Nat
  deriving DecidableEq, Repr

/-- 6: the last fire. -/
structure Fire where
  time : Tick
  stage : Nat
  entry : Nat
  deriving DecidableEq, Repr

/-- R119: the read of a program image in progress: the ARM job's slot, and the bytes of the image that it had read
before a write changed them. -/
structure ImageRead where
  slot : Slot
  early : List Host.Cell
  deriving DecidableEq, Repr

/-- The Trigger Sequencer of a bay. `stallBegin` is the instant at which the stall period began (R105: a budget
already reached then gives its event at once); `stallGiven` is the highest budget whose event the period has given
(R105: each budget gives at most one event per period); `reading` is the read of an ARM job's image in progress. -/
structure Sequencer where
  state : SeqState
  program : Option Program
  stage : Option Nat
  counters : List Nat
  stageEntry : Option Tick
  stallStart : Option Tick
  stallBegin : Option Tick
  stallGiven : Nat
  fireCount : BitVec 32
  lastFire : Option Fire
  reading : Option ImageRead
  deriving DecidableEq, Repr

/-! ### Line Driver (chapter 9) -/

/-- 9: an owner of a line program: the trigger, or a job (a slot with its accept time). -/
inductive Owner where
  | trigger
  | job (slot : Slot) (accept : Tick)
  deriving DecidableEq, Repr

/-- R178: the phases of a running program. -/
inductive ProgPhase where
  | delay
  | active
  deriving DecidableEq, Repr

/-- 9: a running program with its owner, its phase and the instant its phase ends. -/
structure Running where
  prog : LineProg
  owner : Owner
  phase : ProgPhase
  phaseEnd : Tick
  deriving DecidableEq, Repr

/-- 9: a buffered program with its owner. -/
structure Buffered where
  prog : LineProg
  owner : Owner
  deriving DecidableEq, Repr

/-- One driven line. `level` is none while the line is undriven; `justRested` says that the line has returned to rest
at this instant (R178, notes/assumptions/25.md). -/
structure DrvLine where
  rest : Bool
  level : Option Bool
  running : Option Running
  buffered : Option Buffered
  force : Option Owner
  justRested : Bool
  deriving DecidableEq, Repr

/-- R182: the LINES job in service: its owner, the number of its entries, and how they have ended so far. -/
structure LinesJob where
  slot : Slot
  accept : Tick
  total : Nat
  completed : Nat
  superseded : Nat
  deriving DecidableEq, Repr

/-- The Line Driver of a bay. -/
structure Driver where
  lines : Vector DrvLine 4
  job : Option LinesJob
  deriving DecidableEq, Repr

/-! ### Trace streams and the page pool (chapter 2) -/

/-- R180: the cause a DRIVE record names. -/
inductive DriveCause where
  | job
  | trigger
  | stop
  deriving DecidableEq, Repr

/-- R18: the record kinds with their payloads (12.8). TIME and LOSS are made by the writer. -/
inductive RecordBody where
  | time (t : Tick)
  | loss (count : Nat)
  | code (code : BitVec 16)
  | codeErr (cause : CodeErrCause) (detail : Nat)
  | line (line : InLine) (level : Bool)
  | glitch (line : InLine) (level : Bool) (width : Nat)
  | settle (milestone : Nat)
  | rail (rail : RailId) (state : RailWindow) (value : Nat)
  | console (bytes : List (Byte × Bool)) (brk : Bool)
  | jobStart (slot : Slot) (kind : Nat) (tag : BitVec 32)
  | jobEnd (slot : Slot) (status : Status) (tag : BitVec 32)
  | drive (line : OutLine) (level : Bool) (cause : DriveCause) (slot : Option Slot)
  | mark (stage entry : Nat) (actions : BitVec 8) (missed : Bool)
  | source (source : Source) (cause : SourceCause) (milestone : Nat)
  | sync (count : BitVec 32)
  deriving DecidableEq, Repr

/-- R18: a record: its event time, its kind and its payload. -/
structure Record where
  time : Tick
  body : RecordBody
  deriving DecidableEq, Repr

/-- 2.4: the stream states. -/
inductive StreamState where
  | off
  | running
  | postTrigger
  | draining
  | stopped
  deriving DecidableEq, Repr

/-- 2: the stream modes. -/
inductive StreamMode where
  | continuous
  | window
  deriving DecidableEq, Repr

/-- R27: a page in use by a stream: what its header carries. -/
structure PageUse where
  page : Page
  seq : BitVec 32
  base : Tick
  count : Nat
  mark : Bool
  deriving DecidableEq, Repr

/-- R31: the page work of a FLUSH: the page that was FILLING, and the job's slot. -/
structure FlushWork where
  page : Page
  slot : Slot
  deriving DecidableEq, Repr

/-- The stream of a bay. `wroteSince` says that a record has been written since `tLast` took its value (R34),
`markAhead` is the place in the queue of the MARK whose taking begins post-trigger counting (R43), `counting` says
that counting has begun, `drainPost` that the drain began from POST_TRIGGER (R45), `closer` is a TRACE CLOSE job that
waits for the drain's end (R30). -/
structure Stream where
  queue : List Record
  state : StreamState
  mode : StreamMode
  w : Nat
  k : Nat
  tLast : Option Tick
  lapsed : Bool
  wroteSince : Bool
  lostCount : Nat
  lostTotal : Nat
  filling : Option PageUse
  retained : List PageUse
  recycled : Bool
  pRemaining : Nat
  markAhead : Option Nat
  counting : Bool
  drainPost : Bool
  sequence : BitVec 32
  written : BitVec 32
  closed : BitVec 32
  flush : Option FlushWork
  closer : Option Slot
  deriving DecidableEq, Repr

/-- R22: the state of a page, with the bay it belongs to. -/
inductive PageState where
  | free
  | filling (b : Bay)
  | retained (b : Bay)
  | closed (b : Bay)
  deriving DecidableEq, Repr

/-- The page pool and the writer's rotation (R20, R22 to R25). -/
structure Pool where
  map : Vector PageState 2048
  freeList : List Page
  lastServed : Bay
  lowThreshold : Nat
  deriving DecidableEq, Repr

/-! ### Job table and Dispatcher (chapter 7) -/

/-- 7.1: the host-written fields of a card, as copied at an accepted POST (R125). -/
structure Card where
  kind : Byte
  bay : Byte
  gate : Byte
  limit : Nat
  tag : BitVec 32
  offset : Nat
  length : Nat
  params : List Byte
  deriving DecidableEq, Repr

/-- R126: the slot states. -/
inductive SlotState where
  | free
  | parked
  | requested
  | inService
  | done
  deriving DecidableEq, Repr

/-- R143: a deadline: its base time and the limit in ticks. -/
structure Deadline where
  base : Tick
  limit : Nat
  deriving DecidableEq, Repr

/-- R140: the end an owner has reported and the Dispatcher has not yet taken, with the instant of the report. -/
structure Report where
  status : Status
  detail : BitVec 16
  result : BitVec 64
  time : Tick
  deriving DecidableEq, Repr

/-- A slot record. `mark` is the abort mark (R142), `stopMark` the mark that STOP sets on a SETUP-lane job
(R151). -/
structure SlotRec where
  state : SlotState
  card : Card
  accept : Tick
  start : Tick
  finish : Tick
  status : Status
  detail : BitVec 16
  result : BitVec 64
  mark : Option Status
  stopMark : Bool
  deadline : Option Deadline
  report : Option Report
  deriving DecidableEq, Repr

/-- R133: a bay-lane queue and its in-service entry. -/
structure LaneQ where
  queue : List Slot
  service : Option Slot
  deriving DecidableEq, Repr

/-- The Dispatcher's shared items: the hold set (R134), the engine rotation order (R138), the arbitration mode. -/
structure Dispatcher where
  hold : BitVec 8
  rotation : List Bay
  arbitration : Arbitration
  deriving DecidableEq, Repr

/-! ### Scan engines (chapter 8) -/

/-- R154: the engine states. -/
inductive EngineState where
  | idle
  | running
  | aborting
  deriving DecidableEq, Repr

/-- 8: the phases of a job at an engine. -/
inductive Phase where
  | none
  | loading
  | entry
  | step
  deriving DecidableEq, Repr

/-- R157: what the pool knows of a bay's TAP. -/
inductive Knowledge where
  | unknown
  | reset
  | idle
  deriving DecidableEq, Repr

/-- 8.2: the twelve TAP states the engine uses. -/
inductive TapState where
  | testLogicReset
  | runTestIdle
  | selectDr
  | selectIr
  | captureDr
  | captureIr
  | shiftDr
  | shiftIr
  | exit1Dr
  | exit1Ir
  | updateDr
  | updateIr
  deriving DecidableEq, Repr

/-- 12.5: an entry of a step list. -/
structure ScanEntry where
  kind : Byte
  option : Byte
  n : Nat
  a : Nat
  b : Nat
  c : Nat
  deriving DecidableEq, Repr

/-- The work an engine has in hand: `clocks` gives the instant its clocks began, `reported` says that the job's
end has been reported and not yet taken (R173). -/
inductive Work where
  | none
  | loading
  | entryPath (start : Tick) (clocks : Nat)
  | readTdi
  | clocks (start : Tick)
  | writeResult
  | delay (start : Tick)
  | check
  | endStep
  | reported
  deriving DecidableEq, Repr

/-- A scan engine. `idleStop` is the clock of an aborted IDLE step after which it ends (R168), `cutStop` the clock
in whose high part a power loss came (R170), `powerLost` that a power-loss report has decided the end (R171),
`captured` the TDO bits of a result write in progress, `tdi` the TDI bytes of the step, `tdiHeld` the level TDI was
last driven to when no clock is given (R155), `early` the bytes of the step list that LOADING had read before a write
changed them (R160). -/
structure Engine where
  state : EngineState
  phase : Phase
  attached : Option (Bay × Slot)
  index : Option Nat
  steps : List ScanEntry
  tracked : Option TapState
  abort : Option Status
  disturbed : Bool
  stepsDone : Nat
  firstFail : Nat
  tdoBits : Nat
  work : Work
  idleStop : Option Nat
  cutStop : Option Nat
  powerLost : Bool
  captured : Nat
  tdi : List Byte
  tdiHeld : Bool
  early : List Host.Cell
  deriving DecidableEq, Repr

/-- R157, R154: a bay's TAP knowledge and TCK divisor. -/
structure ScanPort where
  knowledge : Knowledge
  divisor : Nat
  deriving DecidableEq, Repr

/-! ### The whole machine -/

/-- The state of the KB808. `draws` counts the free numbers drawn (Config), `checkDraws` those drawn for a CHECK that a
request or a report meets; `pending` is the queue of waiting
commands, oldest first. -/
structure State where
  time : TimeBase
  link : Link
  ctl : Control
  notices : Notices
  mon : Vector Monitor 8
  code : Vector CodeRx 8
  rail : Vector (Vector Rail 3) 8
  scanner : Scanner
  con : Vector Console 8
  seq : Vector Sequencer 8
  drv : Vector Driver 8
  str : Vector Stream 8
  pool : Pool
  slots : Vector SlotRec 64
  lanes : Vector (Vector LaneQ 3) 8
  disp : Dispatcher
  eng : Vector Engine 2
  port : Vector ScanPort 8
  mem : Memory
  draws : Nat
  checkDraws : Nat
  pending : List Instr
  deriving DecidableEq, Repr

/-- No command of this block ends in a fault: every region the device reads or writes is checked against the card
memory map before it is used, and a failed check ends the job with a status (R93, R119, R160, R181). So there is
no fault to name. -/
inductive Fault where
  deriving DecidableEq, Repr

/-- Why a command has no meaning. -/
inductive Refusal where
  /-- Raised by an arm of `exec` whose command has no meaning yet. Safe: the machine stops. No arm raises it. -/
  | notModelled (mnemonic : String)
  deriving DecidableEq, Repr

/-! ### Reset values -/

/-- R2: the Time Base after a reset, with the raw level of SYNC as it stands. -/
def TimeBase.reset (syncRaw : Bool) : TimeBase where
  count := 0#48
  source := .internal
  milestone := 0
  run := none
  syncRaw := syncRaw
  syncQual := syncRaw
  syncPending := none
  lastSync := 0#48
  syncCount := 0#32
  latch := 0#32
  latchValid := false

/-- R190: Control after a reset, with no field clamped and no bay enabled (notes/assumptions/5.md). -/
def Control.reset : Control where
  device := .idle
  startSeq := .none
  copy := none
  outcome := .none
  profileError := .none
  errorIndex := 0
  earlyBytes := []
  runNumber := 0#32
  enabled := 0#8
  clampCount := 0
  firstClamp := 0xFFFF

/-- R200: the Notice Unit after a reset. -/
def Notices.reset : Notices where
  pend := Vector.replicate 9 0#4
  level := Vector.replicate 8 6
  enable := Vector.replicate 8 0#4

/-- R49: a monitored line after a reset; the pin is outside the device. -/
def MonLine.reset (pin : Bool) : MonLine where
  pin := pin
  raw := false
  qual := false
  edge := none
  q := 0

/-- R49: a Line Monitor after a reset, its pins as they stand. -/
def Monitor.reset (m : Monitor) : Monitor where
  lines := m.lines.map (fun l => MonLine.reset l.pin)
  settleBase := none
  milestone := 0

/-- R58, R66: a Code Lane Receiver after a reset. -/
def CodeRx.reset : CodeRx where
  state := .idle
  bits := 0
  shift := 0#17
  frameStart := 0#48
  lastClk := 0#48
  lastCode := none
  lastCodeTime := 0#48
  errors := 0#32
  stallRef := none
  stallLapsed := false

/-- R70: a rail after a reset. -/
def Rail.reset : Rail where
  fullScale := 1000
  lowLimit := 0
  highLimit := 65535
  hyst := 0
  value := 0
  window := .unknown
  lastConv := none

/-- R79: a Console Port after a reset: no byte in reception, so its fall time, sample number and bits so far are 0
(notes/assumptions/5.md). -/
def Console.reset : Console where
  divisor := 16
  rx := .idle
  fall := 0#48
  sample := 0
  data := 0#8
  batch := none
  window := []
  received := 0#32
  framing := 0#32
  breaks := 0#32
  tx := .idle
  job := none

/-- R98: a Trigger Sequencer after a reset. -/
def Sequencer.reset : Sequencer where
  state := .disarmed
  program := none
  stage := none
  counters := []
  stageEntry := none
  stallStart := none
  stallBegin := none
  stallGiven := 0
  fireCount := 0#32
  lastFire := none
  reading := none

/-- R175: a driven line after a reset: undriven, with no program and no force. -/
def DrvLine.reset : DrvLine where
  rest := false
  level := none
  running := none
  buffered := none
  force := none
  justRested := false

/-- R175: a Line Driver after a reset. -/
def Driver.reset : Driver where
  lines := Vector.replicate 4 DrvLine.reset
  job := none

/-- R28, R19: a stream after a reset. The resolution shift k, which R28 gives at START only, is 0 until then
(notes/assumptions/5.md). -/
def Stream.reset : Stream where
  queue := []
  state := .off
  mode := .continuous
  w := 1
  k := 0
  tLast := none
  lapsed := false
  wroteSince := false
  lostCount := 0
  lostTotal := 0
  filling := none
  retained := []
  recycled := false
  pRemaining := 0
  markAhead := none
  counting := false
  drainPost := false
  sequence := 0#32
  written := 0#32
  closed := 0#32
  flush := none
  closer := none

/-- R23, R20: the page pool after a reset: every page FREE, the free list ascending, bay 7 last served. -/
def Pool.reset : Pool where
  map := Vector.replicate 2048 .free
  freeList := List.finRange 2048
  lastServed := 7
  lowThreshold := 0

/-- An empty slot record's card. -/
def Card.reset : Card where
  kind := 0#8
  bay := 0#8
  gate := 0#8
  limit := 0
  tag := 0#32
  offset := 0
  length := 0
  params := []

/-- R126: a slot record after a reset: FREE and clear. -/
def SlotRec.reset : SlotRec where
  state := .free
  card := Card.reset
  accept := 0#48
  start := 0#48
  finish := 0#48
  status := .ok
  detail := 0#16
  result := 0#64
  mark := none
  stopMark := false
  deadline := none
  report := none

/-- R133: an empty bay-lane. -/
def LaneQ.reset : LaneQ where
  queue := []
  service := none

/-- R152: the Dispatcher after a reset. -/
def Dispatcher.reset : Dispatcher where
  hold := 0#8
  rotation := [0, 1, 2, 3, 4, 5, 6, 7]
  arbitration := .fixed

/-- R154: an IDLE engine. -/
def Engine.reset : Engine where
  state := .idle
  phase := .none
  attached := none
  index := none
  steps := []
  tracked := none
  abort := none
  disturbed := false
  stepsDone := 0
  firstFail := 0xFFFF
  tdoBits := 0
  work := .none
  idleStop := none
  cutStop := none
  powerLost := false
  captured := 0
  tdi := []
  tdiHeld := true
  early := []

/-- R157: a bay's scan port after a reset. -/
def ScanPort.reset : ScanPort where
  knowledge := .unknown
  divisor := 4

/-- The link as the model starts it: up, message form, nothing sent, nothing read (notes/assumptions/5.md). -/
def Link.initial : Link where
  down := false
  perst := false
  form := .message
  sent := []
  readData := []

/-- The machine right after reset, with every input pin low, card memory with nothing listed and no command
waiting. -/
def State.reset : State where
  time := TimeBase.reset false
  link := Link.initial
  ctl := Control.reset
  notices := Notices.reset
  mon := Vector.replicate 8 ⟨Vector.replicate 6 (MonLine.reset false), none, 0⟩
  code := Vector.replicate 8 CodeRx.reset
  rail := Vector.replicate 8 (Vector.replicate 3 Rail.reset)
  scanner := ⟨none, none⟩
  con := Vector.replicate 8 Console.reset
  seq := Vector.replicate 8 Sequencer.reset
  drv := Vector.replicate 8 Driver.reset
  str := Vector.replicate 8 Stream.reset
  pool := Pool.reset
  slots := Vector.replicate 64 SlotRec.reset
  lanes := Vector.replicate 8 (Vector.replicate 3 LaneQ.reset)
  disp := Dispatcher.reset
  eng := Vector.replicate 2 Engine.reset
  port := Vector.replicate 8 ScanPort.reset
  mem := []
  draws := 0
  checkDraws := 0
  pending := []

end Sys2Proof.Machine
end

