-- ==== Sys2Proof/Machine/Ops.lean ====
section
/-! DEFINITION. The named operations that every block uses: changing one table entry of the state, the tick count
and durations on it, the device and bay conditions, and the outcome of a command. -/

namespace Sys2Proof.Machine

/-- The eight bays in ascending order. -/
def allBays : List Bay := [0, 1, 2, 3, 4, 5, 6, 7]

/-- The 64 slots in ascending order. -/
def allSlots : List Slot := List.finRange 64

/-- The position of a lane in a bay's table of lanes. -/
def laneIx : Lane → Fin 3
  | .access => 0
  | .drive => 1
  | .setup => 2

/-- R200: the notice group of a bay is the bay plus one. -/
def bayGroup (b : Bay) : Fin 9 := b.succ

/-! ### Changing one entry -/

/-- The Line Monitor of a bay changed. -/
def State.modMon (b : Bay) (f : Monitor → Monitor) (s : State) : State := { s with mon := upd s.mon b f }

/-- One monitored line of a bay changed. -/
def State.modInLine (b : Bay) (l : InLine) (f : MonLine → MonLine) (s : State) : State :=
  s.modMon b (fun m => { m with lines := upd m.lines l f })

/-- The Code Lane Receiver of a bay changed. -/
def State.modCode (b : Bay) (f : CodeRx → CodeRx) (s : State) : State := { s with code := upd s.code b f }

/-- One rail changed. -/
def State.modRail (b : Bay) (r : RailId) (f : Rail → Rail) (s : State) : State :=
  { s with rail := upd s.rail b (fun v => upd v r f) }

/-- The Console Port of a bay changed. -/
def State.modCon (b : Bay) (f : Console → Console) (s : State) : State := { s with con := upd s.con b f }

/-- The Trigger Sequencer of a bay changed. -/
def State.modSeq (b : Bay) (f : Sequencer → Sequencer) (s : State) : State := { s with seq := upd s.seq b f }

/-- The Line Driver of a bay changed. -/
def State.modDrv (b : Bay) (f : Driver → Driver) (s : State) : State := { s with drv := upd s.drv b f }

/-- One driven line of a bay changed. -/
def State.modOutLine (b : Bay) (d : OutLine) (f : DrvLine → DrvLine) (s : State) : State :=
  s.modDrv b (fun v => { v with lines := upd v.lines d f })

/-- The stream of a bay changed. -/
def State.modStr (b : Bay) (f : Stream → Stream) (s : State) : State := { s with str := upd s.str b f }

/-- One slot record changed. -/
def State.modSlot (i : Slot) (f : SlotRec → SlotRec) (s : State) : State := { s with slots := upd s.slots i f }

/-- One bay-lane changed. -/
def State.modLane (b : Bay) (l : Lane) (f : LaneQ → LaneQ) (s : State) : State :=
  { s with lanes := upd s.lanes b (fun v => upd v (laneIx l) f) }

/-- One scan engine changed. -/
def State.modEng (e : EngineId) (f : Engine → Engine) (s : State) : State := { s with eng := upd s.eng e f }

/-- The scan port of a bay changed. -/
def State.modPort (b : Bay) (f : ScanPort → ScanPort) (s : State) : State := { s with port := upd s.port b f }

/-- Bytes of card memory written by the device. -/
def State.store (a : Nat) (bytes : List Byte) (s : State) : State := { s with mem := s.mem.writeBytes a bytes }

/-! ### Writes that meet a read in progress (R119, R160, R192) -/

/-- R192: the profile area is 4,096 bytes long. -/
def profileSize : Nat := 0x1000

/-- 12.6: a trigger program image is 256 bytes long. -/
def imageLength : Nat := 256

/-- R119, R160, R192: a read of the device is in progress: of the profile, of an image or of a step list. -/
def State.readInProgress (s : State) : Bool :=
  s.ctl.startSeq = .reading || allBays.any (fun b => s.seq[b.val].reading.isSome)
    || ([0, 1] : List EngineId).any (fun e => s.eng[e.val].work = .loading)

/-- R119, R160, R192: the bytes that a read of `[base, base + length)` has taken before a write to `[a, a + n)`: those
it is known to have read, and of the others each is a free choice (notes/assumptions/12.md). -/
def State.readEarly (s : State) (reader base length : Nat) (early : List Host.Cell) (a n : Nat) : List Host.Cell :=
  early ++ ((List.range n).filter (fun i => base ≤ a + i && a + i < base + length
      && early.all (fun c => c.1 ≠ a + i) && Config.byteRead s.draws reader (a + i))).map
    (fun i => (a + i, s.mem.read (a + i)))

/-- R192: the profile's read when a write to `[a, a + n)` comes. -/
def State.keepProfile (s : State) (a n : Nat) : Control :=
  if s.ctl.startSeq = .reading then
    { s.ctl with earlyBytes := s.readEarly 0 0 profileSize s.ctl.earlyBytes a n }
  else s.ctl

/-- R119: the read of a bay's program image when a write to `[a, a + n)` comes. -/
def State.keepImage (s : State) (a n : Nat) (b : Bay) : Sequencer :=
  { s.seq[b.val] with
    reading := s.seq[b.val].reading.map (fun r =>
      { r with early := s.readEarly (1 + b.val) s.slots[r.slot.val].card.offset imageLength r.early a n }) }

/-- R160: the read of an engine's step list when a write to `[a, a + n)` comes. -/
def State.keepList (s : State) (a n : Nat) (e : EngineId) : Engine :=
  match s.eng[e.val].work, s.eng[e.val].attached with
  | .loading, some (_, i) =>
    { s.eng[e.val] with
      early := s.readEarly (9 + e.val) s.slots[i.val].card.offset s.slots[i.val].card.length s.eng[e.val].early a n }
  | _, _ => s.eng[e.val]

/-- R119, R160, R192: a write to `[a, a + n)` does not reach the bytes that a read in progress has already taken. -/
def State.keepEarly (a n : Nat) (s : State) : State :=
  if s.readInProgress then
    { s with
      ctl := s.keepProfile a n
      seq := Vector.ofFn (s.keepImage a n)
      eng := Vector.ofFn (s.keepList a n)
      draws := s.draws + 1 }
  else s

/-- R119, R160, R192: bytes written where a read of the device may be in progress: the profile area and the job data
area. -/
def State.overwrite (a : Nat) (bytes : List Byte) (s : State) : State := (s.keepEarly a bytes.length).store a bytes

/-- R186: bytes of card memory written by the host through the card memory window. The table has no row for it: the
host does it between commands (notes/assumptions/6.md). -/
def State.hostWrite (a : Nat) (bytes : List Byte) (s : State) : State := s.overwrite a bytes

/-- A change made for each element of a list, first to last. -/
def forEach {α : Type} (xs : List α) (f : α → State → State) (s : State) : State :=
  xs.foldl (fun acc x => f x acc) s

/-! ### Time -/

/-- The tick count at this instant (R15). -/
def State.now (s : State) : Tick := s.time.count

/-- R16: this is the instant at which `ticks` have passed since a captured time. -/
def State.passed (s : State) (since : Tick) (ticks : Nat) : Bool := elapsed since s.now = ticks

/-- R16: at least `ticks` have passed since a captured time. -/
def State.reached (s : State) (since : Tick) (ticks : Nat) : Bool := ticks ≤ elapsed since s.now

/-- One µs is 100 ticks (spec/00_scope.md, 3.3). -/
def micros (n : Nat) : Nat := n * 100

/-- One ms is 100,000 ticks (spec/00_scope.md, 3.3). -/
def millis (n : Nat) : Nat := n * 100000

/-- R34, R67: the age of 2^46 ticks at which a stream's t_last and a bay's stall reference lapse. -/
def lapseAge : Nat := 2 ^ 46

/-! ### Conditions -/

/-- Whether a bay is enabled for the run (spec/00_scope.md, 3.3). -/
def State.enabled (s : State) (b : Bay) : Bool := s.ctl.enabled.getLsbD b.val

/-- The device is RUNNING or STOPPING. -/
def State.operating (s : State) : Bool := s.ctl.device ≠ .idle

/-- R48, R58, R80: a bay's observing blocks run while the device is RUNNING or STOPPING and the bay is enabled. -/
def State.active (s : State) (b : Bay) : Bool := s.operating && s.enabled b

/-- R134: the bay is in the hold set. -/
def State.held (s : State) (b : Bay) : Bool := s.disp.hold.getLsbD b.val

/-- A number of at most 8 bits with one bit per bay set or cleared. -/
def setBit (v : BitVec 8) (b : Bay) : BitVec 8 := v ||| (1#8 <<< b.val)

/-- The enabled bays in ascending order (R71). -/
def State.enabledBays (s : State) : List Bay := allBays.filter s.enabled

/-! ### End reports -/

/-- R140: the owning block of a job reports its end, at this instant. The Dispatcher takes the report at JOB_END. -/
def report (i : Slot) (st : Status) (detail : BitVec 16) (result : BitVec 64) (s : State) : State :=
  s.modSlot i (fun r => { r with report := some ⟨st, detail, result, s.now⟩ })

/-! ### The tick -/

/-- R178: a return to rest is no longer at this instant. -/
def Driver.ticked (v : Driver) : Driver :=
  { v with lines := v.lines.map (fun l => { l with justRested := false }) }

/-- R1: one tick of the selected source. -/
def tick (s : State) : State :=
  { s with time := { s.time with count := s.time.count + 1#48 }, drv := s.drv.map Driver.ticked }

end Sys2Proof.Machine
end

