-- ==== Sys2Proof/Machine/Flags.lean ====
section
/-! DEFINITION. The notice flags, the notice line and the codes of the status fields: chapter 11, R202's link
signals, and the codings of chapter 12. -/

namespace Sys2Proof.Machine

/-! ### Factors (chapter 11) -/

/-- The factors of group 0. -/
inductive FixtureFactor where
  | source
  | poolLow
  | badPost
  | badRelease
  deriving DecidableEq, Repr

/-- The factors of a bay's group. -/
inductive BayFactor where
  | jobDone
  | trigger
  | pages
  | fault
  deriving DecidableEq, Repr

/-- The number of a group 0 factor. -/
def fixtureFactorIx : FixtureFactor → Fin 4
  | .source => 0
  | .poolLow => 1
  | .badPost => 2
  | .badRelease => 3

/-- The number of a bay factor. -/
def bayFactorIx : BayFactor → Fin 4
  | .jobDone => 0
  | .trigger => 1
  | .pages => 2
  | .fault => 3

/-- A factor as a bit of a group's four. -/
def factorBit (f : Fin 4) : BitVec 4 := 1#4 <<< f.val

/-- R201: the pending flag of a factor set. -/
def Notices.raise (g : Fin 9) (f : Fin 4) (n : Notices) : Notices :=
  { n with pend := upd n.pend g (· ||| factorBit f) }

/-- R203: the pending flag of a factor cleared. -/
def Notices.clear (g : Fin 9) (f : Fin 4) (n : Notices) : Notices :=
  { n with pend := upd n.pend g (· &&& ~~~ factorBit f) }

/-- R200: group 0 is always enabled; a bay's group has its four enables. -/
def Notices.enables (n : Notices) (g : Fin 9) : BitVec 4 :=
  if h : g = 0 then 15#4 else n.enable[(g.pred h).val]

/-- R200: group 0 has level 0; a bay's group has its level. -/
def Notices.levelOf (n : Notices) (g : Fin 9) : Nat :=
  if h : g = 0 then 0 else n.level[(g.pred h).val]

/-- The pending enabled factors of a group. -/
def Notices.ready (n : Notices) (g : Fin 9) : BitVec 4 := n.pend[g.val] &&& n.enables g

/-- The nine notice groups in ascending order. -/
def allGroups : List (Fin 9) := [0, 1, 2, 3, 4, 5, 6, 7, 8]

/-- R202: the notice line is asserted exactly when an enabled factor is pending. -/
def Notices.asserted (n : Notices) : Bool := allGroups.any (fun g => n.ready g ≠ 0#4)

/-- R203: of two groups the one taken first; the earlier of the list stays when the levels are equal. -/
def Notices.better (n : Notices) (best : Option (Fin 9)) (g : Fin 9) : Option (Fin 9) :=
  if n.ready g = 0#4 then best
  else match best with
    | none => some g
    | some h => if n.levelOf g < n.levelOf h then some g else some h

/-- R203: the lowest factor number among the bits of a group. -/
def lowestFactor (v : BitVec 4) : Fin 4 :=
  if v.getLsbD 0 then 0 else if v.getLsbD 1 then 1 else if v.getLsbD 2 then 2 else 3

/-- R203: the factor a NOTICE read takes: lowest level, then lowest group, then lowest factor. -/
def Notices.choose (n : Notices) : Option (Fin 9 × Fin 4) :=
  (allGroups.foldl n.better none).map (fun g => (g, lowestFactor (n.ready g)))

/-- R201: a factor of group 0 raised. -/
def raiseFixture (f : FixtureFactor) (s : State) : State :=
  { s with notices := s.notices.raise 0 (fixtureFactorIx f) }

/-- R201: a factor of a bay's group raised. -/
def raiseBay (b : Bay) (f : BayFactor) (s : State) : State :=
  { s with notices := s.notices.raise (bayGroup b) (bayFactorIx f) }

/-! ### The notice line on the link (R202) -/

/-- R190, R202: the link can carry a signal. While PERST# is held it carries none, even when the link is not down
otherwise (notes/assumptions/29.md). -/
def Link.up (l : Link) : Bool := !l.down && !l.perst

/-- R202: what the device sends when the line goes from one level to another, in each form. -/
def lineSignals (form : LinkForm) (before after : Bool) : List LinkSignal :=
  match form, before, after with
  | .message, false, true => [.message]
  | .level, false, true => [.assertLine]
  | .level, true, false => [.deassertLine]
  | _, _, _ => []

/-- R202: the link after a change of the notice line, which is sent while the link is up. -/
def Link.signal (l : Link) (before after : Bool) : Link :=
  if l.up then { l with sent := l.sent ++ lineSignals l.form before after } else l

/-- R202: the change of the notice line over one command is sent. -/
def signalLine (old new : State) : State :=
  { new with link := new.link.signal old.notices.asserted new.notices.asserted }

/-! ### Codes (chapter 12) -/

/-- A flag as a number. -/
def bit (x : Bool) : Nat := if x then 1 else 0

/-- 12.3: device state. -/
def deviceCode : DeviceState → Nat
  | .idle => 0
  | .running => 1
  | .stopping => 2

/-- 12.3: last command outcome. -/
def outcomeCode : CmdOutcome → Nat
  | .none => 0
  | .pending => 1
  | .accepted => 2
  | .refused => 3

/-- 12.3: profile error. -/
def profileErrorCode : ProfileError → Nat
  | .none => 0
  | .badSignature => 1
  | .noBays => 2
  | .shiftRange => 3
  | .railWindow => 4

/-- 12.3: selected source. -/
def sourceCode : Source → Nat
  | .internal => 0
  | .bench => 1

/-- 12.8: cause of a SOURCE record. -/
def sourceCauseCode : SourceCause → Nat
  | .select => 1
  | .loss => 2

/-- 12.3: engine state. -/
def engineCode : EngineState → Nat
  | .idle => 0
  | .running => 1
  | .aborting => 2

/-- 12.3: engine phase. -/
def phaseCode : Phase → Nat
  | .none => 0
  | .loading => 1
  | .entry => 2
  | .step => 3

/-- 12.3: TAP knowledge. -/
def knowledgeCode : Knowledge → Nat
  | .unknown => 0
  | .reset => 1
  | .idle => 2

/-- 12.3, 12.8: rail window state. -/
def windowCode : RailWindow → Nat
  | .unknown => 0
  | .inside => 1
  | .low => 2
  | .high => 3

/-- 12.3: sequencer state. -/
def seqCode : SeqState → Nat
  | .disarmed => 0
  | .armed => 1
  | .fired => 2

/-- 12.3: the level field of a driven line. -/
def levelCode : Option Bool → Nat
  | none => 0
  | some false => 1
  | some true => 2

/-- 12.7: stream state. -/
def streamCode : StreamState → Nat
  | .off => 0
  | .running => 1
  | .postTrigger => 2
  | .draining => 3
  | .stopped => 4

/-- 12.7: stream mode. -/
def modeCode : StreamMode → Nat
  | .continuous => 1
  | .window => 2

/-- R22: the byte of the page state map. -/
def pageStateCode : PageState → Nat
  | .free => 0
  | .filling b => 0x10 + b.val
  | .retained b => 0x20 + b.val
  | .closed b => 0x30 + b.val

/-- 12.4: card state. -/
def slotCode : SlotState → Nat
  | .free => 0
  | .parked => 1
  | .requested => 2
  | .inService => 3
  | .done => 4

/-- 12.4: card status. -/
def statusCode : Status → Nat
  | .ok => 0
  | .cancelled => 1
  | .timeout => 2
  | .stopped => 3
  | .badCard => 4
  | .bayDisabled => 5
  | .dataRange => 6
  | .powerLost => 7
  | .checkFailed => 8
  | .superseded => 9
  | .badProgram => 10
  | .streamBusy => 11
  | .notInterruptible => 12
  | .nothingToCancel => 13

/-- 12.4: detail reason. -/
def reasonCode : Reason → Nat
  | .bayRange => 1
  | .kind => 2
  | .gate => 3
  | .parameter => 4
  | .target => 5
  | .list => 6
  | .step => 7
  | .stepField => 8
  | .stepKind => 9
  | .entry => 10
  | .progSize => 16
  | .progKind => 17
  | .progStage => 18
  | .progCount => 19
  | .progOutcome => 20
  | .progParameter => 21
  | .progReach => 22
  | .progPattern => 23
  | .progPreset => 24
  | .progAction => 25

/-- 12.4: a detail field: the reason in the low byte, the index in the high byte. -/
def detailOf (r : Reason) (index : Nat) : BitVec 16 := BitVec.ofNat 16 (reasonCode r + 256 * index)

/-- R110, R140: a status other than OK, CANCELLED or STOPPED is failing. -/
def failing : Status → Bool
  | .ok => false
  | .cancelled => false
  | .stopped => false
  | _ => true

/-! ### Registers that a read does not change (10.2, 12.9) -/

/-- R189, 12.9: IDENT. -/
def identRegister : Word := 0x4B800001#32

/-- 12.9: STATUS. -/
def statusRegister (s : State) : Word :=
  BitVec.ofNat 32 (deviceCode s.ctl.device + 4 * outcomeCode s.ctl.outcome
    + 16 * profileErrorCode s.ctl.profileError + 128 * sourceCode s.time.source
    + 256 * s.time.milestone + 2048 * bit s.notices.asserted + 65536 * s.ctl.errorIndex)

/-- R134, 12.9: BAYHOLD as read. -/
def bayholdRegister (s : State) : Word := s.disp.hold.setWidth 32

/-- R189: what a read of a register without an effect of its own returns: IDENT, STATUS and BAYHOLD their values,
the write-only registers and every offset at or above 0x24 zero. NOTICE, TIME_HIGH and TIME_LOW are commands. -/
def plainRead (offset : Nat) (s : State) : Word :=
  if offset = 0x00 then identRegister
  else if offset = 0x04 then statusRegister s
  else if offset = 0x14 then bayholdRegister s
  else 0#32

end Sys2Proof.Machine
end

