-- ==== Sys2Proof/Machine/Publish.lean ====
section
/-! DEFINITION. What the device shows of itself in card memory: the fields of the device mirror and of the bay
status entries (12.3) and of the stream table (12.7), and their writing, each when its value changes (R17, R47, R68,
R92, R124, R153, R174, R180, R199, R201), or from its value at START (R194), at a conversion's end (R78) and at a SYNC
capture (R12). -/

namespace Sys2Proof.Machine

/-- A field of a structure in card memory: its address and its bytes. -/
abbrev Field := Nat × List Byte

/-- A little-endian field of `n` bytes (R206). -/
def fld (a n v : Nat) : Field := (a, leBytes n v)

/-- Fields that follow one another from an address, given by their bytes. -/
def fieldsFrom : Nat → List (List Byte) → List Field
  | _, [] => []
  | a, bytes :: rest => (a, bytes) :: fieldsFrom (a + bytes.length) rest

/-- R187: the accesses by which the device writes a field: a field of 1, 2, 4 or 8 bytes on a boundary of its own size
in one, any other byte by byte. -/
def accesses (f : Field) : List Field :=
  if [1, 2, 4, 8].contains f.2.length && f.1 % f.2.length = 0 then [f] else fieldsFrom f.1 (f.2.map (fun v => [v]))

/-- R206: a time field, 0 when there is no time. -/
def timeVal : Option Tick → Nat
  | none => 0
  | some t => t.toNat

/-- Where the device mirror stands. -/
def mirrorAddr : Nat := 0x001000

/-- Where the status entry of a bay stands. -/
def bayAddr (b : Bay) : Nat := 0x001800 + 256 * b.val

/-- Where the stream table entry of a bay stands. -/
def streamAddr (b : Bay) : Nat := 0x004000 + 64 * b.val

/-- R153: the number of slots in a state. -/
def State.countSlots (s : State) (st : SlotState) : Nat := s.slots.toList.countP (fun r => r.state = st)

/-- 12.3: the fields of an engine in the device mirror (R174). -/
def engineFields (s : State) (e : EngineId) : List Field :=
  let g := s.eng[e.val]
  let a := mirrorAddr + 0x30 + 8 * e.val
  [ fld a 1 (engineCode g.state),
    fld (a + 1) 1 (bit g.attached.isSome + 2 * bit g.index.isSome),
    fld (a + 2) 1 ((g.attached.map (fun x => x.1.val)).getD 0),
    fld (a + 3) 1 ((g.attached.map (fun x => x.2.val)).getD 0),
    fld (a + 4) 1 (phaseCode g.phase),
    fld (a + 5) 1 (g.index.getD 0) ]

/-- 12.3, R201: the pending set, the nine bytes of the groups as one field: the set is written whole at each change of
a flag. -/
def pendingField (s : State) : Field :=
  (mirrorAddr + 0x24, allGroups.map (fun g => BitVec.ofNat 8 s.notices.pend[g.val].toNat))

/-- 12.3, R24: the free page count. -/
def freeField (s : State) : Field := fld (mirrorAddr + 0x1C) 2 s.pool.freeList.length

/-- 12.3, R12: the fields of the SYNC capture in the device mirror. -/
def syncFields (s : State) : List Field :=
  [ fld (mirrorAddr + 0x10) 8 s.time.lastSync.toNat, fld (mirrorAddr + 0x18) 4 s.time.syncCount.toNat ]

/-- 12.3, R192: the fields of the device mirror that a refused START writes. -/
def refusalFields (s : State) : List Field :=
  [ fld (mirrorAddr + 0x01) 1 (outcomeCode s.ctl.outcome),
    fld (mirrorAddr + 0x02) 1 (profileErrorCode s.ctl.profileError),
    fld (mirrorAddr + 0x03) 1 s.ctl.errorIndex ]

/-- 12.3, R199: the fields of the device mirror. -/
def mirrorFields (s : State) : List Field :=
  [ fld mirrorAddr 1 (deviceCode s.ctl.device) ] ++ refusalFields s ++
  [ fld (mirrorAddr + 0x04) 4 s.ctl.runNumber.toNat,
    fld (mirrorAddr + 0x08) 1 s.ctl.enabled.toNat,
    fld (mirrorAddr + 0x09) 1 (sourceCode s.time.source),
    fld (mirrorAddr + 0x0A) 1 s.time.milestone,
    fld (mirrorAddr + 0x0C) 2 s.ctl.clampCount,
    fld (mirrorAddr + 0x0E) 2 s.ctl.firstClamp ]
  ++ syncFields s ++
  [ freeField s,
    fld (mirrorAddr + 0x20) 1 (s.countSlots .parked),
    fld (mirrorAddr + 0x21) 1 (s.countSlots .requested),
    fld (mirrorAddr + 0x22) 1 (s.countSlots .inService) ]
  ++ [pendingField s] ++ engineFields s 0 ++ engineFields s 1

/-- 12.3: the qualified levels byte of a bay. -/
def qualByte (m : Monitor) : Nat :=
  bit m.lines[0].qual + 2 * bit m.lines[1].qual + 4 * bit m.lines[2].qual
    + 8 * bit m.lines[3].qual + 16 * bit m.lines[4].qual + 32 * bit m.lines[5].qual

/-- 12.3: the validity byte of a bay status entry. -/
def validByte (s : State) (b : Bay) : Nat :=
  bit s.mon[b.val].settleBase.isSome + 2 * bit s.code[b.val].lastCode.isSome
    + 4 * bit s.code[b.val].stallRef.isSome + 8 * bit s.seq[b.val].stage.isSome
    + 16 * bit s.seq[b.val].stageEntry.isSome + 32 * bit s.seq[b.val].lastFire.isSome

/-- 12.3: the fields of one rail in a bay status entry (R78). -/
def railFields (s : State) (b : Bay) (r : RailId) : List Field :=
  let v := s.rail[b.val][r.val]
  let a := bayAddr b + 0x28 + 16 * r.val
  [ fld a 2 v.value,
    fld (a + 2) 1 (windowCode v.window),
    fld (a + 3) 1 (bit v.lastConv.isSome),
    fld (a + 8) 8 (timeVal v.lastConv) ]

/-- 12.3: the byte of a driven line in a bay status entry (R180). -/
def driverByte (l : DrvLine) : Nat :=
  levelCode l.level + 4 * bit l.running.isSome + 8 * bit l.buffered.isSome + 16 * bit l.force.isSome

/-- 12.3: the fields of a bay status entry. -/
def bayFields (s : State) (b : Bay) : List Field :=
  let m := s.mon[b.val]
  let c := s.code[b.val]
  let n := s.con[b.val]
  let q := s.seq[b.val]
  let d := s.drv[b.val]
  let a := bayAddr b
  [ fld a 1 (qualByte m),
    fld (a + 0x01) 1 m.milestone,
    fld (a + 0x02) 1 (validByte s b),
    fld (a + 0x03) 1 (knowledgeCode s.port[b.val].knowledge),
    fld (a + 0x04) 4 c.errors.toNat,
    fld (a + 0x08) 8 (timeVal m.settleBase),
    fld (a + 0x10) 8 c.lastCodeTime.toNat,
    fld (a + 0x18) 2 ((c.lastCode.map BitVec.toNat).getD 0),
    fld (a + 0x20) 8 (timeVal c.stallRef) ]
  ++ railFields s b 0 ++ railFields s b 1 ++ railFields s b 2 ++
  [ fld (a + 0x58) 4 n.received.toNat,
    fld (a + 0x5C) 4 n.framing.toNat,
    fld (a + 0x60) 4 n.breaks.toNat,
    fld (a + 0x64) 1 (seqCode q.state),
    fld (a + 0x65) 1 (q.stage.getD 0),
    fld (a + 0x66) 1 ((q.lastFire.map Fire.stage).getD 0),
    fld (a + 0x67) 1 ((q.lastFire.map Fire.entry).getD 0),
    fld (a + 0x68) 1 (q.counters.getD 0 0),
    fld (a + 0x69) 1 (q.counters.getD 1 0),
    fld (a + 0x6A) 1 (q.counters.getD 2 0),
    fld (a + 0x6B) 1 (q.counters.getD 3 0),
    fld (a + 0x6C) 1 (q.counters.getD 4 0),
    fld (a + 0x6D) 1 (q.counters.getD 5 0),
    fld (a + 0x6E) 1 (q.counters.getD 6 0),
    fld (a + 0x6F) 1 (q.counters.getD 7 0),
    fld (a + 0x70) 4 q.fireCount.toNat,
    fld (a + 0x78) 8 (timeVal q.stageEntry),
    fld (a + 0x80) 8 (timeVal (q.lastFire.map Fire.time)),
    fld (a + 0x88) 1 (driverByte d.lines[0]),
    fld (a + 0x89) 1 (driverByte d.lines[1]),
    fld (a + 0x8A) 1 (driverByte d.lines[2]),
    fld (a + 0x8B) 1 (driverByte d.lines[3]) ]

/-- 12.7: the fields of a stream table entry (R47). -/
def streamFields (s : State) (b : Bay) : List Field :=
  let t := s.str[b.val]
  let a := streamAddr b
  [ fld a 1 (streamCode t.state),
    fld (a + 0x01) 1 (modeCode t.mode),
    fld (a + 0x02) 1 t.w,
    fld (a + 0x03) 1 t.retained.length,
    fld (a + 0x04) 2 t.pRemaining,
    fld (a + 0x06) 2 ((t.filling.map (fun u => u.page.val)).getD 0xFFFF),
    fld (a + 0x08) 4 t.lostTotal,
    fld (a + 0x0C) 4 t.written.toNat,
    fld (a + 0x10) 4 t.closed.toNat,
    fld (a + 0x14) 4 t.sequence.toNat ]

/-- Every field the device publishes, in ascending order of address. -/
def publishedFields (s : State) : List Field :=
  mirrorFields s ++ allBays.flatMap (bayFields s) ++ allBays.flatMap (streamFields s)

/-- A field written in card memory. -/
def Memory.writeField (m : Memory) (f : Field) : Memory := m.writeBytes f.1 f.2

/-- The fields of a new list that differ from those of an old list of the same fields. -/
def diffFields (old new : List Field) : List Field :=
  (new.zip old).filterMap (fun p => if p.1 = p.2 then none else some p.1)

/-- The published fields of a new state whose value differs from the one an old state shows. -/
def changedFields (old new : State) : List Field :=
  diffFields (mirrorFields old) (mirrorFields new)
    ++ allBays.flatMap (fun b => diffFields (bayFields old b) (bayFields new b))
    ++ allBays.flatMap (fun b => diffFields (streamFields old b) (streamFields new b))

/-- Each published field is written when its value changes. A command outcome equal to the one held is no change
(R191, R199, notes/assumptions/46.md). -/
def publish (old new : State) : State :=
  { new with mem := (changedFields old new).foldl Memory.writeField new.mem }

/-- Fields written in card memory from their values, whether or not they have changed. -/
def rewrite (fs : List Field) (s : State) : State := { s with mem := fs.foldl Memory.writeField s.mem }

/-- R194: every published field written from its value. -/
def publishAll (s : State) : State := rewrite (publishedFields s) s

/-- The outcome of a command that took `old` to `new`: the published fields that changed are written, and the change
of the notice line is sent. -/
def commit (old new : State) : Host.Outcome State Fault Refusal :=
  .next (publish old (signalLine old new))

/-- The outcome of a reset: no card memory is written (R190), and the change of the notice line is sent. -/
def commitReset (old new : State) : Host.Outcome State Fault Refusal :=
  .next (signalLine old new)

end Sys2Proof.Machine
end

