-- ==== Sys2Proof/Machine/Trace.lean ====
section
/-! DEFINITION. The trace streams and the page pool (chapter 2): offering a record, pages, the writer's service of
one record, the stream's changes of state. -/

namespace Sys2Proof.Machine

/-! ### Offering records (R18, R19) -/

/-- R18: a stream accepts records in RUNNING and POST_TRIGGER. -/
def accepting (st : StreamState) : Bool := st = .running || st = .postTrigger

/-- R19: the most records a queue holds. -/
def queueCapacity : Nat := 32

/-- R19: one record lost: both counts rise, saturating. -/
def Stream.lose (t : Stream) : Stream :=
  { t with
    lostCount := saturate 0xFFFF (t.lostCount + 1)
    lostTotal := saturate 0xFFFFFFFF (t.lostTotal + 1) }

/-- R18, R19: a record taken at the tail of the queue, or lost at a full queue. -/
def Stream.take (r : Record) (t : Stream) : Stream :=
  if t.queue.length < queueCapacity then { t with queue := t.queue ++ [r] } else t.lose

/-- R18: a record offered to a stream. -/
def Stream.offer (r : Record) (t : Stream) : Stream :=
  if accepting t.state then t.take r else t

/-- R18: a record offered to the queue of a bay. -/
def offer (b : Bay) (body : RecordBody) (t : Tick) (s : State) : State :=
  s.modStr b (Stream.offer ⟨t, body⟩)

/-- R10, R12: a record offered to the queue of every bay. -/
def offerAll (body : RecordBody) (t : Tick) (s : State) : State :=
  forEach allBays (fun b => offer b body t) s

/-- R86, R89: an open receive batch closes and is offered as a CONSOLE record. -/
def closeBatch (b : Bay) (brk : Bool) (s : State) : State :=
  match s.con[b.val].batch with
  | none => s
  | some p => (offer b (.console p.bytes brk) p.time s).modCon b (fun c => { c with batch := none })

/-- R45, R88: the stream becomes DRAINING; the CONSOLE record of an open batch is the last it accepts. Post-trigger
counting is abandoned (R30). -/
def toDraining (b : Bay) (s : State) : State :=
  (closeBatch b false s).modStr b (fun t =>
    { t with state := .draining, drainPost := t.state = .postTrigger, markAhead := none, counting := false })

/-! ### Encoding (12.8) -/

/-- 12.8: the code of a record kind. -/
def kindCode : RecordBody → Nat
  | .time _ => 1
  | .loss _ => 2
  | .code _ => 3
  | .codeErr _ _ => 4
  | .line _ _ => 5
  | .glitch _ _ _ => 6
  | .settle _ => 7
  | .rail _ _ _ => 8
  | .console _ _ => 9
  | .jobStart _ _ _ => 10
  | .jobEnd _ _ _ => 10
  | .drive _ _ _ _ => 11
  | .mark _ _ _ _ => 12
  | .source _ _ _ => 13
  | .sync _ => 14

/-- 12.8: the cause of a CODE_ERR record. -/
def codeErrCode : CodeErrCause → Nat
  | .parity => 1
  | .short => 2
  | .stalled => 3

/-- 12.8: the cause of a DRIVE record. -/
def driveCauseCode : DriveCause → Nat
  | .job => 1
  | .trigger => 2
  | .stop => 3

/-- 12.8: the error mask of a CONSOLE record, bit i for byte i. -/
def errorMask : List (Byte × Bool) → Nat
  | [] => 0
  | (_, err) :: rest => bit err + 2 * errorMask rest

/-- 12.8: the items of a record's payload, from byte 5 of its slot. -/
def payloadItems : RecordBody → List (List Byte)
  | .time t => [leBytes 6 t.toNat]
  | .loss n => [leBytes 2 n]
  | .code c => [leBytes 2 c.toNat]
  | .codeErr cause detail => [leBytes 1 (codeErrCode cause), leBytes 2 detail]
  | .line l level => [leBytes 1 l.val, leBytes 1 (bit level)]
  | .glitch l level width => [leBytes 1 l.val, leBytes 1 (bit level), leBytes 3 width]
  | .settle m => [leBytes 1 m]
  | .rail r st v => [leBytes 1 r.val, leBytes 1 (windowCode st), leBytes 2 v]
  | .console bytes _ => leBytes 1 bytes.length :: leBytes 1 (errorMask bytes) :: bytes.map (fun x => [x.1])
  | .jobStart i kind tag => [leBytes 1 1, leBytes 1 i.val, leBytes 1 kind, leBytes 4 tag.toNat]
  | .jobEnd i st tag => [leBytes 1 2, leBytes 1 i.val, leBytes 1 (statusCode st), leBytes 4 tag.toNat]
  | .drive l level cause i =>
    [leBytes 1 l.val, leBytes 1 (bit level), leBytes 1 (driveCauseCode cause),
      leBytes 1 ((i.map (fun x => x.val)).getD 0xFF)]
  | .mark stage entry actions _ => [leBytes 1 stage, leBytes 1 entry, [actions]]
  | .source src cause m => [leBytes 1 (sourceCode src), leBytes 1 (sourceCauseCode cause), leBytes 1 m]
  | .sync n => [leBytes 4 n.toNat]

/-- 12.8: the payload of a record. -/
def payload (body : RecordBody) : List Byte := (payloadItems body).flatten

/-- 12.8: the flags a record's source sets: RELEASE_MISSED and BREAK. -/
def sourceFlags : RecordBody → Nat
  | .mark _ _ _ missed => 2 * bit missed
  | .console _ brk => 4 * bit brk
  | _ => 0

/-- 12.8, R206: the items of a record slot, unused payload bytes 0. -/
def recordItems (body : RecordBody) (late : Bool) (delta : Nat) : List (List Byte) :=
  [leBytes 1 (kindCode body), leBytes 1 (bit late + sourceFlags body), leBytes 3 delta]
    ++ payloadItems body ++ List.replicate (11 - (payload body).length) [0#8]

/-- 12.8: the 16 bytes of a record slot. -/
def encodeRecord (body : RecordBody) (late : Bool) (delta : Nat) : List Byte := (recordItems body late delta).flatten

/-- A MARK record. -/
def RecordBody.isMark : RecordBody → Bool
  | .mark _ _ _ _ => true
  | _ => false

/-- 12.8, R206: the items of a page header, its reserved bytes 0. -/
def headerItems (b : Bay) (k : Nat) (u : PageUse) (recycled : Bool) (lost : Nat) : List (List Byte) :=
  [leBytes 2 u.page.val, leBytes 1 b.val, leBytes 1 k, leBytes 4 u.seq.toNat, leBytes 8 u.base.toNat, leBytes 2 u.count,
    leBytes 2 (bit u.mark + 2 * bit recycled), leBytes 4 lost] ++ List.replicate 8 [0#8]

/-- 12.8: the 32 bytes of a page header. -/
def headerBytes (b : Bay) (k : Nat) (u : PageUse) (recycled : Bool) (lost : Nat) : List Byte :=
  (headerItems b k u recycled lost).flatten

/-! ### Pages (R22 to R27) -/

/-- R22: a page's state changed, with its byte of the page state map. -/
def setPage (p : Page) (st : PageState) (s : State) : State :=
  { s with
    pool := { s.pool with map := upd s.pool.map p (fun _ => st) }
    mem := s.mem.writeBytes (mapAddr p) (leBytes 1 (pageStateCode st)) }

/-- R27: a page header written. -/
def writeHeader (b : Bay) (u : PageUse) (recycled : Bool) (lost : Nat) (s : State) : State :=
  s.store (pageAddr u.page) (headerBytes b s.str[b.val].k u recycled lost)

/-- R22, R27, R42, R187: a page delivered. Its header is written, RECYCLED_BEFORE taken from the stream's recycled flag,
it becomes CLOSED, the pages closed count rises and PAGES is raised. -/
def deliver (b : Bay) (u : PageUse) (s : State) : State :=
  let t := s.str[b.val]
  raiseBay b .pages
    ((setPage u.page (.closed b) (writeHeader b u t.recycled t.lostTotal s)).modStr b
      (fun t => { t with closed := t.closed + 1#32, recycled := false }))

/-- R40: a page of a WINDOW stream becomes RETAINED at the tail of the retained list. -/
def retain (b : Bay) (u : PageUse) (s : State) : State :=
  (writeHeader b u false 0 (setPage u.page (.retained b) s)).modStr b
    (fun t => { t with retained := t.retained ++ [u] })

/-- R40, R41, R45: the stream works by the WINDOW rules: a RUNNING WINDOW stream, or one that drains from
RUNNING. -/
def Stream.windowed (t : Stream) : Bool :=
  t.mode = .window && (t.state = .running || (t.state = .draining && !t.drainPost))

/-- R39, R40, R44: the filling page ends under the stream's mode rule, and the stream has no filling page. -/
def endPage (b : Bay) (s : State) : State :=
  match s.str[b.val].filling with
  | none => s
  | some u =>
    (if s.str[b.val].windowed then retain b u s else deliver b u s).modStr b (fun t => { t with filling := none })

/-- R27: a page opened for a stream, with the next sequence number and the base time. -/
def openPage (b : Bay) (p : Page) (base : Tick) (s : State) : State :=
  let u : PageUse := ⟨p, s.str[b.val].sequence + 1#32, base, 0, false⟩
  writeHeader b u false 0
    ((setPage p (.filling b) s).modStr b (fun t => { t with sequence := u.seq, filling := some u }))

/-- R24, R25: the head of the free list taken; POOL_LOW when the free count goes from T to T − 1. -/
def allocate (b : Bay) (p : Page) (rest : List Page) (base : Tick) (s : State) : State :=
  let s1 := { s with pool := { s.pool with freeList := rest } }
  openPage b p base (if s.pool.freeList.length = s.pool.lowThreshold then raiseFixture .poolLow s1 else s1)

/-- R41: the oldest retained page recycled. -/
def recycle (b : Bay) (u : PageUse) (rest : List PageUse) (base : Tick) (s : State) : State :=
  openPage b u.page base (s.modStr b (fun t => { t with retained := rest, recycled := true }))

/-- R39, R41, R44: a stream obtains a page under its mode rule, or none. -/
def obtainPage (b : Bay) (base : Tick) (s : State) : Option State :=
  let t := s.str[b.val]
  if t.windowed then
    match s.pool.freeList, t.retained with
    | p :: rest, [] => some (allocate b p rest base s)
    | p :: rest, u :: older =>
      if t.retained.length + 1 ≤ t.w then some (allocate b p rest base s) else some (recycle b u older base s)
    | [], u :: older => some (recycle b u older base s)
    | [], [] => none
  else
    match s.pool.freeList with
    | p :: rest => some (allocate b p rest base s)
    | [] => none

/-! ### Time encoding (R34 to R36) -/

/-- R34: how a record's time is written: its delta, the LATE flag, its clamped time, and whether R36 applies. -/
structure Timing where
  delta : Nat
  late : Bool
  clamped : Tick
  gap : Bool
  deriving DecidableEq, Repr

/-- R34: a time in the stream's unit of 2^k ticks. -/
def quantise (k : Nat) (t : Tick) : Nat := t.toNat / 2 ^ k

/-- R34: Δ, the difference of two quantised times modulo 2^(48−k). -/
def quantDelta (k : Nat) (t last : Tick) : Nat :=
  (quantise k t + 2 ^ (48 - k) - quantise k last) % 2 ^ (48 - k)

/-- R36: the first delta that does not fit a slot. -/
def deltaLimit : Nat := 2 ^ 24

/-- R34: the timing of a record against the stream's t_last. -/
def Stream.timing (t : Stream) (time : Tick) : Timing :=
  match t.tLast with
  | none => ⟨0, false, time, false⟩
  | some last =>
    if t.lapsed then ⟨0, false, time, true⟩
    else if quantDelta t.k time last < 2 ^ (47 - t.k) then
      ⟨quantDelta t.k time last, false, time, deltaLimit ≤ quantDelta t.k time last⟩
    else ⟨0, true, last, false⟩

/-! ### The writer's service of one record (R33) -/

/-- R27: a page holds 254 records. -/
def pageCapacity : Nat := 254

/-- R33: one record slot written into the filling page. R34: a record has then been written since t_last. -/
def writeSlot (b : Bay) (body : RecordBody) (late : Bool) (delta : Nat) (s : State) : State :=
  match s.str[b.val].filling with
  | none => s
  | some u =>
    (s.store (recordAddr u.page u.count) (encodeRecord body late delta)).modStr b (fun t =>
      { t with
        filling := some { u with count := u.count + 1, mark := u.mark || body.isMark }
        written := t.written + 1#32
        wroteSince := true })

/-- The number of records in the filling page. -/
def Stream.fill (t : Stream) : Nat := (t.filling.map PageUse.count).getD 0

/-- R33: a page that holds 254 records ends. -/
def endIfFull (b : Bay) (s : State) : State :=
  if s.str[b.val].fill = pageCapacity then endPage b s else s

/-- R33 step 5: the record's slot, and t_last, which a late record leaves as it was (R34). -/
def dataSlot (b : Bay) (body : RecordBody) (late : Bool) (delta : Nat) (clamped : Tick) (s : State) : State :=
  (writeSlot b body late delta s).modStr b (fun t =>
    { t with tLast := some clamped, lapsed := false, wroteSince := late })

/-- R33 step 5: the record itself, and the end of a full page. -/
def writeData (b : Bay) (body : RecordBody) (late : Bool) (delta : Nat) (clamped : Tick) (s : State) : State :=
  endIfFull b (dataSlot b body late delta clamped s)

/-- R33 step 2, R37: the slot of a LOSS record. -/
def lossSlot (b : Bay) (s : State) : State :=
  (writeSlot b (.loss s.str[b.val].lostCount) false 0 s).modStr b (fun t => { t with lostCount := 0 })

/-- R33 step 2, R37: a LOSS record when the lost count is above 0. -/
def writeLoss (b : Bay) (s : State) : State :=
  if s.str[b.val].lostCount = 0 then s else endIfFull b (lossSlot b s)

/-- R33: one record placed. `tries` bounds the returns to step 1: a page that ends under step 2 or step 4 is followed
by a new page, in which neither step ends the page again. -/
def placeRecord : Nat → Bay → Record → State → State
  | 0, _, _, s => s
  | tries + 1, b, r, s =>
    let opened := s.str[b.val].filling.isNone
    match (if opened then obtainPage b (s.str[b.val].timing r.time).clamped s else some s) with
    | none => s.modStr b Stream.lose
    | some s1 =>
      let s2 := writeLoss b s1
      if s2.str[b.val].filling.isNone then placeRecord tries b r s2
      else
        let tm := s2.str[b.val].timing r.time
        if opened then writeData b r.body tm.late 0 tm.clamped s2
        else if tm.gap then
          if s2.str[b.val].fill + 2 ≤ pageCapacity then
            writeData b r.body false 0 r.time (writeSlot b (.time r.time) false 0 s2)
          else placeRecord tries b r (endPage b s2)
        else writeData b r.body tm.late tm.delta tm.clamped s2

/-- R43, R44: the accounting of a record taken from the queue: the MARK that begins the count, then the records
counted toward P. -/
def afterTake (b : Bay) (isMark : Bool) (s : State) : State :=
  let t := s.str[b.val]
  match t.markAhead with
  | some n =>
    if n ≤ 1 then
      let s1 := s.modStr b (fun t => { t with markAhead := none, counting := true })
      if t.pRemaining = 0 then toDraining b s1 else s1
    else s.modStr b (fun t => { t with markAhead := some (n - 1) })
  | none =>
    if t.counting && t.state = .postTrigger && !isMark then
      let s1 := s.modStr b (fun t => { t with pRemaining := t.pRemaining - 1 })
      if t.pRemaining ≤ 1 then toDraining b s1 else s1
    else s

/-- R20: the kinds of service. -/
inductive Service where
  | flush
  | drain
  | record
  deriving DecidableEq, Repr

/-- R20, R31, R46: the work of a bay: page work before queued records, and a FLUSH before the end of a drain
(notes/assumptions/43.md). -/
def Stream.service (t : Stream) : Option Service :=
  if t.flush.isSome then some .flush
  else if t.state = .draining && t.queue.isEmpty then some .drain
  else if t.queue.isEmpty then none
  else some .record

/-- R20: the bays in rotation after a bay, that bay last. -/
def rotationAfter (b : Bay) : List Bay := [b + 1, b + 2, b + 3, b + 4, b + 5, b + 6, b + 7, b]

/-- R20: the bay the writer serves next, with its service. -/
def State.nextService (s : State) : Option (Bay × Service) :=
  (rotationAfter s.pool.lastServed).findSome? (fun b => s.str[b.val].service.map (fun v => (b, v)))

/-- R20: the bay served becomes the last served bay. -/
def served (b : Bay) (s : State) : State := { s with pool := { s.pool with lastServed := b } }

/-- R20: the head record of a bay's queue is taken from it. -/
def takeHead (b : Bay) (rest : List Record) (s : State) : State :=
  served b (s.modStr b (fun t => { t with queue := rest }))

/-- R33: the service of the head record of a bay's queue. -/
def serveRecord (b : Bay) (s : State) : State :=
  match s.str[b.val].queue with
  | [] => s
  | r :: rest => afterTake b r.body.isMark (placeRecord 3 b r (takeHead b rest s))

/-- R31: the page work of a FLUSH is taken. -/
def takeFlush (b : Bay) (s : State) : State := (served b s).modStr b (fun t => { t with flush := none })

/-- R31: the service of a FLUSH: the named page is delivered if it is still the filling page, and the job ends OK. -/
def serveFlush (b : Bay) (s : State) : State :=
  match s.str[b.val].flush with
  | none => s
  | some w =>
    let s1 := takeFlush b s
    let s2 := match s.str[b.val].filling with
      | some u => if u.page = w.page then (deliver b u s1).modStr b (fun t => { t with filling := none }) else s1
      | none => s1
    report w.slot .ok 0#16 0#64 s2

/-- R43, R46: pages delivered in order. -/
def deliverAll (b : Bay) (us : List PageUse) (s : State) : State := forEach us (fun u => deliver b u) s

/-- R46 step 1: the end of a drain writes a LOSS record. -/
def Stream.drainsLoss (t : Stream) : Bool := t.fill < pageCapacity && t.filling.isSome && t.lostCount ≠ 0

/-- R46 step 1: the LOSS record of the end of a drain, if any. -/
def drainLoss (b : Bay) (s : State) : State :=
  if s.str[b.val].drainsLoss then writeSlot b (.loss s.str[b.val].lostCount) false 0 (served b s) else served b s

/-- R46: the service that ends a drain. -/
def serveDrain (b : Bay) (s : State) : State :=
  let s1 := drainLoss b s
  let s2 := deliverAll b (s1.str[b.val].retained ++ s1.str[b.val].filling.toList) s1
  let s3 := s2.modStr b (fun t =>
    { t with lostCount := 0, filling := none, retained := [], state := .stopped, closer := none })
  match s.str[b.val].closer with
  | none => s3
  | some i => report i .ok 0#16 0#64 s3

/-! ### Changes of stream state -/

/-- R43: a STOP_TRACE request with post-trigger count `p`. `taken` says that the MARK of the fire stands in the
queue, where it is the last record. -/
def stopTrace (b : Bay) (p : Nat) (taken : Bool) (s : State) : State :=
  let t := s.str[b.val]
  if t.state = .running then
    let s1 := s.modStr b (fun t =>
      { t with
        state := .postTrigger
        pRemaining := p
        markAhead := if taken then some t.queue.length else none
        counting := !taken })
    let s2 := if t.mode = .window then
        (deliverAll b t.retained s1).modStr b (fun t => { t with retained := [] }) else s1
    if !taken && p = 0 then toDraining b s2 else s2
  else s

/-- R29: TRACE OPEN. The card's W is taken in either mode (notes/assumptions/40.md). -/
def traceOpen (b : Bay) (i : Slot) (mode : StreamMode) (w : Nat) (s : State) : State :=
  let st := s.str[b.val].state
  if st = .off || st = .stopped then
    report i .ok 0#16 0#64 (s.modStr b (fun t =>
      { t with
        state := .running
        mode := mode
        w := if w = 0 then 1 else if w ≤ 32 then w else 32
        tLast := none
        lapsed := false
        wroteSince := false
        lostCount := 0
        retained := []
        recycled := false
        pRemaining := 0
        markAhead := none
        counting := false
        drainPost := false }))
  else report i .streamBusy 0#16 0#64 s

/-- R30: TRACE CLOSE. -/
def traceClose (b : Bay) (i : Slot) (s : State) : State :=
  let st := s.str[b.val].state
  if accepting st then (toDraining b s).modStr b (fun t => { t with closer := some i })
  else if st = .draining then s.modStr b (fun t => { t with closer := some i })
  else report i .ok 0#16 0#64 s

/-- R31: TRACE FLUSH. -/
def traceFlush (b : Bay) (i : Slot) (s : State) : State :=
  let t := s.str[b.val]
  match t.filling with
  | some u =>
    if t.mode = .continuous && t.state = .running then
      s.modStr b (fun t => { t with flush := some ⟨u.page, i⟩ })
    else report i .ok 0#16 0#64 s
  | none => report i .ok 0#16 0#64 s

/-- R32: Control's request at STOP that a stream close. -/
def stopStream (b : Bay) (s : State) : State :=
  let st := s.str[b.val].state
  if accepting st then toDraining b s
  else if st = .off then s.modStr b (fun t => { t with state := .stopped })
  else s

/-- R28: START's settings of a stream, with the bay's resolution shift. -/
def Stream.started (k : Nat) : Stream := { Stream.reset with k := k }

end Sys2Proof.Machine
end

