-- ==== Sys2Proof/Machine/Drivers.lean ====
section
/-! DEFINITION. The line drivers (chapter 9): programs on a line, LINES jobs' counts, aborts and the teardown. -/

namespace Sys2Proof.Machine

/-- The four driven lines in ascending order. -/
def allOutLines : List OutLine := [0, 1, 2, 3]

/-- R180: the cause and slot a change made by a program of an owner carries. -/
def ownerCause : Owner → DriveCause × Option Slot
  | .trigger => (.trigger, none)
  | .job i _ => (.job, some i)

/-- R175: the active level of a line is the opposite of its rest level. -/
def DrvLine.activeLevel (l : DrvLine) : Bool := !l.rest

/-- R180: a level change of a line at this instant, with its DRIVE record. -/
def setLevel (b : Bay) (d : OutLine) (level : Bool) (cause : DriveCause × Option Slot) (s : State) : State :=
  offer b (.drive d level cause.1 cause.2) s.now
    (s.modOutLine b d (fun l => { l with level := some level }))

/-- R180, R178: a line returns to its rest level at this instant. -/
def toRest (b : Bay) (d : OutLine) (cause : DriveCause × Option Slot) (s : State) : State :=
  (setLevel b d s.drv[b.val].lines[d.val].rest cause s).modOutLine b d (fun l => { l with justRested := true })

/-- R183, R184: a line not at its rest level returns to it. -/
def toRestIfActive (b : Bay) (d : OutLine) (cause : DriveCause × Option Slot) (s : State) : State :=
  if s.drv[b.val].lines[d.val].level = some s.drv[b.val].lines[d.val].rest then s else toRest b d cause s

/-- The owner of a program is this LINES job. -/
def LinesJob.owns (j : LinesJob) (o : Owner) : Bool := o = .job j.slot j.accept

/-- R182: an entry of the job in service has completed, if the program's owner is that job. -/
def countCompleted (b : Bay) (o : Owner) (s : State) : State :=
  s.modDrv b (fun v => { v with job := v.job.map (fun j =>
    if j.owns o then { j with completed := j.completed + 1 } else j) })

/-- R182: an entry of the job in service has been superseded, if the program's owner is that job. -/
def countSuperseded (b : Bay) (o : Owner) (s : State) : State :=
  s.modDrv b (fun v => { v with job := v.job.map (fun j =>
    if j.owns o then { j with superseded := j.superseded + 1 } else j) })

/-- R182, 12.4: the result field of a LINES job. -/
def LinesJob.result (j : LinesJob) : BitVec 64 := BitVec.ofNat 64 (j.completed + 256 * j.superseded)

/-- R182: the status of a LINES job that ends by itself. -/
def LinesJob.status (j : LinesJob) : Status := if j.superseded = 0 then .ok else .superseded

/-- R182: the LINES job in service ends when every entry is completed or superseded. -/
def endLinesIfDone (b : Bay) (s : State) : State :=
  match s.drv[b.val].job with
  | none => s
  | some j =>
    if j.total ≤ j.completed + j.superseded then
      report j.slot j.status 0#16 j.result (s.modDrv b (fun v => { v with job := none }))
    else s

/-- R178, R179: a program's delay is over. The line changes to its active level; a TIMED program begins its width, a
FORCE sets the force and ends. -/
def goActive (b : Bay) (d : OutLine) (prog : LineProg) (o : Owner) (s : State) : State :=
  let s1 := setLevel b d s.drv[b.val].lines[d.val].activeLevel (ownerCause o) s
  match prog with
  | .timed _ w =>
    s1.modOutLine b d (fun l =>
      { l with running := some ⟨prog, o, .active, s.now + BitVec.ofNat 48 (micros w)⟩ })
  | .force _ =>
    countCompleted b o (s1.modOutLine b d (fun l => { l with running := none, force := some o }))
  | .release => s1

/-- R176: the delay of a program in ticks. -/
def LineProg.delayTicks : LineProg → Nat
  | .timed d _ => micros d
  | .force d => micros d
  | .release => 0

/-- R178, R179: a program starts on a line. With a delay of 0 it goes active at once, or one tick later when the line
has returned to rest at this instant. -/
def startProgram (b : Bay) (d : OutLine) (prog : LineProg) (o : Owner) (s : State) : State :=
  if prog.delayTicks = 0 && !s.drv[b.val].lines[d.val].justRested then goActive b d prog o s
  else
    let wait := if prog.delayTicks = 0 then 1 else prog.delayTicks
    s.modOutLine b d (fun l => { l with running := some ⟨prog, o, .delay, s.now + BitVec.ofNat 48 wait⟩ })

/-- R178: the buffered program of a line, if any, starts. -/
def startBuffered (b : Bay) (d : OutLine) (s : State) : State :=
  match s.drv[b.val].lines[d.val].buffered with
  | none => s
  | some p => startProgram b d p.prog p.owner (s.modOutLine b d (fun l => { l with buffered := none }))

/-- R179: the force of a line released by a program of an owner. -/
def releaseForce (b : Bay) (d : OutLine) (cause : DriveCause × Option Slot) (s : State) : State :=
  toRest b d cause (s.modOutLine b d (fun l => { l with force := none }))

/-- R177: a program arrives at a line. While the device is STOPPING it is not taken (R184). -/
def arrive (b : Bay) (d : OutLine) (prog : LineProg) (o : Owner) (s : State) : State :=
  if s.ctl.device = .stopping then s
  else
    let l := s.drv[b.val].lines[d.val]
    match prog with
    | .release =>
      if l.force.isSome then startBuffered b d (countCompleted b o (releaseForce b d (ownerCause o) s))
      else countCompleted b o s
    | _ =>
      if l.running.isNone && l.force.isNone then startProgram b d prog o s
      else
        let s1 := s.modOutLine b d (fun l => { l with buffered := some ⟨prog, o⟩ })
        match l.buffered with
        | none => s1
        | some old => countSuperseded b old.owner s1

/-! ### Aborts (R183) -/

/-- The line's running program is owned by an owner. -/
def DrvLine.runs (l : DrvLine) (o : Owner) : Bool := l.running.any (fun r => r.owner = o)

/-- The line's buffered program is owned by an owner. -/
def DrvLine.buffers (l : DrvLine) (o : Owner) : Bool := l.buffered.any (fun p => p.owner = o)

/-- R183 step 1: a running program of the job on a line is cut. -/
def cutRunning (b : Bay) (i : Slot) (o : Owner) (d : OutLine) (s : State) : State :=
  if s.drv[b.val].lines[d.val].runs o then
    toRestIfActive b d (.job, some i) (s.modOutLine b d (fun l => { l with running := none }))
  else s

/-- R183 step 2: a buffered program of the job on a line is removed. -/
def dropBuffered (b : Bay) (o : Owner) (d : OutLine) (s : State) : State :=
  if s.drv[b.val].lines[d.val].buffers o then s.modOutLine b d (fun l => { l with buffered := none }) else s

/-- R183 step 3: a force set by the job on a line is released. -/
def dropForce (b : Bay) (i : Slot) (o : Owner) (d : OutLine) (s : State) : State :=
  if s.drv[b.val].lines[d.val].force = some o then releaseForce b d (.job, some i) s else s

/-- R183 step 4: on a line left with no running program and no force, the buffered program of another owner
starts. -/
def restartLine (b : Bay) (d : OutLine) (s : State) : State :=
  let l := s.drv[b.val].lines[d.val]
  if l.running.isNone && l.force.isNone then startBuffered b d s else s

/-- R183: an abort request for the LINES job of a slot, with its status. Within a step the lines are taken in ascending
order (notes/assumptions/41.md). -/
def linesAbort (b : Bay) (i : Slot) (st : Status) (s : State) : State :=
  match s.drv[b.val].job with
  | none => s
  | some j =>
    if j.slot = i then
      let o := Owner.job j.slot j.accept
      let s1 := forEach allOutLines (cutRunning b i o) s
      let s2 := forEach allOutLines (dropBuffered b o) s1
      let s3 := forEach allOutLines (dropForce b i o) s2
      let s4 := forEach allOutLines (restartLine b) s3
      report i st 0#16 j.result (s4.modDrv b (fun v => { v with job := none }))
    else s

/-! ### STOP (R184) -/

/-- R184: the teardown of one line. -/
def standDownLine (b : Bay) (d : OutLine) (s : State) : State :=
  toRestIfActive b d (.stop, none)
    (s.modOutLine b d (fun l => { l with running := none, buffered := none, force := none }))

/-- R184: the teardown of a bay's lines, in ascending order (notes/assumptions/41.md). -/
def standDown (b : Bay) (s : State) : State := forEach allOutLines (standDownLine b) s

/-! ### Ends of phases (R178, R179) -/

/-- R178, R179: a running program's delay ends. -/
def delayEnd (b : Bay) (d : OutLine) (s : State) : State :=
  match s.drv[b.val].lines[d.val].running with
  | some r =>
    if r.phase = .delay && r.phaseEnd = s.now then endLinesIfDone b (goActive b d r.prog r.owner s) else s
  | none => s

/-- R178: a TIMED program's width ends. -/
def widthEnd (b : Bay) (d : OutLine) (s : State) : State :=
  match s.drv[b.val].lines[d.val].running with
  | some r =>
    if r.phase = .active && r.phaseEnd = s.now then
      endLinesIfDone b
        (startBuffered b d
          (countCompleted b r.owner
            (toRest b d (ownerCause r.owner) (s.modOutLine b d (fun l => { l with running := none })))))
    else s
  | none => s

/-- R178, R179: a program's delay ends. -/
def execLineDelayEnd (b : Bay) (d : OutLine) (s : State) : Host.Outcome State Fault Refusal :=
  commit s (delayEnd b d s)

/-- R178: a TIMED program's width ends. -/
def execWidthEnd (b : Bay) (d : OutLine) (s : State) : Host.Outcome State Fault Refusal :=
  commit s (widthEnd b d s)

end Sys2Proof.Machine
end

