-- ==== Sys2Proof/Machine/Operands.lean ====
section
/-! DEFINITION. The structures the host writes and the device reads (chapter 12): job cards, the fixture profile,
step lists, line program entries and trigger program images, with their checks and clamps; and the fields of the
registers a command writes. -/

namespace Sys2Proof.Machine

/-! ### Register operands (12.9, R189) -/

/-- 12.9: the slot number of a POST. -/
def postSlot (v : Word) : Nat := v.toNat % 256

/-- 12.9: the PARK flag of a POST. -/
def postPark (v : Word) : Bool := v.getLsbD 8

/-- 12.9: the page number of a RELEASE. -/
def releasePage (v : Word) : Nat := v.toNat % 65536

/-- 12.9: the set mask of a BAYHOLD write. -/
def holdSetMask (v : Word) : BitVec 8 := v.setWidth 8

/-- 12.9: the clear mask of a BAYHOLD write. -/
def holdClearMask (v : Word) : BitVec 8 := (v >>> 8).setWidth 8

/-- R189: the bytes of a register value that a read of some byte lanes returns, lowest first. -/
def laneBytes (lanes : BitVec 4) (v : Word) : List Byte :=
  ([0, 1, 2, 3].filter (fun i => lanes.getLsbD i)).map (fun i => (v >>> (8 * i)).setWidth 8)

/-! ### Cards (12.4, R125) -/

/-- R125: the host-written fields of a card as card memory holds them. -/
def readCard (m : Memory) (i : Slot) : Card where
  kind := m.read (cardAddr i)
  bay := m.read (cardAddr i + 0x01)
  gate := m.read (cardAddr i + 0x02)
  limit := m.field (cardAddr i + 0x04) 2
  tag := BitVec.ofNat 32 (m.field (cardAddr i + 0x08) 4)
  offset := m.field (cardAddr i + 0x0C) 4
  length := m.field (cardAddr i + 0x10) 4
  params := m.readBytes (cardAddr i + 0x18) 24

/-- 12.4: the job kind of a kind code. -/
def jobKindOf (code : Byte) : Option JobKind :=
  match code.toNat with
  | 1 => some .scan
  | 2 => some .send
  | 3 => some .lines
  | 4 => some .arm
  | 5 => some .trace
  | 6 => some .cancel
  | _ => none

/-- A byte of the kind parameters. -/
def Card.param (c : Card) (i : Nat) : Nat := (c.params.getD i 0#8).toNat

/-- The kind of a card. -/
def Card.jobKind (c : Card) : Option JobKind := jobKindOf c.kind

/-- The bay of a card whose bay field passed intake check 1. -/
def Card.bayIx (c : Card) : Bay := ⟨c.bay.toNat % 8, Nat.mod_lt _ (by decide)⟩

/-- 7.3: the lane of a kind. A CANCEL has none. -/
def laneOf : JobKind → Option Lane
  | .scan => some .access
  | .send => some .access
  | .lines => some .drive
  | .arm => some .setup
  | .trace => some .setup
  | .cancel => none

/-- The lane of a card. -/
def Card.lane (c : Card) : Option Lane := c.jobKind.bind laneOf

/-- R93: the gap of a SEND in ticks, the field clamped to 1,000,000 µs. -/
def Card.sendGap (c : Card) : Nat := micros (min (leNat (c.params.take 4)) 1000000)

/-- R181: the DETACH flag of a LINES card. -/
def Card.detach (c : Card) : Bool := c.param 0 % 2 = 1

/-- R130, R159, R181: the kind-specific checks of intake step 4, for the card of a slot. -/
def paramCheck (i : Slot) (c : Card) : Option Reason :=
  match c.jobKind with
  | none => some .kind
  | some .send => if 1 ≤ c.length && c.length ≤ 65536 then none else some .parameter
  | some .scan => if c.length % 16 = 0 && 16 ≤ c.length && c.length ≤ 4096 then none else some .parameter
  | some .lines => if c.length % 8 = 0 && 8 ≤ c.length && c.length ≤ 64 then none else some .parameter
  | some .arm => if c.param 0 = 1 || c.param 0 = 2 then none else some .parameter
  | some .trace =>
    if c.param 0 = 1 then (if c.param 1 = 1 || c.param 1 = 2 then none else some .parameter)
    else if c.param 0 = 2 || c.param 0 = 3 then none
    else some .parameter
  | some .cancel =>
    if c.param 0 = 1 then
      (if c.param 1 = i.val then some .target else if c.param 1 < 64 then none else some .parameter)
    else if c.param 0 = 2 then none
    else some .parameter

/-- R129: the intake checks in order. A failure gives the status, the detail and whether the bay is out of range. -/
inductive Intake where
  | accepted
  | badBay
  | failed (status : Status) (detail : BitVec 16)
  deriving DecidableEq, Repr

/-- R129: the intake of a copied card, the enabled bays being given. -/
def intake (enabled : BitVec 8) (i : Slot) (c : Card) : Intake :=
  if 8 ≤ c.bay.toNat then .badBay
  else if c.jobKind = none then .failed .badCard (detailOf .kind 0)
  else if c.jobKind ≠ some .cancel && 8 < c.gate.toNat then .failed .badCard (detailOf .gate 0)
  else match paramCheck i c with
    | some r => .failed .badCard (detailOf r 0)
    | none => if enabled.getLsbD c.bay.toNat then .accepted else .failed .bayDisabled 0#16

/-! ### Line program entries (12.6) -/

/-- 12.6, R181: a line program entry: the line byte, and the program, or none when the form is neither PRESS nor
RELEASE_FORCE. -/
structure LineEntry where
  line : Nat
  prog : Option LineProg
  deriving DecidableEq, Repr

/-- 12.6: the line program entry at an address. -/
def readLineEntry (m : Memory) (a : Nat) : LineEntry :=
  let form := (m.read (a + 1)).toNat
  let delay := m.field (a + 2) 3
  let width := m.field (a + 5) 3
  ⟨(m.read a).toNat,
    if form = 1 then some (if width = 0 then .force delay else .timed delay width)
    else if form = 2 then some .release
    else none⟩

/-- R181: the entry names a line 0 to 3 and a listed form. -/
def LineEntry.valid (e : LineEntry) : Bool := e.line < 4 && e.prog.isSome

/-- The entries of a LINES job, in index order. -/
def readLineEntries (m : Memory) (offset count : Nat) : List LineEntry :=
  (List.range count).map (fun i => readLineEntry m (offset + 8 * i))

/-- R181 step 3: the index of the first entry that fails its check. -/
def firstBadLine : List LineEntry → Nat → Option Nat
  | [], _ => none
  | e :: rest, i => if e.valid then firstBadLine rest (i + 1) else some i

/-! ### Trigger program images (12.6, R120) -/

/-- R120: the longest time of a CODE_STALL or ELAPSED entry and of a preset, in µs. -/
def maxMicros : Nat := 16777215

/-- 12.6: the edge code of a LINE entry. -/
def edgeSelOf : Nat → Option EdgeSel
  | 1 => some .rise
  | 2 => some .fall
  | 3 => some .either
  | _ => none

/-- 12.6: the state code of a RAIL entry. -/
def railSelOf : Nat → Option RailSel
  | 1 => some .low
  | 2 => some .high
  | 3 => some .out
  | _ => none

/-- 12.6: the outcome code of an entry. -/
def entryOutcomeOf : Nat → Option EntryOutcome
  | 1 => some .next
  | 2 => some .fire
  | 3 => some .restart
  | _ => none

/-- R120 PARAMETER: the condition of an entry of a listed kind, or none when a parameter is out of range. -/
def conditionAt (m : Memory) (a kind patterns : Nat) : Option Condition :=
  let p4 := (m.read (a + 4)).toNat
  let p5 := (m.read (a + 5)).toNat
  let time := m.field (a + 4) 4
  match kind with
  | 1 => some (.code (BitVec.ofNat 16 (m.field (a + 4) 2)) (BitVec.ofNat 16 (m.field (a + 6) 2)))
  | 2 => if 1 ≤ time && time ≤ maxMicros then some (.codeStall time) else none
  | 3 => if p4 < 6 then (edgeSelOf p5).map (fun e => .line p4 e) else none
  | 4 => if p4 < 6 then some (.glitch p4) else none
  | 5 => if p4 < patterns then some (.consoleMatch p4) else none
  | 6 => if p4 < 3 then (railSelOf p5).map (fun r => .rail p4 r) else none
  | 7 => if 1 ≤ p4 && p4 ≤ 8 then some (.settle p4) else none
  | 8 => some .jobFail
  | 9 => if 1 ≤ time && time ≤ maxMicros then some (.elapsed time) else none
  | _ => none

/-- R120: one entry of an image, its checks in the order KIND, STAGE, COUNT, OUTCOME, PARAMETER. -/
def readEntry (m : Memory) (a patterns : Nat) : Except Reason Entry :=
  let stage := (m.read a).toNat
  let kind := (m.read (a + 1)).toNat
  let needed := (m.read (a + 2)).toNat
  if kind = 0 || 9 < kind then .error .progKind
  else if stage = 0 || 4 < stage then .error .progStage
  else if needed = 0 || (kind = 9 && needed ≠ 1) then .error .progCount
  else match entryOutcomeOf (m.read (a + 3)).toNat with
    | none => .error .progOutcome
    | some o => match conditionAt m a kind patterns with
      | none => .error .progParameter
      | some c => .ok ⟨stage, c, needed, o⟩

/-- R120: the entries of an image from index `i`, or the first failing check with the entry's index. -/
def readEntries (m : Memory) (image patterns : Nat) : Nat → Nat → Except (Reason × Nat) (List Entry)
  | 0, _ => .ok []
  | n + 1, i =>
    match readEntry m (image + 0x10 + 16 * i) patterns with
    | .error r => .error (r, i)
    | .ok e => match readEntries m image patterns n (i + 1) with
      | .error x => .error x
      | .ok es => .ok (e :: es)

/-- R120 REACH: the entries name a stage. -/
def namesStage (es : List Entry) (stage : Nat) : Bool := es.any (fun e => e.stage = stage)

/-- R120 REACH: the index of the first entry whose NEXT leads to a stage that no entry names. -/
def firstUnreached (all : List Entry) : List Entry → Nat → Option Nat
  | [], _ => none
  | e :: rest, i =>
    if e.outcome = .next && e.stage ≤ 3 && !namesStage all (e.stage + 1) then some i
    else firstUnreached all rest (i + 1)

/-- R120 PATTERN: the patterns of an image from index `p`, or the index of the first of bad length. -/
def readPatterns (m : Memory) (image : Nat) : Nat → Nat → Except (Reason × Nat) (List (List Byte))
  | 0, _ => .ok []
  | n + 1, p =>
    let a := image + 0x90 + 20 * p
    let len := (m.read a).toNat
    if len = 0 || 16 < len then .error (.progPattern, p)
    else match readPatterns m image n (p + 1) with
      | .error x => .error x
      | .ok ps => .ok (m.readBytes (a + 1) len :: ps)

/-- R120 PRESET: the presets of an image from index `j`, or the index of the first that is no line program. -/
def readPresets (m : Memory) (image : Nat) : Nat → Nat → Except (Reason × Nat) (List LineProg)
  | 0, _ => .ok []
  | n + 1, j =>
    match (readLineEntry m (image + 0xE0 + 8 * j)).prog with
    | none => .error (.progPreset, j)
    | some p => match readPresets m image n (j + 1) with
      | .error x => .error x
      | .ok ps => .ok (p :: ps)

/-- 12.6: bit positions of the action set. -/
def actNotice : Nat := 0
/-- 12.6: the HOLD bit. -/
def actHold : Nat := 1
/-- 12.6: the STOP_TRACE bit. -/
def actStopTrace : Nat := 2
/-- 12.6: the PULSE bit. -/
def actPulse : Nat := 3
/-- 12.6: the RELEASE bit. -/
def actRelease : Nat := 4

/-- R120 ACTION: the action set and the items it names are in range. -/
def actionsValid (actions : Byte) (preset line slot presets : Nat) : Bool :=
  actions.toNat < 32
    && (!actions.getLsbD actPulse || (preset < presets && line < 4))
    && (!actions.getLsbD actRelease || slot < 64)

/-- R120: the trigger program that the image at an offset holds, or the first failing check with its index. -/
def readProgram (m : Memory) (image : Nat) : Except (Reason × Nat) Program :=
  let nEntries := (m.read image).toNat
  let nPatterns := (m.read (image + 1)).toNat
  let nPresets := (m.read (image + 2)).toNat
  let actions := m.read (image + 3)
  let preset := (m.read (image + 4)).toNat
  let line := (m.read (image + 5)).toNat
  let slot := (m.read (image + 6)).toNat
  if nEntries = 0 || 8 < nEntries || 4 < nPatterns || 2 < nPresets then .error (.progSize, 0)
  else match readEntries m image nPatterns nEntries 0 with
    | .error x => .error x
    | .ok es =>
      if !namesStage es 1 then .error (.progReach, 0)
      else match firstUnreached es es 0 with
        | some i => .error (.progReach, i)
        | none => match readPatterns m image nPatterns 0 with
          | .error x => .error x
          | .ok ps => match readPresets m image nPresets 0 with
            | .error x => .error x
            | .ok pres =>
              if actionsValid actions preset line slot nPresets then
                .ok ⟨es, ps, pres, actions, preset, line, slot, m.field (image + 8) 2⟩
              else .error (.progAction, 0)

/-! ### Step lists (12.5, R161) -/

/-- 12.5: the kinds of step. -/
inductive StepKind where
  | resetTap
  | ir
  | dr
  | idle
  | delay
  | check
  | endList
  deriving DecidableEq, Repr

/-- 12.5: the step kind of a kind code. -/
def stepKindOf (code : Byte) : Option StepKind :=
  match code.toNat with
  | 1 => some .resetTap
  | 2 => some .ir
  | 3 => some .dr
  | 4 => some .idle
  | 5 => some .delay
  | 6 => some .check
  | 7 => some .endList
  | _ => none

/-- 12.5: the step entry at an address. -/
def readScanEntry (m : Memory) (a : Nat) : ScanEntry where
  kind := m.read a
  option := m.read (a + 1)
  n := m.field (a + 2) 3
  a := m.field (a + 5) 3
  b := m.field (a + 8) 3
  c := m.field (a + 11) 3

/-- R160: the entries of a step list, in index order. -/
def readScanEntries (m : Memory) (offset count : Nat) : List ScanEntry :=
  (List.range count).map (fun i => readScanEntry m (offset + 16 * i))

/-- The kind of a step. -/
def ScanEntry.stepKind (e : ScanEntry) : Option StepKind := stepKindOf e.kind

/-- R161: the bytes of a region of n bits. -/
def ScanEntry.bytes (e : ScanEntry) : Nat := (e.n + 7) / 8

/-- R164: an IR or DR step stores its captured bits. -/
def ScanEntry.stores (e : ScanEntry) : Bool := e.option = 1#8

/-- R166: a CHECK step stops the job at a mismatch. -/
def ScanEntry.stops (e : ScanEntry) : Bool := e.option = 1#8

/-- R161: the field checks of a step. -/
def ScanEntry.fieldsOk (e : ScanEntry) : StepKind → Bool
  | .resetTap => true
  | .ir => 1 ≤ e.n && e.n ≤ 4096 && e.option.toNat ≤ 1
  | .dr => 1 ≤ e.n && e.n ≤ 4096 && e.option.toNat ≤ 1
  | .idle => 1 ≤ e.n && e.n ≤ maxMicros
  | .delay => 1 ≤ e.n && e.n ≤ maxMicros
  | .check => 1 ≤ e.n && e.n ≤ 4096 && e.option.toNat ≤ 1
  | .endList => true

/-- R161: the regions of a step lie in the job data area. -/
def ScanEntry.regionsOk (e : ScanEntry) : StepKind → Bool
  | .ir => inJobArea e.a e.bytes && (!e.stores || inJobArea e.b e.bytes)
  | .dr => inJobArea e.a e.bytes && (!e.stores || inJobArea e.b e.bytes)
  | .check => inJobArea e.a e.bytes && inJobArea e.b e.bytes && inJobArea e.c e.bytes
  | _ => true

/-- R161: the check of one step: fields first, then regions. -/
def ScanEntry.checkStep (e : ScanEntry) : Option (Status × Reason) :=
  match e.stepKind with
  | none => some (.badCard, .stepKind)
  | some k =>
    if !e.fieldsOk k then some (.badCard, .stepField)
    else if !e.regionsOk k then some (.dataRange, .step)
    else none

/-- R160 step 3: the first failing check from index `i`, checking stopping after the first END. -/
def firstBadStep : List ScanEntry → Nat → Option (Status × Reason × Nat)
  | [], _ => none
  | e :: rest, i =>
    match e.checkStep with
    | some (st, r) => some (st, r, i)
    | none => if e.stepKind = some .endList then none else firstBadStep rest (i + 1)

/-- R164: bit `i` of a region, given as its bytes. -/
def regionBit (bytes : List Byte) (i : Nat) : Bool := (bytes.getD (i / 8) 0#8).getLsbD (i % 8)

/-- R166: the comparison of n bits mismatches. -/
def mismatch (result expected mask : List Byte) (n : Nat) : Bool :=
  (List.range n).any (fun i =>
    regionBit mask i && (regionBit result i != regionBit expected i))

/-! ### The fixture profile (12.2, R192, R193) -/

/-- A value brought to the nearer end of a range it lies outside. -/
def clampTo (lo hi v : Nat) : Nat := if v < lo then lo else if hi < v then hi else v

/-- 12.2: where the bay block of a bay stands. -/
def bayBlock (b : Nat) : Nat := 0x010 + 32 * b

/-- 12.2: where the rail block of an input stands. -/
def railBlock (i : Nat) : Nat := 0x110 + 8 * i

/-- R193: the largest hysteresis a rail keeps; 0 where the low limit is not below the high limit. -/
def maxHyst (low high : Nat) : Nat := if low < high then (high - low) / 2 else 0

/-- R193: the bay block of the profile, clamped. -/
def readBayProfile (m : Memory) (b : Nat) : BayProfile where
  k := (m.read (bayBlock b)).toNat
  level := clampTo 1 6 (m.read (bayBlock b + 1)).toNat
  enables := (m.read (bayBlock b + 2)).setWidth 4
  rest := Vector.ofFn (fun i : Fin 4 => m.read (bayBlock b + 4 + i.val) ≠ 0#8)
  qualMicros := Vector.ofFn (fun i : Fin 6 => clampTo 0 10000 (m.field (bayBlock b + 8 + 2 * i.val) 2))
  divisor := clampTo 16 65535 (m.field (bayBlock b + 20) 2)
  tck := clampTo 4 4096 (m.field (bayBlock b + 22) 2)

/-- R193: the rail block of the profile, clamped. -/
def readRailProfile (m : Memory) (i : Nat) : RailProfile :=
  let low := m.field (railBlock i + 2) 2
  let high := m.field (railBlock i + 4) 2
  { fullScale := clampTo 1000 20000 (m.field (railBlock i) 2)
    low := low
    high := high
    hyst := clampTo 0 (maxHyst low high) (m.field (railBlock i + 6) 2) }

/-- One field of R193's table: its offset, and whether the value read lies outside the range kept. -/
def outside (offset lo hi v : Nat) : Nat × Bool := (offset, v < lo || hi < v)

/-- R193: the clamped fields in the order of its table. -/
def clampTable (m : Memory) : List (Nat × Bool) :=
  ((List.range 8).flatMap (fun b => (List.range 6).map (fun i =>
      outside (bayBlock b + 8 + 2 * i) 0 10000 (m.field (bayBlock b + 8 + 2 * i) 2))))
  ++ (List.range 8).map (fun b => outside (bayBlock b + 20) 16 65535 (m.field (bayBlock b + 20) 2))
  ++ (List.range 8).map (fun b => outside (bayBlock b + 22) 4 4096 (m.field (bayBlock b + 22) 2))
  ++ (List.range 24).map (fun i => outside (railBlock i) 1000 20000 (m.field (railBlock i) 2))
  ++ (List.range 24).map (fun i => outside (railBlock i + 6) 0
      (maxHyst (m.field (railBlock i + 2) 2) (m.field (railBlock i + 4) 2)) (m.field (railBlock i + 6) 2))
  ++ (List.range 8).map (fun b => outside (bayBlock b + 1) 1 6 (m.read (bayBlock b + 1)).toNat)
  ++ [outside 0x008 0 2047 (m.field 0x008 2), outside 0x007 0 1 (m.read 0x007).toNat]
  ++ ((List.range 8).flatMap (fun b => (List.range 4).map (fun i =>
      outside (bayBlock b + 4 + i) 0 1 (m.read (bayBlock b + 4 + i)).toNat)))

/-- R193: the offsets of the clamped fields, in the order of its table. -/
def clampedOffsets (m : Memory) : List Nat :=
  (clampTable m).filterMap (fun p => if p.2 then some p.1 else none)

/-- R193: the offset of the first clamped field, 0xFFFF for none. Where the order of the table and the order of the
layout name different fields, the choice is free (Config.firstClampByOffset). -/
def firstClampOf (offsets : List Nat) : Nat :=
  match offsets with
  | [] => 0xFFFF
  | x :: rest =>
    let lowest := rest.foldl min x
    if lowest = x then x else if Config.firstClampByOffset then lowest else x

/-- R193: the clamped profile copy of the profile area. -/
def readProfile (m : Memory) : ProfileCopy where
  mask := m.read 0x006
  arbitration := if (m.read 0x007).toNat = 1 then .rotating else .fixed
  poolLow := clampTo 0 2047 (m.field 0x008 2)
  bays := Vector.ofFn (fun b : Fin 8 => readBayProfile m b.val)
  rails := Vector.ofFn (fun i : Fin 24 => readRailProfile m i.val)
  clampCount := (clampedOffsets m).length
  firstClamp := firstClampOf (clampedOffsets m)

/-- R192 check 1: the signature and the version. -/
def signatureOk (m : Memory) : Bool :=
  m.readBytes 0x000 4 = [0x4B#8, 0x42#8, 0x38#8, 0x50#8] && m.field 0x004 2 = 1

/-- R192 check 3: the first enabled bay whose resolution shift is above 15. -/
def firstBadShift (p : ProfileCopy) : Option Bay :=
  allBays.find? (fun b => p.mask.getLsbD b.val && 15 < p.bays[b.val].k)

/-- The 24 rail inputs in ascending order. -/
def allInputs : List (Fin 24) := List.finRange 24

/-- R192 check 4: the first rail input of an enabled bay whose low limit is not below its high limit. -/
def firstBadWindow (p : ProfileCopy) : Option (Fin 24) :=
  allInputs.find? (fun i => p.mask.getLsbD (i.val / 3) && p.rails[i.val].high ≤ p.rails[i.val].low)

/-- R192: the profile error of the profile area, with its index, or none. -/
def profileCheck (m : Memory) : Option (ProfileError × Nat) :=
  let p := readProfile m
  if !signatureOk m then some (.badSignature, 0)
  else if p.mask = 0#8 then some (.noBays, 0)
  else match firstBadShift p with
    | some b => some (.shiftRange, b.val)
    | none => match firstBadWindow p with
      | some i => some (.railWindow, i.val)
      | none => none

end Sys2Proof.Machine
end

