-- ==== Sys2Proof/Machine/Cards.lean ====
section
/-! DEFINITION. Cards, slots and queues (7.1, 7.3): the writing of a card's fields, joining and leaving a queue, the
steps of an end that hand nothing to a sequencer, and the answer to a trigger's RELEASE. -/

namespace Sys2Proof.Machine

/-! ### Card fields (12.4, R127) -/

/-- R127: the state field of a card. -/
def writeCardState (i : Slot) (st : SlotState) (s : State) : State :=
  s.store (cardAddr i + 0x40) (leBytes 1 (slotCode st))

/-- R127: a time field of a card. -/
def writeCardTime (i : Slot) (offset : Nat) (t : Nat) (s : State) : State :=
  s.store (cardAddr i + offset) (leBytes 8 t)

/-- R127 Acceptance: the accept time written, the other part-written fields 0, and then the state. -/
def writeAcceptance (i : Slot) (st : SlotState) (accept : Tick) (s : State) : State :=
  writeCardState i st
    (writeCardTime i 0x60 0 (writeCardTime i 0x58 0 (writeCardTime i 0x50 0
      (writeCardTime i 0x48 accept.toNat
        ((s.store (cardAddr i + 0x41) (leBytes 1 0)).store (cardAddr i + 0x42) (leBytes 2 0))))))

/-- R127 Start: the start time, and then IN_SERVICE. -/
def writeStart (i : Slot) (start : Tick) (s : State) : State :=
  writeCardState i .inService (writeCardTime i 0x50 start.toNat s)

/-- R127 End: the status, detail, end time and result, and then, last, DONE. -/
def writeEnd (i : Slot) (st : Status) (detail : BitVec 16) (finish : Tick) (result : BitVec 64) (s : State) : State :=
  writeCardState i .done
    (s.store (cardAddr i + 0x41) (leBytes 1 (statusCode st))
      |>.store (cardAddr i + 0x42) (leBytes 2 detail.toNat)
      |>.store (cardAddr i + 0x58) (leBytes 8 finish.toNat)
      |>.store (cardAddr i + 0x60) (leBytes 8 result.toNat))

/-! ### Queues (R133) -/

/-- R133: a slot leaves its queue, those behind it closing up. -/
def leaveQueue (b : Bay) (l : Lane) (i : Slot) (s : State) : State :=
  s.modLane b l (fun q => { q with queue := q.queue.filter (fun x => x ≠ i) })

/-- R133: a slot leaves the queue of its card's bay and lane. -/
def leaveOwnQueue (i : Slot) (s : State) : State :=
  match s.slots[i.val].card.lane with
  | none => s
  | some l => leaveQueue s.slots[i.val].card.bayIx l i s

/-- R143: the deadline of a card from a base time; a limit of 0 gives none. -/
def Card.deadline (c : Card) (base : Tick) : Option Deadline :=
  if c.limit = 0 then none else some ⟨base, millis c.limit⟩

/-- R131, R132: a slot becomes REQUESTED at the tail of the queue of its bay and lane, with its deadline from a base
time. -/
def requestSlot (i : Slot) (base : Tick) (s : State) : State :=
  let c := s.slots[i.val].card
  let s1 := s.modSlot i (fun r => { r with state := .requested, deadline := c.deadline base })
  match c.lane with
  | none => s1
  | some l => s1.modLane c.bayIx l (fun q => { q with queue := q.queue ++ [i] })

/-! ### Ends (R140, R141) -/

/-- R140 step 1, R127: a slot becomes DONE and its card is written. A slot that was not IN_SERVICE has its start time
equal to its end time. Its deadline and marks are dropped. -/
def closeCard (i : Slot) (st : Status) (detail : BitVec 16) (result : BitVec 64) (finish : Tick) (s : State) : State :=
  let served := s.slots[i.val].state = .inService
  let s1 := if served then s else writeCardTime i 0x50 finish.toNat s
  (writeEnd i st detail finish result s1).modSlot i (fun r =>
    { r with
      state := .done
      status := st
      detail := detail
      result := result
      finish := finish
      start := if served then r.start else finish
      mark := none
      stopMark := false
      deadline := none
      report := none })

/-- R140 step 3: the JOB END record of a slot. -/
def offerEnd (i : Slot) (s : State) : State :=
  let r := s.slots[i.val]
  offer r.card.bayIx (.jobEnd i r.status r.card.tag) r.finish s

/-- R141: a slot that has not been dispatched ends STOPPED at this instant. STOPPED hands no JOB_FAIL. -/
def endStopped (i : Slot) (s : State) : State :=
  raiseBay s.slots[i.val].card.bayIx .jobDone
    (offerEnd i (closeCard i .stopped 0#16 0#64 s.now (leaveOwnQueue i s)))

/-! ### The RELEASE action (R132) -/

/-- R114, R132: whether a release of a slot finds it PARKED. -/
def State.parked (s : State) (i : Slot) : Bool := s.slots[i.val].state = .parked

/-- R132: the answer to a release request for a slot, from its state at this instant. -/
def releaseSlot (i : Slot) (s : State) : State :=
  if s.parked i then
    if s.ctl.device = .stopping then endStopped i s
    else writeCardState i .requested (requestSlot i s.now s)
  else s

end Sys2Proof.Machine
end

