-- ==== Sys2Proof/Machine/Sequencer.lean ====
section
/-! DEFINITION. The Trigger Sequencer (chapter 6): condition events, their matching and evaluation, the fire, the
arming and disarming of a program, and the stall reference's offer (R67), which begins a stall period. -/

namespace Sys2Proof.Machine

/-- 6.3: the condition events handed to a sequencer, with what they carry. -/
inductive Event where
  | code (code : BitVec 16)
  | codeStall (budget : Nat)
  | line (line : InLine) (rise : Bool)
  | glitch (line : InLine)
  | consoleMatch (pattern : Nat)
  | rail (rail : RailId) (before after : RailWindow) (value : Nat)
  | settle (milestone : Nat)
  | jobFail (slot : Slot) (kind : Nat) (status : Status)
  | elapsed (time : Nat)
  deriving DecidableEq, Repr

/-- R106: an edge matches the edge an entry names. -/
def EdgeSel.matches : EdgeSel → Bool → Bool
  | .rise, r => r
  | .fall, r => !r
  | .either, _ => true

/-- R108: a window transition matches the state an entry names. -/
def RailSel.matches : RailSel → RailWindow → RailWindow → Bool
  | .low, _, after => after = .low
  | .high, _, after => after = .high
  | .out, before, after => (before = .unknown || before = .inside) && (after = .low || after = .high)

/-- R104 to R111: whether a condition event matches a condition. -/
def Condition.matches : Condition → Event → Bool
  | .code value mask, .code c => c &&& mask = value
  | .codeStall b, .codeStall b' => b = b'
  | .line l e, .line l' rise => l = l'.val && e.matches rise
  | .glitch l, .glitch l' => l = l'.val
  | .consoleMatch p, .consoleMatch p' => p = p'
  | .rail r st, .rail r' before after _ => r = r'.val && st.matches before after
  | .settle m, .settle m' => m = m'
  | .jobFail, .jobFail _ _ _ => true
  | .elapsed t, .elapsed t' => t = t'
  | _, _ => false

/-- R101: an event is compared with an entry of the current stage. -/
def Entry.counts (e : Entry) (stage : Nat) (ev : Event) : Bool := e.stage = stage && e.cond.matches ev

/-- R101: the counters after an event: one more for every matching entry of the current stage. -/
def countEvent (stage : Nat) (ev : Event) : List Entry → List Nat → List Nat
  | e :: es, c :: cs => (if e.counts stage ev then c + 1 else c) :: countEvent stage ev es cs
  | _, cs => cs

/-- R102, R103: the lowest-numbered entry that an event has completed, with its index. -/
def firstComplete (stage : Nat) (ev : Event) : List Entry → List Nat → Nat → Option (Nat × Entry)
  | e :: es, c :: cs, i =>
    if e.counts stage ev && e.needed ≤ c then some (i, e) else firstComplete stage ev es cs (i + 1)
  | _, _, _ => none

/-- R102: a stage entered at this instant, every counter 0. -/
def Sequencer.enter (stage : Nat) (now : Tick) (q : Sequencer) : Sequencer :=
  { q with
    stage := some stage
    counters := List.replicate q.counters.length 0
    stageEntry := some now }

/-! ### Firing (R112 to R118) -/

/-- The driven line of a number, when it is one of the four. -/
def outLineOf (n : Nat) : Option OutLine := if h : n < 4 then some ⟨n, h⟩ else none

/-- The slot of a number, when it is one of the 64. -/
def slotOf (n : Nat) : Option Slot := if h : n < 64 then some ⟨n, h⟩ else none

/-- R112 step 1: the sequencer becomes FIRED; stage and counters stay. -/
def seqFired (b : Bay) (stage entry : Nat) (s : State) : State :=
  s.modSeq b (fun q =>
    { q with
      state := .fired
      fireCount := q.fireCount + 1#32
      lastFire := some ⟨s.now, stage, entry⟩ })

/-- R113: the bay joins the hold set. -/
def holdBay (b : Bay) (s : State) : State := { s with disp := { s.disp with hold := setBit s.disp.hold b } }

/-- R112 step 2. -/
def fireHold (p : Program) (b : Bay) (s : State) : State :=
  if p.actions.getLsbD actHold then holdBay b s else s

/-- R112 step 3. -/
def fireRelease (p : Program) (s : State) : State :=
  if p.actions.getLsbD actRelease then
    match slotOf p.releaseSlot with
    | some i => releaseSlot i s
    | none => s
  else s

/-- R114: the release of a fire is missed. -/
def releaseMissed (p : Program) (s : State) : Bool :=
  p.actions.getLsbD actRelease && !(match slotOf p.releaseSlot with | some i => s.parked i | none => false)

/-- R112 step 5, R116, with whether the MARK was taken into the queue. -/
def fireStopTrace (p : Program) (b : Bay) (taken : Bool) (s : State) : State :=
  if p.actions.getLsbD actStopTrace then stopTrace b p.postCount taken s else s

/-- R112 step 6, R117, R185: the preset issued to its line with owner TRIGGER. A job program it supersedes is
reported to its job. -/
def firePulse (p : Program) (b : Bay) (s : State) : State :=
  if p.actions.getLsbD actPulse then
    match outLineOf p.pulseLine, p.presets[p.pulsePreset]? with
    | some d, some prog => endLinesIfDone b (arrive b d prog .trigger s)
    | _, _ => s
  else s

/-- R112 step 7, R118. -/
def fireNotice (p : Program) (b : Bay) (s : State) : State :=
  if p.actions.getLsbD actNotice then raiseBay b .trigger s else s

/-- R18: an offer at this instant would be taken into the queue. -/
def State.takes (s : State) (b : Bay) : Bool :=
  accepting s.str[b.val].state && s.str[b.val].queue.length < queueCapacity

/-- R112: a fire, whole, in its order of steps, for the stage and the completed entry. -/
def fire (b : Bay) (p : Program) (stage entry : Nat) (s : State) : State :=
  let s1 := fireHold p b (seqFired b stage entry s)
  let missed := releaseMissed p s1
  let s2 := fireRelease p s1
  let taken := s2.takes b
  let s3 := offer b (.mark stage entry p.actions missed) s2.now s2
  fireNotice p b (firePulse p b (fireStopTrace p b taken s3))

/-- R102: the outcome of a completed entry. -/
def takeOutcome (b : Bay) (p : Program) (stage index : Nat) (e : Entry) (s : State) : State :=
  match e.outcome with
  | .fire => fire b p stage index s
  | .restart => s.modSeq b (Sequencer.enter 1 s.now)
  | .next => if stage < 4 then s.modSeq b (Sequencer.enter (stage + 1) s.now) else fire b p stage index s

/-- R101 to R103: a condition event taken by a bay's sequencer. -/
def conditionEvent (b : Bay) (ev : Event) (s : State) : State :=
  let q := s.seq[b.val]
  if q.state = .armed then
    match q.program, q.stage with
    | some p, some stage =>
      let counters := countEvent stage ev p.entries q.counters
      let s1 := s.modSeq b (fun q => { q with counters := counters })
      match firstComplete stage ev p.entries counters 0 with
      | some (i, e) => takeOutcome b p stage i e s1
      | none => s1
    | _, _ => s
  else s

/-! ### The stall reference (R67) and the stall period (R105) -/

/-- R67: a time is earlier than the reference. -/
def earlier (t reference : Tick) : Bool := 2 ^ 47 ≤ elapsed reference t

/-- R67: the stall reference takes an offered time. -/
def CodeRx.takesStall (c : CodeRx) (t : Tick) : Bool :=
  match c.stallRef with
  | none => true
  | some r => c.stallLapsed || !earlier t r

/-- R105: a stall period with start `t` begins at this instant; a DISARMED sequencer begins none. -/
def beginStall (b : Bay) (t : Tick) (s : State) : State :=
  s.modSeq b (fun q =>
    if q.state = .disarmed then q
    else { q with stallStart := some t, stallBegin := some s.now, stallGiven := 0 })

/-- R67: the stall reference is offered a time. -/
def offerStall (b : Bay) (t : Tick) (s : State) : State :=
  if s.code[b.val].takesStall t then
    beginStall b t (s.modCode b (fun c => { c with stallRef := some t, stallLapsed := false }))
  else s

/-- R105: the budget of a CODE_STALL entry. -/
def Entry.stallBudget (e : Entry) : Option Nat :=
  match e.cond with
  | .codeStall b => some b
  | _ => none

/-- R111: the time of an ELAPSED entry of a stage. -/
def Entry.elapsedTime (stage : Nat) (e : Entry) : Option Nat :=
  match e.cond with
  | .elapsed t => if e.stage = stage then some t else none
  | _ => none

/-- The least number of a list. -/
def least : List Nat → Option Nat
  | [] => none
  | x :: rest => some (rest.foldl min x)

/-- R105: the event of a budget falls at this instant for a period with start `t`: the period reaches the budget now,
or the budget was already reached and the period begins now. -/
def State.stallFalls (s : State) (q : Sequencer) (t : Tick) (n : Nat) : Bool :=
  q.stallGiven < n && (s.passed t (micros n) || (q.stallBegin = some s.now && s.reached t (micros n)))

/-- R105: the next budget whose event falls due at this instant: the least budget of the program that the stall period
has not yet given. -/
def State.stallDue (s : State) (b : Bay) : Option Nat :=
  let q := s.seq[b.val]
  if q.state = .armed then
    match q.program, q.stallStart with
    | some p, some t => least ((p.entries.filterMap Entry.stallBudget).filter (s.stallFalls q t))
    | _, _ => none
  else none

/-- R111: the time of an ELAPSED entry of the current stage that the stage's age reaches at this instant. -/
def State.elapsedDue (s : State) (b : Bay) : Option Nat :=
  let q := s.seq[b.val]
  if q.state = .armed then
    match q.program, q.stage, q.stageEntry with
    | some p, some stage, some t =>
      least ((p.entries.filterMap (Entry.elapsedTime stage)).filter (fun n => s.passed t (micros n)))
    | _, _, _ => none
  else none

/-- R105: a CODE_STALL event of a budget. -/
def stallEvent (b : Bay) (n : Nat) (s : State) : State :=
  conditionEvent b (.codeStall n) (s.modSeq b (fun q => { q with stallGiven := n }))

/-! ### Arming and disarming (R121 to R123) -/

/-- R122: a sequencer disarmed: no program, no stage, no counters, no times; the fires are kept. -/
def Sequencer.disarm (q : Sequencer) : Sequencer :=
  { q with
    state := .disarmed
    program := none
    stage := none
    counters := []
    stageEntry := none
    stallStart := none
    stallBegin := none
    stallGiven := 0 }

/-- R121: a valid program takes effect: ARMED in stage 1, then the instant offered to the stall reference. -/
def armProgram (b : Bay) (p : Program) (s : State) : State :=
  offerStall b s.now (s.modSeq b (fun q =>
    { q with
      state := .armed
      program := some p
      stage := some 1
      counters := List.replicate p.entries.length 0
      stageEntry := some s.now }))

/-- R119: card memory as the read of an image sees it, each byte as it stood at its reading. -/
def State.imageRead (s : State) (r : ImageRead) : Memory := s.mem.asRead r.early

/-- R119 to R121, R123: the read of an image ends. In STOPPING nothing is validated or loaded and the job ends
STOPPED; else a valid image is armed and an invalid one ends the job BAD_PROGRAM. -/
def armReadEnd (b : Bay) (r : ImageRead) (s : State) : State :=
  let s0 := s.modSeq b (fun q => { q with reading := none })
  if s.slots[r.slot.val].stopMark then report r.slot .stopped 0#16 0#64 s0
  else match readProgram (s.imageRead r) s.slots[r.slot.val].card.offset with
    | .ok p => report r.slot .ok 0#16 0#64 (armProgram b p s0)
    | .error (d, x) => report r.slot .badProgram (detailOf d x) 0#64 s0

/-- R119, R122: an ARM job begins at its dispatch. -/
def armBegin (b : Bay) (i : Slot) (s : State) : State :=
  let c := s.slots[i.val].card
  if c.param 0 = 2 then report i .ok 0#16 0#64 (s.modSeq b Sequencer.disarm)
  else if inJobArea c.offset imageLength then s.modSeq b (fun q => { q with reading := some ⟨i, []⟩ })
  else report i .dataRange 0#16 0#64 s

/-! ### Ends with JOB_FAIL (R140, R141) -/

/-- R140 step 4: a failing status hands a JOB_FAIL event to the bay's sequencer. -/
def jobFail (i : Slot) (s : State) : State :=
  let r := s.slots[i.val]
  if failing r.status then conditionEvent r.card.bayIx (.jobFail i r.card.kind.toNat r.status) s else s

/-- R140 steps 3 to 5: the JOB END record, the JOB_FAIL event, the JOB_DONE factor. -/
def endSteps (i : Slot) (s : State) : State :=
  let b := s.slots[i.val].card.bayIx
  raiseBay b .jobDone (jobFail i (offerEnd i s))

/-- R141: a card that has not been dispatched ends at this instant. -/
def endUndispatched (i : Slot) (st : Status) (detail : BitVec 16) (result : BitVec 64) (s : State) : State :=
  endSteps i (closeCard i st detail result s.now (leaveOwnQueue i s))

/-! ### The sequencer's own commands -/

/-- R105: the CODE_STALL event of the next budget that falls due at this instant. One due as a code arrival begins its
period comes after the arrival's CODE event (notes/assumptions/45.md). -/
def execCodeStallEvent (b : Bay) (s : State) : Host.Outcome State Fault Refusal :=
  commit s (if s.active b then
      match s.stallDue b with
      | some n => stallEvent b n s
      | none => s
    else s)

/-- R111: the ELAPSED event of a time that the stage's age reaches at this instant. -/
def execElapsedEvent (b : Bay) (s : State) : Host.Outcome State Fault Refusal :=
  commit s (if s.active b then
      match s.elapsedDue b with
      | some n => conditionEvent b (.elapsed n) s
      | none => s
    else s)

/-- R119 to R121, R123: the read of a trigger program image ends. -/
def execArmReadEnd (b : Bay) (s : State) : Host.Outcome State Fault Refusal :=
  commit s (match s.seq[b.val].reading with
    | some r => armReadEnd b r s
    | none => s)

end Sys2Proof.Machine
end

