-- ==== Sys2Proof/Machine/Console.lean ====
section
/-! DEFINITION. The Console Ports (chapter 5): reception, batching, pattern matching, SEND jobs, and the level of
CON_TX. -/

namespace Sys2Proof.Machine

/-! ### Reception (R81 to R83) -/

/-- R81: the instant of sample `i` after the fall. -/
def sampleTicks (d i : Nat) : Nat := d / 2 + i * d

/-- R81: the receiver of a running port is at the instant of sample `i`. -/
def State.atSample (s : State) (b : Bay) (i : Nat) : Bool :=
  let c := s.con[b.val]
  s.active b && c.rx = .receiving && c.sample = i && s.passed c.fall (sampleTicks c.divisor i)

/-- R82: the stop sample time of the byte in reception. -/
def Console.stopTime (c : Console) : Tick := c.fall + BitVec.ofNat 48 (sampleTicks c.divisor 9)

/-- R81: a fall taken in IDLE begins a byte in reception. -/
def execConRxFall (b : Bay) (s : State) : Host.Outcome State Fault Refusal :=
  commit s (if s.active b && s.con[b.val].rx = .idle then
      s.modCon b (fun c => { c with rx := .receiving, fall := s.now, sample := 0, data := 0#8 })
    else s)

/-- R81: a data bit, least significant first, added to the bits so far. -/
def addBit (data : Byte) (i : Nat) (level : Bool) : Byte :=
  if level then data ||| (1#8 <<< i) else data

/-- R81: a sample of the start bit that reads low, or of a data bit. -/
def execBitSample (b : Bay) (level : Bool) (s : State) : Host.Outcome State Fault Refusal :=
  let i := s.con[b.val].sample
  commit s (if s.atSample b i && i ≤ 8 && !(i = 0 && level) then
      s.modCon b (fun c =>
        { c with sample := i + 1, data := if i = 0 then c.data else addBit c.data (i - 1) level })
    else s)

/-- R81: sample 0 reads high: a false start. -/
def execFalseStart (b : Bay) (s : State) : Host.Outcome State Fault Refusal :=
  commit s (if s.atSample b 0 then s.modCon b (fun c => { c with rx := .idle }) else s)

/-! ### Received bytes (R84 to R91) -/

/-- R85: a byte joins the open batch, or opens one. -/
def Console.join (x : Byte) (err : Bool) (fall stop : Tick) (c : Console) : Console :=
  { c with batch := match c.batch with
    | none => some ⟨fall, [(x, err)], stop⟩
    | some p => some { p with bytes := p.bytes ++ [(x, err)], lastStop := stop } }

/-- R86: the bytes of a full batch. -/
def batchCapacity : Nat := 8

/-- The number of bytes in the open batch. -/
def Console.batchSize (c : Console) : Nat := (c.batch.map (fun p => p.bytes.length)).getD 0

/-- R85, R86: a byte is batched when the stream accepts records; the eighth byte closes the batch. -/
def batchByte (b : Bay) (x : Byte) (err : Bool) (fall stop : Tick) (s : State) : State :=
  if accepting s.str[b.val].state then
    let s1 := s.modCon b (Console.join x err fall stop)
    if batchCapacity ≤ s1.con[b.val].batchSize then closeBatch b false s1 else s1
  else s

/-- R90: the size of the match window. -/
def windowCapacity : Nat := 16

/-- R90: a good byte joins the match window at its newest end. -/
def pushWindow (w : List Byte) (x : Byte) : List Byte := (w ++ [x]).drop (w.length + 1 - windowCapacity)

/-- R91: the newest bytes of the window equal a pattern. -/
def patternMatches (window pattern : List Byte) : Bool :=
  pattern.length ≤ window.length && window.drop (window.length - pattern.length) = pattern

/-- R91: the numbers of the patterns that match, ascending from `p`. -/
def matchesFrom (window : List Byte) : List (List Byte) → Nat → List Nat
  | [], _ => []
  | pat :: rest, p =>
    if patternMatches window pat then p :: matchesFrom window rest (p + 1) else matchesFrom window rest (p + 1)

/-- R91: the patterns of an ARMED program that match the window. -/
def State.consoleMatches (s : State) (b : Bay) : List Nat :=
  let q := s.seq[b.val]
  if q.state = .armed then
    match q.program with
    | some p => matchesFrom s.con[b.val].window p.patterns 0
    | none => []
  else []

/-- R91: one CONSOLE_MATCH event per match, in ascending order of pattern. -/
def matchEvents (b : Bay) (s : State) : State :=
  forEach (s.consoleMatches b) (fun p => conditionEvent b (.consoleMatch p)) s

/-- R84: a good byte. -/
def goodByte (b : Bay) (s : State) : State :=
  let c := s.con[b.val]
  let s1 := s.modCon b (fun c => { c with rx := .idle, received := c.received + 1#32 })
  let s2 := batchByte b c.data false c.fall c.stopTime s1
  matchEvents b (s2.modCon b (fun c => { c with window := pushWindow c.window c.data }))

/-- R85: a byte with a framing error. -/
def framingByte (b : Bay) (x : Byte) (s : State) : State :=
  let c := s.con[b.val]
  (batchByte b x true c.fall c.stopTime s).modCon b (fun c =>
    { c with
      rx := .idle
      received := c.received + 1#32
      framing := c.framing + 1#32
      window := [] })

/-- R82, R84: sample 9 reads high. -/
def execGoodByte (b : Bay) (s : State) : Host.Outcome State Fault Refusal :=
  commit s (if s.atSample b 9 then goodByte b s else s)

/-- R83: the instant at which a break candidate is settled. -/
def settleTicks (d : Nat) : Nat := sampleTicks d 10

/-- R82, R83, R85: sample 9 reads low with a data bit high, or the line of a break candidate rises before it is
settled. -/
def execFramingError (b : Bay) (s : State) : Host.Outcome State Fault Refusal :=
  let c := s.con[b.val]
  commit s (if s.atSample b 9 && c.data ≠ 0#8 then framingByte b c.data s
    else if s.active b && c.rx = .breakCheck && elapsed c.fall s.now ≤ settleTicks c.divisor then
      framingByte b 0#8 s
    else s)

/-- R82: sample 9 reads low with every data bit low. -/
def execBreakCandidate (b : Bay) (s : State) : Host.Outcome State Fault Refusal :=
  commit s (if s.atSample b 9 && s.con[b.val].data = 0#8 then
      s.modCon b (fun c => { c with rx := .breakCheck })
    else s)

/-- R87 step 1: the batch closes with BREAK, or a record of count 0 is offered. -/
def breakRecord (b : Bay) (s : State) : State :=
  match s.con[b.val].batch with
  | some _ => closeBatch b true s
  | none => offer b (.console [] true) s.con[b.val].fall s

/-- R83, R87: the line of a break candidate is still low one bit time after its stop sample. -/
def execBreakSettled (b : Bay) (s : State) : Host.Outcome State Fault Refusal :=
  let c := s.con[b.val]
  commit s (if s.active b && c.rx = .breakCheck && s.passed c.fall (settleTicks c.divisor) then
      (breakRecord b s).modCon b (fun c =>
        { c with rx := .breakHold, window := [], breaks := c.breaks + 1#32 })
    else s)

/-- R83: the line rises in BREAK_HOLD. -/
def execBreakHoldRise (b : Bay) (s : State) : Host.Outcome State Fault Refusal :=
  commit s (if s.active b && s.con[b.val].rx = .breakHold then s.modCon b (fun c => { c with rx := .idle }) else s)

/-- R86: 20 bit times have passed since the batch's last stop sample. -/
def execBatchIdleClose (b : Bay) (s : State) : Host.Outcome State Fault Refusal :=
  commit s (match s.con[b.val].batch with
    | some p =>
      if s.active b && s.passed p.lastStop (20 * s.con[b.val].divisor) then closeBatch b false s else s
    | none => s)

/-! ### SEND jobs (R93 to R97) -/

/-- R94: the ticks of a character. -/
def charTicks (d : Nat) : Nat := 10 * d

/-- The end of a SEND job at the port, with its status. -/
def endSend (b : Bay) (j : TxJob) (st : Status) (s : State) : State :=
  report j.slot st 0#16 (BitVec.ofNat 64 j.sent) (s.modCon b (fun c => { c with tx := .idle, job := none }))

/-- R93: a SEND job begins at its dispatch. -/
def sendBegin (b : Bay) (i : Slot) (s : State) : State :=
  let c := s.slots[i.val].card
  if inJobArea c.offset c.length then
    s.modCon b (fun n =>
      { n with
        tx := .sending
        job := some ⟨i, c.offset, c.length, c.sendGap, 0, 0, s.mem.read c.offset, .character s.now⟩ })
  else report i .dataRange 0#16 0#64 s

/-- R93, R94: the next byte is read and its start bit begins. -/
def sendNext (b : Bay) (j : TxJob) (s : State) : State :=
  s.modCon b (fun c =>
    { c with job := some { j with byte := s.mem.read (j.offset + j.next), phase := .character s.now } })

/-- R94, R95: a character's stop bit ends. With G of 0 the next start bit follows it at once, so an abort taken later in
the same tick meets the next character (notes/assumptions/48.md). -/
def charEnd (b : Bay) (j : TxJob) (s : State) : State :=
  let j1 := { j with sent := j.sent + 1, next := j.next + 1 }
  match s.con[b.val].tx with
  | .finishing st => endSend b j1 st s
  | _ =>
    if j1.next < j.length then
      if j.gap = 0 then sendNext b j1 s else s.modCon b (fun c => { c with job := some { j1 with phase := .gap s.now } })
    else endSend b j1 .ok s

/-- R94: the end of a character. -/
def execCharacterEnd (b : Bay) (s : State) : Host.Outcome State Fault Refusal :=
  commit s (match s.con[b.val].job with
    | some j =>
      match j.phase with
      | .character t => if s.passed t (charTicks s.con[b.val].divisor) then charEnd b j s else s
      | .gap _ => s
    | none => s)

/-- R94: the end of a gap: the next byte is read and its start bit begins. -/
def execGapEnd (b : Bay) (s : State) : Host.Outcome State Fault Refusal :=
  commit s (match s.con[b.val].job with
    | some j =>
      match j.phase with
      | .gap t =>
        if s.passed t j.gap then sendNext b j s else s
      | .character _ => s
    | none => s)

/-- R95, R97: an abort request for the SEND of a slot. -/
def sendAbort (b : Bay) (i : Slot) (st : Status) (s : State) : State :=
  match s.con[b.val].job, s.con[b.val].tx with
  | some j, .sending =>
    if j.slot = i then
      match j.phase with
      | .character _ => s.modCon b (fun c => { c with tx := .finishing st })
      | .gap _ => endSend b j st s
    else s
  | _, _ => s

/-- R96: a power-loss report for the SEND of a slot. -/
def sendPowerLoss (b : Bay) (i : Slot) (s : State) : State :=
  match s.con[b.val].job with
  | some j =>
    if j.slot = i then
      match s.con[b.val].tx with
      | .sending => endSend b j .powerLost s
      | .finishing st => endSend b j st s
      | .idle => s
    else s
  | none => s

/-! ### The CON_TX pin (R79, R80, R94) -/

/-- R94: the level of a character's bit `i`: the start bit, data bits 0 to 7, the stop bit. -/
def charBit (x : Byte) (i : Nat) : Bool :=
  if i = 0 then false else if i ≤ 8 then x.getLsbD (i - 1) else true

/-- R80, R94: the level of CON_TX: none is high impedance. -/
def State.conTx (s : State) (b : Bay) : Option Bool :=
  if s.active b then
    match s.con[b.val].job with
    | some j =>
      match j.phase with
      | .character t => some (charBit j.byte (elapsed t s.now / s.con[b.val].divisor))
      | .gap _ => some true
    | none => some true
  else none

end Sys2Proof.Machine
end

