-- ==== Sys2Proof/Machine/Scan.lean ====
section
/-! DEFINITION. The Scan Engines (chapter 8): loading, the entry path, the steps, the ends, aborts and power losses,
the TAP knowledge, and the levels of a bay's scan port. -/

namespace Sys2Proof.Machine

/-! ### Clocks (R156, R158, R162 to R165) -/

/-- R158: the clocks of the entry path for a TAP knowledge. -/
def entryClocks : Knowledge → Nat
  | .idle => 0
  | .reset => 1
  | .unknown => 6

/-- R162, R163, R165: the clocks of a step; a DELAY, a CHECK and an END give none. -/
def ScanEntry.clocks (e : ScanEntry) : Nat :=
  match e.stepKind with
  | some .resetTap => 6
  | some .ir => e.n + 6
  | some .dr => e.n + 5
  | some .idle => e.n
  | _ => 0

/-- R156: the low part of a clock of `v` ticks. -/
def lowTicks (v : Nat) : Nat := v - v / 2

/-- R156: TCK is high `t` ticks after the first clock of a row of clocks began. -/
def tckHighAt (v t : Nat) : Bool := lowTicks v ≤ t % v

/-- R154: the TCK divisor of the bay an engine is attached to. -/
def State.engineDivisor (s : State) (e : EngineId) : Nat :=
  match s.eng[e.val].attached with
  | some (b, _) => s.port[b.val].divisor
  | none => 4

/-- The step an engine has in hand. -/
def Engine.step (g : Engine) : Option ScanEntry := g.index.bind (fun i => g.steps[i]?)

/-- The clocks of the step in hand. -/
def Engine.stepClocks (g : Engine) : Nat := (g.step.map ScanEntry.clocks).getD 0

/-! ### Ends (R157, R167, R168, R170, R173) -/

/-- R167, 12.4: the summary as the card's result. -/
def Engine.summary (g : Engine) : BitVec 64 :=
  BitVec.ofNat 64 (g.stepsDone + 2 ^ 16 * g.firstFail + 2 ^ 32 * g.tdoBits)

/-- R157: the knowledge that the tracked state at the end of a job gives. -/
def trackedKnowledge : TapState → Knowledge
  | .runTestIdle => .idle
  | .testLogicReset => .reset
  | _ => .unknown

/-- R157: the TAP knowledge at the end of a job. -/
def Engine.knowledgeAfter (g : Engine) (k : Knowledge) : Knowledge :=
  if g.disturbed || g.powerLost then .unknown
  else match g.tracked with
    | none => k
    | some t => trackedKnowledge t

/-- R168, R169, R171: the status a job ends with when its engine's work ends with status `own`. -/
def Engine.finalStatus (g : Engine) (own : Status) : Status :=
  match g.abort with
  | some st => st
  | none => if g.powerLost then .powerLost else own

/-- R173: a job ends at the engine: the TAP knowledge is set and the end is reported. The engine stays attached and in
its state until the Dispatcher takes the report. -/
def endJob (e : EngineId) (own : Status) (detail : BitVec 16) (s : State) : State :=
  let g := s.eng[e.val]
  match g.attached with
  | none => s
  | some (b, i) =>
    report i (g.finalStatus own) detail g.summary
      ((s.modEng e (fun g => { g with work := .reported, idleStop := none, cutStop := none })).modPort b
        (fun p => { p with knowledge := g.knowledgeAfter p.knowledge }))

/-! ### Steps (R162 to R167) -/

/-- The work that a step begins with, at an instant. -/
def ScanEntry.firstWork (e : ScanEntry) (now : Tick) : Work :=
  match e.stepKind with
  | some .resetTap => .clocks now
  | some .ir => .readTdi
  | some .dr => .readTdi
  | some .idle => .clocks now
  | some .delay => .delay now
  | some .check => .check
  | some .endList => .endStep
  | none => .endStep

/-- 8.4: the step of an index begins, or, after the last entry, the job completes OK (R167). -/
def beginStep (e : EngineId) (i : Nat) (s : State) : State :=
  match s.eng[e.val].steps[i]? with
  | none => endJob e .ok 0#16 s
  | some x =>
    s.modEng e (fun g =>
      { g with phase := .step, index := some i, work := x.firstWork s.now, tdi := [], captured := 0 })

/-- 8.4: a step is done and counted. -/
def countStep (e : EngineId) (s : State) : State :=
  s.modEng e (fun g => { g with stepsDone := g.stepsDone + 1 })

/-- 8.4: a step is done: the next begins, or the job ends when an abort or a power loss has been taken. -/
def stepDone (e : EngineId) (s : State) : State :=
  let g := s.eng[e.val]
  let s1 := countStep e s
  if g.abort.isSome || g.powerLost then endJob e .ok 0#16 s1
  else beginStep e (g.index.getD 0 + 1) s1

/-- R162, R163, R165: an engine has a step of a kind in hand, its clocks are not to be cut, and all of them have ended
at this instant. -/
def State.clocksEnd (s : State) (e : EngineId) (k : StepKind) : Bool :=
  let g := s.eng[e.val]
  match g.work with
  | .clocks start =>
    g.step.any (fun x => x.stepKind = some k) && g.cutStop.isNone
      && s.passed start (g.stepClocks * s.engineDivisor e)
  | _ => false

/-- R158, R163: the TAP is in Run-Test/Idle. R170: once a power loss has been taken its state is not known. -/
def trackIdle (e : EngineId) (s : State) : State :=
  s.modEng e (fun g => { g with tracked := if g.powerLost then none else some .runTestIdle })

/-- R158: the entry path has ended, or has no clocks: the STEP phase begins, or an aborted job ends. -/
def entryDone (e : EngineId) (s : State) : State :=
  let s1 := trackIdle e s
  if s.eng[e.val].abort.isSome || s.eng[e.val].powerLost then endJob e .ok 0#16 s1 else beginStep e 0 s1

/-- R158: the ENTRY phase is entered with the TAP knowledge of this instant. -/
def enterEntry (e : EngineId) (b : Bay) (s : State) : State :=
  let n := entryClocks s.port[b.val].knowledge
  if n = 0 then entryDone e s
  else s.modEng e (fun g => { g with phase := .entry, work := .entryPath s.now n })

/-- R154, R160: a SCAN job is handed to the engine granted to it. A list region outside the job data area ends it. -/
def scanBegin (e : EngineId) (b : Bay) (i : Slot) (s : State) : State :=
  let c := s.slots[i.val].card
  let s1 := s.modEng e (fun _ =>
    { Engine.reset with state := .running, phase := .loading, attached := some (b, i), work := .loading })
  if inJobArea c.offset c.length then s1 else endJob e .dataRange (detailOf .list 0) s1

/-- R160: card memory as an engine's read of its step list sees it, each byte as it stood at its reading. -/
def State.listRead (s : State) (e : EngineId) : Memory := s.mem.asRead s.eng[e.val].early

/-- R160, R161: the read of the step list ends, and the entries are checked. -/
def loadingEnd (e : EngineId) (b : Bay) (i : Slot) (s : State) : State :=
  let c := s.slots[i.val].card
  let steps := readScanEntries (s.listRead e) c.offset (c.length / 16)
  let s1 := s.modEng e (fun g => { g with steps := steps })
  match firstBadStep steps 0 with
  | some (st, r, x) => endJob e st (detailOf r x) s1
  | none => enterEntry e b s1

/-- R160: LOADING ends. -/
def execLoadingEnd (e : EngineId) (s : State) : Host.Outcome State Fault Refusal :=
  commit s (match s.eng[e.val].work, s.eng[e.val].attached with
    | .loading, some (b, i) => loadingEnd e b i s
    | _, _ => s)

/-- R158: the last clock of the entry path ends. -/
def execEntryPathEnd (e : EngineId) (s : State) : Host.Outcome State Fault Refusal :=
  commit s (match s.eng[e.val].work with
    | .entryPath start n =>
      if s.eng[e.val].cutStop.isNone && s.passed start (n * s.engineDivisor e) then entryDone e s else s
    | _ => s)

/-- R164: the TDI region of the step in hand has been read, and its first clock begins. -/
def execTdiRegionRead (e : EngineId) (s : State) : Host.Outcome State Fault Refusal :=
  commit s (match s.eng[e.val].work, s.eng[e.val].step with
    | .readTdi, some x =>
      s.modEng e (fun g => { g with work := .clocks s.now, tdi := s.mem.readBytes x.a x.bytes })
    | _, _ => s)

/-- R162: the last clock of a RESET_TAP step ends. -/
def execResetTap (e : EngineId) (s : State) : Host.Outcome State Fault Refusal :=
  commit s (if s.clocksEnd e .resetTap then stepDone e (trackIdle e s) else s)

/-- R163, R164: the last clock of a shift ends with the `n` bits sampled: they are stored or discarded, and counted. -/
def shiftDone (e : EngineId) (x : ScanEntry) (tdo : Nat) (s : State) : State :=
  let s1 := trackIdle e (s.modEng e (fun g => { g with tdoBits := g.tdoBits + x.n }))
  if x.stores then s1.modEng e (fun g => { g with work := .writeResult, captured := tdo % 2 ^ x.n })
  else stepDone e s1

/-- R163: the last clock of an IR or DR step ends; bit i of `tdo` is the TDO bit sampled on shift clock i. -/
def execShiftEnd (e : EngineId) (tdo : Nat) (s : State) : Host.Outcome State Fault Refusal :=
  commit s (match s.eng[e.val].step with
    | some x => if s.clocksEnd e .ir || s.clocksEnd e .dr then shiftDone e x tdo s else s
    | none => s)

/-- R164: the region that a result write in progress writes, with its bytes. -/
def Engine.resultField (g : Engine) : Option Field :=
  match g.work, g.step with
  | .writeResult, some x => some (x.b, leBytes x.bytes g.captured)
  | _, _ => none

/-- R164: the write of a captured value is complete. It is seen in memory at this instant (notes/assumptions/12.md), or
in part at a reset that comes before it (notes/assumptions/47.md). -/
def execResultWrite (e : EngineId) (s : State) : Host.Outcome State Fault Refusal :=
  commit s (match s.eng[e.val].resultField with
    | some f => stepDone e (s.overwrite f.1 f.2)
    | none => s)

/-- R165: the last clock of an IDLE step ends. -/
def execIdleStepEnd (e : EngineId) (s : State) : Host.Outcome State Fault Refusal :=
  commit s (if s.clocksEnd e .idle && s.eng[e.val].idleStop.isNone then stepDone e (trackIdle e s) else s)

/-- R168: the clock in progress of an aborted IDLE step completes: the step is not counted and the job ends. -/
def execAbortedIdleClockEnd (e : EngineId) (s : State) : Host.Outcome State Fault Refusal :=
  commit s (match s.eng[e.val].work, s.eng[e.val].idleStop with
    | .clocks start, some n =>
      if s.eng[e.val].cutStop.isNone && s.passed start (n * s.engineDivisor e) then endJob e .ok 0#16 s else s
    | _, _ => s)

/-- R165: a DELAY step has lasted its time. -/
def State.delayOver (s : State) (e : EngineId) (start : Tick) : Bool :=
  s.eng[e.val].step.any (fun x => s.passed start (micros x.n))

/-- R165: a DELAY step ends. -/
def execScanDelayEnd (e : EngineId) (s : State) : Host.Outcome State Fault Refusal :=
  commit s (match s.eng[e.val].work with
    | .delay start => if s.delayOver e start then stepDone e s else s
    | _ => s)

/-- R166: the comparison of a CHECK step with the regions as they stand. -/
def checkMismatches (m : Memory) (x : ScanEntry) : Bool :=
  mismatch (m.readBytes x.a x.bytes) (m.readBytes x.b x.bytes) (m.readBytes x.c x.bytes) x.n

/-- R166: a mismatch recorded: the first failing CHECK keeps its lowest index. -/
def noteMismatch (e : EngineId) (s : State) : State :=
  s.modEng e (fun g => { g with firstFail := if g.firstFail = 0xFFFF then g.index.getD 0 else g.firstFail })

/-- R166: the comparison of a CHECK step recorded. -/
def recordCheck (e : EngineId) (x : ScanEntry) (s : State) : State :=
  if checkMismatches s.mem x then noteMismatch e s else s

/-- R166: a CHECK step compares its regions and ends. -/
def checkStep (e : EngineId) (x : ScanEntry) (s : State) : State :=
  if checkMismatches s.mem x && x.stops then endJob e .checkFailed 0#16 (countStep e (recordCheck e x s))
  else stepDone e (recordCheck e x s)

/-- R166: a CHECK step. -/
def execCheck (e : EngineId) (s : State) : Host.Outcome State Fault Refusal :=
  commit s (match s.eng[e.val].work, s.eng[e.val].step with
    | .check, some x => checkStep e x s
    | _, _ => s)

/-- R167: an END step: counted, and the job completes OK. -/
def execEndStep (e : EngineId) (s : State) : Host.Outcome State Fault Refusal :=
  commit s (match s.eng[e.val].work with
    | .endStep => endJob e .ok 0#16 (countStep e s)
    | _ => s)

/-! ### Aborts (R168, R169) -/

/-- R168 to R170: what a request or a report leaves of a CHECK in hand: one that completes at this very instant is
recorded and counted, and one in progress is dropped. Which of the two it is is a free choice
(notes/assumptions/23.md). -/
def meetCheck (e : EngineId) (s : State) : State :=
  let s1 := { s with checkDraws := s.checkDraws + 1 }
  match s.eng[e.val].step with
  | some x => if Config.checkCompletes s.checkDraws then countStep e (recordCheck e x s1) else s1
  | none => s1

/-- R168: an abort taken: the engine is ABORTING and keeps the status. -/
def abortTaken (e : EngineId) (st : Status) (s : State) : State :=
  s.modEng e (fun g => { g with state := .aborting, abort := some st })

/-- R168: what an abort does to a row of clocks of the step in hand: an IDLE step ends at the end of the clock in
progress, or is done when its last clock has just ended; every other step goes on to its end. -/
def abortClocks (e : EngineId) (start : Tick) (s : State) : State :=
  let g := s.eng[e.val]
  let v := s.engineDivisor e
  if g.step.any (fun x => x.stepKind = some .idle) then
    if s.passed start (g.stepClocks * v) then endJob e .ok 0#16 (countStep e s)
    else s.modEng e (fun g => { g with idleStop := some (elapsed start s.now / v + 1) })
  else s

/-- R168, R169: an abort request for the SCAN job of a slot, with its status, reaching an engine. A step at its very end
is done, and whether a CHECK is at its end is free (notes/assumptions/23.md). -/
def scanAbort (e : EngineId) (i : Slot) (st : Status) (s : State) : State :=
  let g := s.eng[e.val]
  if g.state = .running && g.attached.any (fun x => x.2 = i) && !g.powerLost then
    let s1 := abortTaken e st s
    match g.work with
    | .reported => s
    | .none => s
    | .loading => endJob e .ok 0#16 s1
    | .readTdi => endJob e .ok 0#16 s1
    | .check => endJob e .ok 0#16 (meetCheck e s1)
    | .endStep => endJob e .ok 0#16 (countStep e s1)
    | .delay start => endJob e .ok 0#16 (if s.delayOver e start then countStep e s1 else s1)
    | .entryPath _ _ => s1
    | .writeResult => s1
    | .clocks start => abortClocks e start s1
  else s

/-! ### Power loss (R169, R170) -/

/-- R170: the clock has stopped: the tracked TAP state is not known. -/
def untrack (e : EngineId) (s : State) : State := s.modEng e (fun g => { g with tracked := none })

/-- R170: the clock stops: TMS 0, the TAP's state not known, and the job ends. -/
def cutNow (e : EngineId) (s : State) : State := endJob e .powerLost 0#16 (untrack e s)

/-- R164: shift clock `j` of an IR or DR step, counted from 0, when clock `j` of the step is one. -/
def ScanEntry.shiftClock (x : ScanEntry) (j : Nat) : Option Nat :=
  match x.stepKind with
  | some .ir => if 4 ≤ j && j < 4 + x.n then some (j - 4) else none
  | some .dr => if 3 ≤ j && j < 3 + x.n then some (j - 3) else none
  | _ => none

/-- R163, R164: the level of TDI in clock `j` of the step in hand. -/
def Engine.tdiAt (g : Engine) (j : Nat) : Bool :=
  match g.step.bind (fun x => x.shiftClock j) with
  | some i => regionBit g.tdi i
  | none => true

/-- R170: a power loss meets a row of clocks: at a high TCK the stop is the fall that ends the clock in progress, else
it is at once. TDI keeps the level last driven. -/
def cutClocks (e : EngineId) (start : Tick) (s : State) : State :=
  let v := s.engineDivisor e
  let t := elapsed start s.now
  let s1 := s.modEng e (fun g => { g with idleStop := none, tdiHeld := g.tdiAt (t / v) })
  if tckHighAt v t then s1.modEng e (fun g => { g with cutStop := some (t / v + 1) }) else cutNow e s1

/-- R170: all the clocks of a step have been given when the report is taken. A shift whose last clock has just ended
is left to SHIFT_END; every other step is done. -/
def finishClocks (e : EngineId) (s : State) : State :=
  if s.eng[e.val].step.any (fun x => x.stepKind = some .resetTap || x.stepKind = some .idle) then
    cutNow e (countStep e s)
  else untrack e s

/-- R170: a power-loss report for the SCAN job of a slot, reaching an engine. A step at its very end is done, and whether
a CHECK is at its end is free (notes/assumptions/23.md). -/
def scanPowerLoss (e : EngineId) (i : Slot) (s : State) : State :=
  let g := s.eng[e.val]
  if g.state ≠ .idle && g.attached.any (fun x => x.2 = i) && !g.powerLost then
    let s1 := s.modEng e (fun g => { g with powerLost := true })
    match g.work with
    | .reported => s
    | .none => s
    | .loading => cutNow e s1
    | .readTdi => cutNow e s1
    | .check => cutNow e (meetCheck e s1)
    | .endStep => cutNow e (countStep e s1)
    | .delay start => cutNow e (if s.delayOver e start then countStep e s1 else s1)
    | .writeResult => untrack e s1
    | .entryPath start n =>
      if s.passed start (n * s.engineDivisor e) then cutNow e s1 else cutClocks e start s1
    | .clocks start =>
      if s.passed start (g.stepClocks * s.engineDivisor e) && g.idleStop.isNone then finishClocks e s1
      else cutClocks e start s1
  else s

/-- R170: the fall of TCK at the end of the high part in which a power loss came. -/
def execScanPowerLossStop (e : EngineId) (s : State) : Host.Outcome State Fault Refusal :=
  commit s (match s.eng[e.val].cutStop, s.eng[e.val].work with
    | some n, .clocks start => if s.passed start (n * s.engineDivisor e) then cutNow e s else s
    | some n, .entryPath start _ => if s.passed start (n * s.engineDivisor e) then cutNow e s else s
    | _, _ => s)

/-! ### Qualified edges of POWER_GOOD (R157) -/

/-- R155: the engine attached to a bay. -/
def State.engineOf (s : State) (b : Bay) : Option EngineId :=
  ([0, 1] : List EngineId).find? (fun e => s.eng[e.val].attached.any (fun x => x.1 = b))

/-- R157: a qualified edge of POWER_GOOD at the pool. -/
def tapEdge (b : Bay) (rise : Bool) (s : State) : State :=
  match s.engineOf b with
  | some e =>
    (s.modEng e (fun g => { g with disturbed := true })).modPort b (fun p => { p with knowledge := .unknown })
  | none => s.modPort b (fun p => { p with knowledge := if rise then .reset else .unknown })

/-! ### The scan port (R155, R156, 8.2) -/

/-- 8.2: the next state of the TAP; a move the engine does not use is not known. -/
def tapNext : TapState → Bool → Option TapState
  | .testLogicReset, false => some .runTestIdle
  | .testLogicReset, true => some .testLogicReset
  | .runTestIdle, false => some .runTestIdle
  | .runTestIdle, true => some .selectDr
  | .selectDr, false => some .captureDr
  | .selectDr, true => some .selectIr
  | .selectIr, false => some .captureIr
  | .captureDr, false => some .shiftDr
  | .captureIr, false => some .shiftIr
  | .shiftDr, false => some .shiftDr
  | .shiftDr, true => some .exit1Dr
  | .shiftIr, false => some .shiftIr
  | .shiftIr, true => some .exit1Ir
  | .exit1Dr, true => some .updateDr
  | .exit1Ir, true => some .updateIr
  | .updateDr, false => some .runTestIdle
  | .updateIr, false => some .runTestIdle
  | _, _ => none

/-- R158: TMS in clock `j` of an entry path of `n` clocks: the last clock has TMS 0. -/
def entryTms (n j : Nat) : Bool := j + 1 < n

/-- R162, R163, R165: TMS in clock `j` of a step. -/
def ScanEntry.tmsAt (x : ScanEntry) (j : Nat) : Bool :=
  match x.stepKind with
  | some .resetTap => j < 5
  | some .ir => j < 2 || j = x.n + 3 || j = x.n + 4
  | some .dr => j = 0 || j = x.n + 2 || j = x.n + 3
  | _ => false

/-- 8.2: the tracked state after clocks with the TMS values of a list. Five clocks with TMS 1 bring any state to
Test-Logic-Reset; `ones` counts the clocks with TMS 1 just before. -/
def trackedAfter : Option TapState → Nat → List Bool → Option TapState
  | t, _, [] => t
  | t, ones, tms :: rest =>
    let ones1 := if tms then ones + 1 else 0
    trackedAfter (if 5 ≤ ones1 then some .testLogicReset else t.bind (fun x => tapNext x tms)) ones1 rest

/-- The clock in progress of an engine's row of clocks, with the ticks since that clock began; none when the engine
gives no clock. -/
def State.clockNow (s : State) (e : EngineId) : Option (Nat × Nat) :=
  let v := s.engineDivisor e
  let g := s.eng[e.val]
  match g.work with
  | .entryPath start n =>
    if elapsed start s.now < n * v then some (elapsed start s.now / v, elapsed start s.now % v) else none
  | .clocks start =>
    if elapsed start s.now < g.stepClocks * v then some (elapsed start s.now / v, elapsed start s.now % v) else none
  | _ => none

/-- R156: TMS in clock `j` of the engine's row of clocks. -/
def Engine.tmsAt (g : Engine) (j : Nat) : Bool :=
  match g.work with
  | .entryPath _ n => entryTms n j
  | .clocks _ => (g.step.map (fun x => x.tmsAt j)).getD false
  | _ => false

/-- 8.2: the tracked TAP state at this instant: in a step's clocks the copy at their beginning, moved at every rise
given since; it is not known until the entry path ends (R158). -/
def State.trackedNow (s : State) (e : EngineId) : Option TapState :=
  let g := s.eng[e.val]
  match g.work, s.clockNow e with
  | .clocks _, some (j, t) =>
    trackedAfter g.tracked 0
      ((List.range (if lowTicks (s.engineDivisor e) ≤ t then j + 1 else j)).map g.tmsAt)
  | _, _ => g.tracked

/-- R155: the levels of a bay's scan port. -/
structure PortPins where
  tck : Bool
  tms : Bool
  tdi : Bool
  deriving DecidableEq, Repr

/-- R155: the pins of an attached engine. -/
def State.enginePins (s : State) (e : EngineId) : PortPins :=
  match s.clockNow e with
  | some (j, t) => ⟨lowTicks (s.engineDivisor e) ≤ t, s.eng[e.val].tmsAt j, s.eng[e.val].tdiAt j⟩
  | none => ⟨false, false, s.eng[e.val].tdiHeld⟩

/-- R155: the pins of a bay's scan port, none for high impedance. -/
def State.scanPins (s : State) (b : Bay) : Option PortPins :=
  if s.active b then
    match s.engineOf b with
    | some e => some (s.enginePins e)
    | none => some ⟨false, false, true⟩
  else none

end Sys2Proof.Machine
end

