-- ==== Sys2Proof/Machine/BayInputs.lean ====
section
/-! DEFINITION. The bay inputs (chapter 3): the monitored lines, the settle milestones, the code lane and the code
stall reference. -/

namespace Sys2Proof.Machine

/-! ### Settle milestones (R55, R56) -/

/-- R55: the ticks after the settle base at which each milestone is raised. -/
def settleTable : Nat → Nat
  | 1 => 100000
  | 2 => 200000
  | 3 => 500000
  | 4 => 1000000
  | 5 => 2000000
  | 6 => 5000000
  | 7 => 10000000
  | 8 => 20000000
  | _ => 0

/-- R56: a raise of the settle milestone to `m`, for a settle base. -/
def raiseSettle (b : Bay) (base : Tick) (m : Nat) (s : State) : State :=
  conditionEvent b (.settle m)
    (offer b (.settle m) (base + BitVec.ofNat 48 (settleTable m)) (s.modMon b (fun v => { v with milestone := m })))

/-- R55: the milestones from 1 upward whose instant a qualification at this instant has already reached. -/
def reachedMilestones (age : Nat) : List Nat := [1, 2, 3, 4, 5, 6, 7, 8].filter (fun m => settleTable m ≤ age)

/-- R55, R56: the next settle milestone is raised at its instant. -/
def execSettleMilestoneRaise (b : Bay) (s : State) : Host.Outcome State Fault Refusal :=
  commit s (match s.mon[b.val].settleBase with
    | some base =>
      let m := s.mon[b.val].milestone + 1
      if s.active b && m ≤ 8 && s.passed base (settleTable m) then raiseSettle b base m s else s
    | none => s)

/-! ### Specific effects of a qualified edge (R53, R54, R55, R67) -/

/-- R54 step 2: the power-loss report to the owner of the bay's ACCESS job in service. -/
def powerLossReport (b : Bay) (s : State) : State :=
  match s.lanes[b.val][0].service with
  | none => s
  | some i =>
    match s.slots[i.val].card.jobKind with
    | some .scan =>
      match s.engineOf b with
      | some e => scanPowerLoss e i s
      | none => s
    | some .send => sendPowerLoss b i s
    | _ => s

/-- R54, R157: a qualified fall of POWER_GOOD. -/
def powerFall (b : Bay) (s : State) : State :=
  raiseBay b .fault
    (powerLossReport b (tapEdge b false (s.modMon b (fun m => { m with settleBase := none, milestone := 0 }))))

/-- R55, R157: a qualified rise of POWER_GOOD, with its raw time. -/
def powerRise (b : Bay) (raw : Tick) (s : State) : State :=
  forEach (reachedMilestones (elapsed raw s.now)) (raiseSettle b raw)
    (tapEdge b true (s.modMon b (fun m => { m with settleBase := some raw, milestone := 0 })))

/-- R48 table: the specific effect of a qualified edge of a line. -/
def lineEffect (b : Bay) (l : InLine) (rise : Bool) (raw : Tick) (s : State) : State :=
  match l.val, rise with
  | 0, true => powerRise b raw s
  | 0, false => powerFall b s
  | 1, true => offerStall b raw s
  | 4, false => raiseBay b .fault s
  | _, _ => s

/-- R51: a pending edge qualifies, with its raw time and the new level. -/
def qualify (b : Bay) (l : InLine) (raw : Tick) (level : Bool) (s : State) : State :=
  lineEffect b l level raw
    (conditionEvent b (.line l level)
      (offer b (.line l level) raw (s.modInLine b l (fun x => { x with raw := level, qual := level, edge := none }))))

/-- R52: the longest width a GLITCH record carries. -/
def maxGlitch : Nat := 2 ^ 24 - 1

/-- R52: the return of a pending edge. -/
def glitch (b : Bay) (l : InLine) (raw : Tick) (s : State) : State :=
  let x := s.mon[b.val].lines[l.val]
  conditionEvent b (.glitch l)
    (offer b (.glitch l x.raw (min (elapsed raw s.now) maxGlitch)) raw
      (s.modInLine b l (fun x => { x with raw := !x.raw, edge := none })))

/-- R50, R52: a raw change seen by a running Line Monitor. -/
def rawChange (b : Bay) (l : InLine) (s : State) : State :=
  let x := s.mon[b.val].lines[l.val]
  match x.edge with
  | some raw => glitch b l raw s
  | none =>
    if x.q = 0 then qualify b l s.now (!x.raw) s
    else s.modInLine b l (fun x => { x with raw := !x.raw, edge := some s.now })

/-- R48, R50, R52: the pin of a monitored line changes. A stopped monitor does not see it. -/
def execLineRawChange (b : Bay) (l : InLine) (s : State) : Host.Outcome State Fault Refusal :=
  let s1 := s.modInLine b l (fun x => { x with pin := !x.pin })
  commit s (if s.active b then rawChange b l s1 else s1)

/-- R51: a pending edge has lasted the line's qualification time. -/
def execLineQualify (b : Bay) (l : InLine) (s : State) : Host.Outcome State Fault Refusal :=
  let x := s.mon[b.val].lines[l.val]
  commit s (match x.edge with
    | some raw => if s.active b && s.passed raw x.q then qualify b l raw x.raw s else s
    | none => s)

/-! ### The code lane (R58 to R65) -/

/-- R60: the bits of a whole frame. -/
def frameBits : Nat := 17

/-- R59: a start condition begins a frame at this instant. -/
def beginFrame (b : Bay) (s : State) : State :=
  s.modCode b (fun c =>
    { c with state := .data, bits := 0, shift := 0#17, frameStart := s.now, lastClk := s.now })

/-- R59: a start condition taken in IDLE. -/
def execCodeStartCondition (b : Bay) (s : State) : Host.Outcome State Fault Refusal :=
  commit s (if s.active b && s.code[b.val].state = .idle then beginFrame b s else s)

/-- R60: a rise of CLK in DATA samples DAT. -/
def CodeRx.sampleBit (dat : Bool) (now : Tick) (c : CodeRx) : CodeRx :=
  { c with
    shift := (c.shift <<< 1) ||| (if dat then 1#17 else 0#17)
    bits := c.bits + 1
    state := if c.bits + 1 = frameBits then .stopWait else .data
    lastClk := now }

/-- R59, R60: an edge of CLK, with the level of DAT. -/
def execCodeClkEdge (b : Bay) (edge : ClkEdge) (dat : Bool) (s : State) : Host.Outcome State Fault Refusal :=
  commit s (if s.active b then
      match s.code[b.val].state, edge with
      | .idle, _ => s
      | .data, .rise => s.modCode b (CodeRx.sampleBit dat s.now)
      | _, _ => s.modCode b (fun c => { c with lastClk := s.now })
    else s)

/-- R61: the number of 1 bits among the 17. -/
def countOnes (v : BitVec 17) : Nat := (List.range 17).countP (fun i => v.getLsbD i)

/-- R61: the parity of a whole frame is odd. -/
def CodeRx.oddParity (c : CodeRx) : Bool := countOnes c.shift % 2 = 1

/-- R61: the first 16 bits of a frame, most significant first. -/
def CodeRx.frameCode (c : CodeRx) : BitVec 16 := (c.shift >>> 1).setWidth 16

/-- R61, R62: what follows a frame that a wire condition ended: IDLE, or a new frame. -/
def afterFrame (b : Bay) (cond : CodeCond) (s : State) : State :=
  match cond with
  | .stop => s.modCode b (fun c => { c with state := .idle, bits := 0 })
  | .start => beginFrame b s

/-- R63: a code arrival. A CODE_STALL event due as the arrival begins its period comes after the CODE event, by a command
of its own (R101, R105, notes/assumptions/45.md). -/
def codeArrival (b : Bay) (s : State) : State :=
  let c := s.code[b.val]
  conditionEvent b (.code c.frameCode)
    (offer b (.code c.frameCode) c.frameStart
      (offerStall b c.frameStart
        (s.modCode b (fun c => { c with lastCode := some c.frameCode, lastCodeTime := c.frameStart }))))

/-- R61, R63: a start or stop condition ends a frame of odd parity. -/
def execCodeArrival (b : Bay) (cond : CodeCond) (s : State) : Host.Outcome State Fault Refusal :=
  let c := s.code[b.val]
  commit s (if s.active b && c.state = .stopWait && c.oddParity then afterFrame b cond (codeArrival b s) else s)

/-- R64: a frame in error. -/
def codeError (b : Bay) (cause : CodeErrCause) (detail : Nat) (s : State) : State :=
  (offer b (.codeErr cause detail) s.code[b.val].frameStart s).modCode b (fun c => { c with errors := c.errors + 1#32 })

/-- R61, R62, R64: a start or stop condition ends a frame of even parity, or one of fewer than 17 bits. -/
def execCodeErr (b : Bay) (cond : CodeCond) (s : State) : Host.Outcome State Fault Refusal :=
  let c := s.code[b.val]
  commit s (if s.active b then
      match c.state with
      | .idle => s
      | .data => afterFrame b cond (codeError b .short c.bits s)
      | .stopWait =>
        if c.oddParity then s else afterFrame b cond (codeError b .parity c.frameCode.toNat s)
    else s)

/-- R65: the ticks without CLK activity that stall a frame. -/
def frameStallTicks : Nat := 100000

/-- R65: a frame is stalled. -/
def execCodeFrameStall (b : Bay) (s : State) : Host.Outcome State Fault Refusal :=
  let c := s.code[b.val]
  commit s (if s.active b && c.state ≠ .idle && s.passed c.lastClk frameStallTicks then
      (codeError b .stalled c.bits s).modCode b (fun c => { c with state := .idle, bits := 0 })
    else s)

/-- R67: the stall reference lapses 2^46 ticks after it. -/
def execStallReferenceLapse (b : Bay) (s : State) : Host.Outcome State Fault Refusal :=
  commit s (match s.code[b.val].stallRef with
    | some t =>
      if !s.code[b.val].stallLapsed && s.passed t lapseAge then
        s.modCode b (fun c => { c with stallLapsed := true })
      else s
    | none => s)

end Sys2Proof.Machine
end

