-- ==== Sys2Proof/Machine/Abandon.lean ====
section
/-! DEFINITION. What a reset leaves of the writes it abandons: the acts of a writer service in their order (R20, R21,
R24, R27, R33, R46, R47), each field written in one access (R187), and card memory with some of a list of groups of
fields written (R21, R195). -/

namespace Sys2Proof.Machine

/-! ### Groups of writes -/

/-- R21, R164, R187, R195: card memory after writes that were abandoned: the first `done` groups of fields are written,
and of the next group some accesses, each a free choice (notes/assumptions/3.md, notes/assumptions/37.md,
notes/assumptions/47.md). -/
def Memory.cutWrites (m : Memory) (groups : List (List Field)) (done draw : Nat) : Memory :=
  ((groups.take done).flatten.flatMap accesses
    ++ ((groups.getD done []).flatMap accesses).filter (fun f => Config.accessMade draw f.1)).foldl Memory.writeField m

/-! ### The acts of a writer service (R20, R33, R46) -/

/-- One act of a writer service: the state once the act has begun, with the flags it has raised, and the fields it
writes. -/
structure Act where
  state : State
  fields : List Field

/-- R22: the page state map byte of a page. -/
def mapField (p : Page) (st : PageState) : Field := fld (mapAddr p) 1 (pageStateCode st)

/-- R27: the fields of a page header. -/
def headerFields (b : Bay) (u : PageUse) (recycled : Bool) (lost : Nat) (s : State) : List Field :=
  fieldsFrom (pageAddr u.page) (headerItems b s.str[b.val].k u recycled lost)

/-- R33: the act of writing a record slot into the filling page. -/
def slotAct (b : Bay) (body : RecordBody) (late : Bool) (delta : Nat) (s : State) : Act :=
  ⟨s, match s.str[b.val].filling with
    | none => []
    | some u => fieldsFrom (recordAddr u.page u.count) (recordItems body late delta)⟩

/-- R24, R201: the free count and the pending set written into the device mirror when they change. -/
def mirrorAct (s t : State) : Act := ⟨t, diffFields [freeField s, pendingField s] [freeField t, pendingField t]⟩

/-- R22, R27, R187: the acts of a delivery. The header is written before the page is CLOSED
(notes/assumptions/37.md). -/
def deliverActs (b : Bay) (u : PageUse) (s : State) : List Act :=
  [⟨s, headerFields b u s.str[b.val].recycled s.str[b.val].lostTotal s⟩, ⟨s, [mapField u.page (.closed b)]⟩,
    mirrorAct s (deliver b u s)]

/-- R43, R46: the acts of deliveries in order. -/
def deliverAllActs (b : Bay) : List PageUse → State → List Act
  | [], _ => []
  | u :: rest, s => deliverActs b u s ++ deliverAllActs b rest (deliver b u s)

/-- R39, R40, R44: the acts of the end of the filling page. -/
def endActs (b : Bay) (s : State) : List Act :=
  match s.str[b.val].filling with
  | none => []
  | some u =>
    if s.str[b.val].windowed then [⟨s, mapField u.page (.retained b) :: headerFields b u false 0 s⟩]
    else deliverActs b u s

/-- R33: the acts of the end of a page that holds 254 records. -/
def endIfFullActs (b : Bay) (s : State) : List Act := if s.str[b.val].fill = pageCapacity then endActs b s else []

/-- R24, R25, R41: the acts of opening the page with which `t` has come from `s`: its map byte, the free count, then its
header. -/
def openActs (b : Bay) (s t : State) : List Act :=
  match t.str[b.val].filling with
  | none => []
  | some u => [⟨s, [mapField u.page (.filling b)]⟩, mirrorAct s t, ⟨t, headerFields b u false 0 t⟩]

/-- R33 step 2: the acts of a LOSS record. -/
def lossActs (b : Bay) (s : State) : List Act :=
  if s.str[b.val].lostCount = 0 then []
  else slotAct b (.loss s.str[b.val].lostCount) false 0 s :: endIfFullActs b (lossSlot b s)

/-- R33 step 5: the acts of the record itself. -/
def dataActs (b : Bay) (body : RecordBody) (late : Bool) (delta : Nat) (clamped : Tick) (s : State) : List Act :=
  slotAct b body late delta s :: endIfFullActs b (dataSlot b body late delta clamped s)

/-- R33: the acts of placing one record, as `placeRecord` places it. -/
def placeActs : Nat → Bay → Record → State → List Act
  | 0, _, _, _ => []
  | tries + 1, b, r, s =>
    let opened := s.str[b.val].filling.isNone
    match (if opened then obtainPage b (s.str[b.val].timing r.time).clamped s else some s) with
    | none => []
    | some s1 =>
      let s2 := writeLoss b s1
      (if opened then openActs b s s1 else []) ++ lossActs b s1 ++
        (if s2.str[b.val].filling.isNone then placeActs tries b r s2
        else
          let tm := s2.str[b.val].timing r.time
          if opened then dataActs b r.body tm.late 0 tm.clamped s2
          else if tm.gap then
            if s2.str[b.val].fill + 2 ≤ pageCapacity then
              slotAct b (.time r.time) false 0 s2
                :: dataActs b r.body false 0 r.time (writeSlot b (.time r.time) false 0 s2)
            else endActs b s2 ++ placeActs tries b r (endPage b s2)
          else dataActs b r.body tm.late tm.delta tm.clamped s2)

/-- R33: the acts on the pages of the service of a record. -/
def recordActs (b : Bay) (s : State) : List Act :=
  match s.str[b.val].queue with
  | [] => []
  | r :: rest => placeActs 3 b r (takeHead b rest s)

/-- R31: the acts on the pages of the service of a FLUSH. -/
def flushActs (b : Bay) (s : State) : List Act :=
  match s.str[b.val].flush, s.str[b.val].filling with
  | some w, some u => if u.page = w.page then deliverActs b u (takeFlush b s) else []
  | _, _ => []

/-- R46: the acts on the pages of the service that ends a drain. -/
def drainActs (b : Bay) (s : State) : List Act :=
  let s1 := drainLoss b s
  (if s.str[b.val].drainsLoss then [slotAct b (.loss s.str[b.val].lostCount) false 0 (served b s)] else [])
    ++ deliverAllActs b (s1.str[b.val].retained ++ s1.str[b.val].filling.toList) s1

/-- R20: a service of a bay made whole. -/
def State.serve (s : State) (b : Bay) : Service → State
  | .flush => serveFlush b s
  | .drain => serveDrain b s
  | .record => serveRecord b s

/-- R20: the acts on the pages of a service. -/
def State.pageActs (s : State) (b : Bay) : Service → List Act
  | .flush => flushActs b s
  | .drain => drainActs b s
  | .record => recordActs b s

/-- R20, R47: the acts of a service of a bay: those on its pages, and last the items of its stream table entry that have
changed, written together. -/
def State.serviceActs (s : State) (b : Bay) (v : Service) : List Act :=
  s.pageActs b v ++ [⟨s.serve b v, diffFields (streamFields s b) (streamFields (s.serve b v) b)⟩]

/-- The groups of fields that the acts of a service write, in their order. -/
def State.serviceWrites (s : State) (b : Bay) (v : Service) : List (List Field) := (s.serviceActs b v).map Act.fields

/-- R21: a reset abandons the service in flight, of a bay with work. Some of its acts are done, the next has begun, and
what it writes may be left partly written (notes/assumptions/37.md). The flags that these acts have raised have been
raised (R201, R202). -/
def abandonService (s : State) : State :=
  let b := Config.abandonedBay s.draws
  match s.str[b.val].service with
  | none => s
  | some v =>
    let done := Config.groupsDone s.draws
    signalLine s
      { s with
        notices := ((((s.serviceActs b v)[done]?).map Act.state).getD (s.serve b v)).notices
        mem := s.mem.cutWrites (s.serviceWrites b v) done s.draws
        draws := s.draws + 1 }

end Sys2Proof.Machine
end

