-- ==== Sys2Proof/Machine/Jobs.lean ====
section
/-! DEFINITION. The Dispatcher (chapter 7): POST and intake, BAYHOLD, eligibility and the engine grant, dispatch,
ends, deadlines, CANCEL, and STOP's request; the LINES job's issue (R181, R182). -/

namespace Sys2Proof.Machine

/-! ### LINES jobs at dispatch (R181, R182) -/

/-- R181 step 4: one checked entry issued to its line. -/
def issueLine (b : Bay) (o : Owner) (x : LineEntry) (s : State) : State :=
  match outLineOf x.line, x.prog with
  | some d, some p => arrive b d p o s
  | _, _ => s

/-- R182: a DETACH job completes once its entries are issued; its programs run on. -/
def detachLines (b : Bay) (s : State) : State :=
  match s.drv[b.val].job with
  | none => s
  | some j => report j.slot j.status 0#16 j.result (s.modDrv b (fun v => { v with job := none }))

/-- R181 step 4, R182: the entries of a LINES job are issued, and a job whose entries have all ended, or with DETACH,
completes. -/
def issueLines (b : Bay) (i : Slot) (entries : List LineEntry) (s : State) : State :=
  let r := s.slots[i.val]
  let s1 := s.modDrv b (fun v => { v with job := some ⟨i, r.accept, entries.length, 0, 0⟩ })
  let s2 := forEach entries (issueLine b (.job i r.accept)) s1
  if r.card.detach then detachLines b s2 else endLinesIfDone b s2

/-- R181: a LINES job at its dispatch. -/
def linesBegin (b : Bay) (i : Slot) (s : State) : State :=
  let c := s.slots[i.val].card
  let entries := readLineEntries s.mem c.offset (c.length / 8)
  if !inJobArea c.offset c.length then report i .dataRange (detailOf .list 0) 0#64 s
  else match firstBadLine entries 0 with
    | some x => report i .badCard (detailOf .entry x) 0#64 s
    | none => issueLines b i entries s

/-! ### Eligibility and the engine grant (R135, R137) -/

/-- The lane of a bay. -/
def State.lane (s : State) (b : Bay) (l : Lane) : LaneQ := s.lanes[b.val][(laneIx l).val]

/-- R135, conditions 1 to 4: the head of a bay-lane queue that meets them. -/
def State.readyHead (s : State) (b : Bay) (l : Lane) : Option Slot :=
  match (s.lane b l).queue with
  | [] => none
  | i :: _ =>
    if s.ctl.device = .running && (s.lane b l).service.isNone && (l = .setup || !s.held b)
        && s.slots[i.val].card.gate.toNat ≤ s.mon[b.val].milestone then some i
    else none

/-- R137: the bay has a SCAN head that waits for a grant. -/
def State.waitsForEngine (s : State) (b : Bay) : Bool :=
  (s.readyHead b .access).any (fun i => s.slots[i.val].card.jobKind = some .scan)

/-- R137: the order in which waiting heads win under an arbitration mode. -/
def State.grantOrder (s : State) : List Bay :=
  match s.disp.arbitration with
  | .fixed => allBays
  | .rotating => s.disp.rotation

/-- R137: the winner among the waiting heads. -/
def State.winner (s : State) : Option Bay := s.grantOrder.find? s.waitsForEngine

/-- R137: the IDLE engine granted next, engine 0 first. -/
def State.idleEngine (s : State) : Option EngineId :=
  ([0, 1] : List EngineId).find? (fun e => s.eng[e.val].state = .idle)

/-- R137: the engine granted to a bay's waiting head at this instant. -/
def State.granted (s : State) (b : Bay) : Option EngineId :=
  if s.winner = some b then s.idleEngine else none

/-! ### Dispatch (R139) -/

/-- R139 step 1: the slot leaves the head of its queue and becomes IN_SERVICE. A SETUP-lane job's deadline is dropped
(R146). -/
def beginService (b : Bay) (l : Lane) (i : Slot) (s : State) : State :=
  writeStart i s.now
    ((s.modLane b l (fun q => { q with queue := q.queue.tail, service := some i })).modSlot i (fun r =>
      { r with
        state := .inService
        start := s.now
        deadline := if l = .setup then none else r.deadline }))

/-- R139 step 2: the JOB START record. -/
def offerStart (b : Bay) (i : Slot) (s : State) : State :=
  offer b (.jobStart i s.slots[i.val].card.kind.toNat s.slots[i.val].card.tag) s.now s

/-- 12.4: the mode of a TRACE OPEN. -/
def Card.traceMode (c : Card) : StreamMode := if c.param 1 = 2 then .window else .continuous

/-- R150: a TRACE job handed to its stream. -/
def traceBegin (b : Bay) (i : Slot) (s : State) : State :=
  let c := s.slots[i.val].card
  if c.param 0 = 1 then traceOpen b i c.traceMode (c.param 2) s
  else if c.param 0 = 2 then traceClose b i s
  else traceFlush b i s

/-- R139 step 3: the job is handed to its owner; `e` is the engine granted to a SCAN job. -/
def handOver (b : Bay) (i : Slot) (e : Option EngineId) (s : State) : State :=
  match s.slots[i.val].card.jobKind with
  | some .scan =>
    match e with
    | some e => scanBegin e b i s
    | none => s
  | some .send => sendBegin b i s
  | some .lines => linesBegin b i s
  | some .arm => armBegin b i s
  | some .trace => traceBegin b i s
  | _ => s

/-- R139: the dispatch of a slot. -/
def dispatchSlot (b : Bay) (l : Lane) (i : Slot) (e : Option EngineId) (s : State) : State :=
  handOver b i e (offerStart b i (beginService b l i s))

/-- R135 to R139: the head of a bay-lane is judged, and dispatched when it is eligible. -/
def execDispatch (b : Bay) (l : Lane) (s : State) : Host.Outcome State Fault Refusal :=
  commit s (match s.readyHead b l with
    | none => s
    | some i =>
      if s.slots[i.val].card.jobKind = some .scan then
        match s.granted b with
        | some e => dispatchSlot b l i (some e) s
        | none => s
      else dispatchSlot b l i none s)

/-! ### Aborts (R142) -/

/-- The lane of a slot's job may be asked to abort (R142, R146). -/
def SlotRec.interruptible (r : SlotRec) : Bool := r.card.lane = some .access || r.card.lane = some .drive

/-- R142: the owner of a job is asked to abort it with a status. -/
def askOwner (i : Slot) (st : Status) (s : State) : State :=
  let c := s.slots[i.val].card
  match c.jobKind with
  | some .scan =>
    match s.engineOf c.bayIx with
    | some e => scanAbort e i st s
    | none => s
  | some .send => sendAbort c.bayIx i st s
  | some .lines => linesAbort c.bayIx i st s
  | _ => s

/-- R142: an abort of a job in service: the owner is asked, the abort mark is set and the deadline dropped. -/
def abortJob (i : Slot) (st : Status) (s : State) : State :=
  (askOwner i st s).modSlot i (fun r => { r with mark := some st, deadline := none })

/-! ### CANCEL (R147, R148) -/

/-- R147: what a CANCEL does to a target. -/
def cancelTarget (i : Slot) (s : State) : State :=
  let r := s.slots[i.val]
  match r.state with
  | .requested => endUndispatched i .cancelled 0#16 0#64 s
  | .parked => endUndispatched i .cancelled 0#16 0#64 s
  | .inService => if r.interruptible && r.mark.isNone then abortJob i .cancelled s else s
  | .free => s
  | .done => s

/-- R147: the status of a CANCEL of one slot. -/
def cancelStatus (r : SlotRec) : Status :=
  match r.state with
  | .requested => .ok
  | .parked => .ok
  | .inService => if r.interruptible then .ok else .notInterruptible
  | .free => .nothingToCancel
  | .done => .nothingToCancel

/-- R148: the slots a bay-wide CANCEL of a slot finds, in ascending order. -/
def State.cancelSet (s : State) (own : Slot) (bay : Byte) : List Slot :=
  allSlots.filter (fun i => i ≠ own && s.slots[i.val].card.bay = bay && cancelStatus s.slots[i.val] = .ok)

/-- R147, R148: a CANCEL card is carried out and ends. -/
def carryOutCancel (own : Slot) (c : Card) (s : State) : State :=
  if c.param 0 = 1 then
    match slotOf (c.param 1) with
    | some i => endUndispatched own (cancelStatus s.slots[i.val]) 0#16 0#64 (cancelTarget i s)
    | none => s
  else
    let found := s.cancelSet own c.bay
    endUndispatched own .ok 0#16 (BitVec.ofNat 64 found.length) (forEach found cancelTarget s)

/-! ### POST (R128 to R131) -/

/-- R128: a POST of a slot is taken for intake. -/
def State.takesPost (s : State) (i : Slot) : Bool :=
  s.ctl.device = .running && (s.slots[i.val].state = .free || s.slots[i.val].state = .done)

/-- R125, R128: the copied card and the accept time. -/
def copyCard (i : Slot) (c : Card) (s : State) : State :=
  s.modSlot i (fun r => { SlotRec.reset with state := r.state, card := c, accept := s.now })

/-- R131, PARK set: the slot becomes PARKED. -/
def parkSlot (i : Slot) (s : State) : State :=
  writeAcceptance i .parked s.now (s.modSlot i (fun r => { r with state := .parked }))

/-- R131: an accepted card. -/
def acceptCard (i : Slot) (c : Card) (park : Bool) (s : State) : State :=
  if c.jobKind = some .cancel then carryOutCancel i c (writeCardTime i 0x48 s.now.toNat s)
  else if park then parkSlot i s
  else writeAcceptance i .requested s.now (requestSlot i s.now s)

/-- R128 to R131: a POST of a slot taken for intake. -/
def takePost (i : Slot) (park : Bool) (s : State) : State :=
  let c := readCard s.mem i
  let s1 := copyCard i c s
  match intake s.ctl.enabled i c with
  | .badBay => raiseFixture .badPost (closeCard i .badCard (detailOf .bayRange 0) 0#64 s.now s1)
  | .failed st detail => endUndispatched i st detail 0#64 s1
  | .accepted => acceptCard i c park s1

/-- R128: a write to POST. -/
def execPost (value : Word) (s : State) : Host.Outcome State Fault Refusal :=
  commit s (match slotOf (postSlot value) with
    | some i => if s.takesPost i then takePost i (postPark value) s else raiseFixture .badPost s
    | none => raiseFixture .badPost s)

/-! ### BAYHOLD (R134) -/

/-- R134: a write to BAYHOLD: the set mask, then the clear mask. -/
def execBayhold (value : Word) (s : State) : Host.Outcome State Fault Refusal :=
  commit s { s with disp := { s.disp with hold := (s.disp.hold ||| holdSetMask value) &&& ~~~ holdClearMask value } }

/-! ### Ends (R140) -/

/-- R138: a bay moves to the end of the engine rotation order. -/
def rotate (b : Bay) (s : State) : State :=
  { s with disp := { s.disp with rotation := s.disp.rotation.filter (fun x => x ≠ b) ++ [b] } }

/-- R140 step 2: the in-service map entry becomes none. -/
def leaveService (i : Slot) (s : State) : State :=
  let c := s.slots[i.val].card
  match c.lane with
  | some l => s.modLane c.bayIx l (fun q => { q with service := none })
  | none => s

/-- R140 step 6: a SCAN job's bay moves in the rotation order, and its engine is IDLE. -/
def freeEngine (i : Slot) (s : State) : State :=
  let c := s.slots[i.val].card
  if c.jobKind = some .scan then
    let s1 := rotate c.bayIx s
    match s.engineOf c.bayIx with
    | some e => s1.modEng e (fun _ => Engine.reset)
    | none => s1
  else s

/-- R140, R151: the end that a report gives: a SETUP-lane job marked at STOP ends STOPPED. -/
def SlotRec.endStatus (r : SlotRec) (p : Report) : Status := if r.stopMark then .stopped else p.status

/-- R140: the Dispatcher takes the end of a job. -/
def execJobEnd (i : Slot) (s : State) : Host.Outcome State Fault Refusal :=
  let r := s.slots[i.val]
  commit s (match r.report with
    | some p =>
      if r.state = .inService then
        freeEngine i (endSteps i (leaveService i (closeCard i (r.endStatus p) p.detail p.result p.time s)))
      else s
    | none => s)

/-! ### Deadlines (R144, R145) -/

/-- R143: a slot's deadline expires at this instant. -/
def State.expires (s : State) (i : Slot) : Bool :=
  s.slots[i.val].deadline.any (fun d => s.passed d.base d.limit)

/-- R144, R145: the deadline of a slot expires. -/
def execDeadlineExpiry (i : Slot) (s : State) : Host.Outcome State Fault Refusal :=
  commit s (if s.expires i then
      match s.slots[i.val].state with
      | .requested => endUndispatched i .timeout 0#16 0#64 s
      | .inService => if s.slots[i.val].interruptible then abortJob i .timeout s else s
      | _ => s
    else s)

/-! ### STOP (R151) -/

/-- R151 step 1: a REQUESTED or PARKED slot is ended STOPPED. -/
def stopWaiting (i : Slot) (s : State) : State :=
  if s.slots[i.val].state = .requested || s.slots[i.val].state = .parked then endStopped i s else s

/-- R151 step 2: an ACCESS-lane or DRIVE-lane slot in service without a mark is asked to abort. -/
def stopService (i : Slot) (s : State) : State :=
  let r := s.slots[i.val]
  if r.state = .inService && r.interruptible && r.mark.isNone then abortJob i .stopped s else s

/-- R151 step 3: a SETUP-lane slot in service is marked to end STOPPED. A job that has reported its end keeps its
status: an ARM that took effect before the disarm completed OK before it (R123). -/
def stopSetup (i : Slot) (s : State) : State :=
  let r := s.slots[i.val]
  if r.state = .inService && r.card.lane = some .setup && r.report.isNone then
    s.modSlot i (fun r => { r with stopMark := true })
  else s

/-- R134, R151 step 4: the hold set becomes empty. -/
def clearHold (s : State) : State := { s with disp := { s.disp with hold := 0#8 } }

/-- R151: Control's request at STOP. -/
def dispatcherStop (s : State) : State :=
  clearHold (forEach allSlots stopSetup (forEach allSlots stopService (forEach allSlots stopWaiting s)))

end Sys2Proof.Machine
end

