-- ==== Sys2Proof/Machine/Rails.lean ====
section
/-! DEFINITION. The Rail Scanner (chapter 4): the scan order, a conversion and its judgement. -/

namespace Sys2Proof.Machine

/-- R71: the ticks of a conversion. -/
def conversionTicks : Nat := 2000

/-- R73: the value in mV of a code. -/
def railValue (fullScale : Nat) (code : BitVec 12) : Nat := code.toNat * fullScale / 4096

/-- R74 to R76: the window state after a value, from the state before. -/
def Rail.judge (r : Rail) (v : Nat) : RailWindow :=
  match r.window with
  | .low =>
    if r.highLimit < v then .high
    else if r.lowLimit + r.hyst ≤ v && v ≤ r.highLimit - r.hyst then .inside
    else .low
  | .high =>
    if v < r.lowLimit then .low
    else if r.lowLimit + r.hyst ≤ v && v ≤ r.highLimit - r.hyst then .inside
    else .high
  | _ => if v < r.lowLimit then .low else if r.highLimit < v then .high else .inside

/-- R74 to R76: the change from one window state to another is a transition. -/
def isTransition (before after : RailWindow) : Bool :=
  before ≠ after && !(before = .unknown && after = .inside)

/-- R71: the first enabled bay of a list after a bay, else the lowest-numbered enabled bay. -/
def State.nextBay (s : State) (b : Bay) : Bay :=
  ((s.enabledBays.find? (fun x => b < x)).or s.enabledBays.head?).getD b

/-- R71: the position after a rail in scan order. -/
def State.nextPosition (s : State) (b : Bay) (r : RailId) : Bay × RailId :=
  if r = 2 then (s.nextBay b, 0) else (b, r + 1)

/-- R71: a conversion begins at a position, at this instant. -/
def beginConversion (p : Bay × RailId) (s : State) : State :=
  { s with scanner := ⟨some p, some ⟨p.1, p.2, s.now⟩⟩ }

/-- R77: the effects of a transition. -/
def railTransition (b : Bay) (r : RailId) (before after : RailWindow) (v : Nat) (s : State) : State :=
  conditionEvent b (.rail r before after v) (offer b (.rail r after v) s.now s)

/-- R73, R77, R78: the end of a conversion of a rail with a code. The rail's three fields are written whether or not
they have changed. -/
def endConversion (b : Bay) (r : RailId) (code : BitVec 12) (s : State) : State :=
  let x := s.rail[b.val][r.val]
  let v := railValue x.fullScale code
  let after := x.judge v
  let s1 := s.modRail b r (fun x => { x with value := v, window := after, lastConv := some s.now })
  let s2 := if isTransition x.window after then railTransition b r x.window after v s1 else s1
  rewrite (railFields s2 b r) s2

/-- R71, R73: a conversion ends with the converter's code, and the next begins. -/
def execConversion (code : BitVec 12) (s : State) : Host.Outcome State Fault Refusal :=
  commit s (match s.scanner.conv with
    | some c =>
      if s.ctl.device = .running && s.passed c.start conversionTicks then
        beginConversion (s.nextPosition c.bay c.rail) (endConversion c.bay c.rail code s)
      else s
    | none => s)

end Sys2Proof.Machine
end

