-- ==== Sys2Proof/Machine/TimeBase.lean ====
section
/-! DEFINITION. The Time Base (chapter 1): the bench reference, the source, the SYNC input and the reading of the
count. -/

namespace Sys2Proof.Machine

/-- R4: the ticks after the run start at which each milestone is raised. -/
def refMilestoneTicks : Nat → Nat
  | 1 => 10000
  | 2 => 100000
  | 3 => 400000
  | 4 => 1600000
  | _ => 0

/-- R5: the ticks without a rising edge that are a reference loss. -/
def refGap : Nat := 40

/-- R11: the hold of the SYNC input. -/
def syncHold : Nat := 100

/-- The Time Base changed. -/
def State.modTime (f : TimeBase → TimeBase) (s : State) : State := { s with time := f s.time }

/-- Control changed. -/
def State.modCtl (f : Control → Control) (s : State) : State := { s with ctl := f s.ctl }

/-- R191: the last command outcome. -/
def setOutcome (o : CmdOutcome) (s : State) : State := s.modCtl (fun c => { c with outcome := o })

/-- R9, R10: a change of source at this instant: SOURCE records to every accepting stream, and the SOURCE factor. -/
def switchSource (src : Source) (cause : SourceCause) (s : State) : State :=
  raiseFixture .source
    (offerAll (.source src cause s.time.milestone) s.now (s.modTime (fun t => { t with source := src })))

/-- R4: a first rising edge begins a qualification run. -/
def execQualificationRunStart (s : State) : Host.Outcome State Fault Refusal :=
  commit s (match s.time.run with
    | none => s.modTime (fun t => { t with run := some ⟨s.now, s.now⟩ })
    | some _ => s)

/-- R4: a rising edge within 40 ticks of the one before it continues the run. -/
def execReferenceRisingEdge (s : State) : Host.Outcome State Fault Refusal :=
  commit s (match s.time.run with
    | some r =>
      if elapsed r.lastEdge s.now ≤ refGap then
        s.modTime (fun t => { t with run := some { r with lastEdge := s.now } })
      else s
    | none => s)

/-- R4: the next milestone of the run in progress is raised at its instant. -/
def execReferenceMilestoneRaise (s : State) : Host.Outcome State Fault Refusal :=
  commit s (match s.time.run with
    | some r =>
      if s.time.milestone < 4 && s.passed r.start (refMilestoneTicks (s.time.milestone + 1)) then
        s.modTime (fun t => { t with milestone := t.milestone + 1 })
      else s
    | none => s)

/-- R5, R8: reference loss ends the run, and falls back to INTERNAL when BENCH is selected. -/
def execReferenceLoss (s : State) : Host.Outcome State Fault Refusal :=
  commit s (match s.time.run with
    | some r =>
      if s.passed r.lastEdge refGap then
        let s1 := s.modTime (fun t => { t with run := none, milestone := 0 })
        if s.time.source = .bench then switchSource .internal .loss s1 else s1
      else s
    | none => s)

/-- R6: SELECT_BENCH. -/
def execSelectBench (s : State) : Host.Outcome State Fault Refusal :=
  commit s (if s.time.milestone = 4 then
      setOutcome .accepted (if s.time.source = .internal then switchSource .bench .select s else s)
    else setOutcome .refused s)

/-- R7: SELECT_INTERNAL. -/
def execSelectInternal (s : State) : Host.Outcome State Fault Refusal :=
  commit s (setOutcome .accepted (if s.time.source = .bench then switchSource .internal .select s else s))

/-- R11: a raw change of SYNC begins a pending change, or drops the one pending. At exactly 100 ticks the change may be
taken before the capture or the qualified fall, and then it drops what was pending (notes/assumptions/38.md). -/
def execSyncRawChange (s : State) : Host.Outcome State Fault Refusal :=
  commit s (s.modTime (fun t =>
    { t with
      syncRaw := !t.syncRaw
      syncPending := match t.syncPending with
        | none => some s.now
        | some _ => none }))

/-- R12: a qualified SYNC rise with its raw time: the capture, the SYNC records, and both values written in the device
mirror, the last SYNC time also when it is the one held (notes/assumptions/39.md). -/
def captureSync (raw : Tick) (s : State) : State :=
  let s1 := offerAll (.sync (s.time.syncCount + 1#32)) raw (s.modTime (fun t =>
    { t with
      syncQual := true
      syncPending := none
      lastSync := raw
      syncCount := t.syncCount + 1#32 }))
  rewrite (syncFields s1) s1

/-- R11, R12: a rise held for 100 ticks qualifies and is captured. -/
def execSyncCapture (s : State) : Host.Outcome State Fault Refusal :=
  commit s (match s.time.syncPending with
    | some raw => if !s.time.syncQual && s.passed raw syncHold then captureSync raw s else s
    | none => s)

/-- R11: a fall held for 100 ticks makes the qualified level low. -/
def execSyncQualifiedFall (s : State) : Host.Outcome State Fault Refusal :=
  commit s (match s.time.syncPending with
    | some raw =>
      if s.time.syncQual && s.passed raw syncHold then
        s.modTime (fun t => { t with syncQual := false, syncPending := none })
      else s
    | none => s)

/-- R189: a register read returns its bytes to the host. -/
def returnRead (lanes : BitVec 4) (v : Word) (s : State) : State :=
  { s with link := { s.link with readData := laneBytes lanes v } }

/-- R13: bits 47 to 32 of the count. -/
def countHigh (t : Tick) : Word := (t >>> 32).setWidth 32

/-- R13, R14: bits 31 to 0 of the count. -/
def countLow (t : Tick) : Word := t.setWidth 32

/-- R13: a read of TIME_HIGH latches the lower bits. -/
def execTimeHighRead (lanes : BitVec 4) (s : State) : Host.Outcome State Fault Refusal :=
  commit s (returnRead lanes (countHigh s.now)
    (s.modTime (fun t => { t with latch := countLow s.now, latchValid := true })))

/-- R14: what a read of TIME_LOW returns. -/
def timeLowValue (s : State) : Word := if s.time.latchValid then s.time.latch else countLow s.now

/-- R14: a read of TIME_LOW clears the latch valid flag. -/
def execTimeLowRead (lanes : BitVec 4) (s : State) : Host.Outcome State Fault Refusal :=
  commit s (returnRead lanes (timeLowValue s) (s.modTime (fun t => { t with latchValid := false })))

end Sys2Proof.Machine
end

