-- ==== Sys2Proof/WellFormed.lean ====
section
/-! DEFINITION. Which commands are well formed: the operand checks that the types of Syntax.lean do not make. -/

namespace Sys2Proof

/-- R189: the registers a full 32-bit write acts on (CONTROL, POST, RELEASE, BAYHOLD). -/
def actsOnWrite (offset : Nat) : Bool :=
  offset = 0x08 || offset = 0x0C || offset = 0x10 || offset = 0x14

/-- R191, 12.9: the five command codes of CONTROL. -/
def knownCommand (code : Word) : Bool :=
  1 ≤ code.toNat && code.toNat ≤ 5

/-- R189: a register write is ignored when it is short, or when its offset is not one of the four a write acts on. -/
def ignoredWrite (offset : Nat) (lanes : BitVec 4) : Bool :=
  lanes ≠ 15#4 || !actsOnWrite offset

/-- A register access of no byte is no access. -/
def someLane (lanes : BitVec 4) : Bool := lanes ≠ 0#4

namespace Instr

/-- The operand checks: a read takes 1 to 4 bytes (R189), an unknown command is none of the five codes (R191), an
ignored write is one that R189 ignores, and a shift captures at most 4,096 bits (R163). -/
def wf : Instr → Bool
  | .timeHighRead lanes => someLane lanes
  | .timeLowRead lanes => someLane lanes
  | .noticeRead lanes => someLane lanes
  | .unknownCommand code => !knownCommand code
  | .registerWriteIgnored offset lanes _ => someLane lanes && ignoredWrite offset lanes
  | .shiftEnd _ tdo => tdo.log2 < 4096
  | _ => true

end Instr

end Sys2Proof
end

