-- ==== Sys2Proof/Machine/Control.lean ====
section
/-! DEFINITION. Control (chapter 10) and the Notice Unit's read (chapter 11): the resets, START and its sequence, STOP,
the return to IDLE, the host link, NOTICE and the register accesses without an effect. -/

namespace Sys2Proof.Machine

/-! ### Resets (R2, R190, R198) -/

/-- R190: every block at its reset values. Card memory, the input pins, the link and the waiting commands stay, and the
counts of draws go on. -/
def resetBlocks (s : State) : State :=
  { State.reset with
    time := TimeBase.reset s.time.syncRaw
    link := s.link
    mon := s.mon.map Monitor.reset
    mem := s.mem
    draws := s.draws
    checkDraws := s.checkDraws
    pending := s.pending }

/-- R28, R206, 12.7: the items that START's first writes give a stream table entry, its reserved bytes 0. -/
def startStreamItems : List (List Byte) :=
  [leBytes 1 0, leBytes 1 1, leBytes 1 1, leBytes 1 0, leBytes 2 0, leBytes 2 0xFFFF, leBytes 4 0, leBytes 4 0,
    leBytes 4 0, leBytes 4 0] ++ List.replicate 40 [0#8]

/-- The pages in ascending order. -/
def allPages : List Page := List.finRange 2048

/-- R126, R194, R206: the three groups of writes of the INITIALISING step, in their order: the card states, the stream
table, the page state map. Of a card its state byte alone is written, and no reserved byte (notes/assumptions/49.md). -/
def initialWrites : List (List Field) :=
  [allSlots.map (fun i => fld (cardAddr i + 0x40) 1 0),
    allBays.flatMap (fun b => fieldsFrom (streamAddr b) startStreamItems),
    allPages.map (fun p => fld (mapAddr p) 1 0)]

/-- R195, R198: a reset while the INITIALISING step is in progress leaves memory with some of its writes made. Within a
group they are made in any order (notes/assumptions/3.md). -/
def abandonStart (s : State) : State :=
  if s.ctl.startSeq = .initialising then
    { s with mem := s.mem.cutWrites initialWrites (Config.groupsDone s.draws) s.draws, draws := s.draws + 1 }
  else s

/-- R164, R188, R198: a reset during a result write of an engine leaves memory with some of its accesses made
(notes/assumptions/47.md). -/
def abandonResult (e : EngineId) (s : State) : State :=
  match s.eng[e.val].resultField with
  | some f =>
    { s with mem := s.mem.cutWrites [[f]] (Config.groupsDone s.draws) s.draws, draws := s.draws + 1 }
  | none => s

/-- R186: card memory after power-on: every byte undefined. -/
def powerOnMemory (draw : Nat) : Memory :=
  (List.range cardMemorySize).filterMap (fun a =>
    if Config.powerOnByte draw a = 0#8 then none else some (a, Config.powerOnByte draw a))

/-- R2, R186, R190: power-on reset. -/
def execPowerOnReset (s : State) : Host.Outcome State Fault Refusal :=
  commitReset s { resetBlocks s with mem := powerOnMemory s.draws, draws := s.draws + 1 }

/-- R190: whether a link event can come, from the state of the link. -/
def Link.canReset (l : Link) (c : LinkResetCause) : Bool :=
  match c with
  | .hotReset => true
  | .linkReturn => l.down
  | .perstRelease => l.perst

/-- R190: the link after a link reset. -/
def Link.after (l : Link) (c : LinkResetCause) : Link :=
  match c with
  | .hotReset => l
  | .linkReturn => { l with down := false }
  | .perstRelease => { l with perst := false }

/-- R21, R164, R195, R198: what a reset that keeps card memory abandons: the writer service in flight, the start
sequence, and the result writes of the engines. What each had written is a free choice (notes/assumptions/3.md,
notes/assumptions/37.md, notes/assumptions/47.md). -/
def abandonWork (s : State) : State := forEach [0, 1] abandonResult (abandonStart (abandonService s))

/-- R21, R190, R195: a link reset. -/
def execLinkReset (c : LinkResetCause) (s : State) : Host.Outcome State Fault Refusal :=
  if s.link.canReset c then
    let s1 := abandonWork s
    commitReset s1 (resetBlocks { s1 with link := s1.link.after c })
  else .next s

/-- R21, R198: RESTART. -/
def execRestart (s : State) : Host.Outcome State Fault Refusal :=
  let s1 := abandonWork s
  commitReset s1 (setOutcome .accepted (resetBlocks s1))

/-! ### START (R191 to R194) -/

/-- R191, R192: START. -/
def execStart (s : State) : Host.Outcome State Fault Refusal :=
  commit s (if s.ctl.device = .idle && s.ctl.startSeq = .none then
      s.modCtl (fun c => { c with startSeq := .reading, outcome := .pending, earlyBytes := [] })
    else setOutcome .refused s)

/-- R192: the bytes that the READING step has read, each as it stood at its reading: card memory, but for the bytes
read before a write changed them. -/
def State.profileRead (s : State) : Memory := s.mem.asRead s.ctl.earlyBytes

/-- R192: a START refused by a check: its outcome, error and index are written into the device mirror, whether or not
the mirror's items have changed. -/
def refuseStart (e : ProfileError) (i : Nat) (s : State) : State :=
  let s1 := s.modCtl (fun c =>
    { c with startSeq := .none, outcome := .refused, profileError := e, errorIndex := i })
  rewrite (refusalFields s1) s1

/-- R192, R193: the read of the profile ends. -/
def execProfileReadEnd (s : State) : Host.Outcome State Fault Refusal :=
  commit s (if s.ctl.startSeq = .reading then
      match profileCheck s.profileRead with
      | some (e, i) => refuseStart e i s
      | none =>
        s.modCtl (fun c =>
          { c with
            startSeq := .initialising
            copy := some (readProfile s.profileRead)
            profileError := .none
            errorIndex := 0 })
    else s)

/-- R49, R57: a Line Monitor at the start instant. -/
def Monitor.started (on : Bool) (p : BayProfile) (m : Monitor) : Monitor where
  lines := Vector.ofFn (fun l : Fin 6 =>
    let x := m.lines[l.val]
    let level := on && x.pin
    { pin := x.pin, raw := level, qual := level, edge := none, q := micros p.qualMicros[l.val] })
  settleBase := none
  milestone := if on && m.lines[0].pin then 8 else 0

/-- R69, R70: a rail at the start instant. -/
def Rail.started (p : RailProfile) : Rail :=
  { Rail.reset with fullScale := p.fullScale, lowLimit := p.low, highLimit := p.high, hyst := p.hyst }

/-- R69: rail r of bay b is input 3 b + r. -/
def ProfileCopy.rail (p : ProfileCopy) (b : Bay) (r : RailId) : RailProfile :=
  p.rails[3 * b.val + r.val]'(by omega)

/-- R175: a Line Driver at the start instant. -/
def Driver.started (on : Bool) (p : BayProfile) : Driver where
  lines := Vector.ofFn (fun d : Fin 4 =>
    { DrvLine.reset with rest := p.rest[d.val], level := if on then some p.rest[d.val] else none })
  job := none

/-- R200: the Notice Unit at the start instant. -/
def Notices.started (p : ProfileCopy) (n : Notices) : Notices where
  pend := Vector.ofFn (fun g : Fin 9 => if g = 0 then n.pend[0] else 0#4)
  level := Vector.ofFn (fun b : Fin 8 => p.bays[b.val].level)
  enable := Vector.ofFn (fun b : Fin 8 => p.bays[b.val].enables)

/-- R194: Control at the start instant. -/
def Control.started (p : ProfileCopy) (c : Control) : Control :=
  { c with
    device := .running
    startSeq := .none
    outcome := .accepted
    runNumber := c.runNumber + 1#32
    enabled := p.mask
    clampCount := saturate 0xFFFF p.clampCount
    firstClamp := p.firstClamp }

/-- R194: every block at its START values, with a profile copy. Card memory is not yet written. -/
def startBlocks (p : ProfileCopy) (s : State) : State :=
  let on (b : Fin 8) : Bool := p.mask.getLsbD b.val
  let first : Option (Bay × RailId) := (allBays.find? on).map (fun b => (b, 0))
  { s with
    ctl := s.ctl.started p
    notices := s.notices.started p
    mon := Vector.ofFn (fun b : Fin 8 => s.mon[b.val].started (on b) p.bays[b.val])
    code := Vector.replicate 8 CodeRx.reset
    rail := Vector.ofFn (fun b : Fin 8 => Vector.ofFn (fun r : Fin 3 => Rail.started (p.rail b r)))
    scanner := ⟨first, first.map (fun x => ⟨x.1, x.2, s.now⟩)⟩
    con := Vector.ofFn (fun b : Fin 8 => { Console.reset with divisor := p.bays[b.val].divisor })
    seq := Vector.replicate 8 Sequencer.reset
    drv := Vector.ofFn (fun b : Fin 8 => Driver.started (on b) p.bays[b.val])
    str := Vector.ofFn (fun b : Fin 8 => Stream.started p.bays[b.val].k)
    pool := { Pool.reset with lowThreshold := p.poolLow }
    slots := Vector.replicate 64 SlotRec.reset
    lanes := Vector.replicate 8 (Vector.replicate 3 LaneQ.reset)
    disp := { Dispatcher.reset with arbitration := p.arbitration }
    eng := Vector.replicate 2 Engine.reset
    port := Vector.ofFn (fun b : Fin 8 => ⟨.unknown, p.bays[b.val].tck⟩) }

/-- R194, R206: the writes of the INITIALISING step made, and the status block with its reserved bytes 0. -/
def startMemory (m : Memory) : Memory :=
  (initialWrites.flatten.foldl Memory.writeField m).zeroRange 0x001000 0x002000

/-- R194: the start instant. The status block is then written whole (R199). -/
def execStartInstant (s : State) : Host.Outcome State Fault Refusal :=
  if s.ctl.startSeq = .initialising then
    match s.ctl.copy with
    | some p => .next (signalLine s (publishAll { startBlocks p s with mem := startMemory s.mem }))
    | none => .next s
  else .next s

/-! ### STOP and the return to IDLE (R196, R197) -/

/-- R123: Control's request to the sequencer of a bay. -/
def disarmBay (b : Bay) (s : State) : State := s.modSeq b Sequencer.disarm

/-- R72, R196: the device is STOPPING, and the conversion in progress is abandoned. -/
def enterStopping (s : State) : State :=
  let s1 := s.modCtl (fun c => { c with device := .stopping, outcome := .accepted })
  { s1 with scanner := { s1.scanner with conv := none } }

/-- R196: STOP taken in RUNNING: the requests in their order. -/
def stopDevice (s : State) : State :=
  let bays := s.enabledBays
  forEach bays stopStream (forEach bays standDown (dispatcherStop (forEach bays disarmBay (enterStopping s))))

/-- R191, R196: STOP. -/
def execStop (s : State) : Host.Outcome State Fault Refusal :=
  commit s (if s.ctl.device = .running then stopDevice s else setOutcome .refused s)

/-- R197: every condition of the return to IDLE holds. -/
def State.settled (s : State) : Bool :=
  s.ctl.device = .stopping
    && s.eng[0].state = .idle && s.eng[1].state = .idle
    && s.countSlots .parked = 0 && s.countSlots .requested = 0 && s.countSlots .inService = 0
    && s.enabledBays.all (fun b => s.str[b.val].state = .stopped)

/-- R49: a stopped monitored line drops its pending edge. -/
def MonLine.stopped (l : MonLine) : MonLine := { l with raw := l.qual, edge := none }

/-- R49, R58, R80, R175: the blocks at the return to IDLE. The fields of the driven lines then show them undriven
(notes/assumptions/42.md), and every receiver is IDLE, one in BREAK_CHECK or BREAK_HOLD too (notes/assumptions/44.md). -/
def idleBlocks (s : State) : State :=
  { s with
    ctl := { s.ctl with device := .idle }
    mon := s.mon.map (fun m => { m with lines := m.lines.map MonLine.stopped })
    code := s.code.map (fun c => { c with state := .idle, bits := 0 })
    con := s.con.map (fun c => { c with rx := .idle })
    drv := s.drv.map (fun d => { d with lines := d.lines.map (fun l => { l with level := none }) }) }

/-- R197: the return to IDLE. -/
def execReturnToIdle (s : State) : Host.Outcome State Fault Refusal :=
  commit s (if s.settled then idleBlocks s else s)

/-- R191: a command code that is none of the five. -/
def execUnknownCommand (code : Word) (s : State) : Host.Outcome State Fault Refusal :=
  commit s (if knownCommand code then s else setOutcome .refused s)

/-! ### The link (R190) -/

/-- R190: the link goes down or PERST# is asserted: the device goes on in its state. -/
def execLinkDown (c : LinkDownCause) (s : State) : Host.Outcome State Fault Refusal :=
  commit s (match c with
    | .linkLost => { s with link := { s.link with down := true } }
    | .perstAsserted => { s with link := { s.link with perst := true } })

/-! ### NOTICE (R189, R203) -/

/-- R203, 12.9: the value a NOTICE read returns. -/
def noticeValue : Option (Fin 9 × Fin 4) → Word
  | none => 0xFFFF#32
  | some (g, f) => BitVec.ofNat 32 (256 * g.val + f.val)

/-- R203: the factor a NOTICE read takes is cleared. -/
def takeNotice (s : State) : State :=
  match s.notices.choose with
  | none => s
  | some (g, f) => { s with notices := s.notices.clear g f }

/-- R189, R203: a read of NOTICE by some of its byte lanes. -/
def execNoticeRead (lanes : BitVec 4) (s : State) : Host.Outcome State Fault Refusal :=
  commit s (returnRead lanes (noticeValue s.notices.choose) (takeNotice s))

/-! ### Accesses without an effect (R189) -/

/-- R189: a short write, a write to a read-only register and a write at or above 0x24 are ignored. -/
def execRegisterWriteIgnored (_offset : Nat) (_lanes : BitVec 4) (_value : Word) (s : State) :
    Host.Outcome State Fault Refusal :=
  .next s

end Sys2Proof.Machine
end

