-- ==== Sys2Proof/Machine/Streams.lean ====
section
/-! DEFINITION. The commands of the Trace Writer and the page pool (chapter 2). -/

namespace Sys2Proof.Machine

/-- R20, R33: a writer service of the head record of the bay next in rotation. -/
def execWriteRecord (s : State) : Host.Outcome State Fault Refusal :=
  commit s (match s.nextService with
    | some (b, .record) => serveRecord b s
    | _ => s)

/-- R20, R31: a writer service of the page work of a FLUSH. -/
def execFlushClose (s : State) : Host.Outcome State Fault Refusal :=
  commit s (match s.nextService with
    | some (b, .flush) => serveFlush b s
    | _ => s)

/-- R20, R46: a writer service that ends a drain. -/
def execDrainEnd (s : State) : Host.Outcome State Fault Refusal :=
  commit s (match s.nextService with
    | some (b, .drain) => serveDrain b s
    | _ => s)

/-- R34: a stream's t_last lapses 2^46 ticks after it when no record has been written since
(notes/assumptions/18.md). -/
def execTLastLapse (b : Bay) (s : State) : Host.Outcome State Fault Refusal :=
  let t := s.str[b.val]
  commit s (match t.tLast with
    | some last =>
      if !t.lapsed && !t.wroteSince && s.passed last lapseAge then s.modStr b (fun t => { t with lapsed := true })
      else s
    | none => s)

/-- R22: a page is CLOSED. -/
def PageState.isClosed : PageState → Bool
  | .closed _ => true
  | _ => false

/-- R26: a page returned to the tail of the free list. -/
def freePage (p : Page) (s : State) : State :=
  let s1 := setPage p .free s
  { s1 with pool := { s1.pool with freeList := s1.pool.freeList ++ [p] } }

/-- R26: a RELEASE write. -/
def execRelease (value : Word) (s : State) : Host.Outcome State Fault Refusal :=
  commit s (if h : releasePage value < 2048 then
      if s.pool.map[releasePage value].isClosed then freePage ⟨releasePage value, h⟩ s
      else raiseFixture .badRelease s
    else raiseFixture .badRelease s)

end Sys2Proof.Machine
end

