-- ==== Sys2Proof/Machine/Dispatch.lean ====
section
/-! DEFINITION. The dispatch: one arm per command, each a call of its meaning. -/

namespace Sys2Proof.Machine

def exec (i : Instr) (s : State) : Host.Outcome State Fault Refusal :=
  match i with
  | .powerOnReset => Sys2Proof.Machine.execPowerOnReset s
  | .linkReset cause => Sys2Proof.Machine.execLinkReset cause s
  | .qualificationRunStart => Sys2Proof.Machine.execQualificationRunStart s
  | .referenceMilestoneRaise => Sys2Proof.Machine.execReferenceMilestoneRaise s
  | .referenceLoss => Sys2Proof.Machine.execReferenceLoss s
  | .selectBench => Sys2Proof.Machine.execSelectBench s
  | .selectInternal => Sys2Proof.Machine.execSelectInternal s
  | .syncRawChange => Sys2Proof.Machine.execSyncRawChange s
  | .syncCapture => Sys2Proof.Machine.execSyncCapture s
  | .syncQualifiedFall => Sys2Proof.Machine.execSyncQualifiedFall s
  | .timeHighRead lanes => Sys2Proof.Machine.execTimeHighRead lanes s
  | .timeLowRead lanes => Sys2Proof.Machine.execTimeLowRead lanes s
  | .writeRecord => Sys2Proof.Machine.execWriteRecord s
  | .flushClose => Sys2Proof.Machine.execFlushClose s
  | .drainEnd => Sys2Proof.Machine.execDrainEnd s
  | .tLastLapse b => Sys2Proof.Machine.execTLastLapse b s
  | .release value => Sys2Proof.Machine.execRelease value s
  | .lineRawChange b line => Sys2Proof.Machine.execLineRawChange b line s
  | .lineQualify b line => Sys2Proof.Machine.execLineQualify b line s
  | .settleMilestoneRaise b => Sys2Proof.Machine.execSettleMilestoneRaise b s
  | .codeArrival b cond => Sys2Proof.Machine.execCodeArrival b cond s
  | .codeErr b cond => Sys2Proof.Machine.execCodeErr b cond s
  | .codeFrameStall b => Sys2Proof.Machine.execCodeFrameStall b s
  | .stallReferenceLapse b => Sys2Proof.Machine.execStallReferenceLapse b s
  | .conversion code => Sys2Proof.Machine.execConversion code s
  | .falseStart b => Sys2Proof.Machine.execFalseStart b s
  | .goodByte b => Sys2Proof.Machine.execGoodByte b s
  | .framingError b => Sys2Proof.Machine.execFramingError b s
  | .breakSettled b => Sys2Proof.Machine.execBreakSettled b s
  | .batchIdleClose b => Sys2Proof.Machine.execBatchIdleClose b s
  | .characterEnd b => Sys2Proof.Machine.execCharacterEnd b s
  | .gapEnd b => Sys2Proof.Machine.execGapEnd b s
  | .codeStallEvent b => Sys2Proof.Machine.execCodeStallEvent b s
  | .elapsedEvent b => Sys2Proof.Machine.execElapsedEvent b s
  | .armReadEnd b => Sys2Proof.Machine.execArmReadEnd b s
  | .post value => Sys2Proof.Machine.execPost value s
  | .bayhold value => Sys2Proof.Machine.execBayhold value s
  | .dispatch b lane => Sys2Proof.Machine.execDispatch b lane s
  | .jobEnd slot => Sys2Proof.Machine.execJobEnd slot s
  | .deadlineExpiry slot => Sys2Proof.Machine.execDeadlineExpiry slot s
  | .loadingEnd e => Sys2Proof.Machine.execLoadingEnd e s
  | .entryPathEnd e => Sys2Proof.Machine.execEntryPathEnd e s
  | .tdiRegionRead e => Sys2Proof.Machine.execTdiRegionRead e s
  | .resetTap e => Sys2Proof.Machine.execResetTap e s
  | .shiftEnd e tdo => Sys2Proof.Machine.execShiftEnd e tdo s
  | .resultWrite e => Sys2Proof.Machine.execResultWrite e s
  | .idleStepEnd e => Sys2Proof.Machine.execIdleStepEnd e s
  | .scanDelayEnd e => Sys2Proof.Machine.execScanDelayEnd e s
  | .check e => Sys2Proof.Machine.execCheck e s
  | .endStep e => Sys2Proof.Machine.execEndStep e s
  | .scanPowerLossStop e => Sys2Proof.Machine.execScanPowerLossStop e s
  | .lineDelayEnd b line => Sys2Proof.Machine.execLineDelayEnd b line s
  | .widthEnd b line => Sys2Proof.Machine.execWidthEnd b line s
  | .start => Sys2Proof.Machine.execStart s
  | .profileReadEnd => Sys2Proof.Machine.execProfileReadEnd s
  | .startInstant => Sys2Proof.Machine.execStartInstant s
  | .stop => Sys2Proof.Machine.execStop s
  | .returnToIdle => Sys2Proof.Machine.execReturnToIdle s
  | .restart => Sys2Proof.Machine.execRestart s
  | .unknownCommand code => Sys2Proof.Machine.execUnknownCommand code s
  | .noticeRead lanes => Sys2Proof.Machine.execNoticeRead lanes s
  | .registerWriteIgnored offset lanes value => Sys2Proof.Machine.execRegisterWriteIgnored offset lanes value s
  | .referenceRisingEdge => Sys2Proof.Machine.execReferenceRisingEdge s
  | .codeStartCondition b => Sys2Proof.Machine.execCodeStartCondition b s
  | .codeClkEdge b edge dat => Sys2Proof.Machine.execCodeClkEdge b edge dat s
  | .conRxFall b => Sys2Proof.Machine.execConRxFall b s
  | .bitSample b level => Sys2Proof.Machine.execBitSample b level s
  | .breakCandidate b => Sys2Proof.Machine.execBreakCandidate b s
  | .breakHoldRise b => Sys2Proof.Machine.execBreakHoldRise b s
  | .abortedIdleClockEnd e => Sys2Proof.Machine.execAbortedIdleClockEnd e s
  | .linkDown cause => Sys2Proof.Machine.execLinkDown cause s

end Sys2Proof.Machine
end

