-- ==== Sys2Proof/Safety.lean ====
section
/-! DEFINITION. What counts as a safe state: the invariants of the machine, each from the rules that state it, and the
areas of card memory in which the device writes. -/

namespace Sys2Proof.Machine

/-! ### Areas of card memory (10.1) -/

/-- The device mirror, the bay status entries and the stream table. -/
def publishedArea (a : Nat) : Prop := (0x001000 ≤ a ∧ a < 0x002000) ∨ (0x004000 ≤ a ∧ a < 0x004200)

/-- The job table, the page state map and the trace pages. -/
def deviceArea (a : Nat) : Prop :=
  (0x002000 ≤ a ∧ a < 0x004000) ∨ (0x005000 ≤ a ∧ a < 0x005800) ∨ 0x800000 ≤ a

/-- The job data area. -/
def jobArea (a : Nat) : Prop := 0x010000 ≤ a ∧ a < 0x800000

/-- The device mirror. -/
def inMirror (a : Nat) : Prop := 0x001000 ≤ a ∧ a < 0x001800

/-- The status entry of a bay. -/
def inBayEntry (b : Bay) (a : Nat) : Prop := bayAddr b ≤ a ∧ a < bayAddr b + 256

/-- The stream table entry of a bay. -/
def inStreamEntry (b : Bay) (a : Nat) : Prop := streamAddr b ≤ a ∧ a < streamAddr b + 64

/-- The card of a slot. -/
def inCard (i : Slot) (a : Nat) : Prop := cardAddr i ≤ a ∧ a < cardAddr i + 128

/-- The device mirror's counts of PARKED, REQUESTED and IN_SERVICE slots (R153). -/
def inSlotCounts (a : Nat) : Prop := 0x001020 ≤ a ∧ a < 0x001023

/-- The device mirror's pending set, written whole at each change of a flag (R201). -/
def inPendingSet (a : Nat) : Prop := 0x001024 ≤ a ∧ a < 0x00102D

/-! ### What a command leaves alone -/

/-- Every byte of card memory outside a set reads as before. -/
def Unchanged (p : Nat → Prop) (s t : State) : Prop := ∀ a, ¬ p a → t.mem.read a = s.mem.read a

/-- What stays of a state once job owners, the Dispatcher and condition events have acted: the time, Control, the
monitors, the rails, the waiting commands, and every byte outside the job table, the page state map, the trace pages
and the published fields. The link has carried the change of the notice line and nothing else. -/
structure AfterJobs (s t : State) : Prop where
  time : t.time = s.time
  ctl : t.ctl = s.ctl
  mon : t.mon = s.mon
  rail : t.rail = s.rail
  scanner : t.scanner = s.scanner
  draws : t.draws = s.draws
  pending : t.pending = s.pending
  link : t.link = s.link.signal s.notices.asserted t.notices.asserted
  memory : Unchanged (fun a => deviceArea a ∨ publishedArea a) s t

/-- What stays of a state once records and condition events alone have acted: besides, the code lanes, the engines and
the scan ports. -/
structure AfterEvents (s t : State) : Prop extends AfterJobs s t where
  code : t.code = s.code
  eng : t.eng = s.eng
  port : t.port = s.port
  checkDraws : t.checkDraws = s.checkDraws

/-! ### The status block shows the device (R199) -/

/-- Every published field stands in card memory with its value. -/
def State.Shown (s : State) : Prop := ∀ f ∈ publishedFields s, s.mem.readBytes f.1 f.2.length = f.2

/-! ### Settle milestones (R55, R56) -/

/-- R56: the settle milestone is at most 8 and non-zero only while qualified POWER_GOOD is high; so is the base. -/
def Monitor.SettleOk (m : Monitor) : Prop :=
  m.milestone ≤ 8 ∧ ((m.settleBase.isSome = true ∨ m.milestone ≠ 0) → m.lines[0].qual = true)

/-- R56, in every bay. -/
def State.SettleOk (s : State) : Prop := ∀ b : Bay, s.mon[b.val].SettleOk

/-! ### Monitored lines (R49 to R52) -/

/-- R49: a line has no pending edge exactly when its raw level equals its qualified level. -/
def State.LinesOk (s : State) : Prop :=
  ∀ (b : Bay) (l : InLine),
    s.mon[b.val].lines[l.val].edge = none ↔ s.mon[b.val].lines[l.val].raw = s.mon[b.val].lines[l.val].qual

/-! ### Queues, lanes and engines (R126, R133, R154, R155) -/

/-- R133: a slot is on a bay-lane queue exactly when it is REQUESTED, once and on the queue of its own bay and lane;
the in-service map names exactly the slots IN_SERVICE. -/
structure State.QueuesOk (s : State) : Prop where
  once : ∀ b l, (s.lane b l).queue.Nodup
  queued : ∀ b l (i : Slot), i ∈ (s.lane b l).queue ↔
    (s.slots[i.val].state = .requested ∧ s.slots[i.val].card.bayIx = b ∧ s.slots[i.val].card.lane = some l)
  serving : ∀ b l (i : Slot), (s.lane b l).service = some i ↔
    (s.slots[i.val].state = .inService ∧ s.slots[i.val].card.bayIx = b ∧ s.slots[i.val].card.lane = some l)
  laned : ∀ i : Slot, (s.slots[i.val].state = .parked ∨ s.slots[i.val].state = .requested
    ∨ s.slots[i.val].state = .inService) → s.slots[i.val].card.lane.isSome = true

/-- R154, R155: an engine is IDLE exactly when it is attached to no bay; it is attached for a SCAN job in service of
the bay's ACCESS lane; no bay has two engines. -/
structure State.EnginesOk (s : State) : Prop where
  idle : ∀ e : EngineId, s.eng[e.val].state = .idle ↔ s.eng[e.val].attached = none
  serves : ∀ (e : EngineId) (b : Bay) (i : Slot), s.eng[e.val].attached = some (b, i) →
    (s.lane b .access).service = some i ∧ s.slots[i.val].card.jobKind = some .scan
  apart : ∀ (e f : EngineId) (b : Bay) (i j : Slot), s.eng[e.val].attached = some (b, i) →
    s.eng[f.val].attached = some (b, j) → e = f

/-- R138: the engine rotation order is a list of all eight bays, each once. -/
def State.RotationOk (s : State) : Prop := s.disp.rotation.Nodup ∧ ∀ b : Bay, b ∈ s.disp.rotation

/-! ### Driven lines (R177 to R179) -/

/-- R177: a RELEASE_FORCE neither runs on a line nor joins its buffer. -/
def DrvLine.Ok (l : DrvLine) : Prop :=
  (∀ q, l.buffered = some q → q.prog ≠ .release) ∧ ∀ r, l.running = some r → r.prog ≠ .release

/-- R177, at every driven line. -/
def State.DriversOk (s : State) : Prop := ∀ (b : Bay) (d : OutLine), s.drv[b.val].lines[d.val].Ok

/-! ### The page pool (R22 to R24, R40, R44) -/

/-- The pages of a stream's retained list. -/
def Stream.retainedPages (t : Stream) : List Page := t.retained.map PageUse.page

/-- R40, R41, R45: the stream works under the WINDOW rules: in WINDOW mode, RUNNING or draining from RUNNING. -/
def Stream.WindowRules (t : Stream) : Prop :=
  t.mode = .window ∧ (t.state = .running ∨ t.state = .draining ∧ t.drainPost = false)

/-- R19, R22 to R24, R27, R29, R40: the free list holds each FREE page once, a FILLING page is its bay's filling page, a
RETAINED page is in its bay's retained list, and an OFF or STOPPED stream holds no page and no record; a queue holds at
most 32 records, a filling page fewer than 254, and the pages of a stream under the WINDOW rules are at most its W of 1
to 32; every other stream retains none. -/
structure State.PoolOk (s : State) : Prop where
  once : s.pool.freeList.Nodup
  free : ∀ p : Page, p ∈ s.pool.freeList ↔ s.pool.map[p.val] = .free
  filling : ∀ (p : Page) (b : Bay),
    s.pool.map[p.val] = .filling b ↔ s.str[b.val].filling.map PageUse.page = some p
  retained : ∀ (p : Page) (b : Bay), s.pool.map[p.val] = .retained b ↔ p ∈ s.str[b.val].retainedPages
  distinct : ∀ b : Bay, s.str[b.val].retainedPages.Nodup
  rest : ∀ b : Bay, s.str[b.val].state = .off ∨ s.str[b.val].state = .stopped →
    s.str[b.val].queue = [] ∧ s.str[b.val].filling = none ∧ s.str[b.val].retained = []
  queue : ∀ b : Bay, s.str[b.val].queue.length ≤ 32
  room : ∀ (b : Bay) (u : PageUse), s.str[b.val].filling = some u → u.count < 254
  window : ∀ b : Bay, 1 ≤ s.str[b.val].w ∧ s.str[b.val].w ≤ 32
  bound : ∀ b : Bay, s.str[b.val].WindowRules →
    s.str[b.val].retained.length + s.str[b.val].filling.toList.length ≤ s.str[b.val].w
  unretained : ∀ b : Bay, ¬ s.str[b.val].WindowRules → s.str[b.val].retained = []

/-! ### Trigger sequencers (R98, R100, R102) -/

/-- R100: the stages and needed counts of a program's entries. -/
def Program.Ok (p : Program) : Prop := ∀ e ∈ p.entries, 1 ≤ e.stage ∧ e.stage ≤ 4 ∧ 1 ≤ e.needed

/-- R98, R102: a DISARMED sequencer has no program and no stage; an ARMED one has a program, a stage of 1 to 4 and a
counter below its needed count for every entry. -/
structure Sequencer.Ok (q : Sequencer) : Prop where
  program : ∀ p, q.program = some p → p.Ok
  disarmed : q.state = .disarmed → q.program = none ∧ q.stage = none ∧ q.counters = []
  armed : q.state = .armed → ∃ p k, q.program = some p ∧ q.stage = some k ∧ 1 ≤ k ∧ k ≤ 4
    ∧ q.counters.length = p.entries.length
    ∧ ∀ (j : Nat) (e : Entry) (c : Nat), p.entries[j]? = some e → q.counters[j]? = some c → c < e.needed

/-- R98, R102, in every bay. -/
def State.SeqOk (s : State) : Prop := ∀ b : Bay, s.seq[b.val].Ok

/-! ### Step lists (R160, R161) -/

/-- R160, R161: the steps that an engine runs have passed their checks, from the step in hand to the first END; no step
is in hand before the entry path has ended; an END in hand is at its end; a result write belongs to a shift that
stores. -/
structure Engine.Checked (g : Engine) : Prop where
  before : (g.work = .loading ∨ ∃ t n, g.work = .entryPath t n) → g.index = none
  entry : ∀ t n, g.work = .entryPath t n → firstBadStep g.steps 0 = none
  rest : ∀ i x, g.index = some i → g.steps[i]? = some x →
    firstBadStep (g.steps.drop i) i = none ∧ (x.stepKind = some .endList → g.work = .endStep ∨ g.work = .reported)
  write : g.work = .writeResult → ∃ x, g.step = some x ∧ x.stores = true
    ∧ (x.stepKind = some .ir ∨ x.stepKind = some .dr)

/-- R160, R161, at both engines. -/
def State.EnginesChecked (s : State) : Prop := ∀ e : EngineId, s.eng[e.val].Checked

/-! ### The time base (R3, R6, R8) -/

/-- R6, R8: BENCH is selected only at milestone 4, and the milestone is 0 to 4. -/
def State.SourceOk (s : State) : Prop :=
  s.time.milestone ≤ 4 ∧ (s.time.source = .bench → s.time.milestone = 4)

/-! ### A safe state -/

/-- Every invariant of the machine that does not speak of the status block. -/
structure State.Safe (s : State) : Prop where
  memory : s.mem.wf
  source : s.SourceOk
  settle : s.SettleOk
  lines : s.LinesOk
  queues : s.QueuesOk
  engines : s.EnginesOk
  rotation : s.RotationOk
  drivers : s.DriversOk
  pool : s.PoolOk
  sequencers : s.SeqOk
  steps : s.EnginesChecked

/-- The commands that do not reset the device. -/
def keepsRun : Instr → Bool
  | .powerOnReset => false
  | .linkReset _ => false
  | .restart => false
  | _ => true

end Sys2Proof.Machine
end

