-- ==== Sys2Proof/Certificates/Slice0/Obligations.lean ====
section
/-! DEFINITION. The statements about the KB808 for the provers. A statement about a command has as its conclusion the
state that the command leaves: `t` is written as `s` with the fields that change, so every other field is unchanged,
and `Unchanged p` says that every byte of card memory outside `p` reads as before. -/

open Sys2Proof Sys2Proof.Machine

/-! ### Steps and reset -/

/-- A step takes the command at the front of the queue and runs it on the state with the queue's rest. -/
def StepRunsTheFrontCommand : Prop :=
  ∀ (c : Instr) (rest : List Instr) (s : State),
    step { s with pending := c :: rest } = exec c { s with pending := rest }

/-- The model's choice of notes/assumptions/7.md: a step on an empty queue is one tick (R1), after which no line has
just returned to rest (R178, notes/assumptions/25.md), and changes nothing else. -/
def EmptyQueueStepIsOneTick : Prop :=
  ∀ s : State, s.pending = [] → step s = .next { s with
    time := { s.time with count := s.time.count + 1#48 }
    drv := s.drv.map (fun v => { v with lines := v.lines.map (fun l => { l with justRested := false }) }) }

/-- A step takes the front command; the tick on an empty queue is the model's choice (notes/assumptions/7.md). -/
def Obligations.StepTakesTheFrontCommandOrTicks : Prop :=
  StepRunsTheFrontCommand ∧ EmptyQueueStepIsOneTick

/-- What reset leaves: R2 (with SYNC low), R190, R200, R134, R138, R23, R20 and R28, R49, R58, R66, R70, R79, R98, R175,
R126, R133, R154, R157. The values that the
model chooses (notes/assumptions/5.md) are no part of it. -/
def Obligations.ResetLeavesEveryBlockAtItsResetValues : Prop :=
  (State.reset.time.count = 0#48 ∧ State.reset.time.source = .internal ∧ State.reset.time.milestone = 0
    ∧ State.reset.time.run = none ∧ State.reset.time.syncRaw = false ∧ State.reset.time.syncQual = false
    ∧ State.reset.time.syncPending = none ∧ State.reset.time.lastSync = 0#48
    ∧ State.reset.time.syncCount = 0#32 ∧ State.reset.time.latch = 0#32 ∧ State.reset.time.latchValid = false)
  ∧ (State.reset.ctl.device = .idle ∧ State.reset.ctl.startSeq = .none ∧ State.reset.ctl.copy = none
    ∧ State.reset.ctl.profileError = .none ∧ State.reset.ctl.errorIndex = 0 ∧ State.reset.ctl.outcome = .none
    ∧ State.reset.ctl.runNumber = 0#32)
  ∧ ((∀ g : Fin 9, State.reset.notices.pend[g.val] = 0#4) ∧ (∀ b : Bay, State.reset.notices.level[b.val] = 6)
    ∧ (∀ b : Bay, State.reset.notices.enable[b.val] = 0#4))
  ∧ (State.reset.disp.hold = 0#8 ∧ State.reset.disp.rotation = [0, 1, 2, 3, 4, 5, 6, 7])
  ∧ (State.reset.pool.freeList = List.finRange 2048 ∧ State.reset.pool.lastServed = 7
    ∧ ∀ p : Page, State.reset.pool.map[p.val] = .free)
  ∧ (∀ b : Bay, State.reset.str[b.val].state = .off ∧ State.reset.str[b.val].queue = []
    ∧ State.reset.str[b.val].filling = none ∧ State.reset.str[b.val].retained = []
    ∧ State.reset.str[b.val].mode = .continuous ∧ State.reset.str[b.val].recycled = false
    ∧ State.reset.str[b.val].pRemaining = 0
    ∧ State.reset.str[b.val].tLast = none ∧ State.reset.str[b.val].w = 1 ∧ State.reset.str[b.val].lostCount = 0
    ∧ State.reset.str[b.val].lostTotal = 0 ∧ State.reset.str[b.val].sequence = 0#32
    ∧ State.reset.str[b.val].written = 0#32 ∧ State.reset.str[b.val].closed = 0#32)
  ∧ (∀ b : Bay, State.reset.mon[b.val].settleBase = none ∧ State.reset.mon[b.val].milestone = 0
    ∧ ∀ l : InLine, State.reset.mon[b.val].lines[l.val].raw = false
      ∧ State.reset.mon[b.val].lines[l.val].qual = false ∧ State.reset.mon[b.val].lines[l.val].edge = none)
  ∧ (∀ b : Bay, State.reset.code[b.val].state = .idle ∧ State.reset.code[b.val].bits = 0
    ∧ State.reset.code[b.val].lastCode = none ∧ State.reset.code[b.val].lastCodeTime = 0#48
    ∧ State.reset.code[b.val].errors = 0#32 ∧ State.reset.code[b.val].stallRef = none)
  ∧ (State.reset.scanner.position = none ∧ State.reset.scanner.conv = none
    ∧ ∀ (b : Bay) (r : RailId), State.reset.rail[b.val][r.val].value = 0
      ∧ State.reset.rail[b.val][r.val].window = .unknown ∧ State.reset.rail[b.val][r.val].lastConv = none)
  ∧ (∀ b : Bay, State.reset.con[b.val].rx = .idle ∧ State.reset.con[b.val].batch = none
    ∧ State.reset.con[b.val].window = [] ∧ State.reset.con[b.val].received = 0#32
    ∧ State.reset.con[b.val].framing = 0#32 ∧ State.reset.con[b.val].breaks = 0#32
    ∧ State.reset.con[b.val].tx = .idle ∧ State.reset.con[b.val].job = none)
  ∧ (∀ b : Bay, State.reset.seq[b.val].state = .disarmed ∧ State.reset.seq[b.val].program = none
    ∧ State.reset.seq[b.val].stage = none ∧ State.reset.seq[b.val].counters = []
    ∧ State.reset.seq[b.val].stageEntry = none
    ∧ State.reset.seq[b.val].stallStart = none ∧ State.reset.seq[b.val].fireCount = 0#32
    ∧ State.reset.seq[b.val].lastFire = none)
  ∧ (∀ (b : Bay) (d : OutLine), State.reset.drv[b.val].lines[d.val].level = none
    ∧ State.reset.drv[b.val].lines[d.val].running = none ∧ State.reset.drv[b.val].lines[d.val].buffered = none
    ∧ State.reset.drv[b.val].lines[d.val].force = none ∧ State.reset.drv[b.val].job = none)
  ∧ (∀ i : Slot, State.reset.slots[i.val].state = .free ∧ State.reset.slots[i.val].deadline = none
    ∧ State.reset.slots[i.val].mark = none)
  ∧ (∀ (b : Bay) (l : Lane), (State.reset.lane b l).queue = [] ∧ (State.reset.lane b l).service = none)
  ∧ (∀ e : EngineId, State.reset.eng[e.val].state = .idle ∧ State.reset.eng[e.val].attached = none
    ∧ State.reset.eng[e.val].phase = .none ∧ State.reset.eng[e.val].index = none
    ∧ State.reset.eng[e.val].tracked = none ∧ State.reset.eng[e.val].abort = none
    ∧ State.reset.eng[e.val].disturbed = false ∧ State.reset.eng[e.val].stepsDone = 0
    ∧ State.reset.eng[e.val].firstFail = 0xFFFF ∧ State.reset.eng[e.val].tdoBits = 0)
  ∧ (∀ b : Bay, State.reset.port[b.val].knowledge = .unknown)

/-! ### Time Base -/

/-- R4: a first rising edge begins a run, and an edge within 40 ticks of the one before it continues the run. -/
def ReferenceEdgesBeginAndContinueARun : Prop :=
  ∀ s : State,
    (s.time.run = none →
      exec .qualificationRunStart s = .next { s with time := { s.time with run := some ⟨s.time.count, s.time.count⟩ } })
    ∧ (∀ r : RefRun, s.time.run = some r → elapsed r.lastEdge s.time.count ≤ 40 →
      exec .referenceRisingEdge s
        = .next { s with time := { s.time with run := some { r with lastEdge := s.time.count } } })

/-- R4's table. -/
def refInstant : Nat → Nat
  | 0 => 10000
  | 1 => 100000
  | 2 => 400000
  | _ => 1600000

/-- R4, R17: at the instant of the next milestone the milestone rises by one, and only the mirror's milestone byte is
written. -/
def ReferenceMilestoneRisesAtItsInstant : Prop :=
  ∀ (s : State) (r : RefRun), s.time.run = some r → s.time.milestone < 4 →
    elapsed r.start s.time.count = refInstant s.time.milestone →
    ∃ t, exec .referenceMilestoneRaise s = .next t
      ∧ t = { s with time := { s.time with milestone := s.time.milestone + 1 }, mem := t.mem }
      ∧ Unchanged (fun a => a = 0x00100A) s t
      ∧ (s.mem.wf → t.mem.read 0x00100A = BitVec.ofNat 8 (s.time.milestone + 1))

/-- R4: runs of the bench reference and their milestones. -/
def Obligations.ReferenceRunsRaiseTheirMilestones : Prop :=
  ReferenceEdgesBeginAndContinueARun ∧ ReferenceMilestoneRisesAtItsInstant

/-- R5, R8, R10: 40 ticks after the last edge the run ends at milestone 0; with BENCH selected the source falls back to
INTERNAL, every stream is offered a SOURCE record with cause LOSS and SOURCE is raised. -/
def Obligations.ReferenceLossEndsTheRunAndFallsBack : Prop :=
  ∀ (s : State) (r : RefRun), s.time.run = some r → elapsed r.lastEdge s.time.count = 40 →
    (s.time.source = .internal →
      ∃ t, exec .referenceLoss s = .next t
        ∧ t = { s with time := { s.time with run := none, milestone := 0 }, mem := t.mem }
        ∧ Unchanged (fun a => a = 0x00100A) s t)
    ∧ (s.time.source = .bench →
      ∃ t, exec .referenceLoss s = .next t
        ∧ t = { s with
            time := { s.time with run := none, milestone := 0, source := .internal }
            str := t.str
            notices := s.notices.raise 0 0
            link := s.link.signal s.notices.asserted t.notices.asserted
            mem := t.mem }
        ∧ (∀ b : Bay, t.str[b.val] = s.str[b.val].offer ⟨s.time.count, .source .internal .loss 0⟩)
        ∧ Unchanged (fun a => inMirror a ∨ ∃ b, inStreamEntry b a) s t)

/-- R6, R7, R9, R10: SELECT_BENCH switches at milestone 4 and is refused below it; SELECT_INTERNAL is always accepted. A
switch offers every stream a SOURCE record with cause SELECT and raises SOURCE; the count goes on. -/
def Obligations.SelectionSwitchesTheSource : Prop :=
  ∀ s : State,
    (s.time.milestone ≠ 4 →
      ∃ t, exec .selectBench s = .next t ∧ t = { s with ctl := { s.ctl with outcome := .refused }, mem := t.mem }
        ∧ Unchanged (fun a => a = 0x001001) s t)
    ∧ (s.time.milestone = 4 → s.time.source = .bench →
      ∃ t, exec .selectBench s = .next t ∧ t = { s with ctl := { s.ctl with outcome := .accepted }, mem := t.mem }
        ∧ Unchanged (fun a => a = 0x001001) s t)
    ∧ (s.time.source = .internal →
      ∃ t, exec .selectInternal s = .next t ∧ t = { s with ctl := { s.ctl with outcome := .accepted }, mem := t.mem }
        ∧ Unchanged (fun a => a = 0x001001) s t)
    ∧ (∀ (c : Instr) (src : Source),
      (c = .selectBench ∧ src = .bench ∧ s.time.milestone = 4 ∨ c = .selectInternal ∧ src = .internal) →
      s.time.source ≠ src →
      ∃ t, exec c s = .next t
        ∧ t = { s with
            time := { s.time with source := src }
            ctl := { s.ctl with outcome := .accepted }
            str := t.str
            notices := s.notices.raise 0 0
            link := s.link.signal s.notices.asserted t.notices.asserted
            mem := t.mem }
        ∧ (∀ b : Bay, t.str[b.val] = s.str[b.val].offer ⟨s.time.count, .source src .select s.time.milestone⟩)
        ∧ Unchanged (fun a => inMirror a ∨ ∃ b, inStreamEntry b a) s t)

/-- R11, R12: a raw change of SYNC begins a pending change or drops the pending one; a rise held for 100 ticks is
captured, counted and offered to every stream, and both values are written in the mirror; a fall held for 100 ticks
makes the qualified level low. That a raw change drops a pending change of any age, and that the last SYNC time is
written also when it is the one held, are the model's choices (notes/assumptions/38.md, 39.md). -/
def Obligations.SyncIsQualifiedAndCaptured : Prop :=
  ∀ s : State,
    (exec .syncRawChange s = .next { s with time := { s.time with
        syncRaw := !s.time.syncRaw
        syncPending := if s.time.syncPending.isNone then some s.time.count else none } })
    ∧ (∀ raw : Tick, s.time.syncPending = some raw → elapsed raw s.time.count = 100 → s.time.syncQual = false →
      ∃ t, exec .syncCapture s = .next t
        ∧ t = { s with
            time := { s.time with
              syncQual := true
              syncPending := none
              lastSync := raw
              syncCount := s.time.syncCount + 1#32 }
            str := t.str
            mem := t.mem }
        ∧ (∀ b : Bay, t.str[b.val] = s.str[b.val].offer ⟨raw, .sync (s.time.syncCount + 1#32)⟩)
        ∧ (s.mem.wf → t.mem.field 0x001010 8 = raw.toNat
          ∧ t.mem.field 0x001018 4 = (s.time.syncCount + 1#32).toNat)
        ∧ Unchanged (fun a => (0x001010 ≤ a ∧ a < 0x00101C) ∨ ∃ b, inStreamEntry b a) s t)
    ∧ (∀ raw : Tick, s.time.syncPending = some raw → elapsed raw s.time.count = 100 → s.time.syncQual = true →
      exec .syncQualifiedFall s = .next { s with time := { s.time with syncQual := false, syncPending := none } })

/-- R13, R14, R189: what the reads of TIME_HIGH and TIME_LOW return, by any byte lanes, and what they do to the latch
and its flag. That a read of some byte lanes returns the list of their bytes is the model's choice
(notes/assumptions/31.md). -/
def Obligations.TimeReadsLatchAndReturnTheCount : Prop :=
  ∀ (s : State) (lanes : BitVec 4),
    exec (.timeHighRead lanes) s = .next { s with
      time := { s.time with latch := s.time.count.setWidth 32, latchValid := true },
      link := { s.link with readData := laneBytes lanes ((s.time.count >>> 32).setWidth 32) } }
    ∧ exec (.timeLowRead lanes) s = .next { s with
      time := { s.time with latchValid := false },
      link := { s.link with
        readData := laneBytes lanes (if s.time.latchValid then s.time.latch else s.time.count.setWidth 32) } }

/-! ### Trace streams and the page pool -/

/-- The bay `d` places after the last served bay in rotation (R20). -/
def bayAfter (s : State) (d : Nat) : Bay := ⟨(s.pool.lastServed.val + d) % 8, Nat.mod_lt _ (by decide)⟩

/-- R20: the bay `d` places on is the first in rotation with work, and its work is `v`. That a FLUSH comes before the end
of a drain of the same bay is the model's choice (notes/assumptions/43.md). -/
def NextWork (s : State) (d : Nat) (v : Service) : Prop :=
  1 ≤ d ∧ d ≤ 8 ∧ s.str[(bayAfter s d).val].service = some v
    ∧ ∀ k, 1 ≤ k → k < d → s.str[(bayAfter s k).val].service = none

/-- R20, R33: a record service is given to the first bay in rotation with work; it takes the head record of that bay's
queue and touches no other bay's stream or console. -/
def Obligations.WriterServesTheNextBayInRotation : Prop :=
  ∀ (s : State) (d : Nat), NextWork s d .record →
    ∃ t, exec .writeRecord s = .next t ∧ AfterEvents s t
      ∧ t.pool.lastServed = bayAfter s d
      ∧ t.seq = s.seq ∧ t.drv = s.drv ∧ t.slots = s.slots ∧ t.lanes = s.lanes ∧ t.disp = s.disp
      ∧ (∀ c : Bay, c ≠ bayAfter s d → t.str[c.val] = s.str[c.val] ∧ t.con[c.val] = s.con[c.val])
      ∧ (∃ more, t.str[(bayAfter s d).val].queue = s.str[(bayAfter s d).val].queue.tail ++ more)

/-- R34: how a record of a time is written into a stream that is in its state: its delta, whether it is LATE, its
clamped time, and whether R36 applies. -/
def Timed (v : Stream) (time : Tick) (delta : Nat) (late : Bool) (clamped : Tick) (gap : Bool) : Prop :=
  match v.tLast with
  | none => delta = 0 ∧ late = false ∧ clamped = time ∧ gap = false
  | some last =>
    if v.lapsed = true then delta = 0 ∧ late = false ∧ clamped = time ∧ gap = true
    else if quantDelta v.k time last < 2 ^ (47 - v.k) then
      delta = quantDelta v.k time last ∧ late = false ∧ clamped = time ∧ gap = decide (2 ^ 24 ≤ delta)
    else delta = 0 ∧ late = true ∧ clamped = last ∧ gap = false

/-- R33 steps 3 to 5, R34, R36, 12.8: into a filling page with more than two slots left and with no loss to report, the
head record is written at the next record slot: with its delta when it is in time, after a TIME record when the delta
does not fit or t_last has lapsed, with delta 0 as the stream's first record, and with LATE, delta 0 and an unchanged
t_last when it is late. A late record is one written since t_last (notes/assumptions/18.md). -/
def RecordIsWrittenWithItsDelta : Prop :=
  ∀ (s : State) (d : Nat) (r : Record) (rest : List Record) (u : PageUse) (delta : Nat) (late : Bool) (clamped : Tick)
    (gap : Bool),
    NextWork s d .record → s.mem.wf →
    s.str[(bayAfter s d).val].queue = r :: rest → (payload r.body).length ≤ 11 →
    s.str[(bayAfter s d).val].filling = some u → u.count + 2 < 254 →
    s.str[(bayAfter s d).val].lostCount = 0 → s.str[(bayAfter s d).val].k ≤ 15 →
    Timed s.str[(bayAfter s d).val] r.time delta late clamped gap →
    ∃ t, exec .writeRecord s = .next t
      ∧ t.str[(bayAfter s d).val].tLast = some clamped ∧ t.str[(bayAfter s d).val].lapsed = false
      ∧ t.str[(bayAfter s d).val].wroteSince = late
      ∧ (gap = false →
        t.str[(bayAfter s d).val].filling = some { u with count := u.count + 1, mark := u.mark || r.body.isMark }
        ∧ t.str[(bayAfter s d).val].written = s.str[(bayAfter s d).val].written + 1#32
        ∧ t.mem.readBytes (recordAddr u.page u.count) 16 = encodeRecord r.body late delta)
      ∧ (gap = true →
        t.str[(bayAfter s d).val].filling = some { u with count := u.count + 2, mark := u.mark || r.body.isMark }
        ∧ t.str[(bayAfter s d).val].written = s.str[(bayAfter s d).val].written + 2#32
        ∧ t.mem.readBytes (recordAddr u.page u.count) 32
          = encodeRecord (.time r.time) false 0 ++ encodeRecord r.body false 0)

/-- R34, R38: the delta of a record in time, added to the time unit of the record before, gives the record's own time
unit: the host rebuilds floor(t / 2^k). -/
def RebuiltTimeIsTheQuantisedTime : Prop :=
  ∀ (t : Stream) (time last : Tick), t.k ≤ 15 → t.tLast = some last → t.lapsed = false →
    ((t.timing time).late = false →
      (t.timing time).clamped = time
      ∧ (quantise t.k last + (t.timing time).delta) % 2 ^ (48 - t.k) = quantise t.k time
      ∧ quantise t.k time * 2 ^ t.k ≤ time.toNat ∧ time.toNat < quantise t.k time * 2 ^ t.k + 2 ^ t.k)
    ∧ ((t.timing time).late = true → (t.timing time).clamped = last ∧ (t.timing time).delta = 0)

/-- R33, R34, R36, R38: how a record and its time are written. -/
def Obligations.RecordsCarryTheirTimes : Prop :=
  RecordIsWrittenWithItsDelta ∧ RebuiltTimeIsTheQuantisedTime

/-- 12.8: the 32 bytes of a page header. -/
def pageHeader (u : PageUse) (b : Bay) (k flags lost : Nat) : List Byte :=
  leBytes 2 u.page.val ++ leBytes 1 b.val ++ leBytes 1 k ++ leBytes 4 u.seq.toNat ++ leBytes 8 u.base.toNat
    ++ leBytes 2 u.count ++ leBytes 2 flags ++ leBytes 4 lost ++ List.replicate 8 0#8

/-- R22, R27, 12.8: memory shows a page as delivered: its map byte, and its header with CONTAINS_MARK, with
RECYCLED_BEFORE when it is the page that carries it, and with a lost total. -/
def ShowsDelivered (m : Memory) (u : PageUse) (b : Bay) (k : Nat) (recycled : Bool) (lost : Nat) : Prop :=
  m.read (0x005000 + u.page.val) = BitVec.ofNat 8 (0x30 + b.val)
  ∧ m.readBytes (0x800000 + 4096 * u.page.val) 32
    = pageHeader u b k ((if u.mark = true then 1 else 0) + if recycled = true then 2 else 0) lost

/-- R31, R22, R27, R42: the page work of a FLUSH delivers the named page if it is still the filling page, with its
header, and the job ends OK. -/
def FlushDeliversTheNamedPage : Prop :=
  ∀ (s : State) (d : Nat) (w : FlushWork), NextWork s d .flush → s.str[(bayAfter s d).val].flush = some w →
    ∃ t, exec .flushClose s = .next t ∧ AfterEvents s t
      ∧ t = { s with
          link := t.link, notices := t.notices, str := t.str, pool := t.pool, slots := t.slots, mem := t.mem }
      ∧ (∀ c : Bay, c ≠ bayAfter s d → t.str[c.val] = s.str[c.val])
      ∧ t.str[(bayAfter s d).val].flush = none
      ∧ t.slots[w.slot.val].report = some ⟨.ok, 0#16, 0#64, s.time.count⟩
      ∧ (∀ u : PageUse, s.str[(bayAfter s d).val].filling = some u → u.page = w.page →
        t.pool.map[u.page.val] = .closed (bayAfter s d)
        ∧ (∀ p : Page, p ≠ u.page → t.pool.map[p.val] = s.pool.map[p.val])
        ∧ t.str[(bayAfter s d).val].filling = none ∧ t.str[(bayAfter s d).val].recycled = false
        ∧ t.str[(bayAfter s d).val].closed = s.str[(bayAfter s d).val].closed + 1#32
        ∧ t.notices = s.notices.raise (bayGroup (bayAfter s d)) 2
        ∧ (s.mem.wf → ShowsDelivered t.mem u (bayAfter s d) s.str[(bayAfter s d).val].k
          s.str[(bayAfter s d).val].recycled s.str[(bayAfter s d).val].lostTotal))
      ∧ ((∀ u : PageUse, s.str[(bayAfter s d).val].filling = some u → u.page ≠ w.page) →
        t.pool.map = s.pool.map ∧ t.notices = s.notices
        ∧ t.str[(bayAfter s d).val].filling = s.str[(bayAfter s d).val].filling)

/-- R46 steps 1 and 3: the pages that the end of a drain delivers, in their order: the retained pages, oldest first,
and the filling page, into which a LOSS record has gone when there is a loss to report and a slot remains. -/
def drainPages (v : Stream) : List PageUse :=
  v.retained ++ (v.filling.map (fun u =>
    if v.lostCount ≠ 0 ∧ u.count < 254 then { u with count := u.count + 1 } else u)).toList

/-- R46, R22, R27, R30, R42: the service that ends a drain writes the LOSS record, delivers the retained and the filling
pages, RECYCLED_BEFORE falling on the first, raises PAGES if it delivers any, sets the lost count to 0 and the stream
STOPPED, and ends the CLOSE job that waits. The list order is the order of stream sequence (notes/assumptions/27.md). -/
def DrainEndDeliversEveryPage : Prop :=
  ∀ (s : State) (d : Nat), NextWork s d .drain →
    ∃ t, exec .drainEnd s = .next t ∧ AfterEvents s t
      ∧ t = { s with
          link := t.link, notices := t.notices, str := t.str, pool := t.pool, slots := t.slots, mem := t.mem }
      ∧ (∀ c : Bay, c ≠ bayAfter s d → t.str[c.val] = s.str[c.val])
      ∧ t.str[(bayAfter s d).val].state = .stopped
      ∧ t.str[(bayAfter s d).val].filling = none ∧ t.str[(bayAfter s d).val].retained = []
      ∧ t.str[(bayAfter s d).val].lostCount = 0
      ∧ t.str[(bayAfter s d).val].closed = s.str[(bayAfter s d).val].closed
        + BitVec.ofNat 32 (drainPages s.str[(bayAfter s d).val]).length
      ∧ t.notices = (if drainPages s.str[(bayAfter s d).val] = [] then s.notices
        else s.notices.raise (bayGroup (bayAfter s d)) 2)
      ∧ (∀ p : Page, t.pool.map[p.val] =
        if p ∈ s.str[(bayAfter s d).val].retainedPages
            ∨ s.str[(bayAfter s d).val].filling.map PageUse.page = some p then .closed (bayAfter s d)
        else s.pool.map[p.val])
      ∧ (s.mem.wf → ((drainPages s.str[(bayAfter s d).val]).map PageUse.page).Nodup →
        (∀ (n : Nat) (u : PageUse), (drainPages s.str[(bayAfter s d).val])[n]? = some u →
          ShowsDelivered t.mem u (bayAfter s d) s.str[(bayAfter s d).val].k
            (decide (n = 0) && s.str[(bayAfter s d).val].recycled) s.str[(bayAfter s d).val].lostTotal)
        ∧ ∀ u : PageUse, s.str[(bayAfter s d).val].filling = some u →
          s.str[(bayAfter s d).val].lostCount ≠ 0 → u.count < 254 →
          t.str[(bayAfter s d).val].written = s.str[(bayAfter s d).val].written + 1#32
          ∧ t.mem.readBytes (recordAddr u.page u.count) 16
            = encodeRecord (.loss s.str[(bayAfter s d).val].lostCount) false 0)
      ∧ (∀ i : Slot, s.str[(bayAfter s d).val].closer = some i →
        t.slots[i.val].report = some ⟨.ok, 0#16, 0#64, s.time.count⟩)
      ∧ (s.str[(bayAfter s d).val].closer = none → t.slots = s.slots)

/-- R22, R27, R31, R42, R46: the page work of a FLUSH and of the end of a drain. That a bay with both has its FLUSH served
first is the model's choice (notes/assumptions/43.md). -/
def Obligations.PageWorkDeliversPages : Prop :=
  FlushDeliversTheNamedPage ∧ DrainEndDeliversEveryPage

/-- R34, R67: a stream's t_last, when no record has been written since it, and a bay's stall reference lapse 2^46 ticks
after them, with no other effect. That a record written since, LATE or LOSS, keeps t_last from lapsing until a record
moves it is the model's reading of R34's words (notes/assumptions/18.md). -/
def TimesLapseAfterTwoToTheFortySix : Prop :=
  ∀ (s : State) (b : Bay) (t0 : Tick), elapsed t0 s.time.count = 2 ^ 46 →
    (s.str[b.val].tLast = some t0 → s.str[b.val].lapsed = false →
      exec (.tLastLapse b) s = .next (if s.str[b.val].wroteSince = true then s
        else { s with str := upd s.str b (fun t => { t with lapsed := true }) }))
    ∧ (s.code[b.val].stallRef = some t0 → s.code[b.val].stallLapsed = false →
      exec (.stallReferenceLapse b) s = .next { s with code := upd s.code b (fun c => { c with stallLapsed := true }) })

/-- R26: a RELEASE of a page below 2,048 that is CLOSED makes it FREE at the tail of the free list with map byte 0x00,
and the free count, one more than before, is written; every other RELEASE raises BAD_RELEASE and changes nothing else.
A pool in order (`EveryStepKeepsThePagePool`) lists at most 2,048 free pages, as a count of 2 bytes needs. -/
def Obligations.ReleaseFreesAClosedPage : Prop :=
  ∀ (s : State) (v : Word),
    (∀ p : Page, v.toNat % 65536 = p.val → (∃ b, s.pool.map[p.val] = .closed b) →
      ∃ t, exec (.release v) s = .next t
        ∧ t = { s with
            pool := { s.pool with
              map := upd s.pool.map p (fun _ => .free)
              freeList := s.pool.freeList ++ [p] }
            mem := t.mem }
        ∧ Unchanged (fun a => a = 0x005000 + p.val ∨ a = 0x00101C ∨ a = 0x00101D) s t
        ∧ (s.mem.wf → t.mem.read (0x005000 + p.val) = 0x00#8)
        ∧ (s.mem.wf → s.pool.freeList.length < 2048 → t.mem.field 0x00101C 2 = s.pool.freeList.length + 1))
    ∧ ((∀ p : Page, v.toNat % 65536 = p.val → ∀ b, s.pool.map[p.val] ≠ .closed b) →
      ∃ t, exec (.release v) s = .next t
        ∧ t = { s with
            notices := s.notices.raise 0 3
            link := s.link.signal s.notices.asserted t.notices.asserted
            mem := t.mem }
        ∧ Unchanged inPendingSet s t)

/-! ### What a command leaves, through the named operations -/

/-- `t` is the state `x` with the change of the notice line sent, and card memory is that of `s` outside `p`. -/
def Leaves (s t x : State) (p : Nat → Prop) : Prop :=
  t = { x with link := x.link.signal s.notices.asserted x.notices.asserted, mem := t.mem } ∧ Unchanged p s t

/-- The bytes in which blocks write: the job table, the page state map, the trace pages and the published fields. -/
def blockArea (a : Nat) : Prop := deviceArea a ∨ publishedArea a

/-- `t` is what is left when the sequencer of a bay has taken a condition event in the state `x` (R101). A sequencer
that is not ARMED ignores it, and then only the bay's published fields are written. -/
def TakesEvent (b : Bay) (ev : Event) (s x t : State) : Prop :=
  Leaves s t (conditionEvent b ev x) blockArea
  ∧ (x.seq[b.val].state ≠ .armed → Leaves s t x (fun a => inMirror a ∨ inBayEntry b a ∨ inStreamEntry b a))

/-! ### Bay inputs -/

/-- R48, R50, R52: a raw change of a line. A stopped monitor does not see it; on a line without a pending edge it begins
one; on a line with a pending edge it is a glitch, with its width, record and event. -/
def Obligations.RawChangeBeginsOrEndsAPendingEdge : Prop :=
  ∀ (s : State) (b : Bay) (l : InLine),
    (s.active b = false →
      exec (.lineRawChange b l) s = .next (s.modInLine b l (fun x => { x with pin := !x.pin })))
    ∧ (s.active b = true → s.mon[b.val].lines[l.val].edge = none → s.mon[b.val].lines[l.val].q ≠ 0 →
      exec (.lineRawChange b l) s = .next (s.modInLine b l (fun x =>
        { x with pin := !x.pin, raw := !x.raw, edge := some s.time.count })))
    ∧ (∀ since : Tick, s.active b = true → s.mon[b.val].lines[l.val].edge = some since →
      ∃ t, exec (.lineRawChange b l) s = .next t
        ∧ TakesEvent b (.glitch l) s
          (offer b (.glitch l s.mon[b.val].lines[l.val].raw (min (elapsed since s.time.count) 16777215)) since
            (s.modInLine b l (fun x => { x with pin := !x.pin, raw := !x.raw, edge := none }))) t)

/-- The state in which the LINE event of a qualified edge is taken (R51 steps 1 to 3). -/
def edgeTaken (b : Bay) (l : InLine) (since : Tick) (level : Bool) (s : State) : State :=
  offer b (.line l level) since (s.modInLine b l (fun x => { x with raw := level, qual := level, edge := none }))

/-- R50, R51: the command `c` qualifies an edge of a line to `level`, with its raw time, in the state `x`: a pending
edge that has lasted Q ticks, or with Q of 0 the raw change itself, the pin then changed. -/
def Qualifies (s : State) (b : Bay) (l : InLine) (c : Instr) (x : State) (since : Tick) (level : Bool) : Prop :=
  c = .lineQualify b l ∧ x = s ∧ s.mon[b.val].lines[l.val].edge = some since
      ∧ elapsed since s.time.count = s.mon[b.val].lines[l.val].q ∧ level = s.mon[b.val].lines[l.val].raw
    ∨ c = .lineRawChange b l ∧ x = s.modInLine b l (fun v => { v with pin := !v.pin })
      ∧ s.mon[b.val].lines[l.val].edge = none ∧ s.mon[b.val].lines[l.val].q = 0
      ∧ since = s.time.count ∧ level = !s.mon[b.val].lines[l.val].raw

/-- R51, R53, R67: a pending edge of a line other than POWER_GOOD qualifies after Q ticks: LINE record, LINE event, and
then a FAULT fall raises FAULT and a PLATFORM_RESET rise offers its raw time to the stall reference. With Q of 0 the
edge qualifies at the raw change. -/
def Obligations.EdgeQualifiesWithItsEffect : Prop :=
  ∀ (s : State) (b : Bay) (l : InLine) (c : Instr) (x : State) (since : Tick) (level : Bool),
    s.active b = true → l ≠ 0 → Qualifies s b l c x since level →
    ∃ t, exec c s = .next t
      ∧ (if l = 1 ∧ level = true then
          Leaves s t (offerStall b since (conditionEvent b (.line l true) (edgeTaken b l since true x))) blockArea
        else if l = 4 ∧ level = false then
          Leaves s t (raiseBay b .fault (conditionEvent b (.line l false) (edgeTaken b l since false x))) blockArea
        else TakesEvent b (.line l level) s (edgeTaken b l since level x) t)

/-- R50, R51, R54, R96, R157: a qualified fall of POWER_GOOD, at the end of its qualification time or with Q of 0 at the raw
change: LINE record and event, settle base none, milestone 0, TAP knowledge UNKNOWN, FAULT raised; a SEND in SENDING is
reported POWER_LOST, one in FINISHING with the status it carries (R96), both with the bytes sent before, and a serving
engine takes the power loss. -/
def Obligations.PowerGoodFallEndsThePoweredPeriod : Prop :=
  ∀ (s : State) (b : Bay) (c : Instr) (x : State) (since : Tick), s.active b = true →
    Qualifies s b 0 c x since false →
    ∃ t y, exec c s = .next t ∧ y = conditionEvent b (.line 0 false) (edgeTaken b 0 since false x)
      ∧ AfterJobs (x.modMon b (fun m =>
          { lines := upd m.lines 0 (fun x => { x with raw := false, qual := false, edge := none })
            settleBase := none
            milestone := 0 })) t
      ∧ t.code = s.code
      ∧ t.seq = y.seq ∧ t.str = y.str ∧ t.drv = y.drv ∧ t.disp = y.disp ∧ t.lanes = y.lanes ∧ t.pool = y.pool
      ∧ t.port = upd s.port b (fun p => { p with knowledge := .unknown })
      ∧ t.notices = y.notices.raise (bayGroup b) 3
      ∧ (∀ (i : Slot) (j : TxJob) (st : Status), (s.lane b .access).service = some i →
        s.slots[i.val].card.jobKind = some .send → s.con[b.val].job = some j → j.slot = i →
        (s.con[b.val].tx = .sending ∧ st = .powerLost ∨ s.con[b.val].tx = .finishing st) →
        t.con[b.val].tx = .idle ∧ t.con[b.val].job = none
          ∧ t.slots[i.val].report = some ⟨st, 0#16, BitVec.ofNat 64 j.sent, s.time.count⟩)
      ∧ (∀ (i : Slot) (e : EngineId), (s.lane b .access).service = some i →
        s.slots[i.val].card.jobKind = some .scan → s.engineOf b = some e →
        s.eng[e.val].attached = some (b, i) → s.eng[e.val].state ≠ .idle →
        s.eng[e.val].work ≠ .reported → s.eng[e.val].work ≠ .none →
        t.eng[e.val].powerLost = true ∧ t.eng[e.val].disturbed = true)

/-- R55's table. -/
def settleInstant (m : Nat) : Nat :=
  [0, 100000, 200000, 500000, 1000000, 2000000, 5000000, 10000000, 20000000].getD m 0

/-- R55, R56: the milestones 1 to `m` raised one after another, each with its SETTLE record and its SETTLE event. -/
def settleRaised (b : Bay) (base : Tick) (m : Nat) (s : State) : State :=
  (List.range m).foldl (fun y i =>
    conditionEvent b (.settle (i + 1))
      (offer b (.settle (i + 1)) (base + BitVec.ofNat 48 (settleInstant (i + 1))) y)) s

/-- R50, R51, R55, R56, R157: a qualified rise of POWER_GOOD, at the end of its qualification time or with Q of 0 at the
raw change: LINE record and event, the settle base is its raw time, every milestone whose instant has come is raised,
and the TAP knowledge becomes RESET, or UNKNOWN under an attached engine, which is disturbed. -/
def PowerGoodRiseStartsSettling : Prop :=
  ∀ (s : State) (b : Bay) (c : Instr) (x : State) (since : Tick), s.active b = true →
    Qualifies s b 0 c x since true →
    ∃ t m y, exec c s = .next t
      ∧ y = settleRaised b since m (conditionEvent b (.line 0 true) (edgeTaken b 0 since true x))
      ∧ AfterJobs (x.modMon b (fun v =>
          { lines := upd v.lines 0 (fun x => { x with raw := true, qual := true, edge := none })
            settleBase := some since
            milestone := m })) t
      ∧ (∀ n, n ≤ m ↔ n = 0 ∨ n ≤ 8 ∧ settleInstant n ≤ elapsed since s.time.count)
      ∧ Leaves s t { y with mon := t.mon, eng := t.eng, port := t.port } blockArea
      ∧ (s.engineOf b = none → t.eng = s.eng ∧ t.port = upd s.port b (fun p => { p with knowledge := .reset }))
      ∧ (∀ e, s.engineOf b = some e →
        t.eng = upd s.eng e (fun g => { g with disturbed := true })
        ∧ t.port = upd s.port b (fun p => { p with knowledge := .unknown }))

/-- R55, R56: at its instant the next settle milestone is raised, with a SETTLE record at that instant and a SETTLE
event. -/
def SettleMilestoneRisesAtItsInstant : Prop :=
  ∀ (s : State) (b : Bay) (base : Tick), s.active b = true → s.mon[b.val].settleBase = some base →
    s.mon[b.val].milestone < 8 → elapsed base s.time.count = settleInstant (s.mon[b.val].milestone + 1) →
    ∃ t, exec (.settleMilestoneRaise b) s = .next t
      ∧ TakesEvent b (.settle (s.mon[b.val].milestone + 1)) s
        (offer b (.settle (s.mon[b.val].milestone + 1))
          (base + BitVec.ofNat 48 (settleInstant (s.mon[b.val].milestone + 1)))
          (s.modMon b (fun m => { m with milestone := m.milestone + 1 }))) t

/-- R50, R51, R55, R56, R157: settling after a qualified rise of POWER_GOOD. -/
def Obligations.SettleMilestonesRise : Prop :=
  PowerGoodRiseStartsSettling ∧ SettleMilestoneRisesAtItsInstant

/-- A new frame in the receiver (R59). -/
def newFrame (now : Tick) (c : CodeRx) : CodeRx :=
  { c with state := .data, bits := 0, shift := 0#17, frameStart := now, lastClk := now }

/-- The receiver after a wire condition has ended a frame (R61, R62). -/
def frameEnded (cond : CodeCond) (now : Tick) (c : CodeRx) : CodeRx :=
  if cond = .start then newFrame now c else { c with state := .idle, bits := 0 }

/-- R59, R60: a start condition in IDLE begins a frame; a rise of CLK in DATA samples DAT; every other edge of CLK in a
frame sets the activity time only, and in IDLE it is ignored. -/
def Obligations.CodeLaneFollowsItsWires : Prop :=
  ∀ (s : State) (b : Bay) (edge : ClkEdge) (dat : Bool), s.active b = true →
    (s.code[b.val].state = .idle →
      exec (.codeStartCondition b) s = .next (s.modCode b (newFrame s.time.count))
      ∧ exec (.codeClkEdge b edge dat) s = .next s)
    ∧ (s.code[b.val].state = .data →
      exec (.codeClkEdge b .rise dat) s = .next (s.modCode b (fun c =>
        { c with
          shift := (c.shift <<< 1) ||| (if dat then 1#17 else 0#17)
          bits := c.bits + 1
          state := if c.bits + 1 = 17 then .stopWait else .data
          lastClk := s.time.count })))
    ∧ ((s.code[b.val].state = .data ∧ edge = .fall ∨ s.code[b.val].state = .stopWait) →
      exec (.codeClkEdge b edge dat) s = .next (s.modCode b (fun c => { c with lastClk := s.time.count })))

/-- The state after rises of CLK, each with the level of DAT and the count at which it is taken. -/
def clockIn (b : Bay) : List (Bool × Tick) → State → Option State
  | [], s => some s
  | (dat, now) :: rest, s =>
    match exec (.codeClkEdge b .rise dat) { s with time := { s.time with count := now } } with
    | .next t => clockIn b rest t
    | _ => none

/-- R60, R61: 17 bits clocked into a new frame leave the receiver in STOP_WAIT with the code in their first 16, most
significant first, and the parity of all 17. -/
def Obligations.SeventeenBitsMakeACode : Prop :=
  ∀ (s : State) (b : Bay) (bits : List (Bool × Tick)), s.active b = true → s.code[b.val].state = .data →
    s.code[b.val].bits = 0 → bits.length = 17 →
    ∃ t, clockIn b bits s = some t
      ∧ t.code[b.val].state = .stopWait ∧ t.code[b.val].bits = 17
      ∧ t.code[b.val].frameStart = s.code[b.val].frameStart
      ∧ (∀ i, i < 16 → (bits.map Prod.fst)[i]? = some (t.code[b.val].frameCode.getLsbD (15 - i)))
      ∧ (t.code[b.val].oddParity = true ↔ (bits.map Prod.fst).count true % 2 = 1)

/-- R61, R63, R67: a wire condition ends a frame of odd parity: the last code and its time, the offer to the stall
reference, the CODE record and the CODE event, and then IDLE or a new frame. That a CODE_STALL event due as the period
begins comes after the CODE event is the model's choice (notes/assumptions/45.md). -/
def CodeArrivalIsRecordedAndHanded : Prop :=
  ∀ (s : State) (b : Bay) (cond : CodeCond), s.active b = true → s.code[b.val].state = .stopWait →
    s.code[b.val].oddParity = true →
    ∃ t, exec (.codeArrival b cond) s = .next t
      ∧ Leaves s t ((conditionEvent b (.code s.code[b.val].frameCode)
          (offer b (.code s.code[b.val].frameCode) s.code[b.val].frameStart
            (offerStall b s.code[b.val].frameStart (s.modCode b (fun c =>
              { c with lastCode := some s.code[b.val].frameCode, lastCodeTime := s.code[b.val].frameStart }))))).modCode
          b (frameEnded cond s.time.count)) blockArea
      ∧ t.code[b.val].lastCode = some s.code[b.val].frameCode
      ∧ t.code[b.val].lastCodeTime = s.code[b.val].frameStart
      ∧ t.code[b.val].state = (if cond = .start then .data else .idle)

/-- R66, R67, R105: the stall reference takes a time when it is none, lapsed or not later than the time; a time taken
begins a stall period unless the sequencer is DISARMED; a time discarded changes nothing. -/
def StallReferenceTakesNoEarlierTime : Prop :=
  ∀ (s : State) (b : Bay) (t : Tick),
    ((s.code[b.val].stallRef = none ∨ s.code[b.val].stallLapsed = true
        ∨ ∃ r, s.code[b.val].stallRef = some r ∧ elapsed r t < 2 ^ 47) →
      offerStall b t s = { s with
        code := upd s.code b (fun c => { c with stallRef := some t, stallLapsed := false })
        seq := upd s.seq b (fun q =>
          if q.state = .disarmed then q
          else { q with stallStart := some t, stallBegin := some s.time.count, stallGiven := 0 }) })
    ∧ (∀ r, s.code[b.val].stallRef = some r → s.code[b.val].stallLapsed = false → 2 ^ 47 ≤ elapsed r t →
      offerStall b t s = s)

/-- R34, R67, R105: the stall reference, and the lapse of times; when t_last lapses in a stream that writes LATE records
is the model's choice of notes/assumptions/18.md. -/
def Obligations.StallReferenceAndLapses : Prop :=
  TimesLapseAfterTwoToTheFortySix ∧ StallReferenceTakesNoEarlierTime

/-- R61, R62, R64, R65: a frame in error offers a CODE_ERR record with its cause and detail and counts one error; the
last code, the stall reference and the sequencer stay. -/
def FrameErrorsAreRecorded : Prop :=
  ∀ (s : State) (b : Bay) (c : Instr) (cause : CodeErrCause) (detail : Nat) (after : CodeRx → CodeRx),
    s.active b = true →
    ((∃ cond, c = .codeErr b cond ∧ s.code[b.val].state = .stopWait ∧ s.code[b.val].oddParity = false
        ∧ cause = .parity ∧ detail = s.code[b.val].frameCode.toNat ∧ after = frameEnded cond s.time.count)
      ∨ (∃ cond, c = .codeErr b cond ∧ s.code[b.val].state = .data
        ∧ cause = .short ∧ detail = s.code[b.val].bits ∧ after = frameEnded cond s.time.count)
      ∨ (c = .codeFrameStall b ∧ s.code[b.val].state ≠ .idle
        ∧ elapsed s.code[b.val].lastClk s.time.count = 100000
        ∧ cause = .stalled ∧ detail = s.code[b.val].bits ∧ after = fun r => { r with state := .idle, bits := 0 })) →
    ∃ t, exec c s = .next t
      ∧ Leaves s t ((offer b (.codeErr cause detail) s.code[b.val].frameStart s).modCode b
          (fun r => after { r with errors := r.errors + 1#32 }))
        (fun a => inBayEntry b a ∨ inStreamEntry b a)

/-- R61 to R65: a frame ends as a code arrival or in error. That the CODE event comes before a CODE_STALL event then due
is the model's choice (notes/assumptions/45.md). -/
def Obligations.FramesAreJudgedAtTheirEnd : Prop :=
  CodeArrivalIsRecordedAndHanded ∧ FrameErrorsAreRecorded

/-! ### Rail Scanner -/

/-- R74 to R76: the window state after a value. -/
def WindowAfter (r : Rail) (v : Nat) (w : RailWindow) : Prop :=
  (r.window = .unknown ∨ r.window = .inside →
    (v < r.lowLimit → w = .low) ∧ (r.lowLimit ≤ v → r.highLimit < v → w = .high)
    ∧ (r.lowLimit ≤ v → v ≤ r.highLimit → w = .inside))
  ∧ (r.window = .low →
    (r.highLimit < v → w = .high)
    ∧ (r.lowLimit + r.hyst ≤ v → v ≤ r.highLimit - r.hyst → w = .inside)
    ∧ (v ≤ r.highLimit → v < r.lowLimit + r.hyst ∨ r.highLimit - r.hyst < v → w = .low))
  ∧ (r.window = .high →
    (v < r.lowLimit → w = .low)
    ∧ (r.lowLimit ≤ v → r.lowLimit + r.hyst ≤ v → v ≤ r.highLimit - r.hyst → w = .inside)
    ∧ (r.lowLimit ≤ v → v < r.lowLimit + r.hyst ∨ r.highLimit - r.hyst < v → w = .high))

/-- R71, R73 to R78: after 2,000 ticks a conversion gives its value, window state and time; the next begins at once at
the next position; a transition offers a RAIL record and hands a RAIL event with the rail, both states and the value,
and no other conversion does; every conversion writes the rail's fields, changed or not. -/
def Obligations.ConversionJudgesItsRail : Prop :=
  ∀ (s : State) (b : Bay) (r : RailId) (start : Tick) (code : BitVec 12),
    s.ctl.device = .running → s.scanner.conv = some ⟨b, r, start⟩ → elapsed start s.time.count = 2000 →
    ∃ t w, exec (.conversion code) s = .next t
      ∧ WindowAfter s.rail[b.val][r.val] (code.toNat * s.rail[b.val][r.val].fullScale / 4096) w
      ∧ t.rail = upd s.rail b (fun v => upd v r (fun x =>
          { x with
            value := code.toNat * x.fullScale / 4096
            window := w
            lastConv := some s.time.count }))
      ∧ (∃ c q, t.scanner = ⟨some (c, q), some ⟨c, q, s.time.count⟩⟩
        ∧ (r ≠ 2 → c = b ∧ q = r + 1)
        ∧ (r = 2 → s.enabled b = true → q = 0 ∧ s.enabled c = true
          ∧ (b < c → ∀ x, b < x → x < c → s.enabled x = false)
          ∧ (c ≤ b → ∀ x, b < x ∨ x < c → s.enabled x = false)))
      ∧ (s.mem.wf →
        t.mem.field (0x001828 + 256 * b.val + 16 * r.val) 2
          = code.toNat * s.rail[b.val][r.val].fullScale / 4096 % 65536
        ∧ t.mem.read (0x00182A + 256 * b.val + 16 * r.val)
          = (match w with | .unknown => 0#8 | .inside => 1#8 | .low => 2#8 | .high => 3#8)
        ∧ t.mem.read (0x00182B + 256 * b.val + 16 * r.val) = 1#8
        ∧ t.mem.field (0x001830 + 256 * b.val + 16 * r.val) 8 = s.time.count.toNat)
      ∧ (w = s.rail[b.val][r.val].window ∨ s.rail[b.val][r.val].window = .unknown ∧ w = .inside →
        t = { s with rail := t.rail, scanner := t.scanner, mem := t.mem } ∧ Unchanged (inBayEntry b) s t)
      ∧ (w ≠ s.rail[b.val][r.val].window → ¬ (s.rail[b.val][r.val].window = .unknown ∧ w = .inside) →
        Leaves s t { conditionEvent b
            (.rail r s.rail[b.val][r.val].window w (code.toNat * s.rail[b.val][r.val].fullScale / 4096))
            (offer b (.rail r w (code.toNat * s.rail[b.val][r.val].fullScale / 4096)) s.time.count
              { s with rail := t.rail }) with scanner := t.scanner } blockArea)

/-! ### Console Ports -/

/-- R81 to R83: a fall in IDLE begins a byte; a low sample 0 and samples 1 to 8 gather it, least significant bit first;
a high sample 0 drops it; a low stop bit with a 0x00 byte makes a break candidate; a rise ends BREAK_HOLD. -/
def Obligations.ReceiverSamplesTenBits : Prop :=
  ∀ (s : State) (b : Bay) (level : Bool), s.active b = true →
    (s.con[b.val].rx = .idle →
      exec (.conRxFall b) s = .next (s.modCon b (fun c =>
        { c with rx := .receiving, fall := s.time.count, sample := 0, data := 0#8 })))
    ∧ (s.con[b.val].rx = .breakHold →
      exec (.breakHoldRise b) s = .next (s.modCon b (fun c => { c with rx := .idle })))
    ∧ (s.con[b.val].rx = .receiving →
      elapsed s.con[b.val].fall s.time.count
        = s.con[b.val].divisor / 2 + s.con[b.val].sample * s.con[b.val].divisor →
      (s.con[b.val].sample = 0 →
        exec (.bitSample b false) s = .next (s.modCon b (fun c => { c with sample := 1 }))
        ∧ exec (.falseStart b) s = .next (s.modCon b (fun c => { c with rx := .idle })))
      ∧ (1 ≤ s.con[b.val].sample → s.con[b.val].sample ≤ 8 →
        exec (.bitSample b level) s = .next (s.modCon b (fun c =>
          { c with
            sample := c.sample + 1
            data := c.data ||| (if level then 1#8 <<< (c.sample - 1) else 0#8) })))
      ∧ (s.con[b.val].sample = 9 → s.con[b.val].data = 0#8 →
        exec (.breakCandidate b) s = .next (s.modCon b (fun c => { c with rx := .breakCheck }))))

/-- The stop sample time of the byte in reception (R82). -/
def stopSample (c : Console) : Tick := c.fall + BitVec.ofNat 48 (c.divisor / 2 + 9 * c.divisor)

/-- R85: the batch after a byte has joined it. -/
def batchAfter (c : Console) (byte : Byte) (err : Bool) : Batch :=
  match c.batch with
  | none => ⟨c.fall, [(byte, err)], stopSample c⟩
  | some p => ⟨p.time, p.bytes ++ [(byte, err)], stopSample c⟩

/-- R85, R86, R89: what a received byte does to the bay's batch and stream. -/
def Batched (s t : State) (b : Bay) (byte : Byte) (err : Bool) : Prop :=
  if s.str[b.val].state = .running ∨ s.str[b.val].state = .postTrigger then
    if 8 ≤ (batchAfter s.con[b.val] byte err).bytes.length then
      t.con[b.val].batch = none
      ∧ t.str[b.val] = s.str[b.val].offer
        ⟨(batchAfter s.con[b.val] byte err).time, .console (batchAfter s.con[b.val] byte err).bytes false⟩
    else t.con[b.val].batch = some (batchAfter s.con[b.val] byte err) ∧ t.str[b.val] = s.str[b.val]
  else t.con[b.val].batch = s.con[b.val].batch ∧ t.str[b.val] = s.str[b.val]

/-- R82, R84, R85, R90, R91: a good byte is counted, batched, joined to the match window and compared with the patterns
of an ARMED program; with no match nothing else happens. -/
def Obligations.GoodByteIsCountedBatchedAndMatched : Prop :=
  ∀ (s : State) (b : Bay), s.active b = true → s.con[b.val].rx = .receiving → s.con[b.val].sample = 9 →
    elapsed s.con[b.val].fall s.time.count = s.con[b.val].divisor / 2 + 9 * s.con[b.val].divisor →
    ∃ t, exec (.goodByte b) s = .next t ∧ AfterEvents s t
      ∧ t.con[b.val].rx = .idle ∧ t.con[b.val].received = s.con[b.val].received + 1#32
      ∧ t.con[b.val].window = (s.con[b.val].window ++ [s.con[b.val].data]).drop (s.con[b.val].window.length + 1 - 16)
      ∧ t.con[b.val].framing = s.con[b.val].framing ∧ t.con[b.val].breaks = s.con[b.val].breaks
      ∧ ((s.seq[b.val].state ≠ .armed ∨ ∀ p pat, s.seq[b.val].program = some p → pat ∈ p.patterns →
          ¬ pat <:+ t.con[b.val].window) →
        t = { s with con := t.con, str := t.str, mem := t.mem }
        ∧ Batched s t b s.con[b.val].data false
        ∧ (∀ c : Bay, c ≠ b → t.con[c.val] = s.con[c.val] ∧ t.str[c.val] = s.str[c.val])
        ∧ Unchanged (fun a => inBayEntry b a ∨ inStreamEntry b a) s t)
      ∧ (∀ (p : Program) (n : Nat) (pat : List Byte), s.seq[b.val].state = .armed → s.seq[b.val].program = some p →
        p.patterns[n]? = some pat → pat <:+ t.con[b.val].window →
        (∀ (m : Nat) (other : List Byte), m ≠ n → p.patterns[m]? = some other → ¬ other <:+ t.con[b.val].window) →
        ∃ x, Leaves s t (conditionEvent b (.consoleMatch n) x) blockArea
          ∧ x = { s with con := x.con, str := x.str } ∧ Batched s x b s.con[b.val].data false)

/-- R82, R83, R85: a byte with a framing error, at its stop sample or at the rise that ends a break candidate, is
batched with its error flag and counted twice, and empties the match window; it hands no event. -/
def FramingErrorIsCountedAndEmptiesTheWindow : Prop :=
  ∀ (s : State) (b : Bay) (byte : Byte), s.active b = true →
    (s.con[b.val].rx = .receiving ∧ s.con[b.val].sample = 9 ∧ s.con[b.val].data ≠ 0#8 ∧ byte = s.con[b.val].data
        ∧ elapsed s.con[b.val].fall s.time.count = s.con[b.val].divisor / 2 + 9 * s.con[b.val].divisor
      ∨ s.con[b.val].rx = .breakCheck ∧ byte = 0#8
        ∧ elapsed s.con[b.val].fall s.time.count < s.con[b.val].divisor / 2 + 10 * s.con[b.val].divisor) →
    ∃ t, exec (.framingError b) s = .next t
      ∧ t = { s with con := t.con, str := t.str, mem := t.mem }
      ∧ t.con[b.val] = { s.con[b.val] with
          rx := .idle
          received := s.con[b.val].received + 1#32
          framing := s.con[b.val].framing + 1#32
          window := []
          batch := t.con[b.val].batch }
      ∧ Batched s t b byte true
      ∧ (∀ c : Bay, c ≠ b → t.con[c.val] = s.con[c.val] ∧ t.str[c.val] = s.str[c.val])
      ∧ Unchanged (fun a => inBayEntry b a ∨ inStreamEntry b a) s t

/-- R83, R87, R86: a break settled one bit time after its stop sample closes the open batch with BREAK, or offers a
record of count 0 at its fall time; it empties the window and counts. An idle batch closes 20 bit times after its last
stop sample. -/
def BreaksAndIdleCloseBatches : Prop :=
  ∀ (s : State) (b : Bay), s.active b = true →
    (s.con[b.val].rx = .breakCheck →
      elapsed s.con[b.val].fall s.time.count = s.con[b.val].divisor / 2 + 10 * s.con[b.val].divisor →
      ∃ t, exec (.breakSettled b) s = .next t
        ∧ t = { s with
            con := upd s.con b (fun c =>
              { c with rx := .breakHold, window := [], breaks := c.breaks + 1#32, batch := none })
            str := upd s.str b (fun v => v.offer (match s.con[b.val].batch with
              | some p => ⟨p.time, .console p.bytes true⟩
              | none => ⟨s.con[b.val].fall, .console [] true⟩))
            mem := t.mem }
        ∧ Unchanged (fun a => inBayEntry b a ∨ inStreamEntry b a) s t)
    ∧ (∀ p : Batch, s.con[b.val].batch = some p →
      elapsed p.lastStop s.time.count = 20 * s.con[b.val].divisor →
      ∃ t, exec (.batchIdleClose b) s = .next t
        ∧ t = { s with
            con := upd s.con b (fun c => { c with batch := none })
            str := upd s.str b (fun v => v.offer ⟨p.time, .console p.bytes false⟩)
            mem := t.mem }
        ∧ Unchanged (fun a => inStreamEntry b a) s t)

/-- R82 to R87: framing errors, breaks and the idle close. -/
def Obligations.FramingErrorsBreaksAndIdleCloses : Prop :=
  FramingErrorIsCountedAndEmptiesTheWindow ∧ BreaksAndIdleCloseBatches

/-- R80, R94: the level of CON_TX. In bit time `i` of a character it is the start bit, a data bit, least significant
first, or the stop bit; between characters and without a job it idles high; a port that does not run drives nothing. -/
def TransmitLevels : Prop :=
  ∀ (s : State) (b : Bay),
    (s.active b = false → s.conTx b = none)
    ∧ (s.active b = true →
      (s.con[b.val].job = none → s.conTx b = some true)
      ∧ ∀ (j : TxJob) (start : Tick), s.con[b.val].job = some j →
        (j.phase = .gap start → s.conTx b = some true)
        ∧ ∀ i r, j.phase = .character start → r < s.con[b.val].divisor → i < 10 →
          elapsed start s.time.count = i * s.con[b.val].divisor + r →
          (i = 0 → s.conTx b = some false)
          ∧ (1 ≤ i → i ≤ 8 → s.conTx b = some (j.byte.getLsbD (i - 1)))
          ∧ (i = 9 → s.conTx b = some true))

/-- R94, R95: a character ends after 10 bit times and counts; after a gap, or at once with a gap of 0, the next byte is
read and sent; the last character, or the one an abort has let finish, ends the job with the bytes sent. That an abort
later in the tick of a gap of 0 meets the next character is the model's reading (notes/assumptions/48.md). -/
def CharactersAndGapsFollow : Prop :=
  ∀ (s : State) (b : Bay) (j : TxJob) (start : Tick), s.con[b.val].job = some j →
    (j.phase = .character start → elapsed start s.time.count = 10 * s.con[b.val].divisor →
      (s.con[b.val].tx = .sending → j.next + 1 < j.length →
        (j.gap ≠ 0 → exec (.characterEnd b) s = .next (s.modCon b (fun c =>
          { c with job := some { j with sent := j.sent + 1, next := j.next + 1, phase := .gap s.time.count } })))
        ∧ (j.gap = 0 → exec (.characterEnd b) s = .next (s.modCon b (fun c =>
          { c with job := some { j with
              byte := s.mem.read (j.offset + (j.next + 1))
              sent := j.sent + 1
              next := j.next + 1
              phase := .character s.time.count } }))))
      ∧ (∀ st, (s.con[b.val].tx = .finishing st ∨ s.con[b.val].tx = .sending ∧ j.length ≤ j.next + 1 ∧ st = .ok) →
        exec (.characterEnd b) s = .next ((s.modCon b (fun c => { c with tx := .idle, job := none })).modSlot j.slot
          (fun r => { r with report := some ⟨st, 0#16, BitVec.ofNat 64 (j.sent + 1), s.time.count⟩ }))))
    ∧ (j.phase = .gap start → elapsed start s.time.count = j.gap →
      exec (.gapEnd b) s = .next (s.modCon b (fun c =>
        { c with job := some { j with byte := s.mem.read (j.offset + j.next), phase := .character s.time.count } })))

/-- R80, R94, R95: the characters and gaps of a SEND job, and the level of CON_TX. -/
def Obligations.SendSendsItsBytesInOrder : Prop := CharactersAndGapsFollow ∧ TransmitLevels

/-! ### Trigger Sequencers -/

/-- An entry of the current stage that an event matches (R101). -/
def Hit (k : Nat) (ev : Event) (e : Entry) : Prop := e.stage = k ∧ e.cond.matches ev = true

/-- R101: the counters after an event, one more for each entry that it hits. -/
def Counted (k : Nat) (ev : Event) (es : List Entry) (old new : List Nat) : Prop :=
  new.length = old.length
  ∧ ∀ (j : Nat) (e : Entry) (c : Nat), es[j]? = some e → old[j]? = some c →
    (Hit k ev e → new[j]? = some (c + 1)) ∧ (¬ Hit k ev e → new[j]? = some c)

/-- R102, R103: entry `j` is the lowest-numbered entry that the event completes. -/
def Completes (k : Nat) (ev : Event) (es : List Entry) (new : List Nat) (j : Nat) (e : Entry) : Prop :=
  es[j]? = some e ∧ Hit k ev e ∧ (∃ c, new[j]? = some c ∧ e.needed ≤ c)
  ∧ ∀ (i : Nat) (f : Entry) (c : Nat), i < j → es[i]? = some f → new[i]? = some c → Hit k ev f → c < f.needed

/-- R98, R101 to R103: an event is ignored unless the sequencer is ARMED; it counts in every entry of the current stage
it matches; the lowest-numbered completed entry gives its outcome: a stage entered with every counter 0, or a fire. -/
def EventCountsAndTakesTheLowestOutcome : Prop :=
  ∀ (s : State) (b : Bay) (ev : Event),
    (s.seq[b.val].state ≠ .armed → conditionEvent b ev s = s)
    ∧ ∀ (p : Program) (k : Nat), s.seq[b.val].state = .armed → s.seq[b.val].program = some p →
      s.seq[b.val].stage = some k → s.seq[b.val].counters.length = p.entries.length →
      ∃ new, Counted k ev p.entries s.seq[b.val].counters new
        ∧ ((∀ j e, ¬ Completes k ev p.entries new j e) →
          conditionEvent b ev s = s.modSeq b (fun q => { q with counters := new }))
        ∧ (∀ j e, Completes k ev p.entries new j e →
          (e.outcome = .next ∧ k < 4 →
            conditionEvent b ev s = s.modSeq b (fun q =>
              { q with
                stage := some (k + 1)
                counters := List.replicate p.entries.length 0
                stageEntry := some s.time.count }))
          ∧ (e.outcome = .restart →
            conditionEvent b ev s = s.modSeq b (fun q =>
              { q with
                stage := some 1
                counters := List.replicate p.entries.length 0
                stageEntry := some s.time.count }))
          ∧ (e.outcome = .fire ∨ e.outcome = .next ∧ 4 ≤ k →
            conditionEvent b ev s = fire b p k j (s.modSeq b (fun q => { q with counters := new }))))

/-- R112, R114, R132: a fire of a program releases a slot that is PARKED. -/
def Released (s : State) (p : Program) (i : Slot) : Prop :=
  p.actions.getLsbD 4 = true ∧ p.releaseSlot = i.val ∧ s.slots[i.val].state = .parked

/-- R43, R116: a fire of a program stops a stream that is RUNNING. -/
def StopsTrace (s : State) (p : Program) (b : Bay) : Prop :=
  p.actions.getLsbD 2 = true ∧ s.str[b.val].state = .running

/-- R112 to R118: what a fire does: FIRED with its instant, stage and entry; the MARK record; and the hold, the
release of a parked slot, the stop request, the arrival of the named preset at the named line with owner TRIGGER, and
the TRIGGER factor exactly when the action set holds them. The place of the MARK in the queue is how the model knows
the MARK of the fire (notes/assumptions/34.md). -/
def FireActs : Prop :=
  ∀ (s t : State) (b : Bay) (p : Program) (k j : Nat), t = fire b p k j s →
    AfterEvents s { t with link := s.link.signal s.notices.asserted t.notices.asserted }
    ∧ t.seq = upd s.seq b (fun q =>
      { q with
        state := .fired
        fireCount := q.fireCount + 1#32
        lastFire := some ⟨s.time.count, k, j⟩ })
    ∧ t.disp = { s.disp with
        hold := if p.actions.getLsbD 1 then s.disp.hold ||| 1#8 <<< b.val else s.disp.hold }
    ∧ (p.actions.getLsbD 0 = true → t.notices.pend[(bayGroup b).val].getLsbD 1 = true)
    ∧ (p.actions.getLsbD 0 = false →
      t.notices.pend[(bayGroup b).val].getLsbD 1 = s.notices.pend[(bayGroup b).val].getLsbD 1)
    ∧ (p.actions.getLsbD 3 = false → t.drv = s.drv
      ∧ ∀ i : Slot, s.slots[i.val].state = .inService → t.slots[i.val].report = s.slots[i.val].report)
    ∧ (∀ (d : OutLine) (preset : LineProg), p.actions.getLsbD 3 = true → p.pulseLine = d.val →
      p.presets[p.pulsePreset]? = some preset →
      t.drv = (endLinesIfDone b (arrive b d preset .trigger s)).drv
      ∧ ∀ i : Slot, s.slots[i.val].state = .inService →
        t.slots[i.val].report = (endLinesIfDone b (arrive b d preset .trigger s)).slots[i.val].report)
    ∧ (∀ c : Bay, c ≠ b → t.drv[c.val] = s.drv[c.val] ∧ t.con[c.val] = s.con[c.val])
    ∧ (∀ i : Slot, p.actions.getLsbD 4 = false ∨ p.releaseSlot ≠ i.val ∨ s.slots[i.val].state ≠ .parked →
      t.slots[i.val].state = s.slots[i.val].state)
    ∧ (∀ i : Slot, p.actions.getLsbD 4 = true → p.releaseSlot = i.val → s.slots[i.val].state = .parked →
      (s.ctl.device = .stopping → t.slots[i.val].state = .done ∧ t.slots[i.val].status = .stopped)
      ∧ (s.ctl.device ≠ .stopping →
        t.slots[i.val].state = .requested
        ∧ t.slots[i.val].deadline = (if s.slots[i.val].card.limit = 0 then none
          else some ⟨s.time.count, s.slots[i.val].card.limit * 100000⟩)
        ∧ ∀ l, s.slots[i.val].card.lane = some l →
          (t.lane s.slots[i.val].card.bayIx l).queue = (s.lane s.slots[i.val].card.bayIx l).queue ++ [i]))
    ∧ (s.ctl.device ≠ .stopping → (s.str[b.val].state = .running ∨ s.str[b.val].state = .postTrigger) →
      s.str[b.val].queue.length < 32 →
      ∃ more, t.str[b.val].queue = s.str[b.val].queue ++ ⟨s.time.count, .mark k j p.actions
        (p.actions.getLsbD 4 && !(match slotOf p.releaseSlot with | some i => s.parked i | none => false))⟩ :: more)
    ∧ (p.actions.getLsbD 2 = false → t.str[b.val].state = s.str[b.val].state)
    ∧ (p.actions.getLsbD 2 = true → s.ctl.device ≠ .stopping → s.str[b.val].state = .running →
      s.str[b.val].queue.length < 32 →
      t.str[b.val].state = .postTrigger ∧ t.str[b.val].pRemaining = p.postCount
      ∧ (s.str[b.val].mode = .window → t.str[b.val].retained = [])
      ∧ t.str[b.val].markAhead = some (s.str[b.val].queue.length + 1) ∧ t.str[b.val].counting = false)

/-- R19, R43, R116: a fire at a full queue: the MARK is lost and no record of the fire joins the queue; a stop request
then counts from this instant, and with P of 0 the stream drains at once, its open CONSOLE batch closed. -/
def FireAtAFullQueue : Prop :=
  ∀ (s t : State) (b : Bay) (p : Program) (k j : Nat), t = fire b p k j s → s.ctl.device ≠ .stopping →
    (s.str[b.val].state = .running ∨ s.str[b.val].state = .postTrigger) → 32 ≤ s.str[b.val].queue.length →
    t.str[b.val].queue = s.str[b.val].queue
    ∧ (p.actions.getLsbD 3 = false →
      (¬ StopsTrace s p b ∨ p.postCount ≠ 0 ∨ s.con[b.val].batch = none) →
      t.str[b.val].lostCount = min (s.str[b.val].lostCount + 1) 65535
      ∧ t.str[b.val].lostTotal = min (s.str[b.val].lostTotal + 1) 4294967295)
    ∧ (StopsTrace s p b →
      t.str[b.val].pRemaining = p.postCount ∧ t.str[b.val].markAhead = none
      ∧ (s.str[b.val].mode = .window → t.str[b.val].retained = [])
      ∧ (p.postCount ≠ 0 → t.str[b.val].state = .postTrigger ∧ t.str[b.val].counting = true)
      ∧ (p.postCount = 0 → t.str[b.val].state = .draining ∧ t.str[b.val].drainPost = true
        ∧ t.con[b.val].batch = none))

/-- R112 to R118, R132: what a fire leaves: every queue, slot, page, stream, notice and console that its actions do not
name. -/
def FireLeavesTheRest : Prop :=
  ∀ (s t : State) (b : Bay) (p : Program) (k j : Nat), t = fire b p k j s →
    ((∀ i, ¬ Released s p i) → t.lanes = s.lanes)
    ∧ (∀ i, Released s p i → ∀ c l, ¬ (s.slots[i.val].card.bayIx = c ∧ s.slots[i.val].card.lane = some l) →
      t.lane c l = s.lane c l)
    ∧ (p.actions.getLsbD 3 = false → ∀ i, ¬ Released s p i → t.slots[i.val] = s.slots[i.val])
    ∧ (¬ (StopsTrace s p b ∧ s.str[b.val].mode = .window) → t.pool = s.pool)
    ∧ (StopsTrace s p b → s.str[b.val].mode = .window → t.pool = { s.pool with map := t.pool.map }
      ∧ ∀ q : Page, t.pool.map[q.val] = if q ∈ s.str[b.val].retainedPages then .closed b else s.pool.map[q.val])
    ∧ (∀ c : Bay, c ≠ b → (s.ctl.device ≠ .stopping ∨ ∀ i, ¬ Released s p i) → t.str[c.val] = s.str[c.val])
    ∧ (¬ StopsTrace s p b → t.con = s.con
      ∧ t.str[b.val] = { s.str[b.val] with
          queue := t.str[b.val].queue
          lostCount := t.str[b.val].lostCount
          lostTotal := t.str[b.val].lostTotal })
    ∧ t.con[b.val] = { s.con[b.val] with batch := t.con[b.val].batch }
    ∧ t.notices = { s.notices with pend := t.notices.pend }
    ∧ (∀ (g : Fin 9) (f : Fin 4), ¬ (g = bayGroup b ∧ (f = 1 ∨ f = 2 ∧ StopsTrace s p b)) →
      (s.ctl.device ≠ .stopping ∨ ∀ i, ¬ Released s p i) →
      t.notices.pend[g.val].getLsbD f.val = s.notices.pend[g.val].getLsbD f.val)

/-- R19, R43, R112 to R118, R132: what a fire does with the actions of its set, what it does at a full queue, and what it
leaves. The place of the MARK in the queue is how the model knows the MARK of the fire (notes/assumptions/34.md). -/
def Obligations.FireTakesItsActions : Prop := FireActs ∧ FireAtAFullQueue ∧ FireLeavesTheRest

/-- R99, 6.3: the kind of a condition, numbered in the order of 12.6. -/
def conditionKind : Condition → Nat
  | .code _ _ => 1
  | .codeStall _ => 2
  | .line _ _ => 3
  | .glitch _ => 4
  | .consoleMatch _ => 5
  | .rail _ _ => 6
  | .settle _ => 7
  | .jobFail => 8
  | .elapsed _ => 9

/-- R104 to R111: the kind of entry that an event is for. -/
def eventKind : Event → Nat
  | .code _ => 1
  | .codeStall _ => 2
  | .line _ _ => 3
  | .glitch _ => 4
  | .consoleMatch _ => 5
  | .rail _ _ _ _ => 6
  | .settle _ => 7
  | .jobFail _ _ _ => 8
  | .elapsed _ => 9

/-- R101, R104 to R111: which events the entries of each kind match: of their own kind those named, and of another kind
none. -/
def EntriesMatchTheirEvents : Prop :=
  (∀ (c : Condition) (ev : Event), conditionKind c ≠ eventKind ev → c.matches ev = false) ∧
  (∀ (value mask code : BitVec 16), (Condition.code value mask).matches (.code code) = true ↔ code &&& mask = value)
  ∧ (∀ m n, (Condition.codeStall m).matches (.codeStall n) = true ↔ m = n)
  ∧ (∀ (l : Nat) (e : EdgeSel) (m : InLine) (rise : Bool), (Condition.line l e).matches (.line m rise) = true ↔
    l = m.val ∧ (e = .either ∨ e = .rise ∧ rise = true ∨ e = .fall ∧ rise = false))
  ∧ (∀ (l : Nat) (m : InLine), (Condition.glitch l).matches (.glitch m) = true ↔ l = m.val)
  ∧ (∀ m n, (Condition.consoleMatch m).matches (.consoleMatch n) = true ↔ m = n)
  ∧ (∀ (r : Nat) (st : RailSel) (q : RailId) (before after : RailWindow) (v : Nat),
    (Condition.rail r st).matches (.rail q before after v) = true ↔ r = q.val ∧
      (st = .low ∧ after = .low ∨ st = .high ∧ after = .high
        ∨ st = .out ∧ (before = .unknown ∨ before = .inside) ∧ (after = .low ∨ after = .high)))
  ∧ (∀ m n, (Condition.settle m).matches (.settle n) = true ↔ m = n)
  ∧ (∀ (i : Slot) (k : Nat) (st : Status), Condition.jobFail.matches (.jobFail i k st) = true)
  ∧ (∀ m n, (Condition.elapsed m).matches (.elapsed n) = true ↔ m = n)

/-- R101 to R111: matching, counting and outcomes. -/
def Obligations.EventsMatchCountAndTakeTheLowestOutcome : Prop :=
  EntriesMatchTheirEvents ∧ EventCountsAndTakesTheLowestOutcome

/-- R105: the event of budget `n` falls at this instant: the stall period reaches the budget now, or it begins now with
the budget already reached; a budget gives one event in a period. -/
def BudgetFalls (s : State) (b : Bay) (start : Tick) (n : Nat) : Prop :=
  s.seq[b.val].stallGiven < n
  ∧ (elapsed start s.time.count = n * 100
    ∨ s.seq[b.val].stallBegin = some s.time.count ∧ n * 100 ≤ elapsed start s.time.count)

/-- R105: the least budget of the program whose event falls at this instant is `n`. -/
def BudgetDue (s : State) (b : Bay) (p : Program) (start : Tick) (n : Nat) : Prop :=
  BudgetFalls s b start n ∧ (∃ e ∈ p.entries, e.cond = .codeStall n)
  ∧ ∀ m, BudgetFalls s b start m → (∃ e ∈ p.entries, e.cond = .codeStall m) → n ≤ m

/-- R105, R111: an ARMED sequencer takes the CODE_STALL event of each budget at the instant its stall period reaches it,
or at the period's beginning when it is then already reached, once and in ascending order; and the ELAPSED event of a
time of its current stage at the instant the stage's age reaches it. At every other instant, with no stall period, with
no stage, without a program, and while not ARMED, no event falls. That the budgets given are known by the highest of
them is the model's choice (notes/assumptions/15.md). -/
def Obligations.TimedConditionsGiveTheirEvents : Prop :=
  ∀ (s : State) (b : Bay),
    (s.active b = false ∨ s.seq[b.val].state ≠ .armed ∨ s.seq[b.val].program = none →
      exec (.codeStallEvent b) s = .next s ∧ exec (.elapsedEvent b) s = .next s)
    ∧ ∀ (p : Program) (start : Tick) (n : Nat), s.active b = true → s.seq[b.val].state = .armed →
      s.seq[b.val].program = some p →
      (s.seq[b.val].stallStart = some start →
        (BudgetDue s b p start n →
          ∃ t, exec (.codeStallEvent b) s = .next t
            ∧ TakesEvent b (.codeStall n) s (s.modSeq b (fun q => { q with stallGiven := n })) t)
        ∧ ((∀ m, (∃ e ∈ p.entries, e.cond = .codeStall m) → ¬ BudgetFalls s b start m) →
          exec (.codeStallEvent b) s = .next s))
      ∧ (s.seq[b.val].stallStart = none → exec (.codeStallEvent b) s = .next s)
      ∧ (∀ k, s.seq[b.val].stage = some k → s.seq[b.val].stageEntry = some start →
        (elapsed start s.time.count = n * 100 → (∃ e ∈ p.entries, e.stage = k ∧ e.cond = .elapsed n) →
          ∃ t, exec (.elapsedEvent b) s = .next t ∧ TakesEvent b (.elapsed n) s s t)
        ∧ ((∀ m, (∃ e ∈ p.entries, e.stage = k ∧ e.cond = .elapsed m) → elapsed start s.time.count ≠ m * 100) →
          exec (.elapsedEvent b) s = .next s))
      ∧ (s.seq[b.val].stage = none ∨ s.seq[b.val].stageEntry = none → exec (.elapsedEvent b) s = .next s)

/-- R119 to R121, R123: at the end of its read, in which each byte counts as it stood at its reading, a valid image arms
the sequencer in stage 1 and the job ends OK; an invalid one changes nothing and the job ends BAD_PROGRAM with its
detail; a job marked by STOP loads nothing and ends STOPPED. -/
def ArmReadEndLoadsAValidProgram : Prop :=
  ∀ (s : State) (b : Bay) (i : Slot) (m : Memory) (early : List Host.Cell),
    s.seq[b.val].reading = some ⟨i, early⟩ → m = s.mem.asRead early →
    (s.slots[i.val].stopMark = true →
      exec (.armReadEnd b) s = .next ((s.modSeq b (fun q => { q with reading := none })).modSlot i (fun r =>
        { r with report := some ⟨.stopped, 0#16, 0#64, s.time.count⟩ })))
    ∧ (∀ r x, s.slots[i.val].stopMark = false → readProgram m s.slots[i.val].card.offset = .error (r, x) →
      exec (.armReadEnd b) s = .next ((s.modSeq b (fun q => { q with reading := none })).modSlot i (fun v =>
        { v with report := some ⟨.badProgram, detailOf r x, 0#64, s.time.count⟩ })))
    ∧ (∀ p, s.slots[i.val].stopMark = false → readProgram m s.slots[i.val].card.offset = .ok p →
      ∃ t, exec (.armReadEnd b) s = .next t
        ∧ Leaves s t ((offerStall b s.time.count (s.modSeq b (fun q =>
            { q with
              reading := none
              state := .armed
              program := some p
              stage := some 1
              counters := List.replicate p.entries.length 0
              stageEntry := some s.time.count }))).modSlot i (fun r =>
            { r with report := some ⟨.ok, 0#16, 0#64, s.time.count⟩ })) (inBayEntry b))

/-- 12.6: the entry at an address of an image. -/
def EntryAt (m : Memory) (a : Nat) (e : Entry) : Prop :=
  (m.read a).toNat = e.stage ∧ (m.read (a + 2)).toNat = e.needed
  ∧ (m.read (a + 3)).toNat = (match e.outcome with | .next => 1 | .fire => 2 | .restart => 3)
  ∧ match e.cond with
    | .code value mask => m.read (a + 1) = 1#8 ∧ m.field (a + 4) 2 = value.toNat ∧ m.field (a + 6) 2 = mask.toNat
    | .codeStall n => m.read (a + 1) = 2#8 ∧ m.field (a + 4) 4 = n
    | .line l edge => m.read (a + 1) = 3#8 ∧ (m.read (a + 4)).toNat = l
      ∧ (m.read (a + 5)).toNat = (match edge with | .rise => 1 | .fall => 2 | .either => 3)
    | .glitch l => m.read (a + 1) = 4#8 ∧ (m.read (a + 4)).toNat = l
    | .consoleMatch n => m.read (a + 1) = 5#8 ∧ (m.read (a + 4)).toNat = n
    | .rail r st => m.read (a + 1) = 6#8 ∧ (m.read (a + 4)).toNat = r
      ∧ (m.read (a + 5)).toNat = (match st with | .low => 1 | .high => 2 | .out => 3)
    | .settle n => m.read (a + 1) = 7#8 ∧ (m.read (a + 4)).toNat = n
    | .jobFail => m.read (a + 1) = 8#8
    | .elapsed n => m.read (a + 1) = 9#8 ∧ m.field (a + 4) 4 = n

/-- 12.6: the preset at an address of an image. -/
def PresetAt (m : Memory) (a : Nat) (q : LineProg) : Prop :=
  match q with
  | .timed delay width => m.read (a + 1) = 1#8 ∧ m.field (a + 2) 3 = delay ∧ m.field (a + 5) 3 = width ∧ width ≠ 0
  | .force delay => m.read (a + 1) = 1#8 ∧ m.field (a + 2) 3 = delay ∧ m.field (a + 5) 3 = 0
  | .release => m.read (a + 1) = 2#8

/-- 12.6: the image at an address holds a program. -/
def ImageOf (m : Memory) (a : Nat) (p : Program) : Prop :=
  (m.read a).toNat = p.entries.length ∧ (m.read (a + 1)).toNat = p.patterns.length
  ∧ (m.read (a + 2)).toNat = p.presets.length ∧ m.read (a + 3) = p.actions
  ∧ (m.read (a + 4)).toNat = p.pulsePreset ∧ (m.read (a + 5)).toNat = p.pulseLine
  ∧ (m.read (a + 6)).toNat = p.releaseSlot ∧ m.field (a + 8) 2 = p.postCount
  ∧ (∀ (j : Nat) (e : Entry), p.entries[j]? = some e → EntryAt m (a + 0x10 + 16 * j) e)
  ∧ (∀ (j : Nat) (pat : List Byte), p.patterns[j]? = some pat →
    (m.read (a + 0x90 + 20 * j)).toNat = pat.length ∧ m.readBytes (a + 0x90 + 20 * j + 1) pat.length = pat)
  ∧ ∀ (j : Nat) (q : LineProg), p.presets[j]? = some q → PresetAt m (a + 0xE0 + 8 * j) q

/-- R120: a program passes the checks: 1 to 8 entries with stage 1 among them, at most 4 patterns of 1 to 16 bytes and
at most 2 presets; every entry is in range; and NEXT leads to a stage that has an entry. -/
def PassesChecks (p : Program) : Prop :=
  1 ≤ p.entries.length ∧ p.entries.length ≤ 8 ∧ p.patterns.length ≤ 4 ∧ p.presets.length ≤ 2
  ∧ (∃ e ∈ p.entries, e.stage = 1)
  ∧ (∀ e ∈ p.entries, 1 ≤ e.stage ∧ e.stage ≤ 4 ∧ 1 ≤ e.needed ∧ e.needed ≤ 255
    ∧ (∀ n, e.cond = .elapsed n → e.needed = 1 ∧ 1 ≤ n ∧ n ≤ 16777215)
    ∧ (∀ n, e.cond = .codeStall n → 1 ≤ n ∧ n ≤ 16777215)
    ∧ (∀ l edge, e.cond = .line l edge → l ≤ 5)
    ∧ (∀ l, e.cond = .glitch l → l ≤ 5)
    ∧ (∀ n, e.cond = .consoleMatch n → n < p.patterns.length)
    ∧ (∀ r st, e.cond = .rail r st → r ≤ 2)
    ∧ (∀ n, e.cond = .settle n → 1 ≤ n ∧ n ≤ 8)
    ∧ (e.outcome = .next → e.stage ≤ 3 → ∃ f ∈ p.entries, f.stage = e.stage + 1))
  ∧ (∀ pat ∈ p.patterns, 1 ≤ pat.length ∧ pat.length ≤ 16)
  ∧ p.actions.toNat < 32
  ∧ (p.actions.getLsbD 3 = true → p.pulsePreset < p.presets.length ∧ p.pulseLine < 4)
  ∧ (p.actions.getLsbD 4 = true → p.releaseSlot < 64)

/-- R99, R100, R120, 12.6: an image is read as a program exactly when it holds that program and the program passes the
checks. -/
def LoadedProgramsPassTheirChecks : Prop :=
  ∀ (m : Memory) (a : Nat) (p : Program), readProgram m a = .ok p ↔ ImageOf m a p ∧ PassesChecks p

/-- R99, R100, R119 to R121, R123: loading a trigger program. -/
def Obligations.ArmLoadsOnlyCheckedPrograms : Prop :=
  ArmReadEndLoadsAValidProgram ∧ LoadedProgramsPassTheirChecks

/-! ### Line programs -/

/-- R178, R179: a program that starts now goes active at once: its delay is 0 and the line has not returned to rest at
this instant. -/
def GoesActive (p : LineProg) (l : DrvLine) : Prop :=
  (p = .force 0 ∨ ∃ w, p = .timed 0 w) ∧ l.justRested = false

/-- R178: the ticks from a program's start to the end of its delay: one tick for a delay of 0, when it does not go
active at once. -/
def waitTicks : LineProg → Nat
  | .timed n _ => if n = 0 then 1 else n * 100
  | .force n => if n = 0 then 1 else n * 100
  | .release => 0

/-- R178: a program waits on a line. -/
def waitingLine (p : LineProg) (o : Owner) (now : Tick) (l : DrvLine) : DrvLine :=
  { l with running := some ⟨p, o, .delay, now + BitVec.ofNat 48 (waitTicks p)⟩ }

/-- R178, R179: a program takes a line to its active level: a TIMED one begins its width, a FORCE sets the force. -/
def activeLine (p : LineProg) (o : Owner) (now : Tick) (l : DrvLine) : DrvLine :=
  match p with
  | .timed _ w =>
    { l with level := some (!l.rest), running := some ⟨p, o, .active, now + BitVec.ofNat 48 (w * 100)⟩ }
  | _ => { l with level := some (!l.rest), running := none, force := some o }

/-- R182: the LINES job in service when an entry of an owner has completed. -/
def counted (o : Owner) (job : Option LinesJob) : Option LinesJob :=
  job.map (fun j => if o = .job j.slot j.accept then { j with completed := j.completed + 1 } else j)

/-- R179, R182: the LINES job in service when a program of an owner has gone active: a FORCE has completed. -/
def countedActive (p : LineProg) (o : Owner) (job : Option LinesJob) : Option LinesJob :=
  match p with
  | .force _ => counted o job
  | _ => job

/-- R180: the DRIVE record of a change made by a program of an owner. -/
def driveRecord (d : OutLine) (level : Bool) (o : Owner) (now : Tick) : Record :=
  ⟨now, match o with | .trigger => .drive d level .trigger none | .job i _ => .drive d level .job (some i)⟩

/-- R182: the report of a LINES job that ends by itself. -/
def linesReport (j : LinesJob) (now : Tick) : Report :=
  ⟨if j.superseded = 0 then .ok else .superseded, 0#16, BitVec.ofNat 64 (j.completed + 256 * j.superseded), now⟩

/-- R183 steps 1 to 3: a line after the abort of the LINES job with owner `o` has taken what that job owned on it. -/
def cutLine (o : Owner) (l : DrvLine) : DrvLine :=
  { l with
    running := if l.running.map Running.owner = some o then none else l.running
    buffered := if l.buffered.map Buffered.owner = some o then none else l.buffered
    force := if l.force = some o then none else l.force
    level := if l.running.map Running.owner = some o ∨ l.force = some o then some l.rest else l.level
    justRested := decide ((l.running.map Running.owner = some o ∧ l.level ≠ some l.rest) ∨ l.force = some o)
      || l.justRested }

/-- R183 step 4: whether the buffered program of another owner starts on a line. -/
def restarts (o : Owner) (l : DrvLine) : Option Buffered :=
  if (cutLine o l).running = none ∧ (cutLine o l).force = none then (cutLine o l).buffered else none

/-! ### Job table and Dispatcher -/

/-- R128: a refused POST raises BAD_POST and changes nothing else. -/
def RefusedPostRaisesBadPost : Prop :=
  ∀ (s : State) (v : Word),
    (s.ctl.device ≠ .running ∨ 64 ≤ v.toNat % 256
      ∨ ∃ i : Slot, v.toNat % 256 = i.val ∧ (s.slots[i.val].state = .parked
        ∨ s.slots[i.val].state = .requested ∨ s.slots[i.val].state = .inService)) →
    ∃ t, exec (.post v) s = .next t
      ∧ t = { s with
          notices := s.notices.raise 0 2
          link := s.link.signal s.notices.asserted t.notices.asserted
          mem := t.mem }
      ∧ Unchanged inPendingSet s t

/-- R93, R130, R159, R181: the kind parameters of a card that pass intake check 4. -/
def ParamsOk (i : Slot) (c : Card) : JobKind → Prop
  | .scan => c.length % 16 = 0 ∧ 16 ≤ c.length ∧ c.length ≤ 4096
  | .send => 1 ≤ c.length ∧ c.length ≤ 65536
  | .lines => c.length % 8 = 0 ∧ 8 ≤ c.length ∧ c.length ≤ 64
  | .arm => c.param 0 = 1 ∨ c.param 0 = 2
  | .trace => c.param 0 = 1 ∧ (c.param 1 = 1 ∨ c.param 1 = 2) ∨ c.param 0 = 2 ∨ c.param 0 = 3
  | .cancel => c.param 0 = 1 ∧ c.param 1 < 64 ∧ c.param 1 ≠ i.val ∨ c.param 0 = 2

/-- R129, R130, 12.4: the intake checks in their order, with the status and the detail each gives. -/
def Obligations.IntakeChecksInOrder : Prop :=
  ∀ (enabled : BitVec 8) (i : Slot) (c : Card),
    (8 ≤ c.bay.toNat → intake enabled i c = .badBay)
    ∧ (c.bay.toNat < 8 → (c.kind = 0#8 ∨ 6 < c.kind.toNat) → intake enabled i c = .failed .badCard 2#16)
    ∧ ∀ k, c.bay.toNat < 8 → c.jobKind = some k →
      (k ≠ .cancel → 8 < c.gate.toNat → intake enabled i c = .failed .badCard 3#16)
      ∧ (k = .cancel ∨ c.gate.toNat ≤ 8 → ¬ ParamsOk i c k →
        intake enabled i c
          = .failed .badCard (if k = .cancel ∧ c.param 0 = 1 ∧ c.param 1 = i.val then 5#16 else 4#16))
      ∧ (k = .cancel ∨ c.gate.toNat ≤ 8 → ParamsOk i c k →
        intake enabled i c
          = if enabled.getLsbD c.bay.toNat = true then .accepted else .failed .bayDisabled 0#16)

/-- What the card of a slot shows in card memory of its state and its end (12.4). -/
def CardShowsEnd (m : Memory) (i : Slot) (r : SlotRec) : Prop :=
  m.read (cardAddr i + 0x40) = BitVec.ofNat 8 (slotCode r.state)
  ∧ m.read (cardAddr i + 0x41) = BitVec.ofNat 8 (statusCode r.status)
  ∧ m.field (cardAddr i + 0x42) 2 = r.detail.toNat
  ∧ m.field (cardAddr i + 0x58) 8 = r.finish.toNat
  ∧ m.field (cardAddr i + 0x60) 8 = r.result.toNat

/-- The card shows the start time too. -/
def CardShows (m : Memory) (i : Slot) (r : SlotRec) : Prop :=
  CardShowsEnd m i r ∧ m.field (cardAddr i + 0x50) 8 = r.start.toNat

/-- R125, R127 to R129, R141: a POST whose card fails intake ends it DONE at that instant, the card showing the end; a
bay above 7 raises BAD_POST and touches no bay. -/
def FailedIntakeEndsTheCard : Prop :=
  ∀ (s : State) (v : Word) (i : Slot), v.toNat % 256 = i.val → s.ctl.device = .running → s.mem.wf →
    (s.slots[i.val].state = .free ∨ s.slots[i.val].state = .done) →
    (intake s.ctl.enabled i (readCard s.mem i) = .badBay →
      ∃ t, exec (.post v) s = .next t
        ∧ t = { s with
            slots := upd s.slots i (fun _ => { SlotRec.reset with
              state := .done
              card := readCard s.mem i
              accept := s.time.count
              start := s.time.count
              finish := s.time.count
              status := .badCard
              detail := 1#16 })
            notices := s.notices.raise 0 2
            link := s.link.signal s.notices.asserted t.notices.asserted
            mem := t.mem }
        ∧ CardShows t.mem i t.slots[i.val]
        ∧ Unchanged (fun a => inPendingSet a ∨ (cardAddr i + 0x40 ≤ a ∧ a < cardAddr i + 0x68)) s t)
    ∧ (∀ st detail, intake s.ctl.enabled i (readCard s.mem i) = .failed st detail →
      ∃ t, exec (.post v) s = .next t ∧ AfterEvents s t
        ∧ t.slots[i.val] = { SlotRec.reset with
            state := .done
            card := readCard s.mem i
            accept := s.time.count
            start := s.time.count
            finish := s.time.count
            status := st
            detail := detail
            report := t.slots[i.val].report }
        ∧ CardShows t.mem i t.slots[i.val]
        ∧ t.notices.pend[(bayGroup (readCard s.mem i).bayIx).val].getLsbD 0 = true
        ∧ t.seq[(readCard s.mem i).bayIx.val] = (conditionEvent (readCard s.mem i).bayIx
            (.jobFail i (readCard s.mem i).kind.toNat st) s).seq[(readCard s.mem i).bayIx.val]
        ∧ (s.seq[(readCard s.mem i).bayIx.val].state ≠ .armed →
          t.str = upd s.str (readCard s.mem i).bayIx
            (fun q => q.offer ⟨s.time.count, .jobEnd i st (readCard s.mem i).tag⟩)
          ∧ (∀ k : Slot, k ≠ i → t.slots[k.val] = s.slots[k.val])
          ∧ t.con = s.con ∧ t.drv = s.drv ∧ t.disp = s.disp ∧ t.pool = s.pool ∧ t.seq = s.seq))

/-- R128, R129, R141: POSTs that are refused or fail intake. -/
def Obligations.PostIsRefusedOrEndsAtIntake : Prop :=
  RefusedPostRaisesBadPost ∧ FailedIntakeEndsTheCard

/-- R125, R127, R131, R133, R143: an accepted card becomes PARKED, on no queue and without a deadline, or REQUESTED at
the tail of the queue of its bay and lane with its deadline from the POST; nothing else changes and no record is
offered. -/
def Obligations.AcceptedCardWaits : Prop :=
  ∀ (s : State) (v : Word) (i : Slot) (l : Lane), v.toNat % 256 = i.val → s.ctl.device = .running → s.mem.wf →
    (s.slots[i.val].state = .free ∨ s.slots[i.val].state = .done) →
    intake s.ctl.enabled i (readCard s.mem i) = .accepted → (readCard s.mem i).lane = some l →
    ∃ t, exec (.post v) s = .next t
      ∧ t = { s with slots := t.slots, lanes := t.lanes, mem := t.mem }
      ∧ t.slots = upd s.slots i (fun _ => { SlotRec.reset with
          state := if v.getLsbD 8 then .parked else .requested
          card := readCard s.mem i
          accept := s.time.count
          deadline := if v.getLsbD 8 ∨ (readCard s.mem i).limit = 0 then none
            else some ⟨s.time.count, (readCard s.mem i).limit * 100000⟩ })
      ∧ (∀ b m, t.lane b m = if ¬ v.getLsbD 8 ∧ b = (readCard s.mem i).bayIx ∧ m = l then
          { s.lane b m with queue := (s.lane b m).queue ++ [i] } else s.lane b m)
      ∧ CardShows t.mem i t.slots[i.val]
      ∧ t.mem.field (cardAddr i + 0x48) 8 = s.time.count.toNat
      ∧ Unchanged (fun a => inSlotCounts a ∨ (cardAddr i + 0x40 ≤ a ∧ a < cardAddr i + 0x68)) s t

/-- R147's table, for a target that can be cancelled or not: what the CANCEL does to the target and its own status. -/
def CancelActsByTheTargetsState : Prop :=
  ∀ (s : State) (v : Word) (i j : Slot), v.toNat % 256 = i.val → s.ctl.device = .running →
    (s.slots[i.val].state = .free ∨ s.slots[i.val].state = .done) →
    intake s.ctl.enabled i (readCard s.mem i) = .accepted → (readCard s.mem i).jobKind = some .cancel →
    (readCard s.mem i).param 0 = 1 → (readCard s.mem i).param 1 = j.val →
    ∃ t, exec (.post v) s = .next t
      ∧ t.slots[i.val].state = .done ∧ t.slots[i.val].result = 0#64 ∧ t.slots[i.val].card = readCard s.mem i
      ∧ ((s.slots[j.val].state = .requested ∨ s.slots[j.val].state = .parked) →
        t.slots[i.val].status = .ok ∧ t.slots[j.val].state = .done ∧ t.slots[j.val].status = .cancelled
        ∧ ∀ l, s.slots[j.val].card.lane = some l → j ∉ (t.lane s.slots[j.val].card.bayIx l).queue)
      ∧ (s.slots[j.val].state = .inService → s.slots[j.val].interruptible = true →
        t.slots[i.val].status = .ok ∧ t.slots[j.val].state = .inService
        ∧ (s.slots[j.val].mark = none → t.slots[j.val].mark = some .cancelled ∧ t.slots[j.val].deadline = none
          ∧ t.slots[j.val].report = (askOwner j .cancelled s).slots[j.val].report
          ∧ t.eng = (askOwner j .cancelled s).eng ∧ t.port = (askOwner j .cancelled s).port
          ∧ t.con = (askOwner j .cancelled s).con ∧ t.drv = (askOwner j .cancelled s).drv
          ∧ t.str = upd (askOwner j .cancelled s).str (readCard s.mem i).bayIx
              (fun q => q.offer ⟨s.time.count, .jobEnd i .ok (readCard s.mem i).tag⟩))
        ∧ (∀ st, s.slots[j.val].mark = some st → t.slots[j.val] = s.slots[j.val]))
      ∧ (s.slots[j.val].state = .inService → s.slots[j.val].interruptible = false →
        t.slots[i.val].status = .notInterruptible ∧ t.slots[j.val].state = .inService
        ∧ t.slots[j.val].mark = s.slots[j.val].mark)
      ∧ ((s.slots[j.val].state = .free ∨ s.slots[j.val].state = .done) →
        t.slots[i.val].status = .nothingToCancel)

/-- A slot that a bay-wide CANCEL of slot `i` finds (R148). -/
def Found (s : State) (i : Slot) (bay : Byte) (j : Slot) : Prop :=
  j ≠ i ∧ s.slots[j.val].card.bay = bay ∧ (s.slots[j.val].state = .requested ∨ s.slots[j.val].state = .parked
    ∨ s.slots[j.val].state = .inService ∧ s.slots[j.val].interruptible = true)

/-- R148: a bay-wide CANCEL ends every waiting slot of its bay CANCELLED, marks its interruptible jobs in service,
leaves every other slot, and ends OK with the number of slots found. -/
def BaywideCancelFindsItsSlots : Prop :=
  ∀ (s : State) (v : Word) (i : Slot), v.toNat % 256 = i.val → s.ctl.device = .running →
    (s.slots[i.val].state = .free ∨ s.slots[i.val].state = .done) →
    intake s.ctl.enabled i (readCard s.mem i) = .accepted → (readCard s.mem i).jobKind = some .cancel →
    (readCard s.mem i).param 0 = 2 →
    ∃ t, ∃ found : List Slot, exec (.post v) s = .next t ∧ AfterJobs s t
      ∧ t.seq = s.seq ∧ t.pool = s.pool ∧ t.disp = s.disp ∧ t.code = s.code
      ∧ found.Nodup ∧ (∀ j, j ∈ found ↔ Found s i (readCard s.mem i).bay j)
      ∧ t.slots[i.val].state = .done ∧ t.slots[i.val].status = .ok
      ∧ t.slots[i.val].result = BitVec.ofNat 64 found.length
      ∧ (∀ j ∈ found, if s.slots[j.val].state = .inService then
          t.slots[j.val].state = .inService
          ∧ t.slots[j.val].mark = (s.slots[j.val].mark.or (some .cancelled))
          ∧ (s.slots[j.val].mark = none →
            t.slots[j.val].report = (askOwner j .cancelled s).slots[j.val].report)
        else t.slots[j.val].state = .done ∧ t.slots[j.val].status = .cancelled)
      ∧ (∀ j : Slot, j ≠ i → j ∉ found → t.slots[j.val].state = s.slots[j.val].state
        ∧ t.slots[j.val].mark = s.slots[j.val].mark)

/-- R147, R148: CANCEL cards of both scopes. -/
def Obligations.CancelsActByTheirTargets : Prop :=
  CancelActsByTheTargetsState ∧ BaywideCancelFindsItsSlots

/-- R134: a BAYHOLD write sets and then clears bits of the hold set, in every device state. -/
def Obligations.BayholdSetsThenClears : Prop :=
  ∀ (s : State) (v : Word), ∃ hold,
    exec (.bayhold v) s = .next { s with disp := { s.disp with hold := hold } }
    ∧ ∀ b : Bay, hold.getLsbD b.val
      = ((s.disp.hold.getLsbD b.val || v.getLsbD b.val) && !v.getLsbD (b.val + 8))

/-- R135: the head of a bay-lane queue that meets conditions 1 to 4. -/
def HeadReady (s : State) (b : Bay) (l : Lane) (i : Slot) : Prop :=
  (∃ rest, (s.lane b l).queue = i :: rest) ∧ s.ctl.device = .running ∧ (s.lane b l).service = none
    ∧ (l = .setup ∨ s.disp.hold.getLsbD b.val = false)
    ∧ s.slots[i.val].card.gate.toNat ≤ s.mon[b.val].milestone

/-- R137: a bay whose ready ACCESS head is a SCAN waits for an engine. -/
def Waits (s : State) (b : Bay) : Prop :=
  ∃ i, HeadReady s b .access i ∧ s.slots[i.val].card.jobKind = some .scan

/-- R137: the grant. A bay is granted an engine when it is the winner among the waiting bays, the lowest bay in FIXED
and the earliest in the rotation order in ROTATING, and the engine is the first that is IDLE. -/
def Obligations.GrantGoesToTheWinner : Prop :=
  ∀ (s : State) (b : Bay) (e : EngineId), s.disp.rotation.Nodup → (∀ c, c ∈ s.disp.rotation) →
    (s.granted b = some e ↔
      Waits s b ∧ s.eng[e.val].state = .idle ∧ (e = 1 → s.eng[0].state ≠ .idle)
      ∧ (s.disp.arbitration = .fixed → ∀ c, c < b → ¬ Waits s c)
      ∧ (s.disp.arbitration = .rotating →
        ∀ c, s.disp.rotation.idxOf c < s.disp.rotation.idxOf b → ¬ Waits s c))

/-- What every dispatch does (R139 steps 1 and 2): the head is IN_SERVICE with its start time, the in-service map takes
it, a SETUP deadline is dropped, the card shows it, and the JOB START record is offered. -/
def Dispatched (s t : State) (b : Bay) (l : Lane) (i : Slot) : Prop :=
  t.slots[i.val].state = .inService ∧ t.slots[i.val].start = s.time.count
  ∧ t.slots[i.val].card = s.slots[i.val].card
  ∧ t.slots[i.val].deadline = (if l = .setup then none else s.slots[i.val].deadline)
  ∧ (∀ c m, t.lane c m = if c = b ∧ m = l then ⟨(s.lane b l).queue.tail, some i⟩ else s.lane c m)
  ∧ (∀ k : Slot, k ≠ i → t.slots[k.val].state = s.slots[k.val].state ∧ t.slots[k.val].card = s.slots[k.val].card)
  ∧ t.mem.read (cardAddr i + 0x40) = 3#8 ∧ t.mem.field (cardAddr i + 0x50) 8 = s.time.count.toNat
  ∧ t.disp = s.disp ∧ t.ctl = s.ctl ∧ t.mon = s.mon ∧ t.time = s.time ∧ t.scanner = s.scanner
  ∧ t.rail = s.rail ∧ t.pending = s.pending ∧ t.pool = s.pool ∧ t.notices = s.notices ∧ t.link = s.link
  ∧ t.code = s.code ∧ t.draws = s.draws ∧ t.checkDraws = s.checkDraws
  ∧ Unchanged (fun a => inCard i a ∨ publishedArea a) s t

/-- R135, R139: the ready head of a bay-lane is dispatched, a SCAN head with a grant, and handed to its owner. -/
def Obligations.DispatchStartsTheHead : Prop :=
  ∀ (s : State) (b : Bay) (l : Lane) (i : Slot), HeadReady s b l i → s.mem.wf →
    (∃ k, s.slots[i.val].card.jobKind = some k) →
    (s.slots[i.val].card.jobKind ≠ some .scan ∨ ∃ e, s.granted b = some e) →
    ∃ t, exec (.dispatch b l) s = .next t ∧ Dispatched s t b l i
      ∧ (∀ c : Bay, c ≠ b → t.str[c.val] = s.str[c.val] ∧ t.con[c.val] = s.con[c.val]
        ∧ t.drv[c.val] = s.drv[c.val] ∧ t.seq[c.val] = s.seq[c.val])
      ∧ (s.str[b.val].state = .running → s.str[b.val].queue.length < 32 →
        ∃ more, t.str[b.val].queue = s.str[b.val].queue ++
          ⟨s.time.count, .jobStart i s.slots[i.val].card.kind.toNat s.slots[i.val].card.tag⟩ :: more)

/-- R139 step 3, R93, R119, R122, R154, R160: a dispatched SCAN makes the granted engine RUNNING in LOADING for the
bay; a SEND makes the port SENDING its first byte; an ARM begins its read or disarms; a region out of range ends each
at once with DATA_RANGE. -/
def OwnersBeginTheirJobs : Prop :=
  ∀ (s t : State) (b : Bay) (l : Lane) (i : Slot), HeadReady s b l i → exec (.dispatch b l) s = .next t →
    (∀ e, s.slots[i.val].card.jobKind = some .scan → s.granted b = some e →
      t.eng[e.val].state = .running ∧ t.eng[e.val].attached = some (b, i) ∧ t.eng[e.val].phase = .loading
      ∧ t.eng[e.val].index = none ∧ t.eng[e.val].stepsDone = 0 ∧ t.eng[e.val].firstFail = 0xFFFF
      ∧ t.eng[e.val].tdoBits = 0 ∧ t.eng[e.val].disturbed = false ∧ t.eng[e.val].abort = none
      ∧ t.eng[e.val].early = [] ∧ (∀ f, f ≠ e → t.eng[f.val] = s.eng[f.val]) ∧ t.port = s.port
      ∧ (if inJobArea s.slots[i.val].card.offset s.slots[i.val].card.length then t.eng[e.val].work = .loading
        else t.slots[i.val].report = some ⟨.dataRange, 6#16, 0x0000FFFF0000#64, s.time.count⟩))
    ∧ (s.slots[i.val].card.jobKind = some .send →
      t.eng = s.eng
      ∧ (if inJobArea s.slots[i.val].card.offset s.slots[i.val].card.length then
          t.con[b.val].tx = .sending
          ∧ t.con[b.val].job = some ⟨i, s.slots[i.val].card.offset, s.slots[i.val].card.length,
            s.slots[i.val].card.sendGap, 0, 0, s.mem.read s.slots[i.val].card.offset, .character s.time.count⟩
        else t.con = s.con ∧ t.slots[i.val].report = some ⟨.dataRange, 0#16, 0#64, s.time.count⟩))
    ∧ (s.slots[i.val].card.jobKind = some .arm → s.slots[i.val].card.param 0 ≠ 2 →
      t.eng = s.eng ∧ t.con = s.con
      ∧ (if inJobArea s.slots[i.val].card.offset 256 then
          t.seq = upd s.seq b (fun q => { q with reading := some ⟨i, []⟩ })
        else t.seq = s.seq ∧ t.slots[i.val].report = some ⟨.dataRange, 0#16, 0#64, s.time.count⟩))
    ∧ (s.slots[i.val].card.jobKind = some .arm → s.slots[i.val].card.param 0 = 2 →
      t.seq[b.val].state = .disarmed ∧ t.seq[b.val].program = none ∧ t.seq[b.val].stage = none
      ∧ t.seq[b.val].fireCount = s.seq[b.val].fireCount ∧ t.seq[b.val].lastFire = s.seq[b.val].lastFire
      ∧ t.code = s.code ∧ t.slots[i.val].report = some ⟨.ok, 0#16, 0#64, s.time.count⟩)

/-- R29 to R31, R45, R150: a dispatched TRACE job: OPEN of an OFF or STOPPED stream makes it RUNNING with W brought to 1
to 32, and is STREAM_BUSY otherwise; CLOSE makes an accepting stream DRAINING and waits for its end; FLUSH names the
filling page of a RUNNING CONTINUOUS stream and otherwise ends OK. That a CONTINUOUS OPEN takes the card's W too, where
R29 gives W for WINDOW only, is the model's choice (notes/assumptions/40.md). -/
def TraceJobsChangeTheStream : Prop :=
  ∀ (s t : State) (b : Bay) (l : Lane) (i : Slot), HeadReady s b l i → exec (.dispatch b l) s = .next t →
    s.slots[i.val].card.jobKind = some .trace →
    (s.slots[i.val].card.param 0 = 1 →
      (s.str[b.val].state = .off ∨ s.str[b.val].state = .stopped →
        t.str[b.val].state = .running ∧ t.str[b.val].tLast = none ∧ t.str[b.val].lostCount = 0
        ∧ t.str[b.val].retained = [] ∧ t.str[b.val].queue = s.str[b.val].queue
        ∧ t.str[b.val].mode = (if s.slots[i.val].card.param 1 = 2 then .window else .continuous)
        ∧ t.str[b.val].w = max 1 (min 32 (s.slots[i.val].card.param 2))
        ∧ t.slots[i.val].report = some ⟨.ok, 0#16, 0#64, s.time.count⟩)
      ∧ (s.str[b.val].state ≠ .off → s.str[b.val].state ≠ .stopped →
        t.str[b.val].state = s.str[b.val].state
        ∧ t.slots[i.val].report = some ⟨.streamBusy, 0#16, 0#64, s.time.count⟩))
    ∧ (s.slots[i.val].card.param 0 = 2 →
      (s.str[b.val].state = .running ∨ s.str[b.val].state = .postTrigger ∨ s.str[b.val].state = .draining →
        t.str[b.val].state = .draining ∧ t.str[b.val].closer = some i
        ∧ t.slots[i.val].report = s.slots[i.val].report
        ∧ (s.str[b.val].state ≠ .draining → t.con[b.val].batch = none))
      ∧ (s.str[b.val].state = .off ∨ s.str[b.val].state = .stopped →
        t.str = s.str ∧ t.slots[i.val].report = some ⟨.ok, 0#16, 0#64, s.time.count⟩))
    ∧ (s.slots[i.val].card.param 0 = 3 →
      (∀ u, s.str[b.val].filling = some u → s.str[b.val].mode = .continuous → s.str[b.val].state = .running →
        t.str[b.val].flush = some ⟨u.page, i⟩ ∧ t.slots[i.val].report = s.slots[i.val].report)
      ∧ (s.str[b.val].filling = none ∨ s.str[b.val].mode = .window ∨ s.str[b.val].state ≠ .running →
        t.slots[i.val].report = some ⟨.ok, 0#16, 0#64, s.time.count⟩))

/-- R127, R138, R140, R151: the Dispatcher takes a reported end: the slot is DONE with the report, its lane is free,
the JOB END record, the JOB_FAIL event of a failing status, JOB_DONE; and a SCAN frees its engine and moves its bay
last. -/
def Obligations.ReportedEndIsTaken : Prop :=
  ∀ (s : State) (i : Slot) (p : Report) (st : Status), s.slots[i.val].report = some p →
    s.slots[i.val].state = .inService → s.mem.wf →
    st = (if s.slots[i.val].stopMark then .stopped else p.status) →
    ∃ t, exec (.jobEnd i) s = .next t ∧ AfterJobs s t ∧ t.code = s.code
      ∧ t.slots[i.val] = { s.slots[i.val] with
          state := .done
          status := st
          detail := p.detail
          result := p.result
          finish := p.time
          mark := none
          stopMark := false
          deadline := none
          report := t.slots[i.val].report }
      ∧ CardShowsEnd t.mem i t.slots[i.val]
      ∧ (∀ l, s.slots[i.val].card.lane = some l → (t.lane s.slots[i.val].card.bayIx l).service = none)
      ∧ t.notices.pend[(bayGroup s.slots[i.val].card.bayIx).val].getLsbD 0 = true
      ∧ (failing st = false ∨ s.seq[s.slots[i.val].card.bayIx.val].state ≠ .armed →
        t.seq = s.seq
        ∧ t.str = upd s.str s.slots[i.val].card.bayIx
            (fun q => q.offer ⟨p.time, .jobEnd i st s.slots[i.val].card.tag⟩))
      ∧ (failing st = true →
        t.seq[s.slots[i.val].card.bayIx.val] = (conditionEvent s.slots[i.val].card.bayIx
          (.jobFail i s.slots[i.val].card.kind.toNat st) s).seq[s.slots[i.val].card.bayIx.val])
      ∧ (s.slots[i.val].card.jobKind = some .scan →
        t.disp.rotation = s.disp.rotation.filter (fun c => c ≠ s.slots[i.val].card.bayIx) ++ [s.slots[i.val].card.bayIx]
        ∧ ∀ e, s.engineOf s.slots[i.val].card.bayIx = some e → t.eng = upd s.eng e (fun _ => Engine.reset))
      ∧ (s.slots[i.val].card.jobKind ≠ some .scan → t.eng = s.eng ∧ t.disp.rotation = s.disp.rotation)

/-- R142: the owner that an abort request for a job asks: for a SCAN the engine attached to its bay (R168), for a SEND
the port (R95), for a LINES job the line driver (R183). -/
def OwnersAreAsked : Prop :=
  ∀ (s : State) (i : Slot) (st : Status),
    (s.slots[i.val].card.jobKind = some .scan →
      (∀ e, s.engineOf s.slots[i.val].card.bayIx = some e → askOwner i st s = scanAbort e i st s)
      ∧ (s.engineOf s.slots[i.val].card.bayIx = none → askOwner i st s = s))
    ∧ (s.slots[i.val].card.jobKind = some .send → askOwner i st s = sendAbort s.slots[i.val].card.bayIx i st s)
    ∧ (s.slots[i.val].card.jobKind = some .lines → askOwner i st s = linesAbort s.slots[i.val].card.bayIx i st s)

/-- R95, R97: an abort of a SEND lets the character in progress finish, ends a job in a gap at once with its bytes sent,
and finds nothing to do at a job that is FINISHING or is another slot's. -/
def SendAbortsAtItsCharacter : Prop :=
  ∀ (s : State) (b : Bay) (i : Slot) (st : Status),
    (∀ (j : TxJob) (start : Tick), s.con[b.val].job = some j → j.slot = i → s.con[b.val].tx = .sending →
      (j.phase = .character start → sendAbort b i st s = s.modCon b (fun c => { c with tx := .finishing st }))
      ∧ (j.phase = .gap start →
        sendAbort b i st s = (s.modCon b (fun c => { c with tx := .idle, job := none })).modSlot i (fun r =>
          { r with report := some ⟨st, 0#16, BitVec.ofNat 64 j.sent, s.time.count⟩ })))
    ∧ ((s.con[b.val].tx ≠ .sending ∨ ∀ j, s.con[b.val].job = some j → j.slot ≠ i) → sendAbort b i st s = s)

/-- R178, R180, R183: an abort of a LINES job takes the programs and forces it owns off every line: each line that was
not at rest returns to it, a buffered program of another owner starts on a line left free, and the job ends with the
abort's status and its counts. Within a step the lines are taken in ascending order, which is the model's choice
(notes/assumptions/41.md). -/
def LinesAbortTakesItsLines : Prop :=
  ∀ (s : State) (b : Bay) (i : Slot) (st : Status),
    (∀ (j : LinesJob) (o : Owner), s.drv[b.val].job = some j → j.slot = i → o = .job i j.accept →
      (∀ d : OutLine, s.drv[b.val].lines[d.val].buffered.map Buffered.prog ≠ some .release) →
      ∃ t, linesAbort b i st s = t
        ∧ t = { s with drv := t.drv, str := t.str, slots := t.slots }
        ∧ (∀ c : Bay, c ≠ b → t.drv[c.val] = s.drv[c.val] ∧ t.str[c.val] = s.str[c.val])
        ∧ t.slots = upd s.slots i (fun r => { r with
            report := some ⟨st, 0#16, BitVec.ofNat 64 (j.completed + 256 * j.superseded), s.time.count⟩ })
        ∧ t.drv[b.val].job = none
        ∧ (∀ (d : OutLine) (l : DrvLine), s.drv[b.val].lines[d.val] = l →
          (restarts o l = none → t.drv[b.val].lines[d.val] = cutLine o l)
          ∧ ∀ q : Buffered, restarts o l = some q →
            (GoesActive q.prog (cutLine o l) →
              t.drv[b.val].lines[d.val]
                = activeLine q.prog q.owner s.time.count { cutLine o l with buffered := none })
            ∧ (¬ GoesActive q.prog (cutLine o l) →
              t.drv[b.val].lines[d.val]
                = waitingLine q.prog q.owner s.time.count { cutLine o l with buffered := none }))
        ∧ ∃ cuts freed started : List OutLine,
          t.str[b.val] = (cuts.map (fun d => driveRecord d s.drv[b.val].lines[d.val].rest o s.time.count)
            ++ freed.map (fun d => driveRecord d s.drv[b.val].lines[d.val].rest o s.time.count)
            ++ started.map (fun d => driveRecord d (!s.drv[b.val].lines[d.val].rest)
              (((restarts o s.drv[b.val].lines[d.val]).map Buffered.owner).getD o) s.time.count)).foldl
              (fun v r => v.offer r) s.str[b.val]
          ∧ cuts.Pairwise (· < ·) ∧ freed.Pairwise (· < ·) ∧ started.Pairwise (· < ·)
          ∧ (∀ d, d ∈ cuts ↔ s.drv[b.val].lines[d.val].running.map Running.owner = some o
            ∧ s.drv[b.val].lines[d.val].level ≠ some s.drv[b.val].lines[d.val].rest)
          ∧ (∀ d, d ∈ freed ↔ s.drv[b.val].lines[d.val].force = some o)
          ∧ ∀ d, d ∈ started ↔ ∃ q, restarts o s.drv[b.val].lines[d.val] = some q
            ∧ GoesActive q.prog (cutLine o s.drv[b.val].lines[d.val]))
    ∧ ((∀ j, s.drv[b.val].job = some j → j.slot ≠ i) → linesAbort b i st s = s)

/-- R142 to R146: a deadline that expires ends a REQUESTED slot TIMEOUT, and sets the abort mark TIMEOUT of an ACCESS or
DRIVE job in service, whose owner is asked; a SETUP job runs on. -/
def ExpiredDeadlinesTimeOut : Prop :=
  ∀ (s : State) (i : Slot) (d : Deadline), s.slots[i.val].deadline = some d → elapsed d.base s.time.count = d.limit →
    (s.slots[i.val].state = .requested →
      ∃ t, exec (.deadlineExpiry i) s = .next t ∧ AfterEvents s t
        ∧ t.slots[i.val].state = .done ∧ t.slots[i.val].status = .timeout ∧ t.slots[i.val].deadline = none
        ∧ t.slots[i.val].start = s.time.count ∧ t.slots[i.val].finish = s.time.count
        ∧ (∀ l, s.slots[i.val].card.lane = some l → i ∉ (t.lane s.slots[i.val].card.bayIx l).queue)
        ∧ t.seq[s.slots[i.val].card.bayIx.val] = (conditionEvent s.slots[i.val].card.bayIx
          (.jobFail i s.slots[i.val].card.kind.toNat .timeout) s).seq[s.slots[i.val].card.bayIx.val])
    ∧ (s.slots[i.val].state = .inService → s.slots[i.val].interruptible = true →
      ∃ t, exec (.deadlineExpiry i) s = .next t ∧ AfterJobs s t
        ∧ Leaves s t ((askOwner i .timeout s).modSlot i (fun r => { r with mark := some .timeout, deadline := none }))
          blockArea
        ∧ t.slots[i.val].state = .inService
        ∧ t.seq = s.seq ∧ t.lanes = s.lanes ∧ t.disp = s.disp ∧ t.notices = s.notices
        ∧ (∀ k : Slot, k ≠ i → t.slots[k.val].state = s.slots[k.val].state))
    ∧ (s.slots[i.val].state = .inService → s.slots[i.val].interruptible = false →
      exec (.deadlineExpiry i) s = .next s)

/-- R95, R97, R142 to R146, R183: what expires, and what the owner that is asked does. What a SCAN's engine does at an
abort is AbortsByTheWorkInHand. -/
def Obligations.DeadlineExpiryTimesOut : Prop :=
  ExpiredDeadlinesTimeOut ∧ OwnersAreAsked ∧ SendAbortsAtItsCharacter ∧ LinesAbortTakesItsLines

/-! ### Scan engines -/

/-- The bytes in which a scan engine's fields stand. -/
def engineArea (a : Nat) : Prop := inMirror a ∨ ∃ b, inBayEntry b a

/-- The summary of an engine's job as the result of its card (R167, 12.4). -/
def summaryOf (g : Engine) : BitVec 64 := BitVec.ofNat 64 (g.stepsDone + 65536 * g.firstFail + 4294967296 * g.tdoBits)

/-- R157, R167 to R171, R173: the end of a job at its engine: the report with the abort's status, else POWER_LOST
after a power loss, else the job's own; the summary as the result; and the TAP knowledge. The engine stays attached.
-/
def EndReports : Prop :=
  ∀ (s : State) (e : EngineId) (b : Bay) (i : Slot) (own : Status) (detail : BitVec 16),
    s.eng[e.val].attached = some (b, i) →
    endJob e own detail s = { s with
      eng := upd s.eng e (fun g => { g with work := .reported, idleStop := none, cutStop := none })
      port := upd s.port b (fun p => { p with
        knowledge :=
          if s.eng[e.val].disturbed = true ∨ s.eng[e.val].powerLost = true then .unknown
          else match s.eng[e.val].tracked with
            | none => p.knowledge
            | some .runTestIdle => .idle
            | some .testLogicReset => .reset
            | some _ => .unknown })
      slots := upd s.slots i (fun r => { r with
        report := some ⟨s.eng[e.val].abort.getD (if s.eng[e.val].powerLost then .powerLost else own), detail,
          summaryOf s.eng[e.val], s.time.count⟩ }) }

/-- 8.4, R163 to R167: a step done is counted; the next entry begins with its own work, and after the last entry, or
when an abort or a power loss has been taken, the job ends. -/
def StepsGoOn : Prop :=
  ∀ (s : State) (e : EngineId) (b : Bay) (i : Slot) (n : Nat), s.eng[e.val].attached = some (b, i) →
    s.eng[e.val].index = some n →
    (∀ x, s.eng[e.val].abort = none → s.eng[e.val].powerLost = false → s.eng[e.val].steps[n + 1]? = some x →
      ∃ w, stepDone e s = s.modEng e (fun g =>
          { g with
            stepsDone := g.stepsDone + 1
            phase := .step
            index := some (n + 1)
            work := w
            tdi := []
            captured := 0 })
        ∧ (x.kind = 1#8 ∨ x.kind = 4#8 → w = .clocks s.time.count)
        ∧ (x.kind = 2#8 ∨ x.kind = 3#8 → w = .readTdi)
        ∧ (x.kind = 5#8 → w = .delay s.time.count)
        ∧ (x.kind = 6#8 → w = .check) ∧ (x.kind = 7#8 → w = .endStep))
    ∧ (s.eng[e.val].abort ≠ none ∨ s.eng[e.val].powerLost = true ∨ s.eng[e.val].steps[n + 1]? = none →
      stepDone e s = endJob e .ok 0#16 (s.modEng e (fun g => { g with stepsDone := g.stepsDone + 1 })))

/-- R157, R163 to R171, R173: what follows a step and what a job's end at its engine reports. -/
def Obligations.StepsGoOnAndEndsAreReported : Prop := EndReports ∧ StepsGoOn

/-- R161: a step passes its checks. -/
def StepOk (x : ScanEntry) : Prop :=
  (x.kind = 1#8 ∨ x.kind = 7#8)
  ∨ ((x.kind = 4#8 ∨ x.kind = 5#8) ∧ 1 ≤ x.n ∧ x.n ≤ 16777215)
  ∨ ((x.kind = 2#8 ∨ x.kind = 3#8) ∧ 1 ≤ x.n ∧ x.n ≤ 4096 ∧ x.option.toNat ≤ 1
    ∧ 0x010000 ≤ x.a ∧ x.a + (x.n + 7) / 8 ≤ 0x800000
    ∧ (x.option = 1#8 → 0x010000 ≤ x.b ∧ x.b + (x.n + 7) / 8 ≤ 0x800000))
  ∨ (x.kind = 6#8 ∧ 1 ≤ x.n ∧ x.n ≤ 4096 ∧ x.option.toNat ≤ 1
    ∧ 0x010000 ≤ x.a ∧ x.a + (x.n + 7) / 8 ≤ 0x800000
    ∧ 0x010000 ≤ x.b ∧ x.b + (x.n + 7) / 8 ≤ 0x800000
    ∧ 0x010000 ≤ x.c ∧ x.c + (x.n + 7) / 8 ≤ 0x800000)

/-- R160, R161: a list passes its checks exactly when every entry up to the first END passes its own. -/
def AcceptedListsHoldGoodSteps : Prop :=
  ∀ es : List ScanEntry, firstBadStep es 0 = none ↔
    ∀ (j : Nat) (x : ScanEntry), es[j]? = some x →
      (∀ (k : Nat) (y : ScanEntry), k < j → es[k]? = some y → y.kind ≠ 7#8) → StepOk x

/-- The TAP is left in Run-Test/Idle; once a power loss has been taken its state is not known (R170). -/
def atIdle (e : EngineId) (s : State) : State :=
  s.modEng e (fun g => { g with tracked := if g.powerLost then none else some .runTestIdle })

/-- R158, R160: LOADING ends with the checked list, each byte as it stood at its reading, and the entry path for the
bay's TAP knowledge, or with the job's end at the first failing check; the path takes its clocks at the bay's divisor and
leaves the TAP in Run-Test/Idle. -/
def LoadingChecksTheListAndEntersThePath : Prop :=
  ∀ (s : State) (e : EngineId) (b : Bay) (i : Slot), s.eng[e.val].attached = some (b, i) →
    (∀ steps, s.eng[e.val].work = .loading →
      steps = (List.range (s.slots[i.val].card.length / 16)).map
        (fun j => readScanEntry (s.listRead e) (s.slots[i.val].card.offset + 16 * j)) →
      (∀ st r x, firstBadStep steps 0 = some (st, r, x) →
        ∃ t, exec (.loadingEnd e) s = .next t
          ∧ Leaves s t (endJob e st (detailOf r x) (s.modEng e (fun g => { g with steps := steps }))) engineArea)
      ∧ (firstBadStep steps 0 = none → s.port[b.val].knowledge ≠ .idle →
        ∃ t, exec (.loadingEnd e) s = .next t
          ∧ Leaves s t (s.modEng e (fun g =>
            { g with
              steps := steps
              phase := .entry
              work := .entryPath s.time.count (if s.port[b.val].knowledge = .reset then 1 else 6) })) inMirror)
      ∧ (∀ x, firstBadStep steps 0 = none → s.port[b.val].knowledge = .idle → s.eng[e.val].abort = none →
        s.eng[e.val].powerLost = false → steps[0]? = some x →
        ∃ t, exec (.loadingEnd e) s = .next t
          ∧ t.eng[e.val].phase = .step ∧ t.eng[e.val].index = some 0 ∧ t.eng[e.val].steps = steps
          ∧ t.eng[e.val].tracked = some .runTestIdle ∧ t.eng[e.val].stepsDone = s.eng[e.val].stepsDone
          ∧ Leaves s t { s with eng := t.eng } inMirror))
    ∧ (∀ start n, s.eng[e.val].work = .entryPath start n → s.eng[e.val].cutStop = none →
      elapsed start s.time.count = n * s.port[b.val].divisor →
      ∃ t, exec (.entryPathEnd e) s = .next t
        ∧ (s.eng[e.val].abort = none → s.eng[e.val].powerLost = false → ∀ x, s.eng[e.val].steps[0]? = some x →
          t.eng[e.val].phase = .step ∧ t.eng[e.val].index = some 0
          ∧ t.eng[e.val].tracked = some .runTestIdle ∧ t.eng[e.val].stepsDone = s.eng[e.val].stepsDone
          ∧ Leaves s t { s with eng := t.eng } inMirror)
        ∧ (s.eng[e.val].abort ≠ none ∨ s.eng[e.val].powerLost = true →
          Leaves s t (endJob e .ok 0#16 (atIdle e s)) engineArea))

/-- R158, R160, R161: LOADING and the entry path. -/
def Obligations.LoadingRunsCheckedListsOnly : Prop :=
  AcceptedListsHoldGoodSteps ∧ LoadingChecksTheListAndEntersThePath

/-- An engine attached to a bay has step `n`, the entry `x`, in hand. -/
def InHand (s : State) (e : EngineId) (b : Bay) (n : Nat) (x : ScanEntry) : Prop :=
  (∃ i, s.eng[e.val].attached = some (b, i)) ∧ s.eng[e.val].index = some n ∧ s.eng[e.val].steps[n]? = some x

/-- R166: some unmasked bit of the result differs from the expected one. -/
def Mismatches (m : Memory) (x : ScanEntry) : Prop :=
  ∃ k, k < x.n ∧ (m.read (x.c + k / 8)).getLsbD (k % 8) = true
    ∧ (m.read (x.a + k / 8)).getLsbD (k % 8) ≠ (m.read (x.b + k / 8)).getLsbD (k % 8)

/-- The first failing CHECK is noted (R166). -/
def noteFail (e : EngineId) (n : Nat) (s : State) : State :=
  s.modEng e (fun g => { g with firstFail := if g.firstFail = 0xFFFF then n else g.firstFail })

/-- R162, R164 to R167: RESET_TAP ends after 6 clocks, IDLE after n clocks, DELAY after its time; a shift begins when
its TDI region is read; CHECK compares its regions as they stand; END ends the job. -/
def Obligations.StepsEndAtTheirInstants : Prop :=
  ∀ (s : State) (e : EngineId) (b : Bay) (n : Nat) (x : ScanEntry) (start : Tick), InHand s e b n x →
    (s.eng[e.val].work = .clocks start → s.eng[e.val].cutStop = none →
      (x.kind = 1#8 → elapsed start s.time.count = 6 * s.port[b.val].divisor →
        ∃ t, exec (.resetTap e) s = .next t ∧ Leaves s t (stepDone e (atIdle e s)) engineArea)
      ∧ (x.kind = 4#8 → s.eng[e.val].idleStop = none → elapsed start s.time.count = x.n * s.port[b.val].divisor →
        ∃ t, exec (.idleStepEnd e) s = .next t ∧ Leaves s t (stepDone e (atIdle e s)) engineArea))
    ∧ (s.eng[e.val].work = .delay start → elapsed start s.time.count = x.n * 100 →
      ∃ t, exec (.scanDelayEnd e) s = .next t ∧ Leaves s t (stepDone e s) engineArea)
    ∧ (s.eng[e.val].work = .readTdi →
      exec (.tdiRegionRead e) s = .next (s.modEng e (fun g =>
        { g with work := .clocks s.time.count, tdi := s.mem.readBytes x.a ((x.n + 7) / 8) })))
    ∧ (s.eng[e.val].work = .check →
      ∃ t, exec (.check e) s = .next t
        ∧ (¬ Mismatches s.mem x → Leaves s t (stepDone e s) engineArea)
        ∧ (Mismatches s.mem x → x.option ≠ 1#8 → Leaves s t (stepDone e (noteFail e n s)) engineArea)
        ∧ (Mismatches s.mem x → x.option = 1#8 → Leaves s t (endJob e .checkFailed 0#16
          ((noteFail e n s).modEng e (fun g => { g with stepsDone := g.stepsDone + 1 }))) engineArea))
    ∧ (s.eng[e.val].work = .endStep →
      ∃ t, exec (.endStep e) s = .next t
        ∧ Leaves s t (endJob e .ok 0#16 (s.modEng e (fun g => { g with stepsDone := g.stepsDone + 1 }))) engineArea)

/-- R163, R164, R168, R170: an IR or DR step ends after its n + 6 or n + 5 clocks and counts its n bits; with STORE the
sampled bits are written to the result region, bit i of the shift at bit i mod 8 of byte i / 8 and the rest 0, and no
other byte outside the status block changes; then the step is done. A read in progress keeps the bytes it has read
(R119, R160). That the write is seen at its end is the model's choice (notes/assumptions/12.md). -/
def Obligations.ShiftsStoreTheirBits : Prop :=
  ∀ (s : State) (e : EngineId) (b : Bay) (n : Nat) (x : ScanEntry), InHand s e b n x →
    (x.kind = 2#8 ∨ x.kind = 3#8) →
    (∀ (start : Tick) (tdo : Nat), s.eng[e.val].work = .clocks start → s.eng[e.val].cutStop = none →
      elapsed start s.time.count = (x.n + if x.kind = 2#8 then 6 else 5) * s.port[b.val].divisor →
      ∃ t, exec (.shiftEnd e tdo) s = .next t
        ∧ (x.option = 1#8 → t = s.modEng e (fun g =>
          { g with
            tdoBits := g.tdoBits + x.n
            tracked := if g.powerLost then none else some .runTestIdle
            work := .writeResult
            captured := tdo % 2 ^ x.n }))
        ∧ (x.option ≠ 1#8 → Leaves s t (stepDone e (atIdle e (s.modEng e (fun g =>
          { g with tdoBits := g.tdoBits + x.n })))) engineArea))
    ∧ (s.eng[e.val].work = .writeResult → s.mem.wf → s.eng[e.val].captured < 2 ^ x.n → StepOk x → x.option = 1#8 →
      ∃ t, exec (.resultWrite e) s = .next t
        ∧ (∀ k, k < 8 * ((x.n + 7) / 8) →
          (t.mem.read (x.b + k / 8)).getLsbD (k % 8) = s.eng[e.val].captured.testBit k)
        ∧ Leaves s t (stepDone e (s.keepEarly x.b ((x.n + 7) / 8))) (fun a => (x.b ≤ a ∧ a < x.b + (x.n + 7) / 8) ∨ engineArea a))

/-- R155, R156, R163, R164: in clock `j` of a shift, `r` ticks into it, TCK is high in the last floor(v / 2) ticks, TMS
follows the paths of R163, and TDI carries bit i of the TDI region on shift clock i and is 1 elsewhere. -/
def ShiftPins : Prop :=
  ∀ (s : State) (e : EngineId) (b : Bay) (n : Nat) (x : ScanEntry) (start : Tick) (j r : Nat), InHand s e b n x →
    s.active b = true → s.engineOf b = some e → s.eng[e.val].work = .clocks start → 4 ≤ s.port[b.val].divisor →
    (x.kind = 2#8 ∨ x.kind = 3#8) → 1 ≤ x.n → r < s.port[b.val].divisor →
    j < x.n + (if x.kind = 2#8 then 6 else 5) →
    elapsed start s.time.count = j * s.port[b.val].divisor + r →
    ∃ pins, s.scanPins b = some pins
      ∧ (pins.tck = true ↔ s.port[b.val].divisor - s.port[b.val].divisor / 2 ≤ r)
      ∧ (x.kind = 2#8 → (pins.tms = true ↔ j = 0 ∨ j = 1 ∨ j = x.n + 3 ∨ j = x.n + 4)
        ∧ (∀ k, k < x.n → j = k + 4 → pins.tdi = (s.eng[e.val].tdi.getD (k / 8) 0#8).getLsbD (k % 8))
        ∧ (j < 4 ∨ x.n + 4 ≤ j → pins.tdi = true))
      ∧ (x.kind = 3#8 → (pins.tms = true ↔ j = 0 ∨ j = x.n + 2 ∨ j = x.n + 3)
        ∧ (∀ k, k < x.n → j = k + 3 → pins.tdi = (s.eng[e.val].tdi.getD (k / 8) 0#8).getLsbD (k % 8))
        ∧ (j < 3 ∨ x.n + 3 ≤ j → pins.tdi = true))

/-- R155, R156, R158, R162, R165: in clock `j` of an entry path, of a RESET_TAP or of an IDLE step TCK goes as in a
shift, TMS is 1 in all clocks of the path but the last, in clocks 0 to 4 of a RESET_TAP and in none of an IDLE, and TDI
is 1. -/
def PathPins : Prop :=
  ∀ (s : State) (e : EngineId) (b : Bay) (i : Slot) (start : Tick) (j r : Nat),
    s.eng[e.val].attached = some (b, i) → s.active b = true → s.engineOf b = some e → 4 ≤ s.port[b.val].divisor →
    r < s.port[b.val].divisor → elapsed start s.time.count = j * s.port[b.val].divisor + r →
    ∀ tms : Bool,
      ((∃ n, s.eng[e.val].work = .entryPath start n ∧ s.eng[e.val].index = none ∧ j < n
          ∧ (tms = true ↔ j + 1 < n))
        ∨ (∃ n x, InHand s e b n x ∧ s.eng[e.val].work = .clocks start
          ∧ (x.kind = 1#8 ∧ j < 6 ∧ (tms = true ↔ j < 5) ∨ x.kind = 4#8 ∧ j < x.n ∧ tms = false))) →
      ∃ pins, s.scanPins b = some pins
        ∧ (pins.tck = true ↔ s.port[b.val].divisor - s.port[b.val].divisor / 2 ≤ r)
        ∧ pins.tms = tms ∧ pins.tdi = true

/-- R155, R170: the levels of a scan port outside the clocks: high impedance in IDLE or at a bay that is not enabled, the
levels of a port without an engine, and those of an attached engine between clocks: TCK and TMS low and TDI as last
driven, which a power loss in the low part of a clock leaves as it stands. -/
def PinsOutsideTheClocks : Prop :=
  ∀ (s : State) (b : Bay),
    (s.ctl.device = .idle ∨ s.ctl.enabled.getLsbD b.val = false → s.scanPins b = none)
    ∧ (s.ctl.device ≠ .idle → s.ctl.enabled.getLsbD b.val = true →
      ((∀ e : EngineId, ∀ i, s.eng[e.val].attached ≠ some (b, i)) → s.scanPins b = some ⟨false, false, true⟩)
      ∧ ∀ e : EngineId, s.engineOf b = some e →
        ((∀ start, s.eng[e.val].work ≠ .clocks start
            ∧ ∀ n, s.eng[e.val].work ≠ .entryPath start n) →
          s.scanPins b = some ⟨false, false, s.eng[e.val].tdiHeld⟩)
        ∧ (∀ (i : Slot) (start : Tick) (j r : Nat), s.eng[e.val].attached = some (b, i) →
          s.eng[e.val].work = .clocks start → s.eng[e.val].state ≠ .idle → s.eng[e.val].powerLost = false →
          4 ≤ s.port[b.val].divisor → j < s.eng[e.val].stepClocks →
          elapsed start s.time.count = j * s.port[b.val].divisor + r →
          r < s.port[b.val].divisor - s.port[b.val].divisor / 2 →
          (scanPowerLoss e i s).scanPins b = (s.scanPins b).map (fun pins => ⟨false, false, pins.tdi⟩)))

/-- R158, R162, R163, R165: the entry path and every step with clocks leave the TAP in Run-Test/Idle, and the fifth clock
of a RESET_TAP in Test-Logic-Reset, from any state. -/
def PathsReturnToIdle : Prop :=
  (∀ (x : ScanEntry) (t : Option TapState), x.kind = 1#8 →
    trackedAfter t 0 ((List.range 5).map x.tmsAt) = some .testLogicReset
    ∧ trackedAfter t 0 ((List.range 6).map x.tmsAt) = some .runTestIdle)
  ∧ (∀ t : Option TapState, trackedAfter t 0 ((List.range 6).map (entryTms 6)) = some .runTestIdle)
  ∧ trackedAfter (some .testLogicReset) 0 ((List.range 1).map (entryTms 1)) = some .runTestIdle
  ∧ ∀ x : ScanEntry, 1 ≤ x.n → (x.kind = 1#8 ∨ x.kind = 2#8 ∨ x.kind = 3#8 ∨ x.kind = 4#8) →
    trackedAfter (some .runTestIdle) 0 ((List.range x.clocks).map x.tmsAt) = some .runTestIdle

/-- R155, R156, R158, R162 to R165, R170: the pins in every clock of a shift, of a path, of a RESET_TAP and of an IDLE,
and outside the clocks, and the TAP state the clocks lead to. -/
def Obligations.ClocksDriveThePinsAndTheTap : Prop :=
  ShiftPins ∧ PathPins ∧ PinsOutsideTheClocks ∧ PathsReturnToIdle

/-- 8.4: one more step is done. -/
def oneMore (e : EngineId) (s : State) : State := s.modEng e (fun g => { g with stepsDone := g.stepsDone + 1 })

/-- R166, R169, R170: what a request or a report leaves of a CHECK in hand: dropped, or, completed at this instant,
recorded and counted. Which of the two it is is free (notes/assumptions/23.md). -/
def CheckMet (s : State) (e : EngineId) (n : Nat) (x : ScanEntry) (y z : State) : Prop :=
  z = { y with checkDraws := s.checkDraws + 1 }
  ∨ ¬ Mismatches s.mem x ∧ z = oneMore e { y with checkDraws := s.checkDraws + 1 }
  ∨ Mismatches s.mem x ∧ z = oneMore e (noteFail e n { y with checkDraws := s.checkDraws + 1 })

/-- R168, R169: what an abort request does to a RUNNING engine, by its work in hand; to an engine that is not RUNNING,
whose job is another slot's, or whose end a power loss has decided, it does nothing. That a step at its very end is
counted, that whether a CHECK is at its end is free, and that an abort at the boundary of two clocks of an IDLE step gives the clock that has begun, are
the model's readings (notes/assumptions/23.md). -/
def AbortsByTheWorkInHand : Prop :=
  ∀ (s : State) (e : EngineId) (b : Bay) (i : Slot) (st : Status) (x : State), s.eng[e.val].attached = some (b, i) →
    x = s.modEng e (fun g => { g with state := .aborting, abort := some st }) →
    (s.eng[e.val].state = .running → s.eng[e.val].powerLost = false →
      (s.eng[e.val].work = .loading ∨ s.eng[e.val].work = .readTdi → scanAbort e i st s = endJob e .ok 0#16 x)
      ∧ (∀ n y, InHand s e b n y → s.eng[e.val].work = .check →
        ∃ z, CheckMet s e n y x z ∧ scanAbort e i st s = endJob e .ok 0#16 z)
      ∧ (s.eng[e.val].work = .writeResult ∨ (∃ start n, s.eng[e.val].work = .entryPath start n) →
        scanAbort e i st s = x)
      ∧ (s.eng[e.val].work = .endStep → scanAbort e i st s = endJob e .ok 0#16 (oneMore e x))
      ∧ (∀ n y start, InHand s e b n y →
        (s.eng[e.val].work = .clocks start → y.kind ≠ 4#8 → scanAbort e i st s = x)
        ∧ (s.eng[e.val].work = .clocks start → y.kind = 4#8 →
          (elapsed start s.time.count = y.n * s.port[b.val].divisor →
            scanAbort e i st s = endJob e .ok 0#16 (oneMore e x))
          ∧ (elapsed start s.time.count ≠ y.n * s.port[b.val].divisor →
            scanAbort e i st s = x.modEng e (fun g =>
              { g with idleStop := some (elapsed start s.time.count / s.port[b.val].divisor + 1) })))
        ∧ (s.eng[e.val].work = .delay start →
          (elapsed start s.time.count = y.n * 100 → scanAbort e i st s = endJob e .ok 0#16 (oneMore e x))
          ∧ (elapsed start s.time.count ≠ y.n * 100 → scanAbort e i st s = endJob e .ok 0#16 x)))
      ∧ (s.eng[e.val].work = .reported → scanAbort e i st s = s))
    ∧ (s.eng[e.val].state ≠ .running ∨ s.eng[e.val].powerLost = true → scanAbort e i st s = s)
    ∧ ∀ k : Slot, k ≠ i → scanAbort e k st s = s

/-- R168: the clock in progress of an aborted IDLE step completes, and the job ends without counting the step. -/
def AbortedIdleEnds : Prop :=
  ∀ (s : State) (e : EngineId) (b : Bay) (i : Slot) (start : Tick) (n : Nat),
    s.eng[e.val].attached = some (b, i) → s.eng[e.val].work = .clocks start →
    s.eng[e.val].idleStop = some n → s.eng[e.val].cutStop = none →
    elapsed start s.time.count = n * s.port[b.val].divisor →
    ∃ t, exec (.abortedIdleClockEnd e) s = .next t ∧ Leaves s t (endJob e .ok 0#16 s) engineArea

/-- R170: a power loss in the low part of a clock stops it at once; in the high part it waits for the fall that ends the
clock; the job then ends with the TAP's state not known. -/
def PowerLossStopsTheClock : Prop :=
  ∀ (s : State) (e : EngineId) (b : Bay) (i : Slot) (start : Tick) (j r n : Nat),
    s.eng[e.val].attached = some (b, i) →
    (s.eng[e.val].work = .clocks start ∨ s.eng[e.val].work = .entryPath start n) →
    (s.eng[e.val].state ≠ .idle → s.eng[e.val].powerLost = false → 4 ≤ s.port[b.val].divisor →
      elapsed start s.time.count = j * s.port[b.val].divisor + r → r < s.port[b.val].divisor →
      (s.eng[e.val].work = .clocks start → j < s.eng[e.val].stepClocks) →
      (s.eng[e.val].work = .entryPath start n → j < n) →
      (s.port[b.val].divisor - s.port[b.val].divisor / 2 ≤ r →
        (scanPowerLoss e i s).eng[e.val].cutStop = some (j + 1) ∧ (scanPowerLoss e i s).slots = s.slots
        ∧ (scanPowerLoss e i s).eng[e.val].powerLost = true)
      ∧ (r < s.port[b.val].divisor - s.port[b.val].divisor / 2 →
        (scanPowerLoss e i s).port[b.val].knowledge = .unknown
        ∧ (scanPowerLoss e i s).slots = upd s.slots i (fun v => { v with
          report := some ⟨s.eng[e.val].abort.getD .powerLost, 0#16, summaryOf s.eng[e.val], s.time.count⟩ })))
    ∧ (∀ m, s.eng[e.val].cutStop = some m → elapsed start s.time.count = m * s.port[b.val].divisor →
      ∃ t, exec (.scanPowerLossStop e) s = .next t
        ∧ Leaves s t (endJob e .powerLost 0#16 (s.modEng e (fun g => { g with tracked := none }))) engineArea)

/-- The state of the TAP is not known (R170). -/
def unknownTap (e : EngineId) (s : State) : State := s.modEng e (fun g => { g with tracked := none })

/-- R170: what a power loss does to an engine by its work in hand, when it is giving no clock or the last clock of its
row has just ended; the TAP's state is not known from then on. That a step at its very end is counted, and that whether a
CHECK is at its end is free, is the model's reading (notes/assumptions/23.md). -/
def PowerLossByTheWorkInHand : Prop :=
  ∀ (s : State) (e : EngineId) (b : Bay) (i : Slot) (x : State), s.eng[e.val].attached = some (b, i) →
    x = s.modEng e (fun g => { g with powerLost := true }) →
    (s.eng[e.val].state ≠ .idle → s.eng[e.val].powerLost = false →
      (s.eng[e.val].work = .loading ∨ s.eng[e.val].work = .readTdi →
        scanPowerLoss e i s = endJob e .powerLost 0#16 (unknownTap e x))
      ∧ (∀ n y, InHand s e b n y → s.eng[e.val].work = .check →
        ∃ z, CheckMet s e n y x z ∧ scanPowerLoss e i s = endJob e .powerLost 0#16 (unknownTap e z))
      ∧ (s.eng[e.val].work = .endStep →
        scanPowerLoss e i s = endJob e .powerLost 0#16 (unknownTap e (oneMore e x)))
      ∧ (s.eng[e.val].work = .writeResult → scanPowerLoss e i s = unknownTap e x)
      ∧ (∀ start n, s.eng[e.val].work = .entryPath start n →
        elapsed start s.time.count = n * s.port[b.val].divisor →
        scanPowerLoss e i s = endJob e .powerLost 0#16 (unknownTap e x))
      ∧ (∀ n y start, InHand s e b n y →
        (s.eng[e.val].work = .delay start →
          (elapsed start s.time.count = y.n * 100 →
            scanPowerLoss e i s = endJob e .powerLost 0#16 (unknownTap e (oneMore e x)))
          ∧ (elapsed start s.time.count ≠ y.n * 100 →
            scanPowerLoss e i s = endJob e .powerLost 0#16 (unknownTap e x)))
        ∧ (s.eng[e.val].work = .clocks start → s.eng[e.val].idleStop = none →
          (y.kind = 1#8 → elapsed start s.time.count = 6 * s.port[b.val].divisor →
            scanPowerLoss e i s = endJob e .powerLost 0#16 (unknownTap e (oneMore e x)))
          ∧ (y.kind = 4#8 → elapsed start s.time.count = y.n * s.port[b.val].divisor →
            scanPowerLoss e i s = endJob e .powerLost 0#16 (unknownTap e (oneMore e x)))
          ∧ (y.kind = 2#8 ∨ y.kind = 3#8 →
            elapsed start s.time.count = (y.n + if y.kind = 2#8 then 6 else 5) * s.port[b.val].divisor →
            scanPowerLoss e i s = unknownTap e x)))
      ∧ (s.eng[e.val].work = .reported → scanPowerLoss e i s = s))
    ∧ (s.eng[e.val].state = .idle ∨ s.eng[e.val].powerLost = true → scanPowerLoss e i s = s)
    ∧ ∀ k : Slot, k ≠ i → scanPowerLoss e k s = s

/-- R168 to R171: aborts and power losses at an engine. What they do at the last instant of a step, and at the boundary
of two clocks of an IDLE step, is the model's reading (notes/assumptions/23.md). -/
def Obligations.AbortsAndPowerLossesEndTheScan : Prop :=
  AbortsByTheWorkInHand ∧ AbortedIdleEnds ∧ PowerLossStopsTheClock ∧ PowerLossByTheWorkInHand

/-! ### Line Drivers -/

/-- R177, R179, R182: a program that arrives at a line: an idle line starts it, a running or forced one buffers it, a
full buffer is replaced and its old program counts as superseded; a RELEASE_FORCE takes a forced line to rest with a
DRIVE record and then starts its buffered program, in its delay, and is counted on every line. In STOPPING nothing is
taken (R184). -/
def ArrivalsFollowTheTable : Prop :=
  ∀ (s : State) (b : Bay) (d : OutLine) (p : LineProg) (o : Owner) (l : DrvLine), s.drv[b.val].lines[d.val] = l →
    (s.ctl.device = .stopping → arrive b d p o s = s)
    ∧ (s.ctl.device ≠ .stopping →
      (p ≠ .release → l.running = none → l.force = none → arrive b d p o s = startProgram b d p o s)
      ∧ (p ≠ .release → (l.running ≠ none ∨ l.force ≠ none) →
        arrive b d p o s = s.modDrv b (fun v =>
          { lines := upd v.lines d (fun l => { l with buffered := some ⟨p, o⟩ })
            job := v.job.map (fun j => match l.buffered with
              | some old => if old.owner = .job j.slot j.accept then { j with superseded := j.superseded + 1 } else j
              | none => j) }))
      ∧ (l.force = none → arrive b d .release o s = s.modDrv b (fun v => { v with job := counted o v.job }))
      ∧ (l.force ≠ none → l.buffered.map Buffered.prog ≠ some .release →
        arrive b d .release o s = { s with
          drv := upd s.drv b (fun v =>
            { lines := upd v.lines d (fun l => match l.buffered with
                | none => { l with force := none, level := some l.rest, justRested := true }
                | some q => waitingLine q.prog q.owner s.time.count
                  { l with force := none, level := some l.rest, justRested := true, buffered := none })
              job := counted o v.job })
          str := upd s.str b (fun v => v.offer (driveRecord d l.rest o s.time.count)) }))

/-- R178 to R180, R182: a program starts: with a delay, or at an instant at which the line has returned to rest, it
waits; else it goes active at once with a DRIVE record, a TIMED one for its width and a FORCE one into a force, which
counts its entry. That a return to rest is at this instant until the next tick is the model's reading
(notes/assumptions/25.md). -/
def ProgramsStart : Prop :=
  ∀ (s : State) (b : Bay) (d : OutLine) (p : LineProg) (o : Owner), p ≠ .release →
    (¬ GoesActive p s.drv[b.val].lines[d.val] →
      startProgram b d p o s = s.modOutLine b d (waitingLine p o s.time.count))
    ∧ (GoesActive p s.drv[b.val].lines[d.val] →
      startProgram b d p o s = { s with
        drv := upd s.drv b (fun v =>
          { lines := upd v.lines d (activeLine p o s.time.count), job := countedActive p o v.job })
        str := upd s.str b (fun v => v.offer (driveRecord d (!s.drv[b.val].lines[d.val].rest) o s.time.count)) })

/-- R177 to R180, R182: arrivals and starts of line programs; that a return to rest is at this instant until the next
tick is the model's reading (notes/assumptions/25.md). -/
def Obligations.LineProgramsArriveAndStart : Prop := ArrivalsFollowTheTable ∧ ProgramsStart

/-- R182: the LINES job in service is `job`: it ends with its report when every entry has completed or been superseded,
and goes on else. -/
def JobGoesOn (s t : State) (b : Bay) (job : Option LinesJob) : Prop :=
  match job with
  | none => t.drv[b.val].job = none ∧ t.slots = s.slots
  | some j =>
    if j.total ≤ j.completed + j.superseded then
      t.drv[b.val].job = none
      ∧ t.slots = upd s.slots j.slot (fun r => { r with report := some (linesReport j s.time.count) })
    else t.drv[b.val].job = some j ∧ t.slots = s.slots

/-- R178 to R180, R182: a delay ends with the line at its active level, a DRIVE record with its owner's cause, and the
width begun or the force set, which counts the entry; a width ends with the line at rest, its record, the entry counted,
and the buffered program in its delay, of one tick when it has none; the job ends when every entry has ended, and only
the job that owns the program counts it. The return to rest is kept until the next tick (notes/assumptions/25.md). -/
def Obligations.LineProgramPhasesEnd : Prop :=
  ∀ (s : State) (b : Bay) (d : OutLine) (p : LineProg) (o : Owner), p ≠ .release →
    (s.drv[b.val].lines[d.val].running = some ⟨p, o, .delay, s.time.count⟩ →
      ∃ t, exec (.lineDelayEnd b d) s = .next t
        ∧ t = { s with drv := t.drv, str := t.str, slots := t.slots, mem := t.mem }
        ∧ (∀ c : Bay, c ≠ b → t.drv[c.val] = s.drv[c.val])
        ∧ t.str = upd s.str b (fun v => v.offer (driveRecord d (!s.drv[b.val].lines[d.val].rest) o s.time.count))
        ∧ t.drv[b.val].lines = upd s.drv[b.val].lines d (activeLine p o s.time.count)
        ∧ JobGoesOn s t b (countedActive p o s.drv[b.val].job)
        ∧ Unchanged (fun a => inBayEntry b a ∨ inStreamEntry b a) s t)
    ∧ (s.drv[b.val].lines[d.val].running = some ⟨p, o, .active, s.time.count⟩ →
      s.drv[b.val].lines[d.val].buffered.map Buffered.prog ≠ some .release →
      ∃ t, exec (.widthEnd b d) s = .next t
        ∧ t = { s with drv := t.drv, str := t.str, slots := t.slots, mem := t.mem }
        ∧ (∀ c : Bay, c ≠ b → t.drv[c.val] = s.drv[c.val])
        ∧ t.str = upd s.str b (fun v => v.offer (driveRecord d s.drv[b.val].lines[d.val].rest o s.time.count))
        ∧ t.drv[b.val].lines = upd s.drv[b.val].lines d (fun l => match l.buffered with
          | none => { l with level := some l.rest, running := none, justRested := true }
          | some q => waitingLine q.prog q.owner s.time.count
            { l with level := some l.rest, buffered := none, justRested := true })
        ∧ JobGoesOn s t b (counted o s.drv[b.val].job)
        ∧ Unchanged (fun a => inBayEntry b a ∨ inStreamEntry b a) s t)

/-- R181 step 4: one checked entry arrives at its line, with its owner. -/
def entryArrives (b : Bay) (o : Owner) (y : State) (x : LineEntry) : State :=
  match x.prog with
  | none => y
  | some p => if h : x.line < 4 then arrive b ⟨x.line, h⟩ p o y else y

/-- R181, R182: a dispatched LINES job: a region outside the job data area, and a bad entry, end it with every line as
it was; else its entries arrive at their lines in index order with the job as their owner, and it ends at once when
every entry has ended or with DETACH. -/
def LinesJobsIssueTheirEntries : Prop :=
  ∀ (s t : State) (b : Bay) (l : Lane) (i : Slot) (entries : List LineEntry), HeadReady s b l i →
    exec (.dispatch b l) s = .next t → s.slots[i.val].card.jobKind = some .lines →
    entries = (List.range (s.slots[i.val].card.length / 8)).map
      (fun j => readLineEntry s.mem (s.slots[i.val].card.offset + 8 * j)) →
    (inJobArea s.slots[i.val].card.offset s.slots[i.val].card.length = false →
      t.drv = s.drv ∧ t.slots[i.val].report = some ⟨.dataRange, 6#16, 0#64, s.time.count⟩)
    ∧ (inJobArea s.slots[i.val].card.offset s.slots[i.val].card.length = true →
      (∀ n x, entries[n]? = some x → (4 ≤ x.line ∨ x.prog = none) →
        (∀ m y, m < n → entries[m]? = some y → y.line < 4 ∧ y.prog ≠ none) →
        t.drv = s.drv
        ∧ t.slots[i.val].report = some ⟨.badCard, BitVec.ofNat 16 (10 + 256 * n), 0#64, s.time.count⟩)
      ∧ (∀ y : State, (∀ x ∈ entries, x.line < 4 ∧ x.prog ≠ none) →
        y = entries.foldl (entryArrives b (.job i s.slots[i.val].accept)) { s with
          drv := upd s.drv b (fun v => { v with job := some ⟨i, s.slots[i.val].accept, entries.length, 0, 0⟩ })
          str := upd s.str b (fun v =>
            v.offer ⟨s.time.count, .jobStart i s.slots[i.val].card.kind.toNat s.slots[i.val].card.tag⟩) } →
        t.str = y.str ∧ t.drv[b.val].lines = y.drv[b.val].lines
        ∧ ∃ j, y.drv[b.val].job = some j
          ∧ (s.slots[i.val].card.detach = true ∨ j.total ≤ j.completed + j.superseded →
            t.drv[b.val].job = none ∧ t.slots[i.val].report = some (linesReport j s.time.count))
          ∧ (s.slots[i.val].card.detach = false → j.completed + j.superseded < j.total →
            t.drv[b.val].job = some j ∧ t.slots[i.val].report = s.slots[i.val].report))
      ∧ (∀ (x : LineEntry) (d : OutLine) (n w : Nat), entries = [x] → x.line = d.val →
        x.prog = some (.timed n w) → n ≠ 0 →
        s.slots[i.val].card.detach = false → s.drv[b.val].lines[d.val].running = none →
        s.drv[b.val].lines[d.val].force = none →
        t.drv[b.val].job = some ⟨i, s.slots[i.val].accept, 1, 0, 0⟩
        ∧ t.drv[b.val].lines = upd s.drv[b.val].lines d (fun v => { v with
          running := some ⟨.timed n w, .job i s.slots[i.val].accept, .delay,
            s.time.count + BitVec.ofNat 48 (n * 100)⟩ })))

/-- R139 step 3: every kind of job begins at its owner. That a CONTINUOUS OPEN takes the card's W too is the model's
choice (notes/assumptions/40.md). -/
def Obligations.OwnersBeginTheirJobsByKind : Prop :=
  OwnersBeginTheirJobs ∧ TraceJobsChangeTheStream ∧ LinesJobsIssueTheirEntries

/-! ### Control -/

/-- R189 to R192: START in IDLE with no start sequence begins one with outcome PENDING, no byte of the profile yet read,
and is refused otherwise; the end of the profile's read refuses a bad profile with its error and index, written with the
outcome into the device mirror, and takes a good one as the copy. -/
def StartSequenceReadsAndChecks : Prop :=
  ∀ s : State,
    (s.ctl.device = .idle → s.ctl.startSeq = .none →
      ∃ t, exec .start s = .next t
        ∧ t = { s with
            ctl := { s.ctl with startSeq := .reading, outcome := .pending, earlyBytes := [] }, mem := t.mem }
        ∧ Unchanged (fun a => a = 0x001001) s t)
    ∧ (s.ctl.device ≠ .idle ∨ s.ctl.startSeq ≠ .none →
      ∃ t, exec .start s = .next t ∧ t = { s with ctl := { s.ctl with outcome := .refused }, mem := t.mem }
        ∧ Unchanged (fun a => a = 0x001001) s t)
    ∧ (s.ctl.startSeq = .reading →
      (∀ x n, profileCheck s.profileRead = some (x, n) →
        ∃ t, exec .profileReadEnd s = .next t
          ∧ t = { s with
              ctl := { s.ctl with startSeq := .none, outcome := .refused, profileError := x, errorIndex := n }
              mem := t.mem }
          ∧ (s.mem.wf → t.mem.read 0x001001 = 3#8 ∧ t.mem.read 0x001003 = BitVec.ofNat 8 n
            ∧ t.mem.read 0x001002 = (match x with
              | .none => 0#8 | .badSignature => 1#8 | .noBays => 2#8 | .shiftRange => 3#8 | .railWindow => 4#8))
          ∧ Unchanged (fun a => a = 0x001001 ∨ a = 0x001002 ∨ a = 0x001003) s t)
      ∧ (profileCheck s.profileRead = none →
        ∃ t, exec .profileReadEnd s = .next t
          ∧ t = { s with
              ctl := { s.ctl with
                startSeq := .initialising
                copy := some (readProfile s.profileRead)
                profileError := .none
                errorIndex := 0 }
              mem := t.mem }
          ∧ Unchanged (fun a => a = 0x001002 ∨ a = 0x001003) s t))

/-- What a read of `[base, base + length)` sees before and after a write of bytes at `a`: the write reaches each byte or
had come after its reading, and no byte known to have been read. -/
def WriteReaches (before after : Memory) (known : List Host.Cell) (a : Nat) (bytes : List Byte) (base length : Nat) :
    Prop :=
  ∀ x, base ≤ x → x < base + length →
    (x < a ∨ a + bytes.length ≤ x → after.read x = before.read x)
    ∧ ∀ (i : Nat) (v : Byte), x = a + i → bytes[i]? = some v →
      (after.read x = v ∨ after.read x = before.read x)
      ∧ (x ∈ known.map Prod.fst → after.read x = before.read x)

/-- R119, R160, R192: what the reads of the profile, of a program image and of a step list give: card memory as it
stands when no write came during the read; a host write reaches each byte that has not been read, which the model leaves
free (notes/assumptions/12.md), and no byte that has been read. A host write changes nothing else. -/
def HostWritesReachBytesNotYetRead : Prop :=
  ∀ (s : State) (a : Nat) (bytes : List Byte),
    (s.ctl.earlyBytes = [] → s.profileRead = s.mem)
    ∧ (∀ r : ImageRead, r.early = [] → s.imageRead r = s.mem)
    ∧ (∀ e : EngineId, s.eng[e.val].early = [] → s.listRead e = s.mem)
    ∧ (s.ctl.startSeq ≠ .reading → (∀ b : Bay, s.seq[b.val].reading = none) →
      (∀ e : EngineId, s.eng[e.val].work ≠ .loading) → s.hostWrite a bytes = { s with mem := s.mem.writeBytes a bytes })
    ∧ ∃ t, t = s.hostWrite a bytes
      ∧ t = { s with
          ctl := { s.ctl with earlyBytes := t.ctl.earlyBytes }
          seq := t.seq
          eng := t.eng
          mem := s.mem.writeBytes a bytes
          draws := t.draws }
      ∧ (∀ b : Bay, t.seq[b.val] = { s.seq[b.val] with reading := t.seq[b.val].reading }
        ∧ t.seq[b.val].reading.map ImageRead.slot = s.seq[b.val].reading.map ImageRead.slot)
      ∧ (∀ e : EngineId, t.eng[e.val] = { s.eng[e.val] with early := t.eng[e.val].early })
      ∧ (s.mem.wf →
        WriteReaches s.profileRead t.profileRead s.ctl.earlyBytes a bytes 0x000000 0x1000
        ∧ (∀ (b : Bay) (r r' : ImageRead), s.seq[b.val].reading = some r → t.seq[b.val].reading = some r' →
          WriteReaches (s.imageRead r) (t.imageRead r') r.early a bytes s.slots[r.slot.val].card.offset 256)
        ∧ (∀ (e : EngineId) (b : Bay) (i : Slot), s.eng[e.val].work = .loading → s.eng[e.val].attached = some (b, i) →
          WriteReaches (s.listRead e) (t.listRead e) s.eng[e.val].early a bytes s.slots[i.val].card.offset
            s.slots[i.val].card.length))

/-- R192, 12.2: the four checks of a profile in their order, each with its error and index, and a profile that meets
them all. -/
def ProfileChecksInOrder : Prop :=
  ∀ (m : Memory) (signed : Prop) (badShift badWindow : Nat → Prop),
    (signed ↔ m.readBytes 0 4 = [0x4B#8, 0x42#8, 0x38#8, 0x50#8] ∧ m.field 4 2 = 1) →
    (∀ b, badShift b ↔ (m.read 6).getLsbD b = true ∧ 15 < (m.read (0x10 + 32 * b)).toNat) →
    (∀ i, badWindow i ↔ (m.read 6).getLsbD (i / 3) = true
      ∧ m.field (0x110 + 8 * i + 4) 2 ≤ m.field (0x110 + 8 * i + 2) 2) →
    (¬ signed → profileCheck m = some (.badSignature, 0))
    ∧ (signed → m.read 6 = 0#8 → profileCheck m = some (.noBays, 0))
    ∧ (signed → m.read 6 ≠ 0#8 →
      (∀ b, b < 8 → badShift b → (∀ c, c < b → ¬ badShift c) → profileCheck m = some (.shiftRange, b))
      ∧ ((∀ b, b < 8 → ¬ badShift b) →
        (∀ i, i < 24 → badWindow i → (∀ j, j < i → ¬ badWindow j) → profileCheck m = some (.railWindow, i))
        ∧ ((∀ i, i < 24 → ¬ badWindow i) → profileCheck m = none)))

/-- R189 to R191: the CONTROL writes, register writes and link events without another effect. -/
def InertAccesses : Prop :=
  ∀ s : State,
    (∀ code : Word, code = 0#32 ∨ 6 ≤ code.toNat →
      ∃ t, exec (.unknownCommand code) s = .next t
        ∧ t = { s with ctl := { s.ctl with outcome := .refused }, mem := t.mem }
        ∧ Unchanged (fun a => a = 0x001001) s t)
    ∧ (∀ offset lanes value, (Instr.registerWriteIgnored offset lanes value).wf = true →
      exec (.registerWriteIgnored offset lanes value) s = .next s)
    ∧ exec (.linkDown .linkLost) s = .next { s with link := { s.link with down := true } }
    ∧ exec (.linkDown .perstAsserted) s = .next { s with link := { s.link with perst := true } }

/-- R192, R193: a profile without an error has its signature, enables a bay, and every setting of the copy is in its
range. -/
def AcceptedProfilesAreInRange : Prop :=
  ∀ m : Memory, profileCheck m = none →
    m.readBytes 0 4 = [0x4B#8, 0x42#8, 0x38#8, 0x50#8] ∧ m.field 4 2 = 1 ∧ m.read 6 ≠ 0#8
    ∧ (readProfile m).mask = m.read 6 ∧ (readProfile m).poolLow ≤ 2047
    ∧ (∀ b : Bay, ((readProfile m).mask.getLsbD b.val = true → (readProfile m).bays[b.val].k ≤ 15)
      ∧ 1 ≤ (readProfile m).bays[b.val].level ∧ (readProfile m).bays[b.val].level ≤ 6
      ∧ 16 ≤ (readProfile m).bays[b.val].divisor ∧ (readProfile m).bays[b.val].divisor ≤ 65535
      ∧ 4 ≤ (readProfile m).bays[b.val].tck ∧ (readProfile m).bays[b.val].tck ≤ 4096
      ∧ ∀ l : InLine, (readProfile m).bays[b.val].qualMicros[l.val] ≤ 10000)
    ∧ (∀ i : Fin 24, 1000 ≤ (readProfile m).rails[i.val].fullScale ∧ (readProfile m).rails[i.val].fullScale ≤ 20000
      ∧ ((readProfile m).mask.getLsbD (i.val / 3) = true →
        (readProfile m).rails[i.val].low < (readProfile m).rails[i.val].high
        ∧ (readProfile m).rails[i.val].hyst
          ≤ ((readProfile m).rails[i.val].high - (readProfile m).rails[i.val].low) / 2))
    ∧ ((readProfile m).clampCount = 0 ↔ (readProfile m).firstClamp = 0xFFFF)

/-- R189 to R193: START, the profile's read (which bytes a host write finds read is free, notes/assumptions/12.md) and
checks, unknown codes, ignored writes and the loss of the link. -/
def Obligations.ControlTakesItsCommands : Prop :=
  StartSequenceReadsAndChecks ∧ HostWritesReachBytesNotYetRead ∧ ProfileChecksInOrder ∧ InertAccesses
  ∧ AcceptedProfilesAreInRange

/-- R28, R49, R57, R58, R70, R71, R79, R98, R126, R133, R134, R138, R154, R157, R175, R194, R200: the start instant sets
every block to its START values under the copy, and the status block, the stream table, the card states and the page
map then show them. That the status block shows them already at the start instant (R194 writes it after) is the model's
choice (notes/assumptions/13.md), and so are the values of items that no rule gives (notes/assumptions/5.md). That the
blocks of bays that are not enabled hold the copy's settings too is the model's reading (notes/assumptions/35.md). -/
def Obligations.StartInstantSetsEveryBlock : Prop :=
  ∀ (s : State) (p : ProfileCopy), s.ctl.startSeq = .initialising → s.ctl.copy = some p → s.mem.wf →
    ∃ t, exec .startInstant s = .next t
      ∧ t.ctl = { s.ctl with
          device := .running
          startSeq := .none
          outcome := .accepted
          runNumber := s.ctl.runNumber + 1#32
          enabled := p.mask
          clampCount := min p.clampCount 65535
          firstClamp := p.firstClamp }
      ∧ t.time = s.time ∧ t.pending = s.pending ∧ t.draws = s.draws ∧ t.checkDraws = s.checkDraws
      ∧ t.notices.pend[0] = s.notices.pend[0]
      ∧ (∀ b : Bay, t.notices.pend[(bayGroup b).val] = 0#4 ∧ t.notices.level[b.val] = p.bays[b.val].level
        ∧ t.notices.enable[b.val] = p.bays[b.val].enables)
      ∧ (∀ (b : Bay) (l : InLine), t.mon[b.val].lines[l.val].pin = s.mon[b.val].lines[l.val].pin
        ∧ t.mon[b.val].lines[l.val].raw = t.mon[b.val].lines[l.val].qual
        ∧ t.mon[b.val].lines[l.val].qual = (p.mask.getLsbD b.val && s.mon[b.val].lines[l.val].pin)
        ∧ t.mon[b.val].lines[l.val].edge = none
        ∧ t.mon[b.val].lines[l.val].q = p.bays[b.val].qualMicros[l.val] * 100)
      ∧ (∀ b : Bay, t.mon[b.val].settleBase = none
        ∧ t.mon[b.val].milestone = if t.mon[b.val].lines[0].qual then 8 else 0)
      ∧ (∀ b : Bay, t.code[b.val] = CodeRx.reset ∧ t.seq[b.val] = Sequencer.reset
        ∧ t.con[b.val] = { Console.reset with divisor := p.bays[b.val].divisor }
        ∧ t.str[b.val] = { Stream.reset with k := p.bays[b.val].k }
        ∧ t.port[b.val] = ⟨.unknown, p.bays[b.val].tck⟩ ∧ t.drv[b.val].job = none)
      ∧ (∀ (b : Bay) (d : OutLine), t.drv[b.val].lines[d.val] = { DrvLine.reset with
          rest := p.bays[b.val].rest[d.val]
          level := if p.mask.getLsbD b.val then some p.bays[b.val].rest[d.val] else none })
      ∧ (∀ (b : Bay) (r : RailId) (n : Fin 24), n.val = 3 * b.val + r.val →
        t.rail[b.val][r.val] = { Rail.reset with
          fullScale := p.rails[n.val].fullScale
          lowLimit := p.rails[n.val].low
          highLimit := p.rails[n.val].high
          hyst := p.rails[n.val].hyst })
      ∧ (∀ b : Bay, p.mask.getLsbD b.val = true → (∀ c : Bay, c < b → p.mask.getLsbD c.val = false) →
        t.scanner = ⟨some (b, 0), some ⟨b, 0, s.time.count⟩⟩)
      ∧ t.pool = { Pool.reset with lowThreshold := p.poolLow }
      ∧ (∀ i : Slot, t.slots[i.val] = SlotRec.reset) ∧ (∀ b l, t.lane b l = LaneQ.reset)
      ∧ t.disp = { Dispatcher.reset with arbitration := p.arbitration }
      ∧ (∀ e : EngineId, t.eng[e.val] = Engine.reset)
      ∧ t.Shown
      ∧ (∀ i : Slot, t.mem.read (cardAddr i + 0x40) = 0#8) ∧ (∀ q : Page, t.mem.read (0x005000 + q.val) = 0#8)
      ∧ Unchanged (fun a => publishedArea a ∨ (0x005000 ≤ a ∧ a < 0x005800)
        ∨ ∃ i : Slot, a = cardAddr i + 0x40) s t

/-- R32, R72, R123, R142, R151, R184, R191, R196: STOP in RUNNING makes the device STOPPING, disarms every enabled
bay's sequencer, ends every waiting slot STOPPED, marks every job in service, empties the hold set, brings every
enabled bay's lines to rest and closes its stream. In every other state it is refused. A SETUP-lane job that has
reported its end keeps its status. That the scanner keeps its position is the model's reading
(notes/assumptions/33.md). -/
def Obligations.StopEndsAllWork : Prop :=
  ∀ s : State,
    (s.ctl.device ≠ .running →
      ∃ t, exec .stop s = .next t ∧ t = { s with ctl := { s.ctl with outcome := .refused }, mem := t.mem }
        ∧ Unchanged (fun a => a = 0x001001) s t)
    ∧ (s.ctl.device = .running →
      ∃ t, exec .stop s = .next t
        ∧ t.ctl = { s.ctl with device := .stopping, outcome := .accepted }
        ∧ t.scanner = { s.scanner with conv := none } ∧ t.time = s.time ∧ t.mon = s.mon ∧ t.rail = s.rail
        ∧ t.code = s.code ∧ t.draws = s.draws ∧ t.pending = s.pending
        ∧ t.disp = { s.disp with hold := 0#8 }
        ∧ (∀ b : Bay, t.seq[b.val] = if s.enabled b then { s.seq[b.val] with
            state := .disarmed
            program := none
            stage := none
            counters := []
            stageEntry := none
            stallStart := none
            stallBegin := none
            stallGiven := 0 } else s.seq[b.val])
        ∧ (∀ i : Slot, (s.slots[i.val].state = .requested ∨ s.slots[i.val].state = .parked) →
          t.slots[i.val].state = .done ∧ t.slots[i.val].status = .stopped
          ∧ t.slots[i.val].finish = s.time.count ∧ t.slots[i.val].start = s.time.count)
        ∧ (∀ i : Slot, s.slots[i.val].state = .inService →
          t.slots[i.val].state = .inService
          ∧ (s.slots[i.val].interruptible = true →
            t.slots[i.val].mark = s.slots[i.val].mark.or (some .stopped)
            ∧ t.slots[i.val].stopMark = s.slots[i.val].stopMark
            ∧ (s.slots[i.val].mark = none →
              t.slots[i.val].report = (askOwner i .stopped s).slots[i.val].report
              ∧ (∀ e, s.slots[i.val].card.jobKind = some .scan →
                s.engineOf s.slots[i.val].card.bayIx = some e →
                s.eng[e.val].attached = some (s.slots[i.val].card.bayIx, i) →
                t.eng[e.val] = (scanAbort e i .stopped s).eng[e.val]
                ∧ t.port[s.slots[i.val].card.bayIx.val]
                  = (scanAbort e i .stopped s).port[s.slots[i.val].card.bayIx.val])
              ∧ (∀ j, s.slots[i.val].card.jobKind = some .send →
                s.con[s.slots[i.val].card.bayIx.val].job = some j → j.slot = i →
                t.con[s.slots[i.val].card.bayIx.val].tx
                  = (sendAbort s.slots[i.val].card.bayIx i .stopped s).con[s.slots[i.val].card.bayIx.val].tx
                ∧ t.con[s.slots[i.val].card.bayIx.val].job
                  = (sendAbort s.slots[i.val].card.bayIx i .stopped s).con[s.slots[i.val].card.bayIx.val].job)))
          ∧ (s.slots[i.val].card.lane = some .setup →
            t.slots[i.val].stopMark = (s.slots[i.val].stopMark || s.slots[i.val].report.isNone)
            ∧ t.slots[i.val].mark = s.slots[i.val].mark ∧ t.slots[i.val].report = s.slots[i.val].report))
        ∧ (∀ i : Slot, s.slots[i.val].state = .free ∨ s.slots[i.val].state = .done →
          t.slots[i.val].state = s.slots[i.val].state)
        ∧ (∀ (b : Bay) (d : OutLine), s.enabled b = true →
          t.drv[b.val].lines[d.val].running = none ∧ t.drv[b.val].lines[d.val].buffered = none
          ∧ t.drv[b.val].lines[d.val].force = none
          ∧ t.drv[b.val].lines[d.val].level = some s.drv[b.val].lines[d.val].rest)
        ∧ (∀ b : Bay, s.enabled b = true →
          t.str[b.val].state = (if s.str[b.val].state = .running ∨ s.str[b.val].state = .postTrigger
              ∨ s.str[b.val].state = .draining then .draining else .stopped)
          ∧ (s.str[b.val].state = .running ∨ s.str[b.val].state = .postTrigger → t.con[b.val].batch = none))
        ∧ Unchanged (fun a => publishedArea a ∨ ∃ i, inCard i a) s t)

/-- R49, R58, R80, R155, R175, R197: the return to IDLE, when both engines are IDLE, no slot waits or is in service and
every enabled bay's stream is STOPPED: every pin undriven, pending edges, frames and bytes dropped, the rest kept. That
the driven lines' fields are then rewritten as undriven (notes/assumptions/42.md), that a receiver in BREAK_CHECK or
BREAK_HOLD becomes IDLE too (notes/assumptions/44.md), and that the raw level of a line without its pending edge is its
qualified level (notes/assumptions/24.md), are the model's choices. -/
def Obligations.StoppingReturnsToIdle : Prop :=
  ∀ s : State, s.ctl.device = .stopping → (∀ e : EngineId, s.eng[e.val].state = .idle) →
    (∀ i : Slot, s.slots[i.val].state = .free ∨ s.slots[i.val].state = .done) →
    (∀ b : Bay, s.enabled b = true → s.str[b.val].state = .stopped) →
    ∃ t, exec .returnToIdle s = .next t
      ∧ t = { s with
          ctl := { s.ctl with device := .idle }
          mon := s.mon.map (fun m =>
            { m with lines := m.lines.map (fun l => { l with raw := l.qual, edge := none }) })
          code := s.code.map (fun c => { c with state := .idle, bits := 0 })
          con := s.con.map (fun c => { c with rx := .idle })
          drv := s.drv.map (fun d => { d with lines := d.lines.map (fun l => { l with level := none }) })
          mem := t.mem }
      ∧ (∀ b : Bay, t.scanPins b = none ∧ t.conTx b = none ∧ t.active b = false)
      ∧ Unchanged (fun a => a = 0x001000 ∨ ∃ (b : Bay) (d : OutLine), a = 0x001888 + 256 * b.val + d.val) s t

/-- R21, R195: of groups of writes in their order, a number have been made whole and of the next some accesses. -/
def PartlyWritten (old new : Memory) (groups : List (List Field)) : Prop :=
  ∃ (done : Nat) (chosen : List Field), chosen.Sublist ((groups.getD done []).flatMap accesses)
    ∧ new = ((groups.take done).flatten.flatMap accesses ++ chosen).foldl Memory.writeField old

/-- R187: a field of 1, 2, 4 or 8 bytes on a boundary of its own size is written in one access, and the accesses of
any field write that field. -/
def FieldsAreWrittenByTheirAccesses : Prop :=
  ∀ (m : Memory) (a : Nat) (bytes : List Byte),
    ((bytes.length = 1 ∨ bytes.length = 2 ∨ bytes.length = 4 ∨ bytes.length = 8) → a % bytes.length = 0 →
      accesses (a, bytes) = [(a, bytes)])
    ∧ (accesses (a, bytes)).foldl Memory.writeField m = m.writeBytes a bytes

/-- R20, R33, R46, R47: the groups of writes of a whole service leave, outside the status block and the stream table,
the memory that the service leaves, and the last of them are items of the bay's stream table entry. -/
def ServicesWriteTheirGroups : Prop :=
  ∀ (s : State) (b : Bay) (v : Service), s.str[b.val].service = some v → s.mem.wf →
    (∀ a, ¬ publishedArea a → ((s.serviceWrites b v).flatten.foldl Memory.writeField s.mem).read a
      = (match v with
        | .flush => serveFlush b s | .drain => serveDrain b s | .record => serveRecord b s).mem.read a)
    ∧ ∃ g, (s.serviceWrites b v).getLast? = some g ∧ ∀ f ∈ g, inStreamEntry b f.1

/-- R164, R187: `new` is `old` with the result write that an engine of `s` has in progress cut short. -/
def ResultCut (s : State) (e : EngineId) (old new : Memory) : Prop :=
  match s.eng[e.val].resultField with
  | some f => PartlyWritten old new [[f]]
  | none => new = old

/-- R163, R164: an engine has a result write in progress exactly when a step's captured value is being stored, into the
ceil(n / 8) bytes at the step's result region. -/
def ResultWritesInProgress : Prop :=
  ∀ (s : State) (e : EngineId),
    (∀ f, s.eng[e.val].resultField = some f ↔ s.eng[e.val].work = .writeResult
      ∧ ∃ n x, s.eng[e.val].index = some n ∧ s.eng[e.val].steps[n]? = some x
        ∧ f = (x.b, leBytes ((x.n + 7) / 8) s.eng[e.val].captured))

/-- R2, R21, R164, R186, R190, R195, R198, R202: the three resets set every block to its reset values but the pins, the link
and what waits, and take the notice line down. A link reset and RESTART keep card memory, but for a start sequence's
writes, for those of one writer service in flight and for the engines' result writes in progress, which may be made in
part; only RESTART leaves ACCEPTED. These are the model's own: that the link's form and what was read stay
(notes/assumptions/29.md); the values of items that no rule gives (notes/assumptions/5.md); that a reset sends the
deassertion over the link as it is after the reset (notes/assumptions/30.md); in which groups, in what order, the writes
of the INITIALISING step (notes/assumptions/3.md), of the service in flight and which service that is
(notes/assumptions/37.md), and of a result write (notes/assumptions/47.md) are cut. -/
def ResetsLeaveTheirValues : Prop :=
  ∀ (s : State) (c : Instr) (x : LinkResetCause),
    (c = .powerOnReset ∨ c = .restart
      ∨ c = .linkReset x ∧ (x = .linkReturn → s.link.down = true) ∧ (x = .perstRelease → s.link.perst = true)) →
    ∃ t, exec c s = .next t
      ∧ t = { State.reset with
          time := { State.reset.time with syncRaw := s.time.syncRaw, syncQual := s.time.syncRaw }
          ctl := { State.reset.ctl with outcome := if c = .restart then .accepted else .none }
          link := t.link
          mon := t.mon
          mem := t.mem
          draws := t.draws
          checkDraws := s.checkDraws
          pending := s.pending }
      ∧ (∀ b : Bay, t.mon[b.val].settleBase = none ∧ t.mon[b.val].milestone = 0
        ∧ ∀ l : InLine, t.mon[b.val].lines[l.val] = { State.reset.mon[b.val].lines[l.val] with
            pin := s.mon[b.val].lines[l.val].pin })
      ∧ t.link.form = s.link.form ∧ t.link.readData = s.link.readData
      ∧ (c = .restart → t.link.down = s.link.down ∧ t.link.perst = s.link.perst)
      ∧ (c = .linkReset .linkReturn → t.link.down = false) ∧ (c = .linkReset .perstRelease → t.link.perst = false)
      ∧ (c ≠ .powerOnReset → ∃ m0 m1 : Memory, ResultCut s 0 m0 m1 ∧ ResultCut s 1 m1 t.mem
        ∧ (s.ctl.startSeq ≠ .initialising → (∀ b : Bay, s.str[b.val].service = none) → m0 = s.mem)
        ∧ (s.ctl.startSeq ≠ .initialising → m0 = s.mem
          ∨ ∃ (b : Bay) (v : Service), s.str[b.val].service = some v ∧ PartlyWritten s.mem m0 (s.serviceWrites b v))
        ∧ (s.ctl.startSeq = .initialising → (∀ b : Bay, s.str[b.val].service = none) → PartlyWritten s.mem m0
          [ (List.finRange 64).map (fun i : Slot => (cardAddr i + 0x40, [0#8])),
            (List.finRange 8).flatMap (fun b : Bay => fieldsFrom (streamAddr b)
              ([[0#8], [1#8], [1#8], [0#8], [0#8, 0#8], [0xFF#8, 0xFF#8]] ++ List.replicate 4 (List.replicate 4 0#8)
                ++ List.replicate 40 [0#8])),
            (List.finRange 2048).map (fun p : Page => (mapAddr p, [0#8])) ]))
      ∧ (c = .powerOnReset ∨ c = .restart ∧ (∀ b : Bay, s.str[b.val].service = none) →
        t.link = s.link.signal s.notices.asserted false)
      ∧ (c = .linkReset x → (∀ b : Bay, s.str[b.val].service = none) →
        t.link = (s.link.after x).signal s.notices.asserted false)
      ∧ (c ≠ .powerOnReset → s.mem.wf → Unchanged (fun a => publishedArea a ∨ (0x005000 ≤ a ∧ a < 0x005800)
        ∨ 0x800000 ≤ a ∨ (∃ i : Slot, a = cardAddr i + 0x40)
        ∨ ∃ (e : EngineId) (f : Nat × List Byte), s.eng[e.val].resultField = some f
          ∧ f.1 ≤ a ∧ a < f.1 + f.2.length) s t)
      ∧ t.notices.asserted = false

/-- R2, R20, R21, R33, R46, R47, R164, R186, R187, R190, R195, R198, R202: what the three resets leave, and the writes
that they may cut short. The order of a service's groups of writes (notes/assumptions/37.md), the groups of the
INITIALISING step and of a result write (notes/assumptions/3.md, notes/assumptions/47.md), and that the deassertion goes
over the link as it is after the reset (notes/assumptions/30.md) are the model's reading. -/
def Obligations.ResetsSetEveryBlock : Prop :=
  ResetsLeaveTheirValues ∧ ResultWritesInProgress ∧ FieldsAreWrittenByTheirAccesses ∧ ServicesWriteTheirGroups

/-- R202: what a change of the notice line sends: in the message form one message at assertion, in the level form the
assertion and the deassertion; nothing without a change, and nothing while the link is down or PERST# is held. That the
hold of PERST# alone keeps a signal back is the model's choice (notes/assumptions/29.md). -/
def LineIsSentInItsForm : Prop :=
  ∀ (l : Link) (before after : Bool),
    (l.down = true ∨ l.perst = true ∨ before = after → l.signal before after = l)
    ∧ (l.down = false → l.perst = false →
      (l.form = .message → l.signal false true = { l with sent := l.sent ++ [.message] } ∧ l.signal true false = l)
      ∧ (l.form = .level → l.signal false true = { l with sent := l.sent ++ [.assertLine] }
        ∧ l.signal true false = { l with sent := l.sent ++ [.deassertLine] }))

/-- R134, R189, 12.9: what a read of a register without an effect of its own returns: IDENT, STATUS, with the fields of
12.9 at their places and every other bit 0, and BAYHOLD; the write-only registers and offsets at or above 0x24 read 0.
These reads have no row: their values are the model's form (notes/assumptions/31.md). -/
def PlainReadsReturnTheirFields : Prop :=
  ∀ s : State,
    plainRead 0x00 s = 0x4B800001#32
    ∧ (∀ b : Nat, (plainRead 0x14 s).getLsbD b = (decide (b < 8) && s.disp.hold.getLsbD b))
    ∧ (∀ a, a = 0x08 ∨ a = 0x0C ∨ a = 0x10 ∨ 0x24 ≤ a → plainRead a s = 0#32)
    ∧ (s.time.milestone ≤ 4 → s.ctl.errorIndex < 32 →
      (plainRead 0x04 s).toNat % 4 = (match s.ctl.device with | .idle => 0 | .running => 1 | .stopping => 2)
      ∧ (plainRead 0x04 s).toNat / 4 % 4
        = (match s.ctl.outcome with | .none => 0 | .pending => 1 | .accepted => 2 | .refused => 3)
      ∧ (plainRead 0x04 s).toNat / 16 % 8 = (match s.ctl.profileError with
        | .none => 0 | .badSignature => 1 | .noBays => 2 | .shiftRange => 3 | .railWindow => 4)
      ∧ (plainRead 0x04 s).toNat / 128 % 2 = (match s.time.source with | .internal => 0 | .bench => 1)
      ∧ (plainRead 0x04 s).toNat / 256 % 8 = s.time.milestone
      ∧ ((plainRead 0x04 s).toNat / 2048 % 2 = 1 ↔ ∃ g : Fin 9, s.notices.ready g ≠ 0#4)
      ∧ (plainRead 0x04 s).toNat / 4096 % 16 = 0
      ∧ (plainRead 0x04 s).toNat / 65536 % 32 = s.ctl.errorIndex
      ∧ (plainRead 0x04 s).toNat / 2097152 = 0)

/-- R189, R203: a NOTICE read by any byte lanes takes the pending enabled factor of the lowest level, then the lowest
group, then the lowest number, and returns 0xFFFF and changes nothing with none. -/
def ReadTakesTheFirstFactor : Prop :=
  ∀ (s : State) (lanes : BitVec 4),
    ((∀ g : Fin 9, s.notices.ready g = 0#4) →
      exec (.noticeRead lanes) s = .next { s with link := { s.link with readData := laneBytes lanes 0xFFFF#32 } })
    ∧ (∀ (g : Fin 9) (f : Fin 4), (s.notices.ready g).getLsbD f.val = true →
      (∀ (h : Fin 9) (k : Fin 4), (s.notices.ready h).getLsbD k.val = true →
        s.notices.levelOf g < s.notices.levelOf h
        ∨ s.notices.levelOf g = s.notices.levelOf h ∧ (g < h ∨ g = h ∧ f ≤ k)) →
      ∃ t, exec (.noticeRead lanes) s = .next t
        ∧ t = { s with
            notices := { s.notices with pend := t.notices.pend }
            link := { s.link.signal true t.notices.asserted with
              readData := laneBytes lanes (BitVec.ofNat 32 (256 * g.val + f.val)) }
            mem := t.mem }
        ∧ (∀ (h : Fin 9) (k : Fin 4), t.notices.pend[h.val].getLsbD k.val
          = (s.notices.pend[h.val].getLsbD k.val && !(h = g && k = f)))
        ∧ (t.notices.asserted = true ↔ ∃ h : Fin 9, t.notices.ready h ≠ 0#4)
        ∧ Unchanged inPendingSet s t)

/-- R134, R189, R201 to R203: the notice line on the link, NOTICE reads, and the reads without an effect. That a read of
some byte lanes returns the list of their bytes (notes/assumptions/31.md), and that the hold of PERST# alone keeps a
signal back (notes/assumptions/29.md), are the model's choices. -/
def Obligations.NoticeReadTakesTheFirstFactor : Prop :=
  ReadTakesTheFirstFactor ∧ LineIsSentInItsForm ∧ PlainReadsReturnTheirFields

/-! ### Invariants that every step keeps -/

/-- A property of states that every step keeps. -/
def Kept (p : State → Prop) : Prop := ∀ s t : State, p s → step s = .next t → p t

/-- R186: card memory keeps its canonical form through every step. -/
def Obligations.EveryStepKeepsMemoryCanonical : Prop := Kept (fun s => s.mem.wf)

/-- R4, R6, R8, R49, R55, R56: at every step BENCH is selected only at milestone 4, a settle milestone is at most 8 and
above 0 only while the qualified POWER_GOOD is high, and a line has no pending edge exactly when its raw level equals its
qualified level. -/
def Obligations.EveryStepKeepsTheSourceAndTheMilestones : Prop :=
  Kept (fun s => s.SourceOk ∧ s.SettleOk ∧ s.LinesOk)

/-- R126, R133, R138, R154, R155: every step keeps the queues and the in-service map true to the slot states, every
engine attached for a SCAN in service of its bay, and the engine rotation order a list of all eight bays, each once. -/
def Obligations.EveryStepKeepsTheQueuesAndEngines : Prop :=
  Kept (fun s => s.QueuesOk ∧ s.EnginesOk ∧ s.RotationOk)

/-- R19, R22 to R24, R27, R29, R40: every step keeps the page pool: each page free once, or its bay's filling page, or
retained, or CLOSED; queues of at most 32 records, filling pages with room, and windows within their W. -/
def Obligations.EveryStepKeepsThePagePool : Prop := Kept State.PoolOk

/-- R98, R100, R102, R160, R161, R177: every step keeps each sequencer's stage and counters in range for its program,
each engine on checked steps, and every driven line without a RELEASE_FORCE that runs or waits. -/
def Obligations.EveryStepKeepsProgramsAndStepLists : Prop :=
  Kept (fun s => s.SeqOk ∧ s.EnginesChecked ∧ s.DriversOk)

/-- R17, R47, R68, R78, R92, R124, R153, R174, R180, R199, R201: once the status block shows the device, every command
but a reset keeps it so. -/
def CommandsKeepTheStatusBlockTrue : Prop :=
  ∀ (s t : State) (c : Instr), s.Shown → s.mem.wf → s.EnginesChecked → keepsRun c = true →
    exec c s = .next t → t.Shown

/-- R206: card memory holds a number in the little-endian field of `n` bytes at an offset. -/
def Holds (s : State) (a n v : Nat) : Prop := s.mem.field a n = v % 256 ^ n

/-- A flag as a number. -/
def flag (x : Prop) [Decidable x] : Nat := if x then 1 else 0

/-- 12.3: the device mirror. -/
def MirrorLayout (s : State) : Prop :=
  Holds s 0x001000 1 (match s.ctl.device with | .idle => 0 | .running => 1 | .stopping => 2)
  ∧ Holds s 0x001001 1 (match s.ctl.outcome with | .none => 0 | .pending => 1 | .accepted => 2 | .refused => 3)
  ∧ Holds s 0x001002 1 (match s.ctl.profileError with
    | .none => 0 | .badSignature => 1 | .noBays => 2 | .shiftRange => 3 | .railWindow => 4)
  ∧ Holds s 0x001003 1 s.ctl.errorIndex ∧ Holds s 0x001004 4 s.ctl.runNumber.toNat
  ∧ Holds s 0x001008 1 s.ctl.enabled.toNat
  ∧ Holds s 0x001009 1 (match s.time.source with | .internal => 0 | .bench => 1)
  ∧ Holds s 0x00100A 1 s.time.milestone ∧ Holds s 0x00100C 2 s.ctl.clampCount ∧ Holds s 0x00100E 2 s.ctl.firstClamp
  ∧ Holds s 0x001010 8 s.time.lastSync.toNat ∧ Holds s 0x001018 4 s.time.syncCount.toNat
  ∧ Holds s 0x00101C 2 s.pool.freeList.length
  ∧ Holds s 0x001020 1 (s.slots.toList.countP (fun r => r.state = .parked))
  ∧ Holds s 0x001021 1 (s.slots.toList.countP (fun r => r.state = .requested))
  ∧ Holds s 0x001022 1 (s.slots.toList.countP (fun r => r.state = .inService))
  ∧ (∀ g : Fin 9, Holds s (0x001024 + g.val) 1 s.notices.pend[g.val].toNat)
  ∧ ∀ e : EngineId,
    Holds s (0x001030 + 8 * e.val) 1 (match s.eng[e.val].state with | .idle => 0 | .running => 1 | .aborting => 2)
    ∧ Holds s (0x001031 + 8 * e.val) 1 (flag (s.eng[e.val].attached ≠ none) + 2 * flag (s.eng[e.val].index ≠ none))
    ∧ Holds s (0x001032 + 8 * e.val) 1 (match s.eng[e.val].attached with | some (b, _) => b.val | none => 0)
    ∧ Holds s (0x001033 + 8 * e.val) 1 (match s.eng[e.val].attached with | some (_, i) => i.val | none => 0)
    ∧ Holds s (0x001034 + 8 * e.val) 1
      (match s.eng[e.val].phase with | .none => 0 | .loading => 1 | .entry => 2 | .step => 3)
    ∧ Holds s (0x001035 + 8 * e.val) 1 (s.eng[e.val].index.getD 0)

/-- 12.3: a bay status entry. -/
def BayLayout (s : State) (b : Bay) (a : Nat) : Prop :=
  (∀ l : InLine, (s.mem.read a).getLsbD l.val = s.mon[b.val].lines[l.val].qual)
  ∧ (s.mem.read a).toNat < 64
  ∧ Holds s (a + 0x01) 1 s.mon[b.val].milestone
  ∧ Holds s (a + 0x02) 1 (flag (s.mon[b.val].settleBase ≠ none) + 2 * flag (s.code[b.val].lastCode ≠ none)
    + 4 * flag (s.code[b.val].stallRef ≠ none) + 8 * flag (s.seq[b.val].stage ≠ none)
    + 16 * flag (s.seq[b.val].stageEntry ≠ none) + 32 * flag (s.seq[b.val].lastFire ≠ none))
  ∧ Holds s (a + 0x03) 1 (match s.port[b.val].knowledge with | .unknown => 0 | .reset => 1 | .idle => 2)
  ∧ Holds s (a + 0x04) 4 s.code[b.val].errors.toNat
  ∧ Holds s (a + 0x08) 8 (match s.mon[b.val].settleBase with | some x => x.toNat | none => 0)
  ∧ Holds s (a + 0x10) 8 s.code[b.val].lastCodeTime.toNat
  ∧ Holds s (a + 0x18) 2 (match s.code[b.val].lastCode with | some x => x.toNat | none => 0)
  ∧ Holds s (a + 0x20) 8 (match s.code[b.val].stallRef with | some x => x.toNat | none => 0)
  ∧ (∀ r : RailId,
    Holds s (a + 0x28 + 16 * r.val) 2 s.rail[b.val][r.val].value
    ∧ Holds s (a + 0x2A + 16 * r.val) 1
      (match s.rail[b.val][r.val].window with | .unknown => 0 | .inside => 1 | .low => 2 | .high => 3)
    ∧ Holds s (a + 0x2B + 16 * r.val) 1 (flag (s.rail[b.val][r.val].lastConv ≠ none))
    ∧ Holds s (a + 0x30 + 16 * r.val) 8 (match s.rail[b.val][r.val].lastConv with | some x => x.toNat | none => 0))
  ∧ Holds s (a + 0x58) 4 s.con[b.val].received.toNat ∧ Holds s (a + 0x5C) 4 s.con[b.val].framing.toNat
  ∧ Holds s (a + 0x60) 4 s.con[b.val].breaks.toNat
  ∧ Holds s (a + 0x64) 1 (match s.seq[b.val].state with | .disarmed => 0 | .armed => 1 | .fired => 2)
  ∧ Holds s (a + 0x65) 1 (s.seq[b.val].stage.getD 0)
  ∧ Holds s (a + 0x66) 1 (match s.seq[b.val].lastFire with | some f => f.stage | none => 0)
  ∧ Holds s (a + 0x67) 1 (match s.seq[b.val].lastFire with | some f => f.entry | none => 0)
  ∧ (∀ j, j < 8 → Holds s (a + 0x68 + j) 1 (s.seq[b.val].counters.getD j 0))
  ∧ Holds s (a + 0x70) 4 s.seq[b.val].fireCount.toNat
  ∧ Holds s (a + 0x78) 8 (match s.seq[b.val].stageEntry with | some x => x.toNat | none => 0)
  ∧ Holds s (a + 0x80) 8 (match s.seq[b.val].lastFire with | some f => f.time.toNat | none => 0)
  ∧ ∀ d : OutLine, Holds s (a + 0x88 + d.val) 1
    ((match s.drv[b.val].lines[d.val].level with | none => 0 | some false => 1 | some true => 2)
      + 4 * flag (s.drv[b.val].lines[d.val].running ≠ none) + 8 * flag (s.drv[b.val].lines[d.val].buffered ≠ none)
      + 16 * flag (s.drv[b.val].lines[d.val].force ≠ none))

/-- 12.7: a stream table entry. -/
def StreamLayout (s : State) (b : Bay) (a : Nat) : Prop :=
  Holds s a 1 (match s.str[b.val].state with
    | .off => 0 | .running => 1 | .postTrigger => 2 | .draining => 3 | .stopped => 4)
  ∧ Holds s (a + 0x01) 1 (match s.str[b.val].mode with | .continuous => 1 | .window => 2)
  ∧ Holds s (a + 0x02) 1 s.str[b.val].w ∧ Holds s (a + 0x03) 1 s.str[b.val].retained.length
  ∧ Holds s (a + 0x04) 2 s.str[b.val].pRemaining
  ∧ Holds s (a + 0x06) 2 (match s.str[b.val].filling with | some u => u.page.val | none => 0xFFFF)
  ∧ Holds s (a + 0x08) 4 s.str[b.val].lostTotal ∧ Holds s (a + 0x0C) 4 s.str[b.val].written.toNat
  ∧ Holds s (a + 0x10) 4 s.str[b.val].closed.toNat ∧ Holds s (a + 0x14) 4 s.str[b.val].sequence.toNat

/-- R47, R199, 12.3, 12.7: what it is that the status block and the stream table show: every field at its place with its
coding. -/
def ShownFieldsStandAtTheirPlaces : Prop :=
  ∀ s : State, s.Shown →
    MirrorLayout s ∧ (∀ b : Bay, BayLayout s b (0x001800 + 256 * b.val))
    ∧ ∀ b : Bay, StreamLayout s b (0x004000 + 64 * b.val)

/-- R17, R47, R68, R78, R92, R124, R153, R174, R180, R199, R201: the status block shows the device, field by field, and
every command but a reset keeps it so. -/
def Obligations.EveryCommandKeepsTheStatusBlockTrue : Prop :=
  CommandsKeepTheStatusBlockTrue ∧ ShownFieldsStandAtTheirPlaces

/-- The machine right after reset meets every invariant. -/
def Obligations.ResetIsSafe : Prop := State.reset.Safe

/-! ### Pages and the places of records -/

/-- R22, R24, R27, R35: `t` has a page opened for a stream of `s` with a base time: FILLING, with the next sequence
number and an empty header. -/
def Opened (s t : State) (b : Bay) (p : Page) (base : Tick) : Prop :=
  t.str[b.val].filling = some ⟨p, s.str[b.val].sequence + 1#32, base, 0, false⟩
  ∧ t.pool.map = upd s.pool.map p (fun _ => .filling b)
  ∧ (s.mem.wf → t.mem.read (0x005000 + p.val) = BitVec.ofNat 8 (0x10 + b.val)
    ∧ t.mem.readBytes (0x800000 + 4096 * p.val) 32
      = pageHeader ⟨p, s.str[b.val].sequence + 1#32, base, 0, false⟩ b s.str[b.val].k 0 0)
  ∧ Unchanged (fun a => a = 0x005000 + p.val ∨ (0x800000 + 4096 * p.val ≤ a ∧ a < 0x800000 + 4096 * p.val + 32)) s t

/-- R24, R25, R39, R41, R44: a stream that needs a page takes the head of the free list, raising POOL_LOW when the free
count leaves the threshold T, unless it works under the WINDOW rules and is at its W or finds the list empty, when it
recycles its oldest retained page; else it obtains none. -/
def StreamsObtainPages : Prop :=
  ∀ (s : State) (b : Bay) (base : Tick),
    ((¬ s.str[b.val].WindowRules ∨ s.str[b.val].retained.length + 1 ≤ s.str[b.val].w) →
      ∀ p rest, s.pool.freeList = p :: rest →
        ∃ t, obtainPage b base s = some t ∧ Opened s t b p base
          ∧ t = { s with
              notices := if s.pool.freeList.length = s.pool.lowThreshold then s.notices.raise 0 1 else s.notices
              pool := { s.pool with map := t.pool.map, freeList := rest }
              str := upd s.str b (fun v => { v with
                filling := t.str[b.val].filling, sequence := s.str[b.val].sequence + 1#32 })
              mem := t.mem })
    ∧ (s.str[b.val].WindowRules →
      (s.str[b.val].w < s.str[b.val].retained.length + 1 ∨ s.pool.freeList = []) →
      ∀ u older, s.str[b.val].retained = u :: older →
        ∃ t, obtainPage b base s = some t ∧ Opened s t b u.page base
          ∧ t = { s with
              pool := { s.pool with map := t.pool.map }
              str := upd s.str b (fun v => { v with
                filling := t.str[b.val].filling, sequence := s.str[b.val].sequence + 1#32
                retained := older, recycled := true })
              mem := t.mem })
    ∧ (s.pool.freeList = [] → (¬ s.str[b.val].WindowRules ∨ s.str[b.val].retained = []) → obtainPage b base s = none)

/-- R22, R27, R39, R40, R42, R44: a page that ends is retained by a stream under the WINDOW rules, its header then
showing its records; every other stream delivers it. -/
def PagesEndByTheModeRule : Prop :=
  ∀ (s : State) (b : Bay) (u : PageUse), s.str[b.val].filling = some u →
    (s.str[b.val].WindowRules →
      ∃ t, endPage b s = t
        ∧ t = { s with
            pool := { s.pool with map := upd s.pool.map u.page (fun _ => .retained b) }
            str := upd s.str b (fun v => { v with retained := v.retained ++ [u], filling := none })
            mem := t.mem }
        ∧ (s.mem.wf → t.mem.read (0x005000 + u.page.val) = BitVec.ofNat 8 (0x20 + b.val)
          ∧ t.mem.readBytes (0x800000 + 4096 * u.page.val) 32
            = pageHeader u b s.str[b.val].k (flag (u.mark = true)) 0))
    ∧ (¬ s.str[b.val].WindowRules →
      ∃ t, endPage b s = t
        ∧ t = { s with
            notices := s.notices.raise (bayGroup b) 2
            pool := { s.pool with map := upd s.pool.map u.page (fun _ => .closed b) }
            str := upd s.str b (fun v =>
              { v with closed := v.closed + 1#32, recycled := false, filling := none })
            mem := t.mem }
        ∧ (s.mem.wf → ShowsDelivered t.mem u b s.str[b.val].k s.str[b.val].recycled s.str[b.val].lostTotal))

/-- R27, R33: a record slot written at the next place of the filling page. -/
def slotWritten (b : Bay) (bytes : List Byte) (mark : Bool) (s : State) : State :=
  match s.str[b.val].filling with
  | none => s
  | some u =>
    { s with
      str := upd s.str b (fun v =>
        { v with
          filling := some { u with count := u.count + 1, mark := u.mark || mark }
          written := v.written + 1#32
          wroteSince := true })
      mem := s.mem.writeBytes (0x800000 + 4096 * u.page.val + 32 + 16 * u.count) bytes }

/-- R33 step 2, R37: the LOSS record written, the lost count then 0. -/
def lossWritten (b : Bay) (s : State) : State :=
  (slotWritten b (encodeRecord (.loss s.str[b.val].lostCount) false 0) false s).modStr b (fun v =>
    { v with lostCount := 0 })

/-- R33 step 5, R34: the record written with its delta and LATE flag; t_last takes its clamped time. -/
def dataWritten (b : Bay) (body : RecordBody) (late : Bool) (delta : Nat) (clamped : Tick) (s : State) : State :=
  (slotWritten b (encodeRecord body late delta) body.isMark s).modStr b (fun v =>
    { v with tLast := some clamped, lapsed := false, wroteSince := late })

/-- R33: a page that now holds 254 records ends. -/
def endedIfFull (b : Bay) (s : State) : State :=
  if s.str[b.val].filling.map PageUse.count = some 254 then endPage b s else s

/-- R19, R33 to R37: the place of one record. Without a page it opens one, where it stands first, after LOSS, with delta
0, or it is lost; in a page it stands next, after LOSS when there is a loss to report and after TIME when R36 applies
and two slots remain; a page without room for it ends first. -/
def RecordsArePlaced : Prop :=
  ∀ (s : State) (b : Bay) (r : Record) (delta : Nat) (late : Bool) (clamped : Tick) (gap : Bool),
    Timed s.str[b.val] r.time delta late clamped gap →
    (s.str[b.val].filling = none →
      (obtainPage b clamped s = none →
        placeRecord 3 b r s = s.modStr b (fun v =>
          { v with lostCount := min 65535 (v.lostCount + 1), lostTotal := min 4294967295 (v.lostTotal + 1) }))
      ∧ ∀ x, obtainPage b clamped s = some x →
        placeRecord 3 b r s
          = dataWritten b r.body late 0 clamped (if s.str[b.val].lostCount = 0 then x else lossWritten b x))
    ∧ ∀ u, s.str[b.val].filling = some u → u.count < 254 →
      (s.str[b.val].lostCount ≠ 0 → placeRecord 3 b r s = placeRecord 3 b r (endedIfFull b (lossWritten b s)))
      ∧ (s.str[b.val].lostCount = 0 → gap = false →
        placeRecord 3 b r s = endedIfFull b (dataWritten b r.body late delta clamped s))
      ∧ (s.str[b.val].lostCount = 0 → gap = true →
        (u.count + 2 ≤ 254 →
          placeRecord 3 b r s = endedIfFull b (dataWritten b r.body false 0 r.time
            (slotWritten b (encodeRecord (.time r.time) false 0) false s)))
        ∧ (254 < u.count + 2 → placeRecord 3 b r s = placeRecord 3 b r (endPage b s)))

/-- R45, R88: `t` has the stream of a bay DRAINING: the CONSOLE record of an open batch is the last it accepts. -/
def drained (b : Bay) (s : State) : State :=
  { s with
    con := upd s.con b (fun c => { c with batch := none })
    str := upd s.str b (fun v =>
      { (match s.con[b.val].batch with | none => v | some p => v.offer ⟨p.time, .console p.bytes false⟩) with
        state := .draining
        drainPost := decide (v.state = .postTrigger)
        markAhead := none
        counting := false }) }

/-- R20, R33, R43, R44: the writer's service of a record takes it from the queue, places it, and counts it toward P: the
MARK of the fire begins the count, every record after it but a MARK counts, and at 0 the stream becomes DRAINING. The
place of that MARK in the queue is the model's own item (notes/assumptions/34.md). -/
def TakenRecordsCountTowardP : Prop :=
  (∀ (s : State) (d : Nat) (b : Bay) (r : Record) (rest : List Record), NextWork s d .record → b = bayAfter s d →
    s.str[b.val].queue = r :: rest →
    ∃ t, exec .writeRecord s = .next t
      ∧ Leaves s t (afterTake b r.body.isMark (placeRecord 3 b r { s with
          pool := { s.pool with lastServed := b }
          str := upd s.str b (fun v => { v with queue := rest }) })) blockArea)
  ∧ ∀ (s : State) (b : Bay) (mark : Bool),
    (∀ n, s.str[b.val].markAhead = some n →
      (1 < n → afterTake b mark s = s.modStr b (fun v => { v with markAhead := some (n - 1) }))
      ∧ (n ≤ 1 → s.str[b.val].pRemaining ≠ 0 →
        afterTake b mark s = s.modStr b (fun v => { v with markAhead := none, counting := true }))
      ∧ (n ≤ 1 → s.str[b.val].pRemaining = 0 → afterTake b mark s = drained b s))
    ∧ (s.str[b.val].markAhead = none →
      (s.str[b.val].counting = true → s.str[b.val].state = .postTrigger → mark = false →
        (1 < s.str[b.val].pRemaining →
          afterTake b mark s = s.modStr b (fun v => { v with pRemaining := v.pRemaining - 1 }))
        ∧ (s.str[b.val].pRemaining ≤ 1 →
          afterTake b mark s = drained b (s.modStr b (fun v => { v with pRemaining := 0 }))))
      ∧ (s.str[b.val].counting = false ∨ s.str[b.val].state ≠ .postTrigger ∨ mark = true → afterTake b mark s = s))

/-- R19, R24, R25, R27, R33, R35, R37, R39 to R41, R43 to R45: pages open, fill and end, and the records taken are
placed in them and counted. -/
def Obligations.PagesOpenFillAndEnd : Prop :=
  StreamsObtainPages ∧ PagesEndByTheModeRule ∧ RecordsArePlaced ∧ TakenRecordsCountTowardP
end

