-- ==== Sys2Proof/Laws/Memory.lean ====
section
/-! SUPPORT. Card memory: a read after a write, what a write leaves alone, and the canonical form that every memory
operation keeps. -/

namespace Sys2Proof.Machine

/-! ### Reads after a write of one byte -/

theorem Memory.read_below (m : Memory) (a : Nat) (h : ∀ c ∈ m, a < c.1) : m.read a = 0#8 := by
  induction m with
  | nil => rfl
  | cons c rest ih =>
    obtain ⟨x, v⟩ := c
    have hx := h (x, v) (by simp)
    simp only [Memory.read]
    rw [if_neg (by simp at hx; omega)]
    exact ih (fun c hc => h c (by simp [hc]))

theorem Memory.read_put (m : Memory) (hm : m.Pairwise (fun x y => x.1 < y.1)) (a b : Nat) (v : Byte) :
    (m.put a v).read b = if b = a then v else m.read b := by
  induction m with
  | nil => by_cases hv : v = 0#8 <;> by_cases hb : b = a <;>
      simp [Memory.put, Memory.read, hv, hb, Ne.symm]
  | cons c rest ih =>
    obtain ⟨x, w⟩ := c
    rw [List.pairwise_cons] at hm
    obtain ⟨hx, hr⟩ := hm
    have hlow : ∀ y, y ≤ x → Memory.read rest y = 0#8 := fun y hy =>
      Memory.read_below rest y (fun c hc => by have := hx c hc; simp at this; omega)
    simp only [Memory.put]
    by_cases h1 : a < x
    · rw [if_pos h1]
      by_cases hv : v = 0#8
      · by_cases hb : b = a
        · have : x ≠ b := by omega
          simp [Memory.read, hv, hb, hlow a (by omega), show x ≠ a by omega]
        · simp [hv, hb]
      · by_cases hb : b = a
        · simp [Memory.read, hv, hb]
        · simp [Memory.read, hv, hb, show a ≠ b from fun h => hb h.symm]
    · rw [if_neg h1]
      by_cases h2 : a = x
      · rw [if_pos h2]
        subst h2
        by_cases hv : v = 0#8
        · by_cases hb : b = a
          · simp [hv, hb, hlow a (Nat.le_refl a)]
          · simp [Memory.read, hv, hb, show a ≠ b from fun h => hb h.symm]
        · by_cases hb : b = a
          · simp [Memory.read, hv, hb]
          · simp [Memory.read, hv, hb, show a ≠ b from fun h => hb h.symm]
      · rw [if_neg h2]
        simp only [Memory.read, ih hr]
        by_cases hxb : x = b
        · subst hxb; simp [show x ≠ a from fun h => h2 h.symm]
        · simp [hxb]

/-- A write of one byte leaves every other byte alone, whatever the form of the memory. -/
theorem Memory.read_put_other (m : Memory) (a b : Nat) (v : Byte) (hb : b ≠ a) : (m.put a v).read b = m.read b := by
  induction m with
  | nil => by_cases hv : v = 0#8 <;> simp [Memory.put, Memory.read, hv, hb.symm]
  | cons c rest ih =>
    obtain ⟨x, w⟩ := c
    simp only [Memory.put]
    split
    · split
      · rfl
      · simp [Memory.read, hb.symm]
    · split
      · rename_i h
        subst h
        split <;> simp [Memory.read, hb.symm]
      · simp only [Memory.read, ih]

theorem Memory.read_write_other (m : Memory) (a b : Nat) (v : Byte) (hb : b ≠ a) :
    (m.write a v).read b = m.read b := by
  unfold Memory.write
  split
  · exact Memory.read_put_other m a b v hb
  · rfl

/-! ### The canonical form -/

theorem Memory.mem_put (m : Memory) (a : Nat) (v : Byte) (c : Host.Cell) (h : c ∈ m.put a v) :
    c ∈ m ∨ (c = (a, v) ∧ v ≠ 0#8) := by
  induction m with
  | nil =>
    by_cases hv : v = 0#8
    · simp [Memory.put, hv] at h
    · simp [Memory.put, hv] at h; exact .inr ⟨h, hv⟩
  | cons d rest ih =>
    obtain ⟨x, w⟩ := d
    simp only [Memory.put] at h
    split at h
    · split at h
      · exact .inl h
      · rename_i hv
        rcases List.mem_cons.1 h with h | h
        · exact .inr ⟨h, hv⟩
        · exact .inl h
    · split at h
      · split at h
        · exact .inl (List.mem_cons_of_mem _ h)
        · rename_i hv
          rcases List.mem_cons.1 h with h | h
          · exact .inr ⟨h, hv⟩
          · exact .inl (List.mem_cons_of_mem _ h)
      · rcases List.mem_cons.1 h with h | h
        · exact .inl (by simp [h])
        · rcases ih h with h | h
          · exact .inl (List.mem_cons_of_mem _ h)
          · exact .inr h

theorem Memory.pairwise_put (m : Memory) (hm : m.Pairwise (fun x y => x.1 < y.1)) (a : Nat) (v : Byte) :
    (m.put a v).Pairwise (fun x y => x.1 < y.1) := by
  induction m with
  | nil => by_cases hv : v = 0#8 <;> simp [Memory.put, hv]
  | cons d rest ih =>
    obtain ⟨x, w⟩ := d
    have hm' := hm
    rw [List.pairwise_cons] at hm'
    obtain ⟨hx, hr⟩ := hm'
    simp only [Memory.put]
    split
    · rename_i h1
      split
      · exact hm
      · rw [List.pairwise_cons]
        refine ⟨fun c hc => ?_, hm⟩
        rcases List.mem_cons.1 hc with rfl | hc
        · exact h1
        · have := hx c hc; simp at this ⊢; omega
    · split
      · rename_i h2
        split
        · exact hr
        · rw [List.pairwise_cons]
          exact ⟨fun c hc => by have := hx c hc; simp at this ⊢; omega, hr⟩
      · rw [List.pairwise_cons]
        refine ⟨fun c hc => ?_, ih hr⟩
        rcases Memory.mem_put rest a v c hc with hc | ⟨rfl, _⟩
        · exact hx c hc
        · simp; omega

theorem Memory.wf_nil : Memory.wf [] := by simp [Memory.wf]

theorem Memory.wf_write {m : Memory} (h : m.wf) (a : Nat) (v : Byte) : (m.write a v).wf := by
  unfold Memory.write
  split
  · rename_i ha
    refine ⟨Memory.pairwise_put m h.1 a v, fun c hc => ?_⟩
    rcases Memory.mem_put m a v c hc with hc | ⟨rfl, hv⟩
    · exact h.2 c hc
    · exact ⟨hv, ha⟩
  · exact h

theorem Memory.wf_writeBytes {m : Memory} (h : m.wf) (a : Nat) (bytes : List Byte) : (m.writeBytes a bytes).wf := by
  induction bytes generalizing m a with
  | nil => exact h
  | cons v rest ih => exact ih (Memory.wf_write h a v) (a + 1)

theorem Memory.wf_zeroRange {m : Memory} (h : m.wf) (lo hi : Nat) : (m.zeroRange lo hi).wf :=
  ⟨h.1.sublist List.filter_sublist, fun c hc => h.2 c (List.mem_filter.1 hc).1⟩

/-! ### Reads after writes -/

theorem Memory.read_write {m : Memory} (h : m.wf) (a b : Nat) (v : Byte) :
    (m.write a v).read b = if b = a ∧ a < cardMemorySize then v else m.read b := by
  unfold Memory.write
  split
  · rename_i ha; rw [Memory.read_put m h.1]; simp [ha]
  · rename_i ha; simp [ha]

/-- Cells written one after another: a byte reads as the last cell for its address, and else as before. -/
theorem Memory.read_writeCells {m : Memory} (h : m.wf) (cs : List Host.Cell) (a : Nat) (ha : a < cardMemorySize) :
    (cs.foldl (fun m c => m.write c.1 c.2) m).wf
    ∧ (cs.foldl (fun m c => m.write c.1 c.2) m).read a
      = ((cs.reverse.find? (fun c => c.1 = a)).map Prod.snd).getD (m.read a) := by
  induction cs generalizing m with
  | nil => exact ⟨h, rfl⟩
  | cons c rest ih =>
    have hw := Memory.wf_write h c.1 c.2
    refine ⟨(ih hw).1, ?_⟩
    rw [List.foldl_cons, (ih hw).2, List.reverse_cons, List.find?_append, Memory.read_write h]
    cases rest.reverse.find? (fun c => c.1 = a) with
    | some x => rfl
    | none =>
      by_cases hc : a = c.1
      · subst hc
        simp [ha]
      · simp [hc, Ne.symm hc]

/-- A byte of a read after a write of bytes: the written byte inside the range, the byte before outside it. -/
theorem Memory.read_writeBytes {m : Memory} (h : m.wf) (a : Nat) (bytes : List Byte) (b : Nat)
    (hend : a + bytes.length ≤ cardMemorySize) :
    (m.writeBytes a bytes).read b =
      if a ≤ b ∧ b < a + bytes.length then bytes.getD (b - a) 0#8 else m.read b := by
  induction bytes generalizing m a with
  | nil => simp [Memory.writeBytes]
  | cons v rest ih =>
    simp only [List.length_cons] at hend ⊢
    simp only [Memory.writeBytes]
    rw [ih (Memory.wf_write h a v) (a + 1) (by omega), Memory.read_write h]
    have ha : a < cardMemorySize := by omega
    by_cases hb : b = a
    · subst hb; simp [ha]
    · by_cases hin : a ≤ b ∧ b < a + (rest.length + 1)
      · have h1 : a + 1 ≤ b ∧ b < a + 1 + rest.length := by omega
        rw [if_pos h1, if_pos hin]
        obtain ⟨k, hk⟩ : ∃ k, b - a = k + 1 := ⟨b - a - 1, by omega⟩
        rw [hk, show b - (a + 1) = k by omega]; simp
      · rw [if_neg (by omega), if_neg hin, if_neg (by simp [hb])]

/-- A write of bytes leaves every byte outside its range alone. -/
theorem Memory.read_writeBytes_other (m : Memory) (a : Nat) (bytes : List Byte) (b : Nat)
    (hb : b < a ∨ a + bytes.length ≤ b) : (m.writeBytes a bytes).read b = m.read b := by
  induction bytes generalizing m a with
  | nil => rfl
  | cons v rest ih =>
    simp only [List.length_cons] at hb
    simp only [Memory.writeBytes]
    rw [ih (m.write a v) (a + 1) (by omega), Memory.read_write_other m a b v (by omega)]

theorem Memory.read_zeroRange {m : Memory} (lo hi a : Nat) :
    (m.zeroRange lo hi).read a = if lo ≤ a ∧ a < hi then 0#8 else m.read a := by
  induction m with
  | nil => simp [Memory.zeroRange, Memory.read]
  | cons c rest ih =>
    obtain ⟨x, v⟩ := c
    unfold Memory.zeroRange at ih ⊢
    by_cases hx : x < lo ∨ hi ≤ x
    · rw [List.filter_cons_of_pos (by simpa using hx)]
      simp only [Memory.read, ih]
      by_cases hxa : x = a
      · subst hxa; simp; omega
      · simp [hxa]
    · rw [List.filter_cons_of_neg (by simpa using hx), ih]
      by_cases hxa : x = a
      · subst hxa; rw [if_pos (by omega), if_pos (by omega)]
      · simp [Memory.read, hxa]

theorem Memory.length_readBytes (m : Memory) (a n : Nat) : (m.readBytes a n).length = n := by
  induction n generalizing a with
  | zero => rfl
  | succ n ih => simp [Memory.readBytes, ih]

theorem Memory.readBytes_congr {m m' : Memory} (a n : Nat) (h : ∀ b, a ≤ b → b < a + n → m'.read b = m.read b) :
    m'.readBytes a n = m.readBytes a n := by
  induction n generalizing a with
  | zero => rfl
  | succ n ih =>
    simp only [Memory.readBytes]
    rw [h a (Nat.le_refl a) (by omega), ih (a + 1) (fun b h1 h2 => h b (by omega) (by omega))]

/-- The bytes just written are the bytes read. -/
theorem Memory.readBytes_writeBytes {m : Memory} (h : m.wf) (a : Nat) (bytes : List Byte)
    (hend : a + bytes.length ≤ cardMemorySize) : (m.writeBytes a bytes).readBytes a bytes.length = bytes := by
  induction bytes generalizing m a with
  | nil => rfl
  | cons v rest ih =>
    simp only [List.length_cons] at hend
    simp only [Memory.writeBytes, List.length_cons, Memory.readBytes]
    have hw := Memory.wf_write h a v
    rw [ih hw (a + 1) (by omega), Memory.read_writeBytes_other _ _ _ _ (.inl (Nat.lt_succ_self a)),
      Memory.read_write h, if_pos ⟨rfl, by omega⟩]

theorem leBytes_length (n v : Nat) : (leBytes n v).length = n := by
  induction n generalizing v with
  | zero => rfl
  | succ n ih => simp [leBytes, ih]

/-- R206: a field of n bytes holds a number below 256^n. -/
theorem leNat_leBytes (n v : Nat) : leNat (leBytes n v) = v % 256 ^ n := by
  induction n generalizing v with
  | zero => simp [leBytes, leNat, Nat.mod_one]
  | succ n ih =>
    simp only [leBytes, leNat, ih, BitVec.toNat_ofNat]
    rw [show (2 : Nat) ^ 8 = 256 from rfl, Nat.pow_succ, Nat.mul_comm (256 ^ n) 256, Nat.mod_mul]

end Sys2Proof.Machine
end

