-- ==== Sys2Proof/Laws/State.lean ====
section
/-! SUPPORT. Tables and state updates: what an entry of a changed table reads, and, for each named update of State, one
lemma per field. -/

namespace Sys2Proof.Machine

/-! ### Changed tables -/

@[simp] theorem upd_self {α : Type} {n : Nat} (v : Vector α n) (i : Fin n) (f : α → α) :
    (upd v i f)[i.val] = f v[i.val] := by simp [upd]

theorem upd_get {α : Type} {n : Nat} (v : Vector α n) (i j : Fin n) (f : α → α) :
    (upd v i f)[j.val] = if i = j then f v[j.val] else v[j.val] := by
  by_cases h : i = j
  · subst h; simp [upd]
  · simp [upd, h, Fin.val_inj]

theorem upd_ne {α : Type} {n : Nat} (v : Vector α n) {i j : Fin n} (f : α → α) (h : i ≠ j) :
    (upd v i f)[j.val] = v[j.val] := by rw [upd_get, if_neg h]

theorem laneIx_inj {a b : Lane} (h : laneIx a = laneIx b) : a = b := by
  cases a <;> cases b <;> simp_all [laneIx]

/-! ### Named updates -/

@[simp] theorem State.modMon_time (b : Bay) (f : Monitor → Monitor) (s : State) : (s.modMon b f).time = s.time := rfl
@[simp] theorem State.modMon_link (b : Bay) (f : Monitor → Monitor) (s : State) : (s.modMon b f).link = s.link := rfl
@[simp] theorem State.modMon_ctl (b : Bay) (f : Monitor → Monitor) (s : State) : (s.modMon b f).ctl = s.ctl := rfl
@[simp] theorem State.modMon_notices (b : Bay) (f : Monitor → Monitor) (s : State) :
    (s.modMon b f).notices = s.notices := rfl
@[simp] theorem State.modMon_mon (b : Bay) (f : Monitor → Monitor) (s : State) :
    (s.modMon b f).mon = upd s.mon b f := rfl
@[simp] theorem State.modMon_code (b : Bay) (f : Monitor → Monitor) (s : State) : (s.modMon b f).code = s.code := rfl
@[simp] theorem State.modMon_rail (b : Bay) (f : Monitor → Monitor) (s : State) : (s.modMon b f).rail = s.rail := rfl
@[simp] theorem State.modMon_scanner (b : Bay) (f : Monitor → Monitor) (s : State) :
    (s.modMon b f).scanner = s.scanner := rfl
@[simp] theorem State.modMon_con (b : Bay) (f : Monitor → Monitor) (s : State) : (s.modMon b f).con = s.con := rfl
@[simp] theorem State.modMon_seq (b : Bay) (f : Monitor → Monitor) (s : State) : (s.modMon b f).seq = s.seq := rfl
@[simp] theorem State.modMon_drv (b : Bay) (f : Monitor → Monitor) (s : State) : (s.modMon b f).drv = s.drv := rfl
@[simp] theorem State.modMon_str (b : Bay) (f : Monitor → Monitor) (s : State) : (s.modMon b f).str = s.str := rfl
@[simp] theorem State.modMon_pool (b : Bay) (f : Monitor → Monitor) (s : State) : (s.modMon b f).pool = s.pool := rfl
@[simp] theorem State.modMon_slots (b : Bay) (f : Monitor → Monitor) (s : State) :
    (s.modMon b f).slots = s.slots := rfl
@[simp] theorem State.modMon_lanes (b : Bay) (f : Monitor → Monitor) (s : State) :
    (s.modMon b f).lanes = s.lanes := rfl
@[simp] theorem State.modMon_disp (b : Bay) (f : Monitor → Monitor) (s : State) : (s.modMon b f).disp = s.disp := rfl
@[simp] theorem State.modMon_eng (b : Bay) (f : Monitor → Monitor) (s : State) : (s.modMon b f).eng = s.eng := rfl
@[simp] theorem State.modMon_port (b : Bay) (f : Monitor → Monitor) (s : State) : (s.modMon b f).port = s.port := rfl
@[simp] theorem State.modMon_mem (b : Bay) (f : Monitor → Monitor) (s : State) : (s.modMon b f).mem = s.mem := rfl
@[simp] theorem State.modMon_draws (b : Bay) (f : Monitor → Monitor) (s : State) :
    (s.modMon b f).draws = s.draws := rfl
@[simp] theorem State.modMon_checkDraws (b : Bay) (f : Monitor → Monitor) (s : State) :
    (s.modMon b f).checkDraws = s.checkDraws := rfl
@[simp] theorem State.modMon_pending (b : Bay) (f : Monitor → Monitor) (s : State) :
    (s.modMon b f).pending = s.pending := rfl

@[simp] theorem State.modInLine_time (b : Bay) (l : InLine) (f : MonLine → MonLine) (s : State) :
    (s.modInLine b l f).time = s.time := rfl
@[simp] theorem State.modInLine_link (b : Bay) (l : InLine) (f : MonLine → MonLine) (s : State) :
    (s.modInLine b l f).link = s.link := rfl
@[simp] theorem State.modInLine_ctl (b : Bay) (l : InLine) (f : MonLine → MonLine) (s : State) :
    (s.modInLine b l f).ctl = s.ctl := rfl
@[simp] theorem State.modInLine_notices (b : Bay) (l : InLine) (f : MonLine → MonLine) (s : State) :
    (s.modInLine b l f).notices = s.notices := rfl
@[simp] theorem State.modInLine_mon (b : Bay) (l : InLine) (f : MonLine → MonLine) (s : State) :
    (s.modInLine b l f).mon = upd s.mon b (fun m => { m with lines := upd m.lines l f }) := rfl
@[simp] theorem State.modInLine_code (b : Bay) (l : InLine) (f : MonLine → MonLine) (s : State) :
    (s.modInLine b l f).code = s.code := rfl
@[simp] theorem State.modInLine_rail (b : Bay) (l : InLine) (f : MonLine → MonLine) (s : State) :
    (s.modInLine b l f).rail = s.rail := rfl
@[simp] theorem State.modInLine_scanner (b : Bay) (l : InLine) (f : MonLine → MonLine) (s : State) :
    (s.modInLine b l f).scanner = s.scanner := rfl
@[simp] theorem State.modInLine_con (b : Bay) (l : InLine) (f : MonLine → MonLine) (s : State) :
    (s.modInLine b l f).con = s.con := rfl
@[simp] theorem State.modInLine_seq (b : Bay) (l : InLine) (f : MonLine → MonLine) (s : State) :
    (s.modInLine b l f).seq = s.seq := rfl
@[simp] theorem State.modInLine_drv (b : Bay) (l : InLine) (f : MonLine → MonLine) (s : State) :
    (s.modInLine b l f).drv = s.drv := rfl
@[simp] theorem State.modInLine_str (b : Bay) (l : InLine) (f : MonLine → MonLine) (s : State) :
    (s.modInLine b l f).str = s.str := rfl
@[simp] theorem State.modInLine_pool (b : Bay) (l : InLine) (f : MonLine → MonLine) (s : State) :
    (s.modInLine b l f).pool = s.pool := rfl
@[simp] theorem State.modInLine_slots (b : Bay) (l : InLine) (f : MonLine → MonLine) (s : State) :
    (s.modInLine b l f).slots = s.slots := rfl
@[simp] theorem State.modInLine_lanes (b : Bay) (l : InLine) (f : MonLine → MonLine) (s : State) :
    (s.modInLine b l f).lanes = s.lanes := rfl
@[simp] theorem State.modInLine_disp (b : Bay) (l : InLine) (f : MonLine → MonLine) (s : State) :
    (s.modInLine b l f).disp = s.disp := rfl
@[simp] theorem State.modInLine_eng (b : Bay) (l : InLine) (f : MonLine → MonLine) (s : State) :
    (s.modInLine b l f).eng = s.eng := rfl
@[simp] theorem State.modInLine_port (b : Bay) (l : InLine) (f : MonLine → MonLine) (s : State) :
    (s.modInLine b l f).port = s.port := rfl
@[simp] theorem State.modInLine_mem (b : Bay) (l : InLine) (f : MonLine → MonLine) (s : State) :
    (s.modInLine b l f).mem = s.mem := rfl
@[simp] theorem State.modInLine_draws (b : Bay) (l : InLine) (f : MonLine → MonLine) (s : State) :
    (s.modInLine b l f).draws = s.draws := rfl
@[simp] theorem State.modInLine_checkDraws (b : Bay) (l : InLine) (f : MonLine → MonLine) (s : State) :
    (s.modInLine b l f).checkDraws = s.checkDraws := rfl
@[simp] theorem State.modInLine_pending (b : Bay) (l : InLine) (f : MonLine → MonLine) (s : State) :
    (s.modInLine b l f).pending = s.pending := rfl

@[simp] theorem State.modCode_time (b : Bay) (f : CodeRx → CodeRx) (s : State) : (s.modCode b f).time = s.time := rfl
@[simp] theorem State.modCode_link (b : Bay) (f : CodeRx → CodeRx) (s : State) : (s.modCode b f).link = s.link := rfl
@[simp] theorem State.modCode_ctl (b : Bay) (f : CodeRx → CodeRx) (s : State) : (s.modCode b f).ctl = s.ctl := rfl
@[simp] theorem State.modCode_notices (b : Bay) (f : CodeRx → CodeRx) (s : State) :
    (s.modCode b f).notices = s.notices := rfl
@[simp] theorem State.modCode_mon (b : Bay) (f : CodeRx → CodeRx) (s : State) : (s.modCode b f).mon = s.mon := rfl
@[simp] theorem State.modCode_code (b : Bay) (f : CodeRx → CodeRx) (s : State) :
    (s.modCode b f).code = upd s.code b f := rfl
@[simp] theorem State.modCode_rail (b : Bay) (f : CodeRx → CodeRx) (s : State) : (s.modCode b f).rail = s.rail := rfl
@[simp] theorem State.modCode_scanner (b : Bay) (f : CodeRx → CodeRx) (s : State) :
    (s.modCode b f).scanner = s.scanner := rfl
@[simp] theorem State.modCode_con (b : Bay) (f : CodeRx → CodeRx) (s : State) : (s.modCode b f).con = s.con := rfl
@[simp] theorem State.modCode_seq (b : Bay) (f : CodeRx → CodeRx) (s : State) : (s.modCode b f).seq = s.seq := rfl
@[simp] theorem State.modCode_drv (b : Bay) (f : CodeRx → CodeRx) (s : State) : (s.modCode b f).drv = s.drv := rfl
@[simp] theorem State.modCode_str (b : Bay) (f : CodeRx → CodeRx) (s : State) : (s.modCode b f).str = s.str := rfl
@[simp] theorem State.modCode_pool (b : Bay) (f : CodeRx → CodeRx) (s : State) : (s.modCode b f).pool = s.pool := rfl
@[simp] theorem State.modCode_slots (b : Bay) (f : CodeRx → CodeRx) (s : State) :
    (s.modCode b f).slots = s.slots := rfl
@[simp] theorem State.modCode_lanes (b : Bay) (f : CodeRx → CodeRx) (s : State) :
    (s.modCode b f).lanes = s.lanes := rfl
@[simp] theorem State.modCode_disp (b : Bay) (f : CodeRx → CodeRx) (s : State) : (s.modCode b f).disp = s.disp := rfl
@[simp] theorem State.modCode_eng (b : Bay) (f : CodeRx → CodeRx) (s : State) : (s.modCode b f).eng = s.eng := rfl
@[simp] theorem State.modCode_port (b : Bay) (f : CodeRx → CodeRx) (s : State) : (s.modCode b f).port = s.port := rfl
@[simp] theorem State.modCode_mem (b : Bay) (f : CodeRx → CodeRx) (s : State) : (s.modCode b f).mem = s.mem := rfl
@[simp] theorem State.modCode_draws (b : Bay) (f : CodeRx → CodeRx) (s : State) :
    (s.modCode b f).draws = s.draws := rfl
@[simp] theorem State.modCode_checkDraws (b : Bay) (f : CodeRx → CodeRx) (s : State) :
    (s.modCode b f).checkDraws = s.checkDraws := rfl
@[simp] theorem State.modCode_pending (b : Bay) (f : CodeRx → CodeRx) (s : State) :
    (s.modCode b f).pending = s.pending := rfl

@[simp] theorem State.modRail_time (b : Bay) (r : RailId) (f : Rail → Rail) (s : State) :
    (s.modRail b r f).time = s.time := rfl
@[simp] theorem State.modRail_link (b : Bay) (r : RailId) (f : Rail → Rail) (s : State) :
    (s.modRail b r f).link = s.link := rfl
@[simp] theorem State.modRail_ctl (b : Bay) (r : RailId) (f : Rail → Rail) (s : State) :
    (s.modRail b r f).ctl = s.ctl := rfl
@[simp] theorem State.modRail_notices (b : Bay) (r : RailId) (f : Rail → Rail) (s : State) :
    (s.modRail b r f).notices = s.notices := rfl
@[simp] theorem State.modRail_mon (b : Bay) (r : RailId) (f : Rail → Rail) (s : State) :
    (s.modRail b r f).mon = s.mon := rfl
@[simp] theorem State.modRail_code (b : Bay) (r : RailId) (f : Rail → Rail) (s : State) :
    (s.modRail b r f).code = s.code := rfl
@[simp] theorem State.modRail_rail (b : Bay) (r : RailId) (f : Rail → Rail) (s : State) :
    (s.modRail b r f).rail = upd s.rail b (fun v => upd v r f) := rfl
@[simp] theorem State.modRail_scanner (b : Bay) (r : RailId) (f : Rail → Rail) (s : State) :
    (s.modRail b r f).scanner = s.scanner := rfl
@[simp] theorem State.modRail_con (b : Bay) (r : RailId) (f : Rail → Rail) (s : State) :
    (s.modRail b r f).con = s.con := rfl
@[simp] theorem State.modRail_seq (b : Bay) (r : RailId) (f : Rail → Rail) (s : State) :
    (s.modRail b r f).seq = s.seq := rfl
@[simp] theorem State.modRail_drv (b : Bay) (r : RailId) (f : Rail → Rail) (s : State) :
    (s.modRail b r f).drv = s.drv := rfl
@[simp] theorem State.modRail_str (b : Bay) (r : RailId) (f : Rail → Rail) (s : State) :
    (s.modRail b r f).str = s.str := rfl
@[simp] theorem State.modRail_pool (b : Bay) (r : RailId) (f : Rail → Rail) (s : State) :
    (s.modRail b r f).pool = s.pool := rfl
@[simp] theorem State.modRail_slots (b : Bay) (r : RailId) (f : Rail → Rail) (s : State) :
    (s.modRail b r f).slots = s.slots := rfl
@[simp] theorem State.modRail_lanes (b : Bay) (r : RailId) (f : Rail → Rail) (s : State) :
    (s.modRail b r f).lanes = s.lanes := rfl
@[simp] theorem State.modRail_disp (b : Bay) (r : RailId) (f : Rail → Rail) (s : State) :
    (s.modRail b r f).disp = s.disp := rfl
@[simp] theorem State.modRail_eng (b : Bay) (r : RailId) (f : Rail → Rail) (s : State) :
    (s.modRail b r f).eng = s.eng := rfl
@[simp] theorem State.modRail_port (b : Bay) (r : RailId) (f : Rail → Rail) (s : State) :
    (s.modRail b r f).port = s.port := rfl
@[simp] theorem State.modRail_mem (b : Bay) (r : RailId) (f : Rail → Rail) (s : State) :
    (s.modRail b r f).mem = s.mem := rfl
@[simp] theorem State.modRail_draws (b : Bay) (r : RailId) (f : Rail → Rail) (s : State) :
    (s.modRail b r f).draws = s.draws := rfl
@[simp] theorem State.modRail_checkDraws (b : Bay) (r : RailId) (f : Rail → Rail) (s : State) :
    (s.modRail b r f).checkDraws = s.checkDraws := rfl
@[simp] theorem State.modRail_pending (b : Bay) (r : RailId) (f : Rail → Rail) (s : State) :
    (s.modRail b r f).pending = s.pending := rfl

@[simp] theorem State.modCon_time (b : Bay) (f : Console → Console) (s : State) : (s.modCon b f).time = s.time := rfl
@[simp] theorem State.modCon_link (b : Bay) (f : Console → Console) (s : State) : (s.modCon b f).link = s.link := rfl
@[simp] theorem State.modCon_ctl (b : Bay) (f : Console → Console) (s : State) : (s.modCon b f).ctl = s.ctl := rfl
@[simp] theorem State.modCon_notices (b : Bay) (f : Console → Console) (s : State) :
    (s.modCon b f).notices = s.notices := rfl
@[simp] theorem State.modCon_mon (b : Bay) (f : Console → Console) (s : State) : (s.modCon b f).mon = s.mon := rfl
@[simp] theorem State.modCon_code (b : Bay) (f : Console → Console) (s : State) : (s.modCon b f).code = s.code := rfl
@[simp] theorem State.modCon_rail (b : Bay) (f : Console → Console) (s : State) : (s.modCon b f).rail = s.rail := rfl
@[simp] theorem State.modCon_scanner (b : Bay) (f : Console → Console) (s : State) :
    (s.modCon b f).scanner = s.scanner := rfl
@[simp] theorem State.modCon_con (b : Bay) (f : Console → Console) (s : State) :
    (s.modCon b f).con = upd s.con b f := rfl
@[simp] theorem State.modCon_seq (b : Bay) (f : Console → Console) (s : State) : (s.modCon b f).seq = s.seq := rfl
@[simp] theorem State.modCon_drv (b : Bay) (f : Console → Console) (s : State) : (s.modCon b f).drv = s.drv := rfl
@[simp] theorem State.modCon_str (b : Bay) (f : Console → Console) (s : State) : (s.modCon b f).str = s.str := rfl
@[simp] theorem State.modCon_pool (b : Bay) (f : Console → Console) (s : State) : (s.modCon b f).pool = s.pool := rfl
@[simp] theorem State.modCon_slots (b : Bay) (f : Console → Console) (s : State) :
    (s.modCon b f).slots = s.slots := rfl
@[simp] theorem State.modCon_lanes (b : Bay) (f : Console → Console) (s : State) :
    (s.modCon b f).lanes = s.lanes := rfl
@[simp] theorem State.modCon_disp (b : Bay) (f : Console → Console) (s : State) : (s.modCon b f).disp = s.disp := rfl
@[simp] theorem State.modCon_eng (b : Bay) (f : Console → Console) (s : State) : (s.modCon b f).eng = s.eng := rfl
@[simp] theorem State.modCon_port (b : Bay) (f : Console → Console) (s : State) : (s.modCon b f).port = s.port := rfl
@[simp] theorem State.modCon_mem (b : Bay) (f : Console → Console) (s : State) : (s.modCon b f).mem = s.mem := rfl
@[simp] theorem State.modCon_draws (b : Bay) (f : Console → Console) (s : State) :
    (s.modCon b f).draws = s.draws := rfl
@[simp] theorem State.modCon_checkDraws (b : Bay) (f : Console → Console) (s : State) :
    (s.modCon b f).checkDraws = s.checkDraws := rfl
@[simp] theorem State.modCon_pending (b : Bay) (f : Console → Console) (s : State) :
    (s.modCon b f).pending = s.pending := rfl

@[simp] theorem State.modSeq_time (b : Bay) (f : Sequencer → Sequencer) (s : State) :
    (s.modSeq b f).time = s.time := rfl
@[simp] theorem State.modSeq_link (b : Bay) (f : Sequencer → Sequencer) (s : State) :
    (s.modSeq b f).link = s.link := rfl
@[simp] theorem State.modSeq_ctl (b : Bay) (f : Sequencer → Sequencer) (s : State) : (s.modSeq b f).ctl = s.ctl := rfl
@[simp] theorem State.modSeq_notices (b : Bay) (f : Sequencer → Sequencer) (s : State) :
    (s.modSeq b f).notices = s.notices := rfl
@[simp] theorem State.modSeq_mon (b : Bay) (f : Sequencer → Sequencer) (s : State) : (s.modSeq b f).mon = s.mon := rfl
@[simp] theorem State.modSeq_code (b : Bay) (f : Sequencer → Sequencer) (s : State) :
    (s.modSeq b f).code = s.code := rfl
@[simp] theorem State.modSeq_rail (b : Bay) (f : Sequencer → Sequencer) (s : State) :
    (s.modSeq b f).rail = s.rail := rfl
@[simp] theorem State.modSeq_scanner (b : Bay) (f : Sequencer → Sequencer) (s : State) :
    (s.modSeq b f).scanner = s.scanner := rfl
@[simp] theorem State.modSeq_con (b : Bay) (f : Sequencer → Sequencer) (s : State) : (s.modSeq b f).con = s.con := rfl
@[simp] theorem State.modSeq_seq (b : Bay) (f : Sequencer → Sequencer) (s : State) :
    (s.modSeq b f).seq = upd s.seq b f := rfl
@[simp] theorem State.modSeq_drv (b : Bay) (f : Sequencer → Sequencer) (s : State) : (s.modSeq b f).drv = s.drv := rfl
@[simp] theorem State.modSeq_str (b : Bay) (f : Sequencer → Sequencer) (s : State) : (s.modSeq b f).str = s.str := rfl
@[simp] theorem State.modSeq_pool (b : Bay) (f : Sequencer → Sequencer) (s : State) :
    (s.modSeq b f).pool = s.pool := rfl
@[simp] theorem State.modSeq_slots (b : Bay) (f : Sequencer → Sequencer) (s : State) :
    (s.modSeq b f).slots = s.slots := rfl
@[simp] theorem State.modSeq_lanes (b : Bay) (f : Sequencer → Sequencer) (s : State) :
    (s.modSeq b f).lanes = s.lanes := rfl
@[simp] theorem State.modSeq_disp (b : Bay) (f : Sequencer → Sequencer) (s : State) :
    (s.modSeq b f).disp = s.disp := rfl
@[simp] theorem State.modSeq_eng (b : Bay) (f : Sequencer → Sequencer) (s : State) : (s.modSeq b f).eng = s.eng := rfl
@[simp] theorem State.modSeq_port (b : Bay) (f : Sequencer → Sequencer) (s : State) :
    (s.modSeq b f).port = s.port := rfl
@[simp] theorem State.modSeq_mem (b : Bay) (f : Sequencer → Sequencer) (s : State) : (s.modSeq b f).mem = s.mem := rfl
@[simp] theorem State.modSeq_draws (b : Bay) (f : Sequencer → Sequencer) (s : State) :
    (s.modSeq b f).draws = s.draws := rfl
@[simp] theorem State.modSeq_checkDraws (b : Bay) (f : Sequencer → Sequencer) (s : State) :
    (s.modSeq b f).checkDraws = s.checkDraws := rfl
@[simp] theorem State.modSeq_pending (b : Bay) (f : Sequencer → Sequencer) (s : State) :
    (s.modSeq b f).pending = s.pending := rfl

@[simp] theorem State.modDrv_time (b : Bay) (f : Driver → Driver) (s : State) : (s.modDrv b f).time = s.time := rfl
@[simp] theorem State.modDrv_link (b : Bay) (f : Driver → Driver) (s : State) : (s.modDrv b f).link = s.link := rfl
@[simp] theorem State.modDrv_ctl (b : Bay) (f : Driver → Driver) (s : State) : (s.modDrv b f).ctl = s.ctl := rfl
@[simp] theorem State.modDrv_notices (b : Bay) (f : Driver → Driver) (s : State) :
    (s.modDrv b f).notices = s.notices := rfl
@[simp] theorem State.modDrv_mon (b : Bay) (f : Driver → Driver) (s : State) : (s.modDrv b f).mon = s.mon := rfl
@[simp] theorem State.modDrv_code (b : Bay) (f : Driver → Driver) (s : State) : (s.modDrv b f).code = s.code := rfl
@[simp] theorem State.modDrv_rail (b : Bay) (f : Driver → Driver) (s : State) : (s.modDrv b f).rail = s.rail := rfl
@[simp] theorem State.modDrv_scanner (b : Bay) (f : Driver → Driver) (s : State) :
    (s.modDrv b f).scanner = s.scanner := rfl
@[simp] theorem State.modDrv_con (b : Bay) (f : Driver → Driver) (s : State) : (s.modDrv b f).con = s.con := rfl
@[simp] theorem State.modDrv_seq (b : Bay) (f : Driver → Driver) (s : State) : (s.modDrv b f).seq = s.seq := rfl
@[simp] theorem State.modDrv_drv (b : Bay) (f : Driver → Driver) (s : State) :
    (s.modDrv b f).drv = upd s.drv b f := rfl
@[simp] theorem State.modDrv_str (b : Bay) (f : Driver → Driver) (s : State) : (s.modDrv b f).str = s.str := rfl
@[simp] theorem State.modDrv_pool (b : Bay) (f : Driver → Driver) (s : State) : (s.modDrv b f).pool = s.pool := rfl
@[simp] theorem State.modDrv_slots (b : Bay) (f : Driver → Driver) (s : State) : (s.modDrv b f).slots = s.slots := rfl
@[simp] theorem State.modDrv_lanes (b : Bay) (f : Driver → Driver) (s : State) : (s.modDrv b f).lanes = s.lanes := rfl
@[simp] theorem State.modDrv_disp (b : Bay) (f : Driver → Driver) (s : State) : (s.modDrv b f).disp = s.disp := rfl
@[simp] theorem State.modDrv_eng (b : Bay) (f : Driver → Driver) (s : State) : (s.modDrv b f).eng = s.eng := rfl
@[simp] theorem State.modDrv_port (b : Bay) (f : Driver → Driver) (s : State) : (s.modDrv b f).port = s.port := rfl
@[simp] theorem State.modDrv_mem (b : Bay) (f : Driver → Driver) (s : State) : (s.modDrv b f).mem = s.mem := rfl
@[simp] theorem State.modDrv_draws (b : Bay) (f : Driver → Driver) (s : State) : (s.modDrv b f).draws = s.draws := rfl
@[simp] theorem State.modDrv_checkDraws (b : Bay) (f : Driver → Driver) (s : State) :
    (s.modDrv b f).checkDraws = s.checkDraws := rfl
@[simp] theorem State.modDrv_pending (b : Bay) (f : Driver → Driver) (s : State) :
    (s.modDrv b f).pending = s.pending := rfl

@[simp] theorem State.modOutLine_time (b : Bay) (d : OutLine) (f : DrvLine → DrvLine) (s : State) :
    (s.modOutLine b d f).time = s.time := rfl
@[simp] theorem State.modOutLine_link (b : Bay) (d : OutLine) (f : DrvLine → DrvLine) (s : State) :
    (s.modOutLine b d f).link = s.link := rfl
@[simp] theorem State.modOutLine_ctl (b : Bay) (d : OutLine) (f : DrvLine → DrvLine) (s : State) :
    (s.modOutLine b d f).ctl = s.ctl := rfl
@[simp] theorem State.modOutLine_notices (b : Bay) (d : OutLine) (f : DrvLine → DrvLine) (s : State) :
    (s.modOutLine b d f).notices = s.notices := rfl
@[simp] theorem State.modOutLine_mon (b : Bay) (d : OutLine) (f : DrvLine → DrvLine) (s : State) :
    (s.modOutLine b d f).mon = s.mon := rfl
@[simp] theorem State.modOutLine_code (b : Bay) (d : OutLine) (f : DrvLine → DrvLine) (s : State) :
    (s.modOutLine b d f).code = s.code := rfl
@[simp] theorem State.modOutLine_rail (b : Bay) (d : OutLine) (f : DrvLine → DrvLine) (s : State) :
    (s.modOutLine b d f).rail = s.rail := rfl
@[simp] theorem State.modOutLine_scanner (b : Bay) (d : OutLine) (f : DrvLine → DrvLine) (s : State) :
    (s.modOutLine b d f).scanner = s.scanner := rfl
@[simp] theorem State.modOutLine_con (b : Bay) (d : OutLine) (f : DrvLine → DrvLine) (s : State) :
    (s.modOutLine b d f).con = s.con := rfl
@[simp] theorem State.modOutLine_seq (b : Bay) (d : OutLine) (f : DrvLine → DrvLine) (s : State) :
    (s.modOutLine b d f).seq = s.seq := rfl
@[simp] theorem State.modOutLine_drv (b : Bay) (d : OutLine) (f : DrvLine → DrvLine) (s : State) :
    (s.modOutLine b d f).drv = upd s.drv b (fun v => { v with lines := upd v.lines d f }) := rfl
@[simp] theorem State.modOutLine_str (b : Bay) (d : OutLine) (f : DrvLine → DrvLine) (s : State) :
    (s.modOutLine b d f).str = s.str := rfl
@[simp] theorem State.modOutLine_pool (b : Bay) (d : OutLine) (f : DrvLine → DrvLine) (s : State) :
    (s.modOutLine b d f).pool = s.pool := rfl
@[simp] theorem State.modOutLine_slots (b : Bay) (d : OutLine) (f : DrvLine → DrvLine) (s : State) :
    (s.modOutLine b d f).slots = s.slots := rfl
@[simp] theorem State.modOutLine_lanes (b : Bay) (d : OutLine) (f : DrvLine → DrvLine) (s : State) :
    (s.modOutLine b d f).lanes = s.lanes := rfl
@[simp] theorem State.modOutLine_disp (b : Bay) (d : OutLine) (f : DrvLine → DrvLine) (s : State) :
    (s.modOutLine b d f).disp = s.disp := rfl
@[simp] theorem State.modOutLine_eng (b : Bay) (d : OutLine) (f : DrvLine → DrvLine) (s : State) :
    (s.modOutLine b d f).eng = s.eng := rfl
@[simp] theorem State.modOutLine_port (b : Bay) (d : OutLine) (f : DrvLine → DrvLine) (s : State) :
    (s.modOutLine b d f).port = s.port := rfl
@[simp] theorem State.modOutLine_mem (b : Bay) (d : OutLine) (f : DrvLine → DrvLine) (s : State) :
    (s.modOutLine b d f).mem = s.mem := rfl
@[simp] theorem State.modOutLine_draws (b : Bay) (d : OutLine) (f : DrvLine → DrvLine) (s : State) :
    (s.modOutLine b d f).draws = s.draws := rfl
@[simp] theorem State.modOutLine_checkDraws (b : Bay) (d : OutLine) (f : DrvLine → DrvLine) (s : State) :
    (s.modOutLine b d f).checkDraws = s.checkDraws := rfl
@[simp] theorem State.modOutLine_pending (b : Bay) (d : OutLine) (f : DrvLine → DrvLine) (s : State) :
    (s.modOutLine b d f).pending = s.pending := rfl

@[simp] theorem State.modStr_time (b : Bay) (f : Stream → Stream) (s : State) : (s.modStr b f).time = s.time := rfl
@[simp] theorem State.modStr_link (b : Bay) (f : Stream → Stream) (s : State) : (s.modStr b f).link = s.link := rfl
@[simp] theorem State.modStr_ctl (b : Bay) (f : Stream → Stream) (s : State) : (s.modStr b f).ctl = s.ctl := rfl
@[simp] theorem State.modStr_notices (b : Bay) (f : Stream → Stream) (s : State) :
    (s.modStr b f).notices = s.notices := rfl
@[simp] theorem State.modStr_mon (b : Bay) (f : Stream → Stream) (s : State) : (s.modStr b f).mon = s.mon := rfl
@[simp] theorem State.modStr_code (b : Bay) (f : Stream → Stream) (s : State) : (s.modStr b f).code = s.code := rfl
@[simp] theorem State.modStr_rail (b : Bay) (f : Stream → Stream) (s : State) : (s.modStr b f).rail = s.rail := rfl
@[simp] theorem State.modStr_scanner (b : Bay) (f : Stream → Stream) (s : State) :
    (s.modStr b f).scanner = s.scanner := rfl
@[simp] theorem State.modStr_con (b : Bay) (f : Stream → Stream) (s : State) : (s.modStr b f).con = s.con := rfl
@[simp] theorem State.modStr_seq (b : Bay) (f : Stream → Stream) (s : State) : (s.modStr b f).seq = s.seq := rfl
@[simp] theorem State.modStr_drv (b : Bay) (f : Stream → Stream) (s : State) : (s.modStr b f).drv = s.drv := rfl
@[simp] theorem State.modStr_str (b : Bay) (f : Stream → Stream) (s : State) :
    (s.modStr b f).str = upd s.str b f := rfl
@[simp] theorem State.modStr_pool (b : Bay) (f : Stream → Stream) (s : State) : (s.modStr b f).pool = s.pool := rfl
@[simp] theorem State.modStr_slots (b : Bay) (f : Stream → Stream) (s : State) : (s.modStr b f).slots = s.slots := rfl
@[simp] theorem State.modStr_lanes (b : Bay) (f : Stream → Stream) (s : State) : (s.modStr b f).lanes = s.lanes := rfl
@[simp] theorem State.modStr_disp (b : Bay) (f : Stream → Stream) (s : State) : (s.modStr b f).disp = s.disp := rfl
@[simp] theorem State.modStr_eng (b : Bay) (f : Stream → Stream) (s : State) : (s.modStr b f).eng = s.eng := rfl
@[simp] theorem State.modStr_port (b : Bay) (f : Stream → Stream) (s : State) : (s.modStr b f).port = s.port := rfl
@[simp] theorem State.modStr_mem (b : Bay) (f : Stream → Stream) (s : State) : (s.modStr b f).mem = s.mem := rfl
@[simp] theorem State.modStr_draws (b : Bay) (f : Stream → Stream) (s : State) : (s.modStr b f).draws = s.draws := rfl
@[simp] theorem State.modStr_checkDraws (b : Bay) (f : Stream → Stream) (s : State) :
    (s.modStr b f).checkDraws = s.checkDraws := rfl
@[simp] theorem State.modStr_pending (b : Bay) (f : Stream → Stream) (s : State) :
    (s.modStr b f).pending = s.pending := rfl

@[simp] theorem State.modSlot_time (i : Slot) (f : SlotRec → SlotRec) (s : State) :
    (s.modSlot i f).time = s.time := rfl
@[simp] theorem State.modSlot_link (i : Slot) (f : SlotRec → SlotRec) (s : State) :
    (s.modSlot i f).link = s.link := rfl
@[simp] theorem State.modSlot_ctl (i : Slot) (f : SlotRec → SlotRec) (s : State) : (s.modSlot i f).ctl = s.ctl := rfl
@[simp] theorem State.modSlot_notices (i : Slot) (f : SlotRec → SlotRec) (s : State) :
    (s.modSlot i f).notices = s.notices := rfl
@[simp] theorem State.modSlot_mon (i : Slot) (f : SlotRec → SlotRec) (s : State) : (s.modSlot i f).mon = s.mon := rfl
@[simp] theorem State.modSlot_code (i : Slot) (f : SlotRec → SlotRec) (s : State) :
    (s.modSlot i f).code = s.code := rfl
@[simp] theorem State.modSlot_rail (i : Slot) (f : SlotRec → SlotRec) (s : State) :
    (s.modSlot i f).rail = s.rail := rfl
@[simp] theorem State.modSlot_scanner (i : Slot) (f : SlotRec → SlotRec) (s : State) :
    (s.modSlot i f).scanner = s.scanner := rfl
@[simp] theorem State.modSlot_con (i : Slot) (f : SlotRec → SlotRec) (s : State) : (s.modSlot i f).con = s.con := rfl
@[simp] theorem State.modSlot_seq (i : Slot) (f : SlotRec → SlotRec) (s : State) : (s.modSlot i f).seq = s.seq := rfl
@[simp] theorem State.modSlot_drv (i : Slot) (f : SlotRec → SlotRec) (s : State) : (s.modSlot i f).drv = s.drv := rfl
@[simp] theorem State.modSlot_str (i : Slot) (f : SlotRec → SlotRec) (s : State) : (s.modSlot i f).str = s.str := rfl
@[simp] theorem State.modSlot_pool (i : Slot) (f : SlotRec → SlotRec) (s : State) :
    (s.modSlot i f).pool = s.pool := rfl
@[simp] theorem State.modSlot_slots (i : Slot) (f : SlotRec → SlotRec) (s : State) :
    (s.modSlot i f).slots = upd s.slots i f := rfl
@[simp] theorem State.modSlot_lanes (i : Slot) (f : SlotRec → SlotRec) (s : State) :
    (s.modSlot i f).lanes = s.lanes := rfl
@[simp] theorem State.modSlot_disp (i : Slot) (f : SlotRec → SlotRec) (s : State) :
    (s.modSlot i f).disp = s.disp := rfl
@[simp] theorem State.modSlot_eng (i : Slot) (f : SlotRec → SlotRec) (s : State) : (s.modSlot i f).eng = s.eng := rfl
@[simp] theorem State.modSlot_port (i : Slot) (f : SlotRec → SlotRec) (s : State) :
    (s.modSlot i f).port = s.port := rfl
@[simp] theorem State.modSlot_mem (i : Slot) (f : SlotRec → SlotRec) (s : State) : (s.modSlot i f).mem = s.mem := rfl
@[simp] theorem State.modSlot_draws (i : Slot) (f : SlotRec → SlotRec) (s : State) :
    (s.modSlot i f).draws = s.draws := rfl
@[simp] theorem State.modSlot_checkDraws (i : Slot) (f : SlotRec → SlotRec) (s : State) :
    (s.modSlot i f).checkDraws = s.checkDraws := rfl
@[simp] theorem State.modSlot_pending (i : Slot) (f : SlotRec → SlotRec) (s : State) :
    (s.modSlot i f).pending = s.pending := rfl

@[simp] theorem State.modLane_time (b : Bay) (l : Lane) (f : LaneQ → LaneQ) (s : State) :
    (s.modLane b l f).time = s.time := rfl
@[simp] theorem State.modLane_link (b : Bay) (l : Lane) (f : LaneQ → LaneQ) (s : State) :
    (s.modLane b l f).link = s.link := rfl
@[simp] theorem State.modLane_ctl (b : Bay) (l : Lane) (f : LaneQ → LaneQ) (s : State) :
    (s.modLane b l f).ctl = s.ctl := rfl
@[simp] theorem State.modLane_notices (b : Bay) (l : Lane) (f : LaneQ → LaneQ) (s : State) :
    (s.modLane b l f).notices = s.notices := rfl
@[simp] theorem State.modLane_mon (b : Bay) (l : Lane) (f : LaneQ → LaneQ) (s : State) :
    (s.modLane b l f).mon = s.mon := rfl
@[simp] theorem State.modLane_code (b : Bay) (l : Lane) (f : LaneQ → LaneQ) (s : State) :
    (s.modLane b l f).code = s.code := rfl
@[simp] theorem State.modLane_rail (b : Bay) (l : Lane) (f : LaneQ → LaneQ) (s : State) :
    (s.modLane b l f).rail = s.rail := rfl
@[simp] theorem State.modLane_scanner (b : Bay) (l : Lane) (f : LaneQ → LaneQ) (s : State) :
    (s.modLane b l f).scanner = s.scanner := rfl
@[simp] theorem State.modLane_con (b : Bay) (l : Lane) (f : LaneQ → LaneQ) (s : State) :
    (s.modLane b l f).con = s.con := rfl
@[simp] theorem State.modLane_seq (b : Bay) (l : Lane) (f : LaneQ → LaneQ) (s : State) :
    (s.modLane b l f).seq = s.seq := rfl
@[simp] theorem State.modLane_drv (b : Bay) (l : Lane) (f : LaneQ → LaneQ) (s : State) :
    (s.modLane b l f).drv = s.drv := rfl
@[simp] theorem State.modLane_str (b : Bay) (l : Lane) (f : LaneQ → LaneQ) (s : State) :
    (s.modLane b l f).str = s.str := rfl
@[simp] theorem State.modLane_pool (b : Bay) (l : Lane) (f : LaneQ → LaneQ) (s : State) :
    (s.modLane b l f).pool = s.pool := rfl
@[simp] theorem State.modLane_slots (b : Bay) (l : Lane) (f : LaneQ → LaneQ) (s : State) :
    (s.modLane b l f).slots = s.slots := rfl
@[simp] theorem State.modLane_lanes (b : Bay) (l : Lane) (f : LaneQ → LaneQ) (s : State) :
    (s.modLane b l f).lanes = upd s.lanes b (fun v => upd v (laneIx l) f) := rfl
@[simp] theorem State.modLane_disp (b : Bay) (l : Lane) (f : LaneQ → LaneQ) (s : State) :
    (s.modLane b l f).disp = s.disp := rfl
@[simp] theorem State.modLane_eng (b : Bay) (l : Lane) (f : LaneQ → LaneQ) (s : State) :
    (s.modLane b l f).eng = s.eng := rfl
@[simp] theorem State.modLane_port (b : Bay) (l : Lane) (f : LaneQ → LaneQ) (s : State) :
    (s.modLane b l f).port = s.port := rfl
@[simp] theorem State.modLane_mem (b : Bay) (l : Lane) (f : LaneQ → LaneQ) (s : State) :
    (s.modLane b l f).mem = s.mem := rfl
@[simp] theorem State.modLane_draws (b : Bay) (l : Lane) (f : LaneQ → LaneQ) (s : State) :
    (s.modLane b l f).draws = s.draws := rfl
@[simp] theorem State.modLane_checkDraws (b : Bay) (l : Lane) (f : LaneQ → LaneQ) (s : State) :
    (s.modLane b l f).checkDraws = s.checkDraws := rfl
@[simp] theorem State.modLane_pending (b : Bay) (l : Lane) (f : LaneQ → LaneQ) (s : State) :
    (s.modLane b l f).pending = s.pending := rfl

@[simp] theorem State.modEng_time (e : EngineId) (f : Engine → Engine) (s : State) :
    (s.modEng e f).time = s.time := rfl
@[simp] theorem State.modEng_link (e : EngineId) (f : Engine → Engine) (s : State) :
    (s.modEng e f).link = s.link := rfl
@[simp] theorem State.modEng_ctl (e : EngineId) (f : Engine → Engine) (s : State) : (s.modEng e f).ctl = s.ctl := rfl
@[simp] theorem State.modEng_notices (e : EngineId) (f : Engine → Engine) (s : State) :
    (s.modEng e f).notices = s.notices := rfl
@[simp] theorem State.modEng_mon (e : EngineId) (f : Engine → Engine) (s : State) : (s.modEng e f).mon = s.mon := rfl
@[simp] theorem State.modEng_code (e : EngineId) (f : Engine → Engine) (s : State) :
    (s.modEng e f).code = s.code := rfl
@[simp] theorem State.modEng_rail (e : EngineId) (f : Engine → Engine) (s : State) :
    (s.modEng e f).rail = s.rail := rfl
@[simp] theorem State.modEng_scanner (e : EngineId) (f : Engine → Engine) (s : State) :
    (s.modEng e f).scanner = s.scanner := rfl
@[simp] theorem State.modEng_con (e : EngineId) (f : Engine → Engine) (s : State) : (s.modEng e f).con = s.con := rfl
@[simp] theorem State.modEng_seq (e : EngineId) (f : Engine → Engine) (s : State) : (s.modEng e f).seq = s.seq := rfl
@[simp] theorem State.modEng_drv (e : EngineId) (f : Engine → Engine) (s : State) : (s.modEng e f).drv = s.drv := rfl
@[simp] theorem State.modEng_str (e : EngineId) (f : Engine → Engine) (s : State) : (s.modEng e f).str = s.str := rfl
@[simp] theorem State.modEng_pool (e : EngineId) (f : Engine → Engine) (s : State) :
    (s.modEng e f).pool = s.pool := rfl
@[simp] theorem State.modEng_slots (e : EngineId) (f : Engine → Engine) (s : State) :
    (s.modEng e f).slots = s.slots := rfl
@[simp] theorem State.modEng_lanes (e : EngineId) (f : Engine → Engine) (s : State) :
    (s.modEng e f).lanes = s.lanes := rfl
@[simp] theorem State.modEng_disp (e : EngineId) (f : Engine → Engine) (s : State) :
    (s.modEng e f).disp = s.disp := rfl
@[simp] theorem State.modEng_eng (e : EngineId) (f : Engine → Engine) (s : State) :
    (s.modEng e f).eng = upd s.eng e f := rfl
@[simp] theorem State.modEng_port (e : EngineId) (f : Engine → Engine) (s : State) :
    (s.modEng e f).port = s.port := rfl
@[simp] theorem State.modEng_mem (e : EngineId) (f : Engine → Engine) (s : State) : (s.modEng e f).mem = s.mem := rfl
@[simp] theorem State.modEng_draws (e : EngineId) (f : Engine → Engine) (s : State) :
    (s.modEng e f).draws = s.draws := rfl
@[simp] theorem State.modEng_checkDraws (e : EngineId) (f : Engine → Engine) (s : State) :
    (s.modEng e f).checkDraws = s.checkDraws := rfl
@[simp] theorem State.modEng_pending (e : EngineId) (f : Engine → Engine) (s : State) :
    (s.modEng e f).pending = s.pending := rfl

@[simp] theorem State.modPort_time (b : Bay) (f : ScanPort → ScanPort) (s : State) :
    (s.modPort b f).time = s.time := rfl
@[simp] theorem State.modPort_link (b : Bay) (f : ScanPort → ScanPort) (s : State) :
    (s.modPort b f).link = s.link := rfl
@[simp] theorem State.modPort_ctl (b : Bay) (f : ScanPort → ScanPort) (s : State) : (s.modPort b f).ctl = s.ctl := rfl
@[simp] theorem State.modPort_notices (b : Bay) (f : ScanPort → ScanPort) (s : State) :
    (s.modPort b f).notices = s.notices := rfl
@[simp] theorem State.modPort_mon (b : Bay) (f : ScanPort → ScanPort) (s : State) : (s.modPort b f).mon = s.mon := rfl
@[simp] theorem State.modPort_code (b : Bay) (f : ScanPort → ScanPort) (s : State) :
    (s.modPort b f).code = s.code := rfl
@[simp] theorem State.modPort_rail (b : Bay) (f : ScanPort → ScanPort) (s : State) :
    (s.modPort b f).rail = s.rail := rfl
@[simp] theorem State.modPort_scanner (b : Bay) (f : ScanPort → ScanPort) (s : State) :
    (s.modPort b f).scanner = s.scanner := rfl
@[simp] theorem State.modPort_con (b : Bay) (f : ScanPort → ScanPort) (s : State) : (s.modPort b f).con = s.con := rfl
@[simp] theorem State.modPort_seq (b : Bay) (f : ScanPort → ScanPort) (s : State) : (s.modPort b f).seq = s.seq := rfl
@[simp] theorem State.modPort_drv (b : Bay) (f : ScanPort → ScanPort) (s : State) : (s.modPort b f).drv = s.drv := rfl
@[simp] theorem State.modPort_str (b : Bay) (f : ScanPort → ScanPort) (s : State) : (s.modPort b f).str = s.str := rfl
@[simp] theorem State.modPort_pool (b : Bay) (f : ScanPort → ScanPort) (s : State) :
    (s.modPort b f).pool = s.pool := rfl
@[simp] theorem State.modPort_slots (b : Bay) (f : ScanPort → ScanPort) (s : State) :
    (s.modPort b f).slots = s.slots := rfl
@[simp] theorem State.modPort_lanes (b : Bay) (f : ScanPort → ScanPort) (s : State) :
    (s.modPort b f).lanes = s.lanes := rfl
@[simp] theorem State.modPort_disp (b : Bay) (f : ScanPort → ScanPort) (s : State) :
    (s.modPort b f).disp = s.disp := rfl
@[simp] theorem State.modPort_eng (b : Bay) (f : ScanPort → ScanPort) (s : State) : (s.modPort b f).eng = s.eng := rfl
@[simp] theorem State.modPort_port (b : Bay) (f : ScanPort → ScanPort) (s : State) :
    (s.modPort b f).port = upd s.port b f := rfl
@[simp] theorem State.modPort_mem (b : Bay) (f : ScanPort → ScanPort) (s : State) : (s.modPort b f).mem = s.mem := rfl
@[simp] theorem State.modPort_draws (b : Bay) (f : ScanPort → ScanPort) (s : State) :
    (s.modPort b f).draws = s.draws := rfl
@[simp] theorem State.modPort_checkDraws (b : Bay) (f : ScanPort → ScanPort) (s : State) :
    (s.modPort b f).checkDraws = s.checkDraws := rfl
@[simp] theorem State.modPort_pending (b : Bay) (f : ScanPort → ScanPort) (s : State) :
    (s.modPort b f).pending = s.pending := rfl

@[simp] theorem State.store_time (a : Nat) (bytes : List Byte) (s : State) : (s.store a bytes).time = s.time := rfl
@[simp] theorem State.store_link (a : Nat) (bytes : List Byte) (s : State) : (s.store a bytes).link = s.link := rfl
@[simp] theorem State.store_ctl (a : Nat) (bytes : List Byte) (s : State) : (s.store a bytes).ctl = s.ctl := rfl
@[simp] theorem State.store_notices (a : Nat) (bytes : List Byte) (s : State) :
    (s.store a bytes).notices = s.notices := rfl
@[simp] theorem State.store_mon (a : Nat) (bytes : List Byte) (s : State) : (s.store a bytes).mon = s.mon := rfl
@[simp] theorem State.store_code (a : Nat) (bytes : List Byte) (s : State) : (s.store a bytes).code = s.code := rfl
@[simp] theorem State.store_rail (a : Nat) (bytes : List Byte) (s : State) : (s.store a bytes).rail = s.rail := rfl
@[simp] theorem State.store_scanner (a : Nat) (bytes : List Byte) (s : State) :
    (s.store a bytes).scanner = s.scanner := rfl
@[simp] theorem State.store_con (a : Nat) (bytes : List Byte) (s : State) : (s.store a bytes).con = s.con := rfl
@[simp] theorem State.store_seq (a : Nat) (bytes : List Byte) (s : State) : (s.store a bytes).seq = s.seq := rfl
@[simp] theorem State.store_drv (a : Nat) (bytes : List Byte) (s : State) : (s.store a bytes).drv = s.drv := rfl
@[simp] theorem State.store_str (a : Nat) (bytes : List Byte) (s : State) : (s.store a bytes).str = s.str := rfl
@[simp] theorem State.store_pool (a : Nat) (bytes : List Byte) (s : State) : (s.store a bytes).pool = s.pool := rfl
@[simp] theorem State.store_slots (a : Nat) (bytes : List Byte) (s : State) : (s.store a bytes).slots = s.slots := rfl
@[simp] theorem State.store_lanes (a : Nat) (bytes : List Byte) (s : State) : (s.store a bytes).lanes = s.lanes := rfl
@[simp] theorem State.store_disp (a : Nat) (bytes : List Byte) (s : State) : (s.store a bytes).disp = s.disp := rfl
@[simp] theorem State.store_eng (a : Nat) (bytes : List Byte) (s : State) : (s.store a bytes).eng = s.eng := rfl
@[simp] theorem State.store_port (a : Nat) (bytes : List Byte) (s : State) : (s.store a bytes).port = s.port := rfl
@[simp] theorem State.store_mem (a : Nat) (bytes : List Byte) (s : State) :
    (s.store a bytes).mem = s.mem.writeBytes a bytes := rfl
@[simp] theorem State.store_draws (a : Nat) (bytes : List Byte) (s : State) : (s.store a bytes).draws = s.draws := rfl
@[simp] theorem State.store_checkDraws (a : Nat) (bytes : List Byte) (s : State) :
    (s.store a bytes).checkDraws = s.checkDraws := rfl
@[simp] theorem State.store_pending (a : Nat) (bytes : List Byte) (s : State) :
    (s.store a bytes).pending = s.pending := rfl

@[simp] theorem State.modTime_time (f : TimeBase → TimeBase) (s : State) : (s.modTime f).time = f s.time := rfl
@[simp] theorem State.modTime_link (f : TimeBase → TimeBase) (s : State) : (s.modTime f).link = s.link := rfl
@[simp] theorem State.modTime_ctl (f : TimeBase → TimeBase) (s : State) : (s.modTime f).ctl = s.ctl := rfl
@[simp] theorem State.modTime_notices (f : TimeBase → TimeBase) (s : State) : (s.modTime f).notices = s.notices := rfl
@[simp] theorem State.modTime_mon (f : TimeBase → TimeBase) (s : State) : (s.modTime f).mon = s.mon := rfl
@[simp] theorem State.modTime_code (f : TimeBase → TimeBase) (s : State) : (s.modTime f).code = s.code := rfl
@[simp] theorem State.modTime_rail (f : TimeBase → TimeBase) (s : State) : (s.modTime f).rail = s.rail := rfl
@[simp] theorem State.modTime_scanner (f : TimeBase → TimeBase) (s : State) : (s.modTime f).scanner = s.scanner := rfl
@[simp] theorem State.modTime_con (f : TimeBase → TimeBase) (s : State) : (s.modTime f).con = s.con := rfl
@[simp] theorem State.modTime_seq (f : TimeBase → TimeBase) (s : State) : (s.modTime f).seq = s.seq := rfl
@[simp] theorem State.modTime_drv (f : TimeBase → TimeBase) (s : State) : (s.modTime f).drv = s.drv := rfl
@[simp] theorem State.modTime_str (f : TimeBase → TimeBase) (s : State) : (s.modTime f).str = s.str := rfl
@[simp] theorem State.modTime_pool (f : TimeBase → TimeBase) (s : State) : (s.modTime f).pool = s.pool := rfl
@[simp] theorem State.modTime_slots (f : TimeBase → TimeBase) (s : State) : (s.modTime f).slots = s.slots := rfl
@[simp] theorem State.modTime_lanes (f : TimeBase → TimeBase) (s : State) : (s.modTime f).lanes = s.lanes := rfl
@[simp] theorem State.modTime_disp (f : TimeBase → TimeBase) (s : State) : (s.modTime f).disp = s.disp := rfl
@[simp] theorem State.modTime_eng (f : TimeBase → TimeBase) (s : State) : (s.modTime f).eng = s.eng := rfl
@[simp] theorem State.modTime_port (f : TimeBase → TimeBase) (s : State) : (s.modTime f).port = s.port := rfl
@[simp] theorem State.modTime_mem (f : TimeBase → TimeBase) (s : State) : (s.modTime f).mem = s.mem := rfl
@[simp] theorem State.modTime_draws (f : TimeBase → TimeBase) (s : State) : (s.modTime f).draws = s.draws := rfl
@[simp] theorem State.modTime_checkDraws (f : TimeBase → TimeBase) (s : State) :
    (s.modTime f).checkDraws = s.checkDraws := rfl
@[simp] theorem State.modTime_pending (f : TimeBase → TimeBase) (s : State) : (s.modTime f).pending = s.pending := rfl

@[simp] theorem State.modCtl_time (f : Control → Control) (s : State) : (s.modCtl f).time = s.time := rfl
@[simp] theorem State.modCtl_link (f : Control → Control) (s : State) : (s.modCtl f).link = s.link := rfl
@[simp] theorem State.modCtl_ctl (f : Control → Control) (s : State) : (s.modCtl f).ctl = f s.ctl := rfl
@[simp] theorem State.modCtl_notices (f : Control → Control) (s : State) : (s.modCtl f).notices = s.notices := rfl
@[simp] theorem State.modCtl_mon (f : Control → Control) (s : State) : (s.modCtl f).mon = s.mon := rfl
@[simp] theorem State.modCtl_code (f : Control → Control) (s : State) : (s.modCtl f).code = s.code := rfl
@[simp] theorem State.modCtl_rail (f : Control → Control) (s : State) : (s.modCtl f).rail = s.rail := rfl
@[simp] theorem State.modCtl_scanner (f : Control → Control) (s : State) : (s.modCtl f).scanner = s.scanner := rfl
@[simp] theorem State.modCtl_con (f : Control → Control) (s : State) : (s.modCtl f).con = s.con := rfl
@[simp] theorem State.modCtl_seq (f : Control → Control) (s : State) : (s.modCtl f).seq = s.seq := rfl
@[simp] theorem State.modCtl_drv (f : Control → Control) (s : State) : (s.modCtl f).drv = s.drv := rfl
@[simp] theorem State.modCtl_str (f : Control → Control) (s : State) : (s.modCtl f).str = s.str := rfl
@[simp] theorem State.modCtl_pool (f : Control → Control) (s : State) : (s.modCtl f).pool = s.pool := rfl
@[simp] theorem State.modCtl_slots (f : Control → Control) (s : State) : (s.modCtl f).slots = s.slots := rfl
@[simp] theorem State.modCtl_lanes (f : Control → Control) (s : State) : (s.modCtl f).lanes = s.lanes := rfl
@[simp] theorem State.modCtl_disp (f : Control → Control) (s : State) : (s.modCtl f).disp = s.disp := rfl
@[simp] theorem State.modCtl_eng (f : Control → Control) (s : State) : (s.modCtl f).eng = s.eng := rfl
@[simp] theorem State.modCtl_port (f : Control → Control) (s : State) : (s.modCtl f).port = s.port := rfl
@[simp] theorem State.modCtl_mem (f : Control → Control) (s : State) : (s.modCtl f).mem = s.mem := rfl
@[simp] theorem State.modCtl_draws (f : Control → Control) (s : State) : (s.modCtl f).draws = s.draws := rfl
@[simp] theorem State.modCtl_checkDraws (f : Control → Control) (s : State) :
    (s.modCtl f).checkDraws = s.checkDraws := rfl
@[simp] theorem State.modCtl_pending (f : Control → Control) (s : State) : (s.modCtl f).pending = s.pending := rfl

@[simp] theorem setOutcome_time (o : CmdOutcome) (s : State) : (setOutcome o s).time = s.time := rfl
@[simp] theorem setOutcome_link (o : CmdOutcome) (s : State) : (setOutcome o s).link = s.link := rfl
@[simp] theorem setOutcome_ctl (o : CmdOutcome) (s : State) :
    (setOutcome o s).ctl = { s.ctl with outcome := o } := rfl
@[simp] theorem setOutcome_notices (o : CmdOutcome) (s : State) : (setOutcome o s).notices = s.notices := rfl
@[simp] theorem setOutcome_mon (o : CmdOutcome) (s : State) : (setOutcome o s).mon = s.mon := rfl
@[simp] theorem setOutcome_code (o : CmdOutcome) (s : State) : (setOutcome o s).code = s.code := rfl
@[simp] theorem setOutcome_rail (o : CmdOutcome) (s : State) : (setOutcome o s).rail = s.rail := rfl
@[simp] theorem setOutcome_scanner (o : CmdOutcome) (s : State) : (setOutcome o s).scanner = s.scanner := rfl
@[simp] theorem setOutcome_con (o : CmdOutcome) (s : State) : (setOutcome o s).con = s.con := rfl
@[simp] theorem setOutcome_seq (o : CmdOutcome) (s : State) : (setOutcome o s).seq = s.seq := rfl
@[simp] theorem setOutcome_drv (o : CmdOutcome) (s : State) : (setOutcome o s).drv = s.drv := rfl
@[simp] theorem setOutcome_str (o : CmdOutcome) (s : State) : (setOutcome o s).str = s.str := rfl
@[simp] theorem setOutcome_pool (o : CmdOutcome) (s : State) : (setOutcome o s).pool = s.pool := rfl
@[simp] theorem setOutcome_slots (o : CmdOutcome) (s : State) : (setOutcome o s).slots = s.slots := rfl
@[simp] theorem setOutcome_lanes (o : CmdOutcome) (s : State) : (setOutcome o s).lanes = s.lanes := rfl
@[simp] theorem setOutcome_disp (o : CmdOutcome) (s : State) : (setOutcome o s).disp = s.disp := rfl
@[simp] theorem setOutcome_eng (o : CmdOutcome) (s : State) : (setOutcome o s).eng = s.eng := rfl
@[simp] theorem setOutcome_port (o : CmdOutcome) (s : State) : (setOutcome o s).port = s.port := rfl
@[simp] theorem setOutcome_mem (o : CmdOutcome) (s : State) : (setOutcome o s).mem = s.mem := rfl
@[simp] theorem setOutcome_draws (o : CmdOutcome) (s : State) : (setOutcome o s).draws = s.draws := rfl
@[simp] theorem setOutcome_checkDraws (o : CmdOutcome) (s : State) : (setOutcome o s).checkDraws = s.checkDraws := rfl
@[simp] theorem setOutcome_pending (o : CmdOutcome) (s : State) : (setOutcome o s).pending = s.pending := rfl

@[simp] theorem raiseFixture_time (f : FixtureFactor) (s : State) : (raiseFixture f s).time = s.time := rfl
@[simp] theorem raiseFixture_link (f : FixtureFactor) (s : State) : (raiseFixture f s).link = s.link := rfl
@[simp] theorem raiseFixture_ctl (f : FixtureFactor) (s : State) : (raiseFixture f s).ctl = s.ctl := rfl
@[simp] theorem raiseFixture_notices (f : FixtureFactor) (s : State) :
    (raiseFixture f s).notices = s.notices.raise 0 (fixtureFactorIx f) := rfl
@[simp] theorem raiseFixture_mon (f : FixtureFactor) (s : State) : (raiseFixture f s).mon = s.mon := rfl
@[simp] theorem raiseFixture_code (f : FixtureFactor) (s : State) : (raiseFixture f s).code = s.code := rfl
@[simp] theorem raiseFixture_rail (f : FixtureFactor) (s : State) : (raiseFixture f s).rail = s.rail := rfl
@[simp] theorem raiseFixture_scanner (f : FixtureFactor) (s : State) : (raiseFixture f s).scanner = s.scanner := rfl
@[simp] theorem raiseFixture_con (f : FixtureFactor) (s : State) : (raiseFixture f s).con = s.con := rfl
@[simp] theorem raiseFixture_seq (f : FixtureFactor) (s : State) : (raiseFixture f s).seq = s.seq := rfl
@[simp] theorem raiseFixture_drv (f : FixtureFactor) (s : State) : (raiseFixture f s).drv = s.drv := rfl
@[simp] theorem raiseFixture_str (f : FixtureFactor) (s : State) : (raiseFixture f s).str = s.str := rfl
@[simp] theorem raiseFixture_pool (f : FixtureFactor) (s : State) : (raiseFixture f s).pool = s.pool := rfl
@[simp] theorem raiseFixture_slots (f : FixtureFactor) (s : State) : (raiseFixture f s).slots = s.slots := rfl
@[simp] theorem raiseFixture_lanes (f : FixtureFactor) (s : State) : (raiseFixture f s).lanes = s.lanes := rfl
@[simp] theorem raiseFixture_disp (f : FixtureFactor) (s : State) : (raiseFixture f s).disp = s.disp := rfl
@[simp] theorem raiseFixture_eng (f : FixtureFactor) (s : State) : (raiseFixture f s).eng = s.eng := rfl
@[simp] theorem raiseFixture_port (f : FixtureFactor) (s : State) : (raiseFixture f s).port = s.port := rfl
@[simp] theorem raiseFixture_mem (f : FixtureFactor) (s : State) : (raiseFixture f s).mem = s.mem := rfl
@[simp] theorem raiseFixture_draws (f : FixtureFactor) (s : State) : (raiseFixture f s).draws = s.draws := rfl
@[simp] theorem raiseFixture_checkDraws (f : FixtureFactor) (s : State) :
    (raiseFixture f s).checkDraws = s.checkDraws := rfl
@[simp] theorem raiseFixture_pending (f : FixtureFactor) (s : State) : (raiseFixture f s).pending = s.pending := rfl

@[simp] theorem raiseBay_time (b : Bay) (f : BayFactor) (s : State) : (raiseBay b f s).time = s.time := rfl
@[simp] theorem raiseBay_link (b : Bay) (f : BayFactor) (s : State) : (raiseBay b f s).link = s.link := rfl
@[simp] theorem raiseBay_ctl (b : Bay) (f : BayFactor) (s : State) : (raiseBay b f s).ctl = s.ctl := rfl
@[simp] theorem raiseBay_notices (b : Bay) (f : BayFactor) (s : State) :
    (raiseBay b f s).notices = s.notices.raise (bayGroup b) (bayFactorIx f) := rfl
@[simp] theorem raiseBay_mon (b : Bay) (f : BayFactor) (s : State) : (raiseBay b f s).mon = s.mon := rfl
@[simp] theorem raiseBay_code (b : Bay) (f : BayFactor) (s : State) : (raiseBay b f s).code = s.code := rfl
@[simp] theorem raiseBay_rail (b : Bay) (f : BayFactor) (s : State) : (raiseBay b f s).rail = s.rail := rfl
@[simp] theorem raiseBay_scanner (b : Bay) (f : BayFactor) (s : State) : (raiseBay b f s).scanner = s.scanner := rfl
@[simp] theorem raiseBay_con (b : Bay) (f : BayFactor) (s : State) : (raiseBay b f s).con = s.con := rfl
@[simp] theorem raiseBay_seq (b : Bay) (f : BayFactor) (s : State) : (raiseBay b f s).seq = s.seq := rfl
@[simp] theorem raiseBay_drv (b : Bay) (f : BayFactor) (s : State) : (raiseBay b f s).drv = s.drv := rfl
@[simp] theorem raiseBay_str (b : Bay) (f : BayFactor) (s : State) : (raiseBay b f s).str = s.str := rfl
@[simp] theorem raiseBay_pool (b : Bay) (f : BayFactor) (s : State) : (raiseBay b f s).pool = s.pool := rfl
@[simp] theorem raiseBay_slots (b : Bay) (f : BayFactor) (s : State) : (raiseBay b f s).slots = s.slots := rfl
@[simp] theorem raiseBay_lanes (b : Bay) (f : BayFactor) (s : State) : (raiseBay b f s).lanes = s.lanes := rfl
@[simp] theorem raiseBay_disp (b : Bay) (f : BayFactor) (s : State) : (raiseBay b f s).disp = s.disp := rfl
@[simp] theorem raiseBay_eng (b : Bay) (f : BayFactor) (s : State) : (raiseBay b f s).eng = s.eng := rfl
@[simp] theorem raiseBay_port (b : Bay) (f : BayFactor) (s : State) : (raiseBay b f s).port = s.port := rfl
@[simp] theorem raiseBay_mem (b : Bay) (f : BayFactor) (s : State) : (raiseBay b f s).mem = s.mem := rfl
@[simp] theorem raiseBay_draws (b : Bay) (f : BayFactor) (s : State) : (raiseBay b f s).draws = s.draws := rfl
@[simp] theorem raiseBay_checkDraws (b : Bay) (f : BayFactor) (s : State) :
    (raiseBay b f s).checkDraws = s.checkDraws := rfl
@[simp] theorem raiseBay_pending (b : Bay) (f : BayFactor) (s : State) : (raiseBay b f s).pending = s.pending := rfl

@[simp] theorem report_time (i : Slot) (st : Status) (detail : BitVec 16) (result : BitVec 64) (s : State) :
    (report i st detail result s).time = s.time := rfl
@[simp] theorem report_link (i : Slot) (st : Status) (detail : BitVec 16) (result : BitVec 64) (s : State) :
    (report i st detail result s).link = s.link := rfl
@[simp] theorem report_ctl (i : Slot) (st : Status) (detail : BitVec 16) (result : BitVec 64) (s : State) :
    (report i st detail result s).ctl = s.ctl := rfl
@[simp] theorem report_notices (i : Slot) (st : Status) (detail : BitVec 16) (result : BitVec 64) (s : State) :
    (report i st detail result s).notices = s.notices := rfl
@[simp] theorem report_mon (i : Slot) (st : Status) (detail : BitVec 16) (result : BitVec 64) (s : State) :
    (report i st detail result s).mon = s.mon := rfl
@[simp] theorem report_code (i : Slot) (st : Status) (detail : BitVec 16) (result : BitVec 64) (s : State) :
    (report i st detail result s).code = s.code := rfl
@[simp] theorem report_rail (i : Slot) (st : Status) (detail : BitVec 16) (result : BitVec 64) (s : State) :
    (report i st detail result s).rail = s.rail := rfl
@[simp] theorem report_scanner (i : Slot) (st : Status) (detail : BitVec 16) (result : BitVec 64) (s : State) :
    (report i st detail result s).scanner = s.scanner := rfl
@[simp] theorem report_con (i : Slot) (st : Status) (detail : BitVec 16) (result : BitVec 64) (s : State) :
    (report i st detail result s).con = s.con := rfl
@[simp] theorem report_seq (i : Slot) (st : Status) (detail : BitVec 16) (result : BitVec 64) (s : State) :
    (report i st detail result s).seq = s.seq := rfl
@[simp] theorem report_drv (i : Slot) (st : Status) (detail : BitVec 16) (result : BitVec 64) (s : State) :
    (report i st detail result s).drv = s.drv := rfl
@[simp] theorem report_str (i : Slot) (st : Status) (detail : BitVec 16) (result : BitVec 64) (s : State) :
    (report i st detail result s).str = s.str := rfl
@[simp] theorem report_pool (i : Slot) (st : Status) (detail : BitVec 16) (result : BitVec 64) (s : State) :
    (report i st detail result s).pool = s.pool := rfl
@[simp] theorem report_slots (i : Slot) (st : Status) (detail : BitVec 16) (result : BitVec 64) (s : State) :
    (report i st detail result s).slots = upd s.slots i (fun r => { r with report := some ⟨st, detail, result, s.now⟩ }) := rfl
@[simp] theorem report_lanes (i : Slot) (st : Status) (detail : BitVec 16) (result : BitVec 64) (s : State) :
    (report i st detail result s).lanes = s.lanes := rfl
@[simp] theorem report_disp (i : Slot) (st : Status) (detail : BitVec 16) (result : BitVec 64) (s : State) :
    (report i st detail result s).disp = s.disp := rfl
@[simp] theorem report_eng (i : Slot) (st : Status) (detail : BitVec 16) (result : BitVec 64) (s : State) :
    (report i st detail result s).eng = s.eng := rfl
@[simp] theorem report_port (i : Slot) (st : Status) (detail : BitVec 16) (result : BitVec 64) (s : State) :
    (report i st detail result s).port = s.port := rfl
@[simp] theorem report_mem (i : Slot) (st : Status) (detail : BitVec 16) (result : BitVec 64) (s : State) :
    (report i st detail result s).mem = s.mem := rfl
@[simp] theorem report_draws (i : Slot) (st : Status) (detail : BitVec 16) (result : BitVec 64) (s : State) :
    (report i st detail result s).draws = s.draws := rfl
@[simp] theorem report_checkDraws (i : Slot) (st : Status) (detail : BitVec 16) (result : BitVec 64) (s : State) :
    (report i st detail result s).checkDraws = s.checkDraws := rfl
@[simp] theorem report_pending (i : Slot) (st : Status) (detail : BitVec 16) (result : BitVec 64) (s : State) :
    (report i st detail result s).pending = s.pending := rfl

@[simp] theorem tick_time (s : State) : (tick s).time = { s.time with count := s.time.count + 1#48 } := rfl
@[simp] theorem tick_link (s : State) : (tick s).link = s.link := rfl
@[simp] theorem tick_ctl (s : State) : (tick s).ctl = s.ctl := rfl
@[simp] theorem tick_notices (s : State) : (tick s).notices = s.notices := rfl
@[simp] theorem tick_mon (s : State) : (tick s).mon = s.mon := rfl
@[simp] theorem tick_code (s : State) : (tick s).code = s.code := rfl
@[simp] theorem tick_rail (s : State) : (tick s).rail = s.rail := rfl
@[simp] theorem tick_scanner (s : State) : (tick s).scanner = s.scanner := rfl
@[simp] theorem tick_con (s : State) : (tick s).con = s.con := rfl
@[simp] theorem tick_seq (s : State) : (tick s).seq = s.seq := rfl
@[simp] theorem tick_drv (s : State) : (tick s).drv = s.drv.map Driver.ticked := rfl
@[simp] theorem tick_str (s : State) : (tick s).str = s.str := rfl
@[simp] theorem tick_pool (s : State) : (tick s).pool = s.pool := rfl
@[simp] theorem tick_slots (s : State) : (tick s).slots = s.slots := rfl
@[simp] theorem tick_lanes (s : State) : (tick s).lanes = s.lanes := rfl
@[simp] theorem tick_disp (s : State) : (tick s).disp = s.disp := rfl
@[simp] theorem tick_eng (s : State) : (tick s).eng = s.eng := rfl
@[simp] theorem tick_port (s : State) : (tick s).port = s.port := rfl
@[simp] theorem tick_mem (s : State) : (tick s).mem = s.mem := rfl
@[simp] theorem tick_draws (s : State) : (tick s).draws = s.draws := rfl
@[simp] theorem tick_checkDraws (s : State) : (tick s).checkDraws = s.checkDraws := rfl
@[simp] theorem tick_pending (s : State) : (tick s).pending = s.pending := rfl

@[simp] theorem returnRead_time (lanes : BitVec 4) (v : Word) (s : State) :
    (returnRead lanes v s).time = s.time := rfl
@[simp] theorem returnRead_link (lanes : BitVec 4) (v : Word) (s : State) :
    (returnRead lanes v s).link = { s.link with readData := laneBytes lanes v } := rfl
@[simp] theorem returnRead_ctl (lanes : BitVec 4) (v : Word) (s : State) : (returnRead lanes v s).ctl = s.ctl := rfl
@[simp] theorem returnRead_notices (lanes : BitVec 4) (v : Word) (s : State) :
    (returnRead lanes v s).notices = s.notices := rfl
@[simp] theorem returnRead_mon (lanes : BitVec 4) (v : Word) (s : State) : (returnRead lanes v s).mon = s.mon := rfl
@[simp] theorem returnRead_code (lanes : BitVec 4) (v : Word) (s : State) :
    (returnRead lanes v s).code = s.code := rfl
@[simp] theorem returnRead_rail (lanes : BitVec 4) (v : Word) (s : State) :
    (returnRead lanes v s).rail = s.rail := rfl
@[simp] theorem returnRead_scanner (lanes : BitVec 4) (v : Word) (s : State) :
    (returnRead lanes v s).scanner = s.scanner := rfl
@[simp] theorem returnRead_con (lanes : BitVec 4) (v : Word) (s : State) : (returnRead lanes v s).con = s.con := rfl
@[simp] theorem returnRead_seq (lanes : BitVec 4) (v : Word) (s : State) : (returnRead lanes v s).seq = s.seq := rfl
@[simp] theorem returnRead_drv (lanes : BitVec 4) (v : Word) (s : State) : (returnRead lanes v s).drv = s.drv := rfl
@[simp] theorem returnRead_str (lanes : BitVec 4) (v : Word) (s : State) : (returnRead lanes v s).str = s.str := rfl
@[simp] theorem returnRead_pool (lanes : BitVec 4) (v : Word) (s : State) :
    (returnRead lanes v s).pool = s.pool := rfl
@[simp] theorem returnRead_slots (lanes : BitVec 4) (v : Word) (s : State) :
    (returnRead lanes v s).slots = s.slots := rfl
@[simp] theorem returnRead_lanes (lanes : BitVec 4) (v : Word) (s : State) :
    (returnRead lanes v s).lanes = s.lanes := rfl
@[simp] theorem returnRead_disp (lanes : BitVec 4) (v : Word) (s : State) :
    (returnRead lanes v s).disp = s.disp := rfl
@[simp] theorem returnRead_eng (lanes : BitVec 4) (v : Word) (s : State) : (returnRead lanes v s).eng = s.eng := rfl
@[simp] theorem returnRead_port (lanes : BitVec 4) (v : Word) (s : State) :
    (returnRead lanes v s).port = s.port := rfl
@[simp] theorem returnRead_mem (lanes : BitVec 4) (v : Word) (s : State) : (returnRead lanes v s).mem = s.mem := rfl
@[simp] theorem returnRead_draws (lanes : BitVec 4) (v : Word) (s : State) :
    (returnRead lanes v s).draws = s.draws := rfl
@[simp] theorem returnRead_checkDraws (lanes : BitVec 4) (v : Word) (s : State) :
    (returnRead lanes v s).checkDraws = s.checkDraws := rfl
@[simp] theorem returnRead_pending (lanes : BitVec 4) (v : Word) (s : State) :
    (returnRead lanes v s).pending = s.pending := rfl

@[simp] theorem signalLine_time (old s : State) : (signalLine old s).time = s.time := rfl
@[simp] theorem signalLine_link (old s : State) :
    (signalLine old s).link = s.link.signal old.notices.asserted s.notices.asserted := rfl
@[simp] theorem signalLine_ctl (old s : State) : (signalLine old s).ctl = s.ctl := rfl
@[simp] theorem signalLine_notices (old s : State) : (signalLine old s).notices = s.notices := rfl
@[simp] theorem signalLine_mon (old s : State) : (signalLine old s).mon = s.mon := rfl
@[simp] theorem signalLine_code (old s : State) : (signalLine old s).code = s.code := rfl
@[simp] theorem signalLine_rail (old s : State) : (signalLine old s).rail = s.rail := rfl
@[simp] theorem signalLine_scanner (old s : State) : (signalLine old s).scanner = s.scanner := rfl
@[simp] theorem signalLine_con (old s : State) : (signalLine old s).con = s.con := rfl
@[simp] theorem signalLine_seq (old s : State) : (signalLine old s).seq = s.seq := rfl
@[simp] theorem signalLine_drv (old s : State) : (signalLine old s).drv = s.drv := rfl
@[simp] theorem signalLine_str (old s : State) : (signalLine old s).str = s.str := rfl
@[simp] theorem signalLine_pool (old s : State) : (signalLine old s).pool = s.pool := rfl
@[simp] theorem signalLine_slots (old s : State) : (signalLine old s).slots = s.slots := rfl
@[simp] theorem signalLine_lanes (old s : State) : (signalLine old s).lanes = s.lanes := rfl
@[simp] theorem signalLine_disp (old s : State) : (signalLine old s).disp = s.disp := rfl
@[simp] theorem signalLine_eng (old s : State) : (signalLine old s).eng = s.eng := rfl
@[simp] theorem signalLine_port (old s : State) : (signalLine old s).port = s.port := rfl
@[simp] theorem signalLine_mem (old s : State) : (signalLine old s).mem = s.mem := rfl
@[simp] theorem signalLine_draws (old s : State) : (signalLine old s).draws = s.draws := rfl
@[simp] theorem signalLine_checkDraws (old s : State) : (signalLine old s).checkDraws = s.checkDraws := rfl
@[simp] theorem signalLine_pending (old s : State) : (signalLine old s).pending = s.pending := rfl

@[simp] theorem publish_time (old s : State) : (publish old s).time = s.time := by simp only [publish]
@[simp] theorem publish_link (old s : State) : (publish old s).link = s.link := by simp only [publish]
@[simp] theorem publish_ctl (old s : State) : (publish old s).ctl = s.ctl := by simp only [publish]
@[simp] theorem publish_notices (old s : State) : (publish old s).notices = s.notices := by simp only [publish]
@[simp] theorem publish_mon (old s : State) : (publish old s).mon = s.mon := by simp only [publish]
@[simp] theorem publish_code (old s : State) : (publish old s).code = s.code := by simp only [publish]
@[simp] theorem publish_rail (old s : State) : (publish old s).rail = s.rail := by simp only [publish]
@[simp] theorem publish_scanner (old s : State) : (publish old s).scanner = s.scanner := by simp only [publish]
@[simp] theorem publish_con (old s : State) : (publish old s).con = s.con := by simp only [publish]
@[simp] theorem publish_seq (old s : State) : (publish old s).seq = s.seq := by simp only [publish]
@[simp] theorem publish_drv (old s : State) : (publish old s).drv = s.drv := by simp only [publish]
@[simp] theorem publish_str (old s : State) : (publish old s).str = s.str := by simp only [publish]
@[simp] theorem publish_pool (old s : State) : (publish old s).pool = s.pool := by simp only [publish]
@[simp] theorem publish_slots (old s : State) : (publish old s).slots = s.slots := by simp only [publish]
@[simp] theorem publish_lanes (old s : State) : (publish old s).lanes = s.lanes := by simp only [publish]
@[simp] theorem publish_disp (old s : State) : (publish old s).disp = s.disp := by simp only [publish]
@[simp] theorem publish_eng (old s : State) : (publish old s).eng = s.eng := by simp only [publish]
@[simp] theorem publish_port (old s : State) : (publish old s).port = s.port := by simp only [publish]
@[simp] theorem publish_mem (old s : State) :
    (publish old s).mem = (changedFields old s).foldl Memory.writeField s.mem := by simp only [publish]
@[simp] theorem publish_draws (old s : State) : (publish old s).draws = s.draws := by simp only [publish]
@[simp] theorem publish_checkDraws (old s : State) :
    (publish old s).checkDraws = s.checkDraws := by simp only [publish]
@[simp] theorem publish_pending (old s : State) : (publish old s).pending = s.pending := by simp only [publish]

@[simp] theorem rewrite_time (fs : List Field) (s : State) : (rewrite fs s).time = s.time := by simp only [rewrite]
@[simp] theorem rewrite_link (fs : List Field) (s : State) : (rewrite fs s).link = s.link := by simp only [rewrite]
@[simp] theorem rewrite_ctl (fs : List Field) (s : State) : (rewrite fs s).ctl = s.ctl := by simp only [rewrite]
@[simp] theorem rewrite_notices (fs : List Field) (s : State) :
    (rewrite fs s).notices = s.notices := by simp only [rewrite]
@[simp] theorem rewrite_mon (fs : List Field) (s : State) : (rewrite fs s).mon = s.mon := by simp only [rewrite]
@[simp] theorem rewrite_code (fs : List Field) (s : State) : (rewrite fs s).code = s.code := by simp only [rewrite]
@[simp] theorem rewrite_rail (fs : List Field) (s : State) : (rewrite fs s).rail = s.rail := by simp only [rewrite]
@[simp] theorem rewrite_scanner (fs : List Field) (s : State) :
    (rewrite fs s).scanner = s.scanner := by simp only [rewrite]
@[simp] theorem rewrite_con (fs : List Field) (s : State) : (rewrite fs s).con = s.con := by simp only [rewrite]
@[simp] theorem rewrite_seq (fs : List Field) (s : State) : (rewrite fs s).seq = s.seq := by simp only [rewrite]
@[simp] theorem rewrite_drv (fs : List Field) (s : State) : (rewrite fs s).drv = s.drv := by simp only [rewrite]
@[simp] theorem rewrite_str (fs : List Field) (s : State) : (rewrite fs s).str = s.str := by simp only [rewrite]
@[simp] theorem rewrite_pool (fs : List Field) (s : State) : (rewrite fs s).pool = s.pool := by simp only [rewrite]
@[simp] theorem rewrite_slots (fs : List Field) (s : State) : (rewrite fs s).slots = s.slots := by simp only [rewrite]
@[simp] theorem rewrite_lanes (fs : List Field) (s : State) : (rewrite fs s).lanes = s.lanes := by simp only [rewrite]
@[simp] theorem rewrite_disp (fs : List Field) (s : State) : (rewrite fs s).disp = s.disp := by simp only [rewrite]
@[simp] theorem rewrite_eng (fs : List Field) (s : State) : (rewrite fs s).eng = s.eng := by simp only [rewrite]
@[simp] theorem rewrite_port (fs : List Field) (s : State) : (rewrite fs s).port = s.port := by simp only [rewrite]
@[simp] theorem rewrite_mem (fs : List Field) (s : State) :
    (rewrite fs s).mem = fs.foldl Memory.writeField s.mem := by simp only [rewrite]
@[simp] theorem rewrite_draws (fs : List Field) (s : State) : (rewrite fs s).draws = s.draws := by simp only [rewrite]
@[simp] theorem rewrite_checkDraws (fs : List Field) (s : State) :
    (rewrite fs s).checkDraws = s.checkDraws := by simp only [rewrite]
@[simp] theorem rewrite_pending (fs : List Field) (s : State) :
    (rewrite fs s).pending = s.pending := by simp only [rewrite]

@[simp] theorem publishAll_time (s : State) : (publishAll s).time = s.time := by simp only [publishAll, rewrite]
@[simp] theorem publishAll_link (s : State) : (publishAll s).link = s.link := by simp only [publishAll, rewrite]
@[simp] theorem publishAll_ctl (s : State) : (publishAll s).ctl = s.ctl := by simp only [publishAll, rewrite]
@[simp] theorem publishAll_notices (s : State) :
    (publishAll s).notices = s.notices := by simp only [publishAll, rewrite]
@[simp] theorem publishAll_mon (s : State) : (publishAll s).mon = s.mon := by simp only [publishAll, rewrite]
@[simp] theorem publishAll_code (s : State) : (publishAll s).code = s.code := by simp only [publishAll, rewrite]
@[simp] theorem publishAll_rail (s : State) : (publishAll s).rail = s.rail := by simp only [publishAll, rewrite]
@[simp] theorem publishAll_scanner (s : State) :
    (publishAll s).scanner = s.scanner := by simp only [publishAll, rewrite]
@[simp] theorem publishAll_con (s : State) : (publishAll s).con = s.con := by simp only [publishAll, rewrite]
@[simp] theorem publishAll_seq (s : State) : (publishAll s).seq = s.seq := by simp only [publishAll, rewrite]
@[simp] theorem publishAll_drv (s : State) : (publishAll s).drv = s.drv := by simp only [publishAll, rewrite]
@[simp] theorem publishAll_str (s : State) : (publishAll s).str = s.str := by simp only [publishAll, rewrite]
@[simp] theorem publishAll_pool (s : State) : (publishAll s).pool = s.pool := by simp only [publishAll, rewrite]
@[simp] theorem publishAll_slots (s : State) : (publishAll s).slots = s.slots := by simp only [publishAll, rewrite]
@[simp] theorem publishAll_lanes (s : State) : (publishAll s).lanes = s.lanes := by simp only [publishAll, rewrite]
@[simp] theorem publishAll_disp (s : State) : (publishAll s).disp = s.disp := by simp only [publishAll, rewrite]
@[simp] theorem publishAll_eng (s : State) : (publishAll s).eng = s.eng := by simp only [publishAll, rewrite]
@[simp] theorem publishAll_port (s : State) : (publishAll s).port = s.port := by simp only [publishAll, rewrite]
@[simp] theorem publishAll_mem (s : State) :
    (publishAll s).mem = (publishedFields s).foldl Memory.writeField s.mem := by simp only [publishAll, rewrite]
@[simp] theorem publishAll_draws (s : State) : (publishAll s).draws = s.draws := by simp only [publishAll, rewrite]
@[simp] theorem publishAll_checkDraws (s : State) :
    (publishAll s).checkDraws = s.checkDraws := by simp only [publishAll, rewrite]
@[simp] theorem publishAll_pending (s : State) :
    (publishAll s).pending = s.pending := by simp only [publishAll, rewrite]

@[simp] theorem served_time (b : Bay) (s : State) : (served b s).time = s.time := rfl
@[simp] theorem served_link (b : Bay) (s : State) : (served b s).link = s.link := rfl
@[simp] theorem served_ctl (b : Bay) (s : State) : (served b s).ctl = s.ctl := rfl
@[simp] theorem served_notices (b : Bay) (s : State) : (served b s).notices = s.notices := rfl
@[simp] theorem served_mon (b : Bay) (s : State) : (served b s).mon = s.mon := rfl
@[simp] theorem served_code (b : Bay) (s : State) : (served b s).code = s.code := rfl
@[simp] theorem served_rail (b : Bay) (s : State) : (served b s).rail = s.rail := rfl
@[simp] theorem served_scanner (b : Bay) (s : State) : (served b s).scanner = s.scanner := rfl
@[simp] theorem served_con (b : Bay) (s : State) : (served b s).con = s.con := rfl
@[simp] theorem served_seq (b : Bay) (s : State) : (served b s).seq = s.seq := rfl
@[simp] theorem served_drv (b : Bay) (s : State) : (served b s).drv = s.drv := rfl
@[simp] theorem served_str (b : Bay) (s : State) : (served b s).str = s.str := rfl
@[simp] theorem served_pool (b : Bay) (s : State) : (served b s).pool = { s.pool with lastServed := b } := rfl
@[simp] theorem served_slots (b : Bay) (s : State) : (served b s).slots = s.slots := rfl
@[simp] theorem served_lanes (b : Bay) (s : State) : (served b s).lanes = s.lanes := rfl
@[simp] theorem served_disp (b : Bay) (s : State) : (served b s).disp = s.disp := rfl
@[simp] theorem served_eng (b : Bay) (s : State) : (served b s).eng = s.eng := rfl
@[simp] theorem served_port (b : Bay) (s : State) : (served b s).port = s.port := rfl
@[simp] theorem served_mem (b : Bay) (s : State) : (served b s).mem = s.mem := rfl
@[simp] theorem served_draws (b : Bay) (s : State) : (served b s).draws = s.draws := rfl
@[simp] theorem served_checkDraws (b : Bay) (s : State) : (served b s).checkDraws = s.checkDraws := rfl
@[simp] theorem served_pending (b : Bay) (s : State) : (served b s).pending = s.pending := rfl

@[simp] theorem holdBay_time (b : Bay) (s : State) : (holdBay b s).time = s.time := rfl
@[simp] theorem holdBay_link (b : Bay) (s : State) : (holdBay b s).link = s.link := rfl
@[simp] theorem holdBay_ctl (b : Bay) (s : State) : (holdBay b s).ctl = s.ctl := rfl
@[simp] theorem holdBay_notices (b : Bay) (s : State) : (holdBay b s).notices = s.notices := rfl
@[simp] theorem holdBay_mon (b : Bay) (s : State) : (holdBay b s).mon = s.mon := rfl
@[simp] theorem holdBay_code (b : Bay) (s : State) : (holdBay b s).code = s.code := rfl
@[simp] theorem holdBay_rail (b : Bay) (s : State) : (holdBay b s).rail = s.rail := rfl
@[simp] theorem holdBay_scanner (b : Bay) (s : State) : (holdBay b s).scanner = s.scanner := rfl
@[simp] theorem holdBay_con (b : Bay) (s : State) : (holdBay b s).con = s.con := rfl
@[simp] theorem holdBay_seq (b : Bay) (s : State) : (holdBay b s).seq = s.seq := rfl
@[simp] theorem holdBay_drv (b : Bay) (s : State) : (holdBay b s).drv = s.drv := rfl
@[simp] theorem holdBay_str (b : Bay) (s : State) : (holdBay b s).str = s.str := rfl
@[simp] theorem holdBay_pool (b : Bay) (s : State) : (holdBay b s).pool = s.pool := rfl
@[simp] theorem holdBay_slots (b : Bay) (s : State) : (holdBay b s).slots = s.slots := rfl
@[simp] theorem holdBay_lanes (b : Bay) (s : State) : (holdBay b s).lanes = s.lanes := rfl
@[simp] theorem holdBay_disp (b : Bay) (s : State) :
    (holdBay b s).disp = { s.disp with hold := setBit s.disp.hold b } := rfl
@[simp] theorem holdBay_eng (b : Bay) (s : State) : (holdBay b s).eng = s.eng := rfl
@[simp] theorem holdBay_port (b : Bay) (s : State) : (holdBay b s).port = s.port := rfl
@[simp] theorem holdBay_mem (b : Bay) (s : State) : (holdBay b s).mem = s.mem := rfl
@[simp] theorem holdBay_draws (b : Bay) (s : State) : (holdBay b s).draws = s.draws := rfl
@[simp] theorem holdBay_checkDraws (b : Bay) (s : State) : (holdBay b s).checkDraws = s.checkDraws := rfl
@[simp] theorem holdBay_pending (b : Bay) (s : State) : (holdBay b s).pending = s.pending := rfl

@[simp] theorem clearHold_time (s : State) : (clearHold s).time = s.time := rfl
@[simp] theorem clearHold_link (s : State) : (clearHold s).link = s.link := rfl
@[simp] theorem clearHold_ctl (s : State) : (clearHold s).ctl = s.ctl := rfl
@[simp] theorem clearHold_notices (s : State) : (clearHold s).notices = s.notices := rfl
@[simp] theorem clearHold_mon (s : State) : (clearHold s).mon = s.mon := rfl
@[simp] theorem clearHold_code (s : State) : (clearHold s).code = s.code := rfl
@[simp] theorem clearHold_rail (s : State) : (clearHold s).rail = s.rail := rfl
@[simp] theorem clearHold_scanner (s : State) : (clearHold s).scanner = s.scanner := rfl
@[simp] theorem clearHold_con (s : State) : (clearHold s).con = s.con := rfl
@[simp] theorem clearHold_seq (s : State) : (clearHold s).seq = s.seq := rfl
@[simp] theorem clearHold_drv (s : State) : (clearHold s).drv = s.drv := rfl
@[simp] theorem clearHold_str (s : State) : (clearHold s).str = s.str := rfl
@[simp] theorem clearHold_pool (s : State) : (clearHold s).pool = s.pool := rfl
@[simp] theorem clearHold_slots (s : State) : (clearHold s).slots = s.slots := rfl
@[simp] theorem clearHold_lanes (s : State) : (clearHold s).lanes = s.lanes := rfl
@[simp] theorem clearHold_disp (s : State) : (clearHold s).disp = { s.disp with hold := 0#8 } := rfl
@[simp] theorem clearHold_eng (s : State) : (clearHold s).eng = s.eng := rfl
@[simp] theorem clearHold_port (s : State) : (clearHold s).port = s.port := rfl
@[simp] theorem clearHold_mem (s : State) : (clearHold s).mem = s.mem := rfl
@[simp] theorem clearHold_draws (s : State) : (clearHold s).draws = s.draws := rfl
@[simp] theorem clearHold_checkDraws (s : State) : (clearHold s).checkDraws = s.checkDraws := rfl
@[simp] theorem clearHold_pending (s : State) : (clearHold s).pending = s.pending := rfl

@[simp] theorem rotate_time (b : Bay) (s : State) : (rotate b s).time = s.time := rfl
@[simp] theorem rotate_link (b : Bay) (s : State) : (rotate b s).link = s.link := rfl
@[simp] theorem rotate_ctl (b : Bay) (s : State) : (rotate b s).ctl = s.ctl := rfl
@[simp] theorem rotate_notices (b : Bay) (s : State) : (rotate b s).notices = s.notices := rfl
@[simp] theorem rotate_mon (b : Bay) (s : State) : (rotate b s).mon = s.mon := rfl
@[simp] theorem rotate_code (b : Bay) (s : State) : (rotate b s).code = s.code := rfl
@[simp] theorem rotate_rail (b : Bay) (s : State) : (rotate b s).rail = s.rail := rfl
@[simp] theorem rotate_scanner (b : Bay) (s : State) : (rotate b s).scanner = s.scanner := rfl
@[simp] theorem rotate_con (b : Bay) (s : State) : (rotate b s).con = s.con := rfl
@[simp] theorem rotate_seq (b : Bay) (s : State) : (rotate b s).seq = s.seq := rfl
@[simp] theorem rotate_drv (b : Bay) (s : State) : (rotate b s).drv = s.drv := rfl
@[simp] theorem rotate_str (b : Bay) (s : State) : (rotate b s).str = s.str := rfl
@[simp] theorem rotate_pool (b : Bay) (s : State) : (rotate b s).pool = s.pool := rfl
@[simp] theorem rotate_slots (b : Bay) (s : State) : (rotate b s).slots = s.slots := rfl
@[simp] theorem rotate_lanes (b : Bay) (s : State) : (rotate b s).lanes = s.lanes := rfl
@[simp] theorem rotate_disp (b : Bay) (s : State) :
    (rotate b s).disp = { s.disp with rotation := s.disp.rotation.filter (fun x => x ≠ b) ++ [b] } := rfl
@[simp] theorem rotate_eng (b : Bay) (s : State) : (rotate b s).eng = s.eng := rfl
@[simp] theorem rotate_port (b : Bay) (s : State) : (rotate b s).port = s.port := rfl
@[simp] theorem rotate_mem (b : Bay) (s : State) : (rotate b s).mem = s.mem := rfl
@[simp] theorem rotate_draws (b : Bay) (s : State) : (rotate b s).draws = s.draws := rfl
@[simp] theorem rotate_checkDraws (b : Bay) (s : State) : (rotate b s).checkDraws = s.checkDraws := rfl
@[simp] theorem rotate_pending (b : Bay) (s : State) : (rotate b s).pending = s.pending := rfl

/-! ### Writes that meet a read in progress (R119, R160, R192) -/

/-- R119, R160, R192: what a write keeps for the reads in progress touches the early bytes of the reads and the count
of draws alone. -/
theorem State.keepEarly_eq (a n : Nat) (s : State) :
    s.keepEarly a n = { s with
      ctl := { s.ctl with earlyBytes := (s.keepEarly a n).ctl.earlyBytes }
      seq := (s.keepEarly a n).seq
      eng := (s.keepEarly a n).eng
      draws := (s.keepEarly a n).draws } := by
  unfold State.keepEarly
  split
  · rw [State.keepProfile]
    split <;> rfl
  · rfl

/-- R119: the sequencer of a bay keeps all but the early bytes of its read. -/
theorem State.keepEarly_seq (a n : Nat) (s : State) (b : Bay) :
    (s.keepEarly a n).seq[b.val] = { s.seq[b.val] with reading := (s.keepEarly a n).seq[b.val].reading }
    ∧ (s.keepEarly a n).seq[b.val].reading.map ImageRead.slot = s.seq[b.val].reading.map ImageRead.slot := by
  unfold State.keepEarly
  split
  · simp [State.keepImage, Function.comp_def]
  · exact ⟨rfl, rfl⟩

/-- R160: an engine keeps all but the early bytes of its read. -/
theorem State.keepEarly_eng (a n : Nat) (s : State) (e : EngineId) :
    (s.keepEarly a n).eng[e.val] = { s.eng[e.val] with early := (s.keepEarly a n).eng[e.val].early } := by
  unfold State.keepEarly
  split
  · simp only [Vector.getElem_ofFn, Fin.eta]
    unfold State.keepList
    split <;> rfl
  · rfl

@[simp] theorem State.keepEarly_idle (a n : Nat) (s : State) (h : s.readInProgress = false) :
    s.keepEarly a n = s := by
  simp [State.keepEarly, h]

@[simp] theorem State.keepEarly_mem (a n : Nat) (s : State) : (s.keepEarly a n).mem = s.mem := by
  rw [State.keepEarly_eq]

@[simp] theorem State.overwrite_mem (a : Nat) (bytes : List Byte) (s : State) :
    (s.overwrite a bytes).mem = s.mem.writeBytes a bytes := by
  simp [State.overwrite]

@[simp] theorem State.hostWrite_mem (a : Nat) (bytes : List Byte) (s : State) :
    (s.hostWrite a bytes).mem = s.mem.writeBytes a bytes := State.overwrite_mem a bytes s

/-! ### A tick, a step -/

@[simp] theorem Driver.ticked_job (v : Driver) : v.ticked.job = v.job := rfl

@[simp] theorem Driver.ticked_line (v : Driver) (d : OutLine) :
    v.ticked.lines[d.val] = { v.lines[d.val] with justRested := false } := by simp [Driver.ticked]

@[simp] theorem State.now_eq (s : State) : s.now = s.time.count := rfl

end Sys2Proof.Machine
end

