-- ==== Sys2Proof/Laws/Publish.lean ====
section
/-! SUPPORT. Publication (R12, R17, R47, R68, R78, R92, R124, R153, R174, R180, R199): the fields stand apart, a field that
does not change is not written, and memory that showed the fields before shows them after. -/

namespace Sys2Proof.Machine

/-- The place of a field: its address and its length. -/
abbrev Field.place (f : Field) : Nat × Nat := (f.1, f.2.length)

/-- Two places share no byte. -/
abbrev Apart (x y : Nat × Nat) : Prop := x.1 + x.2 ≤ y.1 ∨ y.1 + y.2 ≤ x.1

@[simp] theorem fld_place (a n v : Nat) : Field.place (fld a n v) = (a, n) := by
  simp [Field.place, fld, leBytes_length]

@[simp] theorem freeField_place (s : State) : Field.place (freeField s) = (mirrorAddr + 0x1C, 2) := fld_place _ _ _

@[simp] theorem pendingField_place (s : State) : Field.place (pendingField s) = (mirrorAddr + 0x24, 9) := rfl

/-! ### Writing fields -/

theorem Memory.wf_writeField {m : Memory} (h : m.wf) (f : Field) : (m.writeField f).wf :=
  Memory.wf_writeBytes h f.1 f.2

theorem Memory.wf_writeFields {m : Memory} (h : m.wf) (fs : List Field) : (fs.foldl Memory.writeField m).wf := by
  induction fs generalizing m with
  | nil => exact h
  | cons f rest ih => exact ih (Memory.wf_writeField h f)

/-- A byte outside every field written reads as before. -/
theorem Memory.read_writeFields_other (m : Memory) (fs : List Field) (a : Nat)
    (ha : ∀ f ∈ fs, a < f.1 ∨ f.1 + f.2.length ≤ a) : (fs.foldl Memory.writeField m).read a = m.read a := by
  induction fs generalizing m with
  | nil => rfl
  | cons f rest ih =>
    simp only [List.foldl_cons]
    rw [ih (m.writeField f) (fun g hg => ha g (by simp [hg]))]
    exact Memory.read_writeBytes_other m f.1 f.2 a (ha f (by simp))

theorem Memory.readBytes_writeFields_apart (m : Memory) (fs : List Field) (g : Field)
    (hg : ∀ f ∈ fs, Apart g.place f.place) :
    (fs.foldl Memory.writeField m).readBytes g.1 g.2.length = m.readBytes g.1 g.2.length :=
  Memory.readBytes_congr _ _ (fun b h1 h2 =>
    Memory.read_writeFields_other m fs b (fun f hf => by
      have := hg f hf; simp only [Apart] at this; omega))

/-! ### Differences -/

@[simp] theorem diffFields_self (fs : List Field) : diffFields fs fs = [] := by
  induction fs with
  | nil => rfl
  | cons f rest ih => simpa [diffFields] using ih

theorem diffFields_subset {old new : List Field} {f : Field} (h : f ∈ diffFields old new) : f ∈ new := by
  simp only [diffFields, List.mem_filterMap] at h
  obtain ⟨p, hp, he⟩ := h
  split at he
  · cases he
  · cases he; exact (List.of_mem_zip hp).1

theorem diffFields_append (o1 o2 n1 n2 : List Field) (h : o1.length = n1.length) :
    diffFields (o1 ++ o2) (n1 ++ n2) = diffFields o1 n1 ++ diffFields o2 n2 := by
  simp [diffFields, List.zip_append h.symm]

theorem diffFields_flatMap {α : Type} (xs : List α) (o n : α → List Field) (h : ∀ x ∈ xs, (o x).length = (n x).length) :
    diffFields (xs.flatMap o) (xs.flatMap n) = xs.flatMap (fun x => diffFields (o x) (n x)) := by
  induction xs with
  | nil => rfl
  | cons x rest ih =>
    simp only [List.flatMap_cons]
    rw [diffFields_append _ _ _ _ (h x (by simp)), ih (fun y hy => h y (by simp [hy]))]

/-- Memory that shows the old fields shows the new ones once the differences are written. -/
theorem Memory.shows_diff {m : Memory} (h : m.wf) (old new : List Field)
    (hplace : old.map Field.place = new.map Field.place)
    (hapart : new.Pairwise (fun x y => Apart x.place y.place))
    (hrange : ∀ f ∈ new, f.1 + f.2.length ≤ cardMemorySize)
    (hold : ∀ f ∈ old, m.readBytes f.1 f.2.length = f.2) :
    ∀ f ∈ new, ((diffFields old new).foldl Memory.writeField m).readBytes f.1 f.2.length = f.2 := by
  induction new generalizing m old with
  | nil => simp
  | cons n new ih =>
    cases old with
    | nil => simp at hplace
    | cons o old =>
      simp only [List.map_cons, List.cons.injEq] at hplace
      rw [List.pairwise_cons] at hapart
      have hn : ∀ f ∈ diffFields old new, Apart n.place f.place := fun f hf => hapart.1 f (diffFields_subset hf)
      by_cases hno : n = o
      · have hd : diffFields (o :: old) (n :: new) = diffFields old new := by simp [diffFields, hno]
        rw [hd]
        intro f hf
        rcases List.mem_cons.1 hf with rfl | hf
        · rw [Memory.readBytes_writeFields_apart _ _ _ hn]
          exact hno ▸ hold o (by simp)
        · exact ih h old hplace.2 hapart.2 (fun g hg => hrange g (by simp [hg])) (fun g hg => hold g (by simp [hg])) f hf
      · have hd : diffFields (o :: old) (n :: new) = n :: diffFields old new := by simp [diffFields, hno]
        rw [hd]
        simp only [List.foldl_cons]
        have hw := Memory.wf_writeField h n
        have hn1 : (m.writeField n).readBytes n.1 n.2.length = n.2 :=
          Memory.readBytes_writeBytes h n.1 n.2 (hrange n (by simp))
        have hold1 : ∀ g ∈ old, (m.writeField n).readBytes g.1 g.2.length = g.2 := by
          intro g hg
          rw [← hold g (by simp [hg])]
          have hmem : g.place ∈ new.map Field.place := hplace.2 ▸ List.mem_map_of_mem hg
          obtain ⟨f, hf, hfg⟩ := List.mem_map.1 hmem
          have hap := hapart.1 f hf
          rw [hfg] at hap
          simp only [Apart] at hap
          rw [hold g (by simp [hg])]
          rw [← hold g (by simp [hg])]
          simp only [Memory.length_readBytes]
          exact Memory.readBytes_congr _ _ (fun b h1 h2 =>
            Memory.read_writeBytes_other m n.1 n.2 b (by omega))
        intro f hf
        rcases List.mem_cons.1 hf with rfl | hf
        · rw [Memory.readBytes_writeFields_apart _ _ _ hn]; exact hn1
        · exact ih hw old hplace.2 hapart.2 (fun g hg => hrange g (by simp [hg])) hold1 f hf

/-! ### The published fields -/

/-- The places of the published fields, the same in every state. -/
def publishedPlaces : List (Nat × Nat) := (publishedFields State.reset).map Field.place

theorem mirrorFields_places (s t : State) : (mirrorFields s).map Field.place = (mirrorFields t).map Field.place := by
  simp [mirrorFields, refusalFields, syncFields, engineFields]

theorem bayFields_places (s t : State) (b : Bay) :
    (bayFields s b).map Field.place = (bayFields t b).map Field.place := by
  simp [bayFields, railFields]

theorem streamFields_places (s t : State) (b : Bay) :
    (streamFields s b).map Field.place = (streamFields t b).map Field.place := by
  simp [streamFields]

theorem publishedFields_places (s t : State) :
    (publishedFields s).map Field.place = (publishedFields t).map Field.place := by
  simp only [publishedFields, List.map_append, List.map_flatMap, mirrorFields_places s t, bayFields_places s t,
    streamFields_places s t]

/-- The places stand in ascending order. -/
def ascending : List (Nat × Nat) → Bool
  | x :: y :: rest => x.1 + x.2 ≤ y.1 && ascending (y :: rest)
  | _ => true

theorem ascending_apart : ∀ xs : List (Nat × Nat), ascending xs = true → xs.Pairwise (fun x y => x.1 + x.2 ≤ y.1)
  | [], _ => List.Pairwise.nil
  | [x], _ => by simp
  | x :: y :: rest, h => by
    simp only [ascending, Bool.and_eq_true, decide_eq_true_eq] at h
    have ih := ascending_apart (y :: rest) h.2
    rw [List.pairwise_cons]
    refine ⟨fun z hz => ?_, ih⟩
    rcases List.mem_cons.1 hz with rfl | hz
    · exact h.1
    · have := (List.pairwise_cons.1 ih).1 z hz; omega

theorem publishedPlaces_ascending : ascending publishedPlaces = true := by decide +kernel

theorem publishedPlaces_range :
    (publishedPlaces.all (fun x => 0x001000 ≤ x.1 && x.1 + x.2 ≤ 0x004200
      && (x.1 + x.2 ≤ 0x002000 || 0x004000 ≤ x.1))) = true := by decide +kernel

/-- No two published fields share a byte, and every one lies in the status block or in the stream table. -/
theorem publishedPlaces_apart :
    publishedPlaces.Pairwise Apart ∧ ∀ x ∈ publishedPlaces, 0x001000 ≤ x.1 ∧ x.1 + x.2 ≤ 0x004200
      ∧ (x.1 + x.2 ≤ 0x002000 ∨ 0x004000 ≤ x.1) := by
  refine ⟨(ascending_apart _ publishedPlaces_ascending).imp (fun h => .inl h), fun x hx => ?_⟩
  have := List.all_eq_true.1 publishedPlaces_range x hx
  simp at this
  exact ⟨this.1.1, this.1.2, this.2⟩

theorem changedFields_eq (old new : State) :
    changedFields old new = diffFields (publishedFields old) (publishedFields new) := by
  have hlen : ∀ {xs ys : List Field}, xs.map Field.place = ys.map Field.place → xs.length = ys.length :=
    fun h => by simpa using congrArg List.length h
  simp only [publishedFields, changedFields]
  rw [diffFields_append, diffFields_append, diffFields_flatMap, diffFields_flatMap]
  · exact fun b _ => hlen (streamFields_places old new b)
  · exact fun b _ => hlen (bayFields_places old new b)
  · exact hlen (mirrorFields_places old new)
  · have hbay : ∀ b, (bayFields old b).length = (bayFields new b).length :=
      fun b => hlen (bayFields_places old new b)
    simp only [List.length_append, List.length_flatMap, hlen (mirrorFields_places old new), hbay]

theorem publishedFields_area (s : State) (f : Field) (hf : f ∈ publishedFields s) :
    0x001000 ≤ f.1 ∧ f.1 + f.2.length ≤ 0x004200 ∧ (f.1 + f.2.length ≤ 0x002000 ∨ 0x004000 ≤ f.1) := by
  have h := publishedPlaces_apart.2 f.place
    (by rw [publishedPlaces, ← publishedFields_places s]; exact List.mem_map_of_mem hf)
  exact h

/-- Publication writes nothing outside the published area. -/
theorem publish_read_other (old new : State) (a : Nat) (ha : ¬ publishedArea a) :
    (publish old new).mem.read a = new.mem.read a := by
  rw [publish_mem]
  refine Memory.read_writeFields_other _ _ a (fun f hf => ?_)
  rw [changedFields_eq] at hf
  have := publishedFields_area new f (diffFields_subset hf)
  simp only [publishedArea] at ha
  omega

/-- Publication writes nothing where no published field that covers the byte has changed. -/
theorem publish_read_same (old new : State) (a : Nat)
    (ha : ∀ f ∈ changedFields old new, a < f.1 ∨ f.1 + f.2.length ≤ a) :
    (publish old new).mem.read a = new.mem.read a := by
  rw [publish_mem]; exact Memory.read_writeFields_other _ _ a ha

theorem publish_wf {old new : State} (h : new.mem.wf) : (publish old new).mem.wf := by
  rw [publish_mem]; exact Memory.wf_writeFields h _

/-- Memory that shows the old state's fields shows the new state's after publication. -/
theorem publish_shown {old new : State} (h : new.mem.wf)
    (hold : ∀ f ∈ publishedFields old, new.mem.readBytes f.1 f.2.length = f.2) : (publish old new).Shown := by
  intro f hf
  have hf' : f ∈ publishedFields new := hf
  rw [publish_mem, changedFields_eq]
  refine Memory.shows_diff h _ _ (publishedFields_places old new) ?_ ?_ hold f hf'
  · have := publishedPlaces_apart.1
    rw [publishedPlaces, publishedFields_places State.reset new, List.pairwise_map] at this
    exact this
  · intro g hg
    have := publishedFields_area new g hg
    simp only [cardMemorySize]; omega

/-! ### Fields written whether or not they have changed (R12, R78, R192) -/

theorem publishedFields_link (s : State) (l : Link) (m : Memory) (p : List Instr) :
    publishedFields { s with link := l, mem := m, pending := p } = publishedFields s := rfl

theorem publishedFields_rewrite (fs : List Field) (s : State) : publishedFields (rewrite fs s) = publishedFields s :=
  publishedFields_link s s.link _ s.pending

/-- A field among fields that are each itself or apart from it reads back once they are all written. -/
theorem Memory.readBytes_writeFields_mem {m : Memory} (h : m.wf) (fs : List Field) (f : Field)
    (hfs : ∀ g ∈ fs, g = f ∨ Apart f.place g.place) (hrange : f.1 + f.2.length ≤ cardMemorySize) (hf : f ∈ fs) :
    (fs.foldl Memory.writeField m).readBytes f.1 f.2.length = f.2 := by
  induction fs generalizing m with
  | nil => cases hf
  | cons g rest ih =>
    have hrest := fun x hx => hfs x (List.mem_cons_of_mem g hx)
    by_cases hr : f ∈ rest
    · exact ih (Memory.wf_writeField h g) hrest hr
    · obtain rfl : f = g := (List.mem_cons.1 hf).resolve_right hr
      rw [List.foldl_cons, Memory.readBytes_writeFields_apart _ _ _
        (fun x hx => (hrest x hx).resolve_left (fun e => hr (e ▸ hx)))]
      exact Memory.readBytes_writeBytes h _ _ hrange

theorem rewrite_wf {fs : List Field} {s : State} (h : s.mem.wf) : (rewrite fs s).mem.wf := by
  rw [rewrite_mem]
  exact Memory.wf_writeFields h fs

/-- Published fields of a state are each the same field or apart. -/
theorem publishedFields_apart {s : State} {f g : Field} (hf : f ∈ publishedFields s) (hg : g ∈ publishedFields s) :
    g = f ∨ Apart f.place g.place := by
  have h := publishedPlaces_apart.1
  rw [publishedPlaces, publishedFields_places State.reset s, List.pairwise_map] at h
  have sym : Std.Symm (fun x y : Field => Apart x.place y.place) := ⟨fun _ _ k => k.symm⟩
  by_cases e : g = f
  · exact .inl e
  · exact .inr (h.forall hf hg (fun k => e k.symm))

/-- Memory that shows the old state's fields shows the new state's after some of them have been written whether or not
they had changed, and the changed ones published. -/
theorem publish_rewrite_shown {old new : State} {fs : List Field} (h : new.mem.wf)
    (hfs : ∀ f ∈ fs, f ∈ publishedFields new)
    (hold : ∀ f ∈ publishedFields old, new.mem.readBytes f.1 f.2.length = f.2) :
    (publish old (rewrite fs new)).Shown := by
  intro f hf
  have hf' : f ∈ publishedFields new := publishedFields_rewrite fs new ▸ hf
  have hc : changedFields old (rewrite fs new) = changedFields old new := by
    rw [changedFields_eq, changedFields_eq, publishedFields_rewrite]
  have hsub : ∀ g ∈ fs ++ changedFields old new, g ∈ publishedFields new := by
    intro g hg
    rcases List.mem_append.1 hg with hg | hg
    · exact hfs g hg
    · rw [changedFields_eq] at hg
      exact diffFields_subset hg
  have hr : f.1 + f.2.length ≤ cardMemorySize := by
    have := publishedFields_area new f hf'
    simp only [cardMemorySize]
    omega
  rw [publish_mem, hc, rewrite_mem, ← List.foldl_append]
  by_cases hm : f ∈ fs ++ changedFields old new
  · exact Memory.readBytes_writeFields_mem h _ f (fun g hg => publishedFields_apart hf' (hsub g hg)) hr hm
  · have hap : ∀ g ∈ fs ++ changedFields old new, Apart f.place g.place := fun g hg =>
      (publishedFields_apart hf' (hsub g hg)).resolve_left (fun e => hm (e ▸ hg))
    rw [Memory.readBytes_writeFields_apart _ _ _ hap]
    have hshown := publish_shown (old := old) h hold f hf'
    rw [publish_mem, Memory.readBytes_writeFields_apart _ _ _
      (fun g hg => hap g (List.mem_append_right _ hg))] at hshown
    exact hshown

/-! ### The outcome of a command -/

theorem commit_eq (old new : State) : commit old new = .next (publish old (signalLine old new)) := rfl

@[simp] theorem lineSignals_same (form : LinkForm) (x : Bool) : lineSignals form x x = [] := by
  cases form <;> cases x <;> rfl

@[simp] theorem Link.signal_same (l : Link) (x : Bool) : l.signal x x = l := by
  unfold Link.signal
  split <;> simp

end Sys2Proof.Machine
end

