-- ==== Sys2Proof/Laws/Effects.lean ====
section
/-! SUPPORT. What the shared operations may touch: one lemma per operation, from the offer of a record to a whole
condition event, an end of a job and STOP's requests. -/

namespace Sys2Proof.Machine

/-- What a job's owner, a condition event or an end of a job leaves alone: the time, the link, Control, the monitors,
the rails, the waiting commands, and every byte of memory outside the device's own areas. -/
structure Wide (s t : State) : Prop where
  time : t.time = s.time
  link : t.link = s.link
  ctl : t.ctl = s.ctl
  mon : t.mon = s.mon
  rail : t.rail = s.rail
  scanner : t.scanner = s.scanner
  draws : t.draws = s.draws
  pending : t.pending = s.pending
  area : ∀ a, ¬ deviceArea a → t.mem.read a = s.mem.read a
  wf : s.mem.wf → t.mem.wf

/-- What a condition event or a record leaves alone besides: the code lanes, the engines and the scan ports. -/
structure Effects (s t : State) : Prop extends Wide s t where
  code : t.code = s.code
  eng : t.eng = s.eng
  port : t.port = s.port
  checkDraws : t.checkDraws = s.checkDraws

namespace Wide

theorem refl (s : State) : Wide s s := ⟨rfl, rfl, rfl, rfl, rfl, rfl, rfl, rfl, fun _ _ => rfl, id⟩

theorem trans {s t u : State} (h : Wide s t) (k : Wide t u) : Wide s u :=
  ⟨k.time.trans h.time, k.link.trans h.link, k.ctl.trans h.ctl, k.mon.trans h.mon, k.rail.trans h.rail,
    k.scanner.trans h.scanner, k.draws.trans h.draws, k.pending.trans h.pending,
    fun a ha => (k.area a ha).trans (h.area a ha), fun w => k.wf (h.wf w)⟩

theorem forEach {α : Type} (xs : List α) {f : α → State → State} (h : ∀ x s, Wide s (f x s)) (s : State) :
    Wide s (Machine.forEach xs f s) := by
  induction xs generalizing s with
  | nil => exact refl s
  | cons x rest ih => exact (h x s).trans (ih (f x s))

/-- A change that keeps the listed fields and the memory. -/
theorem ofMem {s t : State} (time : t.time = s.time) (link : t.link = s.link) (ctl : t.ctl = s.ctl)
    (mon : t.mon = s.mon) (rail : t.rail = s.rail) (scanner : t.scanner = s.scanner) (draws : t.draws = s.draws)
    (pending : t.pending = s.pending) (mem : t.mem = s.mem) : Wide s t :=
  ⟨time, link, ctl, mon, rail, scanner, draws, pending, fun _ _ => by rw [mem], fun w => mem ▸ w⟩

theorem modEng (e : EngineId) (f : Engine → Engine) (s : State) : Wide s (s.modEng e f) :=
  ofMem rfl rfl rfl rfl rfl rfl rfl rfl rfl

theorem modPort (b : Bay) (f : ScanPort → ScanPort) (s : State) : Wide s (s.modPort b f) :=
  ofMem rfl rfl rfl rfl rfl rfl rfl rfl rfl

theorem modCode (b : Bay) (f : CodeRx → CodeRx) (s : State) : Wide s (s.modCode b f) :=
  ofMem rfl rfl rfl rfl rfl rfl rfl rfl rfl

end Wide

namespace Effects

theorem refl (s : State) : Effects s s := ⟨Wide.refl s, rfl, rfl, rfl, rfl⟩

theorem trans {s t u : State} (h : Effects s t) (k : Effects t u) : Effects s u :=
  ⟨h.toWide.trans k.toWide, k.code.trans h.code, k.eng.trans h.eng, k.port.trans h.port,
    k.checkDraws.trans h.checkDraws⟩

theorem forEach {α : Type} (xs : List α) {f : α → State → State} (h : ∀ x s, Effects s (f x s)) (s : State) :
    Effects s (Machine.forEach xs f s) := by
  induction xs generalizing s with
  | nil => exact refl s
  | cons x rest ih => exact (h x s).trans (ih (f x s))

theorem modSeq (b : Bay) (f : Sequencer → Sequencer) (s : State) : Effects s (s.modSeq b f) :=
  ⟨Wide.ofMem rfl rfl rfl rfl rfl rfl rfl rfl rfl, rfl, rfl, rfl, rfl⟩

theorem modCon (b : Bay) (f : Console → Console) (s : State) : Effects s (s.modCon b f) :=
  ⟨Wide.ofMem rfl rfl rfl rfl rfl rfl rfl rfl rfl, rfl, rfl, rfl, rfl⟩

theorem modStr (b : Bay) (f : Stream → Stream) (s : State) : Effects s (s.modStr b f) :=
  ⟨Wide.ofMem rfl rfl rfl rfl rfl rfl rfl rfl rfl, rfl, rfl, rfl, rfl⟩

theorem modDrv (b : Bay) (f : Driver → Driver) (s : State) : Effects s (s.modDrv b f) :=
  ⟨Wide.ofMem rfl rfl rfl rfl rfl rfl rfl rfl rfl, rfl, rfl, rfl, rfl⟩

theorem modOutLine (b : Bay) (d : OutLine) (f : DrvLine → DrvLine) (s : State) : Effects s (s.modOutLine b d f) :=
  modDrv b _ s

theorem modSlot (i : Slot) (f : SlotRec → SlotRec) (s : State) : Effects s (s.modSlot i f) :=
  ⟨Wide.ofMem rfl rfl rfl rfl rfl rfl rfl rfl rfl, rfl, rfl, rfl, rfl⟩

theorem modLane (b : Bay) (l : Lane) (f : LaneQ → LaneQ) (s : State) : Effects s (s.modLane b l f) :=
  ⟨Wide.ofMem rfl rfl rfl rfl rfl rfl rfl rfl rfl, rfl, rfl, rfl, rfl⟩

theorem modPool (p : Pool) (s : State) : Effects s { s with pool := p } :=
  ⟨Wide.ofMem rfl rfl rfl rfl rfl rfl rfl rfl rfl, rfl, rfl, rfl, rfl⟩

theorem modDisp (d : Dispatcher) (s : State) : Effects s { s with disp := d } :=
  ⟨Wide.ofMem rfl rfl rfl rfl rfl rfl rfl rfl rfl, rfl, rfl, rfl, rfl⟩

theorem raiseBay (b : Bay) (f : BayFactor) (s : State) : Effects s (Machine.raiseBay b f s) :=
  ⟨Wide.ofMem rfl rfl rfl rfl rfl rfl rfl rfl rfl, rfl, rfl, rfl, rfl⟩

theorem raiseFixture (f : FixtureFactor) (s : State) : Effects s (Machine.raiseFixture f s) :=
  ⟨Wide.ofMem rfl rfl rfl rfl rfl rfl rfl rfl rfl, rfl, rfl, rfl, rfl⟩

theorem report (i : Slot) (st : Status) (d : BitVec 16) (r : BitVec 64) (s : State) :
    Effects s (Machine.report i st d r s) := modSlot i _ s

/-- Bytes stored in the device's own areas. -/
theorem store (a : Nat) (bytes : List Byte) (s : State) (h : ∀ x, a ≤ x → x < a + bytes.length → deviceArea x) :
    Effects s (s.store a bytes) :=
  ⟨⟨rfl, rfl, rfl, rfl, rfl, rfl, rfl, rfl,
    fun x hx => Memory.read_writeBytes_other s.mem a bytes x (by
      by_cases h1 : a ≤ x
      · by_cases h2 : x < a + bytes.length
        · exact absurd (h x h1 h2) hx
        · omega
      · omega),
    fun w => Memory.wf_writeBytes w a bytes⟩, rfl, rfl, rfl, rfl⟩

/-! ### Records and pages (chapter 2) -/

theorem offer (b : Bay) (body : RecordBody) (t : Tick) (s : State) : Effects s (Machine.offer b body t s) :=
  modStr b _ s

theorem offerAll (body : RecordBody) (t : Tick) (s : State) : Effects s (Machine.offerAll body t s) :=
  forEach allBays (fun b s => offer b body t s) s

theorem closeBatch (b : Bay) (brk : Bool) (s : State) : Effects s (Machine.closeBatch b brk s) := by
  unfold Machine.closeBatch
  split
  · exact refl s
  · exact (offer b _ _ s).trans (modCon b _ _)

theorem toDraining (b : Bay) (s : State) : Effects s (Machine.toDraining b s) :=
  (closeBatch b false s).trans (modStr b _ _)

theorem setPage (p : Page) (st : PageState) (s : State) : Effects s (Machine.setPage p st s) :=
  (modPool { s.pool with map := upd s.pool.map p (fun _ => st) } s).trans
    (store (mapAddr p) (leBytes 1 (pageStateCode st)) _ (fun x h1 h2 => by
    simp only [leBytes_length, mapAddr] at h1 h2; have := p.isLt
    exact .inr (.inl (by omega))))

theorem headerBytes_length (b : Bay) (k : Nat) (u : PageUse) (r : Bool) (lost : Nat) :
    (headerBytes b k u r lost).length = 32 := by
  simp [headerBytes, headerItems, leBytes_length]

theorem writeHeader (b : Bay) (u : PageUse) (r : Bool) (lost : Nat) (s : State) :
    Effects s (Machine.writeHeader b u r lost s) :=
  store _ _ s (fun x h1 _ => .inr (.inr (by simp only [pageAddr] at h1; omega)))

theorem deliver (b : Bay) (u : PageUse) (s : State) : Effects s (Machine.deliver b u s) :=
  (((writeHeader b u _ _ s).trans (setPage _ _ _)).trans (modStr b _ _)).trans (raiseBay b _ _)

theorem retain (b : Bay) (u : PageUse) (s : State) : Effects s (Machine.retain b u s) :=
  ((setPage _ _ s).trans (writeHeader b u _ _ _)).trans (modStr b _ _)

theorem endPage (b : Bay) (s : State) : Effects s (Machine.endPage b s) := by
  unfold Machine.endPage
  split
  · exact refl s
  · split
    · exact (retain b _ s).trans (modStr b _ _)
    · exact (deliver b _ s).trans (modStr b _ _)

theorem openPage (b : Bay) (p : Page) (base : Tick) (s : State) : Effects s (Machine.openPage b p base s) :=
  ((modStr b _ s).trans (setPage p _ _)).trans (writeHeader b _ _ _ _)

theorem allocate (b : Bay) (p : Page) (rest : List Page) (base : Tick) (s : State) :
    Effects s (Machine.allocate b p rest base s) := by
  unfold Machine.allocate
  simp only
  split
  · exact ((modPool _ s).trans (raiseFixture _ _)).trans (openPage b p base _)
  · exact (modPool _ s).trans (openPage b p base _)

theorem recycle (b : Bay) (u : PageUse) (rest : List PageUse) (base : Tick) (s : State) :
    Effects s (Machine.recycle b u rest base s) := (modStr b _ s).trans (openPage b _ base _)

theorem obtainPage {b : Bay} {base : Tick} {s t : State} (h : Machine.obtainPage b base s = some t) :
    Effects s t := by
  unfold Machine.obtainPage at h
  simp only at h
  split at h
  · split at h
    · cases h; exact allocate b _ _ base s
    · split at h
      · cases h; exact allocate b _ _ base s
      · cases h; exact recycle b _ _ base s
    · cases h; exact recycle b _ _ base s
    · cases h
  · split at h
    · cases h; exact allocate b _ _ base s
    · cases h

theorem writeSlot (b : Bay) (body : RecordBody) (late : Bool) (delta : Nat) (s : State) :
    Effects s (Machine.writeSlot b body late delta s) := by
  unfold Machine.writeSlot
  split
  · exact refl s
  · exact (store _ _ s (fun x h1 _ => .inr (.inr (by simp only [recordAddr, pageAddr] at h1; omega)))).trans
      (modStr b _ _)

theorem endIfFull (b : Bay) (s : State) : Effects s (Machine.endIfFull b s) := by
  unfold Machine.endIfFull
  split
  · exact endPage b s
  · exact refl s

theorem dataSlot (b : Bay) (body : RecordBody) (late : Bool) (delta : Nat) (clamped : Tick) (s : State) :
    Effects s (Machine.dataSlot b body late delta clamped s) :=
  (writeSlot b body late delta s).trans (modStr b _ _)

theorem writeData (b : Bay) (body : RecordBody) (late : Bool) (delta : Nat) (clamped : Tick) (s : State) :
    Effects s (Machine.writeData b body late delta clamped s) :=
  (dataSlot b body late delta clamped s).trans (endIfFull b _)

theorem lossSlot (b : Bay) (s : State) : Effects s (Machine.lossSlot b s) :=
  (writeSlot b _ _ _ s).trans (modStr b _ _)

theorem writeLoss (b : Bay) (s : State) : Effects s (Machine.writeLoss b s) := by
  unfold Machine.writeLoss
  split
  · exact refl s
  · exact (lossSlot b s).trans (endIfFull b _)

theorem placeRecord (tries : Nat) (b : Bay) (r : Record) (s : State) :
    Effects s (Machine.placeRecord tries b r s) := by
  induction tries generalizing s with
  | zero => exact refl s
  | succ n ih =>
    unfold Machine.placeRecord
    simp only
    split
    · exact modStr b _ s
    · rename_i s1 h1
      have h0 : Effects s s1 := by
        split at h1
        · exact obtainPage h1
        · cases h1; exact refl s
      have h2 := h0.trans (writeLoss b s1)
      split
      · exact h2.trans (ih _)
      · split
        · exact h2.trans (writeData b _ _ _ _ _)
        · split
          · split
            · exact h2.trans ((writeSlot b _ _ _ _).trans (writeData b _ _ _ _ _))
            · exact h2.trans ((endPage b _).trans (ih _))
          · exact h2.trans (writeData b _ _ _ _ _)

theorem afterTake (b : Bay) (m : Bool) (s : State) : Effects s (Machine.afterTake b m s) := by
  unfold Machine.afterTake
  simp only
  split
  · split
    · split
      · exact (modStr b _ s).trans (toDraining b _)
      · exact modStr b _ s
    · exact modStr b _ s
  · split
    · split
      · exact (modStr b _ s).trans (toDraining b _)
      · exact modStr b _ s
    · exact refl s

theorem served (b : Bay) (s : State) : Effects s (Machine.served b s) := modPool _ s

theorem takeHead (b : Bay) (rest : List Record) (s : State) : Effects s (Machine.takeHead b rest s) :=
  (modStr b _ s).trans (served b _)

theorem serveRecord (b : Bay) (s : State) : Effects s (Machine.serveRecord b s) := by
  unfold Machine.serveRecord
  split
  · exact refl s
  · exact ((takeHead b _ s).trans (placeRecord 3 b _ _)).trans (afterTake b _ _)

theorem takeFlush (b : Bay) (s : State) : Effects s (Machine.takeFlush b s) :=
  (served b s).trans (modStr b _ _)

theorem serveFlush (b : Bay) (s : State) : Effects s (Machine.serveFlush b s) := by
  unfold Machine.serveFlush
  split
  · exact refl s
  · have h1 := takeFlush b s
    simp only
    split
    · split
      · exact (h1.trans ((deliver b _ _).trans (modStr b _ _))).trans (report _ _ _ _ _)
      · exact h1.trans (report _ _ _ _ _)
    · exact h1.trans (report _ _ _ _ _)

theorem deliverAll (b : Bay) (us : List PageUse) (s : State) : Effects s (Machine.deliverAll b us s) :=
  forEach us (fun u s => deliver b u s) s

theorem drainLoss (b : Bay) (s : State) : Effects s (Machine.drainLoss b s) := by
  unfold Machine.drainLoss
  split
  · exact (served b s).trans (writeSlot b _ _ _ _)
  · exact served b s

theorem serveDrain (b : Bay) (s : State) : Effects s (Machine.serveDrain b s) := by
  unfold Machine.serveDrain
  simp only
  split
  · exact ((drainLoss b s).trans (deliverAll b _ _)).trans (modStr b _ _)
  · exact (((drainLoss b s).trans (deliverAll b _ _)).trans (modStr b _ _)).trans (report _ _ _ _ _)

theorem stopTrace (b : Bay) (p : Nat) (taken : Bool) (s : State) : Effects s (Machine.stopTrace b p taken s) := by
  unfold Machine.stopTrace
  simp only
  split
  · split <;> split
    · exact ((modStr b _ s).trans ((deliverAll b _ _).trans (modStr b _ _))).trans (toDraining b _)
    · exact (modStr b _ s).trans (toDraining b _)
    · exact (modStr b _ s).trans ((deliverAll b _ _).trans (modStr b _ _))
    · exact modStr b _ s
  · exact refl s

theorem traceOpen (b : Bay) (i : Slot) (mode : StreamMode) (w : Nat) (s : State) :
    Effects s (Machine.traceOpen b i mode w s) := by
  unfold Machine.traceOpen
  simp only
  split
  · exact (modStr b _ s).trans (report _ _ _ _ _)
  · exact report _ _ _ _ s

theorem traceClose (b : Bay) (i : Slot) (s : State) : Effects s (Machine.traceClose b i s) := by
  unfold Machine.traceClose
  simp only
  split
  · exact (toDraining b s).trans (modStr b _ _)
  · split
    · exact modStr b _ s
    · exact report _ _ _ _ s

theorem traceFlush (b : Bay) (i : Slot) (s : State) : Effects s (Machine.traceFlush b i s) := by
  unfold Machine.traceFlush
  simp only
  split
  · split
    · exact modStr b _ s
    · exact report _ _ _ _ s
  · exact report _ _ _ _ s

theorem stopStream (b : Bay) (s : State) : Effects s (Machine.stopStream b s) := by
  unfold Machine.stopStream
  simp only
  split
  · exact toDraining b s
  · split
    · exact modStr b _ s
    · exact refl s

theorem freePage (p : Page) (s : State) : Effects s (Machine.freePage p s) :=
  (setPage p .free s).trans (modPool _ _)

/-! ### Line drivers (chapter 9) -/

theorem setLevel (b : Bay) (d : OutLine) (level : Bool) (c : DriveCause × Option Slot) (s : State) :
    Effects s (Machine.setLevel b d level c s) := (modOutLine b d _ s).trans (offer b _ _ _)

theorem toRest (b : Bay) (d : OutLine) (c : DriveCause × Option Slot) (s : State) :
    Effects s (Machine.toRest b d c s) := (setLevel b d _ c s).trans (modOutLine b d _ _)

theorem toRestIfActive (b : Bay) (d : OutLine) (c : DriveCause × Option Slot) (s : State) :
    Effects s (Machine.toRestIfActive b d c s) := by
  unfold Machine.toRestIfActive
  split
  · exact refl s
  · exact toRest b d c s

theorem countCompleted (b : Bay) (o : Owner) (s : State) : Effects s (Machine.countCompleted b o s) := modDrv b _ s

theorem countSuperseded (b : Bay) (o : Owner) (s : State) : Effects s (Machine.countSuperseded b o s) := modDrv b _ s

theorem endLinesIfDone (b : Bay) (s : State) : Effects s (Machine.endLinesIfDone b s) := by
  unfold Machine.endLinesIfDone
  split
  · exact refl s
  · split
    · exact (modDrv b _ s).trans (report _ _ _ _ _)
    · exact refl s

theorem goActive (b : Bay) (d : OutLine) (p : LineProg) (o : Owner) (s : State) :
    Effects s (Machine.goActive b d p o s) := by
  unfold Machine.goActive
  simp only
  split
  · exact (setLevel b d _ _ s).trans (modOutLine b d _ _)
  · exact ((setLevel b d _ _ s).trans (modOutLine b d _ _)).trans (countCompleted b o _)
  · exact setLevel b d _ _ s

theorem startProgram (b : Bay) (d : OutLine) (p : LineProg) (o : Owner) (s : State) :
    Effects s (Machine.startProgram b d p o s) := by
  unfold Machine.startProgram
  split
  · exact goActive b d p o s
  · exact modOutLine b d _ s

theorem startBuffered (b : Bay) (d : OutLine) (s : State) : Effects s (Machine.startBuffered b d s) := by
  unfold Machine.startBuffered
  split
  · exact refl s
  · exact (modOutLine b d _ s).trans (startProgram b d _ _ _)

theorem releaseForce (b : Bay) (d : OutLine) (c : DriveCause × Option Slot) (s : State) :
    Effects s (Machine.releaseForce b d c s) := (modOutLine b d _ s).trans (toRest b d c _)

theorem arrive (b : Bay) (d : OutLine) (p : LineProg) (o : Owner) (s : State) :
    Effects s (Machine.arrive b d p o s) := by
  unfold Machine.arrive
  split
  · exact refl s
  · simp only
    split
    · split
      · exact ((releaseForce b d _ s).trans (countCompleted b o _)).trans (startBuffered b d _)
      · exact countCompleted b o s
    · split
      · exact startProgram b d _ o s
      · split
        · exact modOutLine b d _ s
        · exact (modOutLine b d _ s).trans (countSuperseded b _ _)

theorem linesAbort (b : Bay) (i : Slot) (st : Status) (s : State) : Effects s (Machine.linesAbort b i st s) := by
  unfold Machine.linesAbort
  split
  · exact refl s
  · split
    · simp only
      refine (Effects.trans (Effects.trans (Effects.trans (Effects.trans (forEach _ (fun d s => ?_) s)
        (forEach _ (fun d s => ?_) _)) (forEach _ (fun d s => ?_) _)) (forEach _ (fun d s => ?_) _))
        (modDrv b _ _)).trans (report _ _ _ _ _)
      · unfold cutRunning
        split
        · exact (modOutLine b d _ s).trans (toRestIfActive b d _ _)
        · exact refl s
      · unfold dropBuffered
        split
        · exact modOutLine b d _ s
        · exact refl s
      · unfold dropForce
        split
        · exact releaseForce b d _ s
        · exact refl s
      · unfold restartLine
        simp only
        split
        · exact startBuffered b d s
        · exact refl s
    · exact refl s

theorem standDown (b : Bay) (s : State) : Effects s (Machine.standDown b s) :=
  forEach allOutLines (fun d s => (modOutLine b d _ s).trans (toRestIfActive b d _ _)) s

theorem delayEnd (b : Bay) (d : OutLine) (s : State) : Effects s (Machine.delayEnd b d s) := by
  unfold Machine.delayEnd
  split
  · split
    · exact (goActive b d _ _ s).trans (endLinesIfDone b _)
    · exact refl s
  · exact refl s

theorem widthEnd (b : Bay) (d : OutLine) (s : State) : Effects s (Machine.widthEnd b d s) := by
  unfold Machine.widthEnd
  split
  · split
    · exact ((((modOutLine b d _ s).trans (toRest b d _ _)).trans (countCompleted b _ _)).trans
        (startBuffered b d _)).trans (endLinesIfDone b _)
    · exact refl s
  · exact refl s

/-! ### Cards and slots (chapter 7) -/

/-- Bytes stored inside a card. -/
theorem storeCard (i : Slot) (offset : Nat) (bytes : List Byte) (s : State) (h : offset + bytes.length ≤ 128) :
    Effects s (s.store (cardAddr i + offset) bytes) :=
  store _ _ s (fun x h1 h2 => .inl (by simp only [cardAddr] at h1 h2; have := i.isLt; omega))

theorem writeCardState (i : Slot) (st : SlotState) (s : State) : Effects s (Machine.writeCardState i st s) :=
  storeCard i 0x40 _ s (by simp [leBytes_length])

theorem writeCardTime (i : Slot) (offset t : Nat) (s : State) (h : offset + 8 ≤ 128) :
    Effects s (Machine.writeCardTime i offset t s) := storeCard i offset _ s (by simpa [leBytes_length] using h)

theorem writeAcceptance (i : Slot) (st : SlotState) (accept : Tick) (s : State) :
    Effects s (Machine.writeAcceptance i st accept s) := by
  unfold Machine.writeAcceptance
  refine (((((Effects.trans (storeCard i _ _ s ?_) (storeCard i _ _ _ ?_)).trans (writeCardTime i _ _ _ ?_)).trans
    (writeCardTime i _ _ _ ?_)).trans (writeCardTime i _ _ _ ?_)).trans (writeCardTime i _ _ _ ?_)).trans
    (writeCardState i st _) <;> simp [leBytes_length]

theorem writeStart (i : Slot) (t : Tick) (s : State) : Effects s (Machine.writeStart i t s) :=
  (writeCardTime i _ _ s (by simp)).trans (writeCardState i _ _)

theorem writeEnd (i : Slot) (st : Status) (d : BitVec 16) (t : Tick) (r : BitVec 64) (s : State) :
    Effects s (Machine.writeEnd i st d t r s) := by
  unfold Machine.writeEnd
  refine (((Effects.trans (storeCard i _ _ s ?_) (storeCard i _ _ _ ?_)).trans (storeCard i _ _ _ ?_)).trans
    (storeCard i _ _ _ ?_)).trans (writeCardState i _ _) <;> simp [leBytes_length]

theorem leaveQueue (b : Bay) (l : Lane) (i : Slot) (s : State) : Effects s (Machine.leaveQueue b l i s) :=
  modLane b l _ s

theorem leaveOwnQueue (i : Slot) (s : State) : Effects s (Machine.leaveOwnQueue i s) := by
  unfold Machine.leaveOwnQueue
  split
  · exact refl s
  · exact leaveQueue _ _ i s

theorem requestSlot (i : Slot) (base : Tick) (s : State) : Effects s (Machine.requestSlot i base s) := by
  unfold Machine.requestSlot
  simp only
  split
  · exact modSlot i _ s
  · exact (modSlot i _ s).trans (modLane _ _ _ _)

theorem closeCard (i : Slot) (st : Status) (d : BitVec 16) (r : BitVec 64) (t : Tick) (s : State) :
    Effects s (Machine.closeCard i st d r t s) := by
  unfold Machine.closeCard
  simp only
  split
  · exact (writeEnd i st d t r s).trans (modSlot i _ _)
  · exact ((writeCardTime i _ _ s (by simp)).trans (writeEnd i st d t r _)).trans (modSlot i _ _)

theorem offerEnd (i : Slot) (s : State) : Effects s (Machine.offerEnd i s) := offer _ _ _ s

theorem endStopped (i : Slot) (s : State) : Effects s (Machine.endStopped i s) :=
  (((leaveOwnQueue i s).trans (closeCard i _ _ _ _ _)).trans (offerEnd i _)).trans (raiseBay _ _ _)

theorem releaseSlot (i : Slot) (s : State) : Effects s (Machine.releaseSlot i s) := by
  unfold Machine.releaseSlot
  split
  · split
    · exact endStopped i s
    · exact (requestSlot i _ s).trans (writeCardState i _ _)
  · exact refl s

/-! ### Condition events (chapter 6) -/

theorem holdBay (b : Bay) (s : State) : Effects s (Machine.holdBay b s) := modDisp _ s

theorem fire (b : Bay) (p : Program) (stage entry : Nat) (s : State) :
    Effects s (Machine.fire b p stage entry s) := by
  have hold : ∀ s, Effects s (fireHold p b s) := fun s => by
    unfold fireHold; split
    · exact holdBay b s
    · exact refl s
  have release : ∀ s, Effects s (fireRelease p s) := fun s => by
    unfold fireRelease; split
    · split
      · exact releaseSlot _ s
      · exact refl s
    · exact refl s
  have stop : ∀ k s, Effects s (fireStopTrace p b k s) := fun k s => by
    unfold fireStopTrace; split
    · exact stopTrace b _ k s
    · exact refl s
  have pulse : ∀ s, Effects s (firePulse p b s) := fun s => by
    unfold firePulse; split
    · split
      · exact (arrive b _ _ _ s).trans (endLinesIfDone b _)
      · exact refl s
    · exact refl s
  have notice : ∀ s, Effects s (fireNotice p b s) := fun s => by
    unfold fireNotice; split
    · exact raiseBay b _ s
    · exact refl s
  unfold Machine.fire
  exact ((((((modSeq b _ s).trans (hold _)).trans (release _)).trans (offer b _ _ _)).trans (stop _ _)).trans
    (pulse _)).trans (notice _)

theorem takeOutcome (b : Bay) (p : Program) (stage i : Nat) (e : Entry) (s : State) :
    Effects s (Machine.takeOutcome b p stage i e s) := by
  unfold Machine.takeOutcome
  split
  · exact fire b _ _ _ s
  · exact modSeq b _ s
  · split
    · exact modSeq b _ s
    · exact fire b _ _ _ s

theorem conditionEvent (b : Bay) (ev : Event) (s : State) : Effects s (Machine.conditionEvent b ev s) := by
  unfold Machine.conditionEvent
  simp only
  split
  · split
    · split
      · exact (modSeq b _ s).trans (takeOutcome b _ _ _ _ _)
      · exact modSeq b _ s
    · exact refl s
  · exact refl s

theorem stallEvent (b : Bay) (n : Nat) (s : State) : Effects s (Machine.stallEvent b n s) :=
  (modSeq b _ s).trans (conditionEvent b _ _)

theorem jobFail (i : Slot) (s : State) : Effects s (Machine.jobFail i s) := by
  unfold Machine.jobFail
  simp only
  split
  · exact conditionEvent _ _ s
  · exact refl s

theorem endSteps (i : Slot) (s : State) : Effects s (Machine.endSteps i s) :=
  ((offerEnd i s).trans (jobFail i _)).trans (raiseBay _ _ _)

theorem endUndispatched (i : Slot) (st : Status) (d : BitVec 16) (r : BitVec 64) (s : State) :
    Effects s (Machine.endUndispatched i st d r s) :=
  ((leaveOwnQueue i s).trans (closeCard i _ _ _ _ _)).trans (endSteps i _)

/-! ### Console ports (chapter 5) -/

theorem endSend (b : Bay) (j : TxJob) (st : Status) (s : State) : Effects s (Machine.endSend b j st s) :=
  (modCon b _ s).trans (report _ _ _ _ _)

theorem sendBegin (b : Bay) (i : Slot) (s : State) : Effects s (Machine.sendBegin b i s) := by
  unfold Machine.sendBegin
  simp only
  split
  · exact modCon b _ s
  · exact report _ _ _ _ s

theorem sendAbort (b : Bay) (i : Slot) (st : Status) (s : State) : Effects s (Machine.sendAbort b i st s) := by
  unfold Machine.sendAbort
  split
  · split
    · split
      · exact modCon b _ s
      · exact endSend b _ st s
    · exact refl s
  · exact refl s

theorem sendPowerLoss (b : Bay) (i : Slot) (s : State) : Effects s (Machine.sendPowerLoss b i s) := by
  unfold Machine.sendPowerLoss
  split
  · split
    · split
      · exact endSend b _ _ s
      · exact endSend b _ _ s
      · exact refl s
    · exact refl s
  · exact refl s

theorem batchByte (b : Bay) (x : Byte) (err : Bool) (fall stop : Tick) (s : State) :
    Effects s (Machine.batchByte b x err fall stop s) := by
  unfold Machine.batchByte
  split
  · simp only
    split
    · exact (modCon b _ s).trans (closeBatch b false _)
    · exact modCon b _ s
  · exact refl s

theorem matchEvents (b : Bay) (s : State) : Effects s (Machine.matchEvents b s) :=
  forEach _ (fun p s => conditionEvent b (.consoleMatch p) s) s

theorem goodByte (b : Bay) (s : State) : Effects s (Machine.goodByte b s) :=
  (((modCon b _ s).trans (batchByte b _ _ _ _ _)).trans (modCon b _ _)).trans (matchEvents b _)

theorem framingByte (b : Bay) (x : Byte) (s : State) : Effects s (Machine.framingByte b x s) :=
  (batchByte b x _ _ _ s).trans (modCon b _ _)

end Effects

/-! ### The stall reference (R67) and arming (R121) -/

/-- R67: an offer of the stall reference touches the bay's code lane and its sequencer alone. -/
theorem offerStall_eq (b : Bay) (t : Tick) (s : State) :
    offerStall b t s = { s with code := (offerStall b t s).code, seq := (offerStall b t s).seq } := by
  unfold offerStall
  split <;> rfl

theorem Wide.offerStall (b : Bay) (t : Tick) (s : State) : Wide s (Machine.offerStall b t s) := by
  rw [offerStall_eq]
  exact Wide.ofMem rfl rfl rfl rfl rfl rfl rfl rfl rfl

theorem Wide.armReadEnd (b : Bay) (r : ImageRead) (s : State) : Wide s (Machine.armReadEnd b r s) := by
  unfold Machine.armReadEnd
  simp only
  have h0 := (Effects.modSeq b (fun q => { q with reading := none }) s).toWide
  split
  · exact h0.trans (Effects.report _ _ _ _ _).toWide
  · split
    · exact (h0.trans ((Effects.modSeq b _ _).toWide.trans (Wide.offerStall b _ _))).trans
        (Effects.report _ _ _ _ _).toWide
    · exact h0.trans (Effects.report _ _ _ _ _).toWide

theorem Effects.armBegin (b : Bay) (i : Slot) (s : State) : Effects s (Machine.armBegin b i s) := by
  unfold Machine.armBegin
  simp only
  split
  · exact (Effects.modSeq b _ s).trans (Effects.report _ _ _ _ _)
  · split
    · exact Effects.modSeq b _ s
    · exact Effects.report _ _ _ _ s

/-! ### Scan engines (chapter 8) -/

/-- R173: the end of a job at an engine touches the engine, its bay's knowledge and its slot's report. -/
theorem Wide.endJob (e : EngineId) (st : Status) (d : BitVec 16) (s : State) : Wide s (Machine.endJob e st d s) := by
  unfold Machine.endJob
  simp only
  split
  · exact Wide.refl s
  · exact ((Wide.modEng e _ s).trans (Wide.modPort _ _ _)).trans (Effects.report _ _ _ _ _).toWide

theorem Wide.beginStep (e : EngineId) (i : Nat) (s : State) : Wide s (Machine.beginStep e i s) := by
  unfold Machine.beginStep
  split
  · exact Wide.endJob e _ _ s
  · exact Wide.modEng e _ s

theorem Wide.stepDone (e : EngineId) (s : State) : Wide s (Machine.stepDone e s) := by
  unfold Machine.stepDone
  simp only
  split
  · exact (Wide.modEng e _ s).trans (Wide.endJob e _ _ _)
  · exact (Wide.modEng e _ s).trans (Wide.beginStep e _ _)

theorem Wide.entryDone (e : EngineId) (s : State) : Wide s (Machine.entryDone e s) := by
  unfold Machine.entryDone
  simp only
  split
  · exact (Wide.modEng e _ s).trans (Wide.endJob e _ _ _)
  · exact (Wide.modEng e _ s).trans (Wide.beginStep e _ _)

theorem Wide.enterEntry (e : EngineId) (b : Bay) (s : State) : Wide s (Machine.enterEntry e b s) := by
  unfold Machine.enterEntry
  simp only
  split
  · exact Wide.entryDone e s
  · exact Wide.modEng e _ s

theorem Wide.loadingEnd (e : EngineId) (b : Bay) (i : Slot) (s : State) : Wide s (Machine.loadingEnd e b i s) := by
  unfold Machine.loadingEnd
  simp only
  split
  · exact (Wide.modEng e _ s).trans (Wide.endJob e _ _ _)
  · exact (Wide.modEng e _ s).trans (Wide.enterEntry e b _)

theorem Wide.scanBegin (e : EngineId) (b : Bay) (i : Slot) (s : State) : Wide s (Machine.scanBegin e b i s) := by
  unfold Machine.scanBegin
  simp only
  split
  · exact Wide.modEng e _ s
  · exact (Wide.modEng e _ s).trans (Wide.endJob e _ _ _)

theorem Wide.shiftDone (e : EngineId) (x : ScanEntry) (tdo : Nat) (s : State) :
    Wide s (Machine.shiftDone e x tdo s) := by
  unfold Machine.shiftDone
  simp only
  split
  · exact ((Wide.modEng e _ s).trans (Wide.modEng e _ _)).trans (Wide.modEng e _ _)
  · exact ((Wide.modEng e _ s).trans (Wide.modEng e _ _)).trans (Wide.stepDone e _)

theorem Wide.recordCheck (e : EngineId) (x : ScanEntry) (s : State) : Wide s (Machine.recordCheck e x s) := by
  unfold Machine.recordCheck
  split
  · exact Wide.modEng e _ s
  · exact Wide.refl s

theorem Wide.checkStep (e : EngineId) (x : ScanEntry) (s : State) : Wide s (Machine.checkStep e x s) := by
  unfold Machine.checkStep
  split
  · exact ((Wide.recordCheck e x s).trans (Wide.modEng e _ _)).trans (Wide.endJob e _ _ _)
  · exact (Wide.recordCheck e x s).trans (Wide.stepDone e _)

theorem Wide.meetCheck (e : EngineId) (s : State) : Wide s (Machine.meetCheck e s) := by
  have h1 : Wide s { s with checkDraws := s.checkDraws + 1 } := Wide.ofMem rfl rfl rfl rfl rfl rfl rfl rfl rfl
  unfold Machine.meetCheck
  simp only
  split
  · split
    · exact (h1.trans (Wide.recordCheck e _ _)).trans (Wide.modEng e _ _)
    · exact h1
  · exact h1

theorem Wide.scanAbort (e : EngineId) (i : Slot) (st : Status) (s : State) : Wide s (Machine.scanAbort e i st s) := by
  have h1 : Wide s (abortTaken e st s) := Wide.modEng e _ s
  unfold Machine.scanAbort
  simp only
  split
  · split
    · exact Wide.refl s
    · exact Wide.refl s
    · exact h1.trans (Wide.endJob e _ _ _)
    · exact h1.trans (Wide.endJob e _ _ _)
    · exact (h1.trans (Wide.meetCheck e _)).trans (Wide.endJob e _ _ _)
    · exact (h1.trans (Wide.modEng e _ _)).trans (Wide.endJob e _ _ _)
    · split
      · exact (h1.trans (Wide.modEng e _ _)).trans (Wide.endJob e _ _ _)
      · exact h1.trans (Wide.endJob e _ _ _)
    · exact h1
    · exact h1
    · refine h1.trans ?_
      unfold abortClocks
      simp only
      split
      · split
        · exact (Wide.modEng e _ _).trans (Wide.endJob e _ _ _)
        · exact Wide.modEng e _ _
      · exact Wide.refl _
  · exact Wide.refl s

theorem Wide.untrack (e : EngineId) (s : State) : Wide s (Machine.untrack e s) := Wide.modEng e _ s

theorem Wide.cutNow (e : EngineId) (s : State) : Wide s (Machine.cutNow e s) :=
  (Wide.untrack e s).trans (Wide.endJob e _ _ _)

theorem Wide.cutClocks (e : EngineId) (t : Tick) (s : State) : Wide s (Machine.cutClocks e t s) := by
  unfold Machine.cutClocks
  simp only
  split
  · exact (Wide.modEng e _ s).trans (Wide.modEng e _ _)
  · exact (Wide.modEng e _ s).trans (Wide.cutNow e _)

theorem Wide.scanPowerLoss (e : EngineId) (i : Slot) (s : State) : Wide s (Machine.scanPowerLoss e i s) := by
  have h1 : Wide s (s.modEng e (fun g => { g with powerLost := true })) := Wide.modEng e _ s
  unfold Machine.scanPowerLoss
  simp only
  split
  · split
    · exact Wide.refl s
    · exact Wide.refl s
    · exact h1.trans (Wide.cutNow e _)
    · exact h1.trans (Wide.cutNow e _)
    · exact (h1.trans (Wide.meetCheck e _)).trans (Wide.cutNow e _)
    · exact (h1.trans (Wide.modEng e _ _)).trans (Wide.cutNow e _)
    · split
      · exact (h1.trans (Wide.modEng e _ _)).trans (Wide.cutNow e _)
      · exact h1.trans (Wide.cutNow e _)
    · exact h1.trans (Wide.untrack e _)
    · split
      · exact h1.trans (Wide.cutNow e _)
      · exact h1.trans (Wide.cutClocks e _ _)
    · split
      · refine h1.trans ?_
        unfold finishClocks
        split
        · exact (Wide.modEng e _ _).trans (Wide.cutNow e _)
        · exact Wide.untrack e _
      · exact h1.trans (Wide.cutClocks e _ _)
  · exact Wide.refl s

theorem Wide.tapEdge (b : Bay) (rise : Bool) (s : State) : Wide s (Machine.tapEdge b rise s) := by
  unfold Machine.tapEdge
  split
  · exact (Wide.modEng _ _ s).trans (Wide.modPort _ _ _)
  · exact Wide.modPort _ _ s

/-! ### The Dispatcher (chapter 7) -/

theorem Effects.linesBegin (b : Bay) (i : Slot) (s : State) : Effects s (Machine.linesBegin b i s) := by
  unfold Machine.linesBegin
  simp only
  split
  · exact Effects.report _ _ _ _ s
  · split
    · exact Effects.report _ _ _ _ s
    · unfold issueLines
      simp only
      have h1 := (Effects.modDrv b (fun v => { v with job := some ⟨i, s.slots[i.val].accept,
        (readLineEntries s.mem s.slots[i.val].card.offset (s.slots[i.val].card.length / 8)).length, 0, 0⟩ }) s).trans
        (Effects.forEach (readLineEntries s.mem s.slots[i.val].card.offset (s.slots[i.val].card.length / 8))
          (f := issueLine b (.job i s.slots[i.val].accept)) (fun x s => by
            unfold issueLine; split
            · exact Effects.arrive b _ _ _ s
            · exact Effects.refl s) _)
      split
      · refine h1.trans ?_
        unfold detachLines
        split
        · exact Effects.refl _
        · exact (Effects.modDrv b _ _).trans (Effects.report _ _ _ _ _)
      · exact h1.trans (Effects.endLinesIfDone b _)

theorem Wide.handOver (b : Bay) (i : Slot) (e : Option EngineId) (s : State) : Wide s (Machine.handOver b i e s) := by
  unfold Machine.handOver
  split
  · split
    · exact Wide.scanBegin _ b i s
    · exact Wide.refl s
  · exact (Effects.sendBegin b i s).toWide
  · exact (Effects.linesBegin b i s).toWide
  · exact (Effects.armBegin b i s).toWide
  · unfold traceBegin
    simp only
    split
    · exact (Effects.traceOpen b i _ _ s).toWide
    · split
      · exact (Effects.traceClose b i s).toWide
      · exact (Effects.traceFlush b i s).toWide
  · exact Wide.refl s

theorem Effects.beginService (b : Bay) (l : Lane) (i : Slot) (s : State) : Effects s (Machine.beginService b l i s) :=
  ((Effects.modLane b l _ s).trans (Effects.modSlot i _ _)).trans (Effects.writeStart i _ _)

theorem Wide.dispatchSlot (b : Bay) (l : Lane) (i : Slot) (e : Option EngineId) (s : State) :
    Wide s (Machine.dispatchSlot b l i e s) :=
  ((Effects.beginService b l i s).trans (Effects.offer b _ _ _)).toWide.trans (Wide.handOver b i e _)

theorem Wide.abortJob (i : Slot) (st : Status) (s : State) : Wide s (Machine.abortJob i st s) := by
  refine Wide.trans (t := askOwner i st s) ?_ (Effects.modSlot i _ _).toWide
  unfold askOwner
  simp only
  split
  · split
    · exact Wide.scanAbort _ i st s
    · exact Wide.refl s
  · exact (Effects.sendAbort _ i st s).toWide
  · exact (Effects.linesAbort _ i st s).toWide
  · exact Wide.refl s

theorem Wide.cancelTarget (i : Slot) (s : State) : Wide s (Machine.cancelTarget i s) := by
  unfold Machine.cancelTarget
  simp only
  split
  · exact (Effects.endUndispatched i _ _ _ s).toWide
  · exact (Effects.endUndispatched i _ _ _ s).toWide
  · split
    · exact Wide.abortJob i _ s
    · exact Wide.refl s
  · exact Wide.refl s
  · exact Wide.refl s

theorem Wide.carryOutCancel (i : Slot) (c : Card) (s : State) : Wide s (Machine.carryOutCancel i c s) := by
  unfold Machine.carryOutCancel
  split
  · split
    · exact (Wide.cancelTarget _ s).trans (Effects.endUndispatched i _ _ _ _).toWide
    · exact Wide.refl s
  · exact (Wide.forEach _ (fun j s => Wide.cancelTarget j s) s).trans (Effects.endUndispatched i _ _ _ _).toWide

theorem Wide.takePost (i : Slot) (park : Bool) (s : State) : Wide s (Machine.takePost i park s) := by
  unfold Machine.takePost
  simp only
  have h1 : Wide s (copyCard i (readCard s.mem i) s) := (Effects.modSlot i _ s).toWide
  split
  · exact h1.trans ((Effects.closeCard i _ _ _ _ _).trans (Effects.raiseFixture _ _)).toWide
  · exact h1.trans (Effects.endUndispatched i _ _ _ _).toWide
  · refine h1.trans ?_
    unfold acceptCard
    split
    · exact (Effects.writeCardTime i 0x48 _ _ (by simp)).toWide.trans (Wide.carryOutCancel i _ _)
    · split
      · exact ((Effects.modSlot i _ _).trans (Effects.writeAcceptance i _ _ _)).toWide
      · exact ((Effects.requestSlot i _ _).trans (Effects.writeAcceptance i _ _ _)).toWide

theorem Wide.dispatcherStop (s : State) : Wide s (Machine.dispatcherStop s) := by
  unfold Machine.dispatcherStop
  refine Wide.trans (Wide.trans (Wide.trans (Wide.forEach _ (fun i s => ?_) s) (Wide.forEach _ (fun i s => ?_) _))
    (Wide.forEach _ (fun i s => ?_) _)) (Effects.modDisp _ _).toWide
  · unfold stopWaiting
    split
    · exact (Effects.endStopped i s).toWide
    · exact Wide.refl s
  · unfold stopService
    simp only
    split
    · exact Wide.abortJob i _ s
    · exact Wide.refl s
  · unfold stopSetup
    simp only
    split
    · exact (Effects.modSlot i _ s).toWide
    · exact Wide.refl s

theorem Wide.freeEngine (i : Slot) (s : State) : Wide s (Machine.freeEngine i s) := by
  unfold Machine.freeEngine
  simp only
  have h : ∀ b, Wide s (rotate b s) := fun b => (Effects.modDisp _ s).toWide
  split
  · split
    · exact (h _).trans (Wide.modEng _ _ _)
    · exact h _
  · exact Wide.refl s

theorem Effects.leaveService (i : Slot) (s : State) : Effects s (Machine.leaveService i s) := by
  unfold Machine.leaveService
  simp only
  split
  · exact Effects.modLane _ _ _ s
  · exact Effects.refl s

/-! ### The budget that is due (R105) -/

theorem foldl_min_le (xs : List Nat) (x : Nat) : xs.foldl min x ≤ x ∧ ∀ y ∈ xs, xs.foldl min x ≤ y := by
  induction xs generalizing x with
  | nil => simp
  | cons y rest ih =>
    have h := ih (min x y)
    simp only [List.foldl_cons, List.mem_cons, forall_eq_or_imp]
    exact ⟨by omega, by omega, h.2⟩

theorem foldl_min_mem (xs : List Nat) (x : Nat) : xs.foldl min x = x ∨ xs.foldl min x ∈ xs := by
  induction xs generalizing x with
  | nil => simp
  | cons y rest ih =>
    simp only [List.foldl_cons, List.mem_cons]
    rcases ih (min x y) with h | h
    · rw [h]
      omega
    · exact Or.inr (Or.inr h)

/-- The least number of a list. -/
theorem least_eq_some (xs : List Nat) (n : Nat) : least xs = some n ↔ n ∈ xs ∧ ∀ m ∈ xs, n ≤ m := by
  cases xs with
  | nil => simp [least]
  | cons x rest =>
    have h1 := foldl_min_le rest x
    have h2 := foldl_min_mem rest x
    simp only [least, Option.some.injEq, List.mem_cons, forall_eq_or_imp]
    constructor
    · rintro rfl
      exact ⟨h2, h1.1, h1.2⟩
    · rintro ⟨hn, hx, hr⟩
      rcases hn with rfl | hn
      · rcases h2 with h | h
        · exact h
        · exact Nat.le_antisymm h1.1 (hr _ h)
      · refine Nat.le_antisymm (h1.2 n hn) ?_
        rcases h2 with h | h
        · rw [h]; exact hx
        · exact hr _ h

/-- R105: the budget whose CODE_STALL event is due: the least of the program's budgets that fall now. -/
theorem stallDue_eq_some (s : State) (b : Bay) (p : Program) (t : Tick) (n : Nat) (ha : s.seq[b.val].state = .armed)
    (hp : s.seq[b.val].program = some p) (ht : s.seq[b.val].stallStart = some t) :
    s.stallDue b = some n ↔ n ∈ (p.entries.filterMap Entry.stallBudget).filter (s.stallFalls s.seq[b.val] t)
      ∧ ∀ m ∈ (p.entries.filterMap Entry.stallBudget).filter (s.stallFalls s.seq[b.val] t), n ≤ m := by
  simp only [State.stallDue, ha, hp, ht, if_true]
  exact least_eq_some _ n
/-! ### The outcome of a command -/

/-- A command whose direct changes take `s` to `s1` and whose other effects take `s1` to `u`. -/
theorem afterJobs {s s1 u : State} (h : Wide s1 u) (hn : s1.notices = s.notices) :
    ∃ t, commit s u = .next t ∧ t = publish s (signalLine s u) ∧ AfterJobs s1 t := by
  refine ⟨_, rfl, rfl, ⟨?_, ?_, ?_, ?_, ?_, ?_, ?_, ?_, fun a ha => ?_⟩⟩
  · simp [h.time]
  · simp [h.ctl]
  · simp [h.mon]
  · simp [h.rail]
  · simp [h.scanner]
  · simp [h.draws]
  · simp [h.pending]
  · simp [h.link, hn]
  · rw [publish_read_other s _ a (fun k => ha (.inr k)), signalLine_mem, h.area a (fun k => ha (.inl k))]

theorem afterEvents {s s1 u : State} (h : Effects s1 u) (hn : s1.notices = s.notices) :
    ∃ t, commit s u = .next t ∧ t = publish s (signalLine s u) ∧ AfterEvents s1 t := by
  obtain ⟨t, h1, h2, h3⟩ := afterJobs (s := s) h.toWide hn
  refine ⟨t, h1, h2, ⟨h3, ?_, ?_, ?_, ?_⟩⟩
  · rw [h2]; simp [h.code]
  · rw [h2]; simp [h.eng]
  · rw [h2]; simp [h.port]
  · rw [h2]; simp [h.checkDraws]

end Sys2Proof.Machine
end

