-- ==== Sys2Proof/Laws/Abandon.lean ====
section
/-! SUPPORT. Writes that a reset abandons (R21, R187, R195): what card memory then holds, and that the acts of a service
write what the service writes. -/

namespace Sys2Proof.Machine

/-! ### Fields and accesses -/

theorem Memory.writeBytes_append (m : Memory) (a : Nat) (x y : List Byte) :
    m.writeBytes a (x ++ y) = (m.writeBytes a x).writeBytes (a + x.length) y := by
  induction x generalizing m a with
  | nil => rfl
  | cons v rest ih =>
    simp only [List.cons_append, Memory.writeBytes, List.length_cons, ih]
    rw [show a + 1 + rest.length = a + (rest.length + 1) by omega]

/-- Fields that follow one another write their bytes one after another. -/
theorem Memory.writeFields_fieldsFrom (m : Memory) (a : Nat) (xs : List (List Byte)) :
    (fieldsFrom a xs).foldl Memory.writeField m = m.writeBytes a xs.flatten := by
  induction xs generalizing m a with
  | nil => rfl
  | cons x rest ih =>
    simp only [fieldsFrom, List.foldl_cons, List.flatten_cons, Memory.writeBytes_append]
    exact ih _ _

theorem flatten_singles (bytes : List Byte) : (bytes.map (fun v => [v])).flatten = bytes := by
  induction bytes with
  | nil => rfl
  | cons v rest ih => rw [List.map_cons, List.flatten_cons, ih, List.singleton_append]

/-- R187: the accesses of a field write the field. -/
theorem Memory.writeFields_accesses (m : Memory) (f : Field) :
    (accesses f).foldl Memory.writeField m = m.writeField f := by
  unfold accesses
  split
  · rfl
  · rw [Memory.writeFields_fieldsFrom, Memory.writeField, flatten_singles]

theorem Memory.writeFields_allAccesses (m : Memory) (fs : List Field) :
    (fs.flatMap accesses).foldl Memory.writeField m = fs.foldl Memory.writeField m := by
  induction fs generalizing m with
  | nil => rfl
  | cons f rest ih => rw [List.flatMap_cons, List.foldl_append, Memory.writeFields_accesses, ih, List.foldl_cons]

/-- R187: a field of 1, 2, 4 or 8 bytes on a boundary of its own size is one access. -/
theorem accesses_aligned (f : Field) (h : f.2.length ∈ [1, 2, 4, 8]) (ha : f.1 % f.2.length = 0) : accesses f = [f] := by
  unfold accesses
  rw [if_pos]
  simpa using ⟨by simpa using h, ha⟩

theorem fieldsFrom_within (a : Nat) (xs : List (List Byte)) (f : Field) (hf : f ∈ fieldsFrom a xs) :
    a ≤ f.1 ∧ f.1 + f.2.length ≤ a + xs.flatten.length := by
  induction xs generalizing a with
  | nil => cases hf
  | cons x rest ih =>
    simp only [fieldsFrom, List.mem_cons] at hf
    simp only [List.flatten_cons, List.length_append]
    rcases hf with rfl | hf
    · exact ⟨Nat.le_refl a, by simp⟩
    · have := ih _ hf
      omega

theorem accesses_within (f g : Field) (hg : g ∈ accesses f) : f.1 ≤ g.1 ∧ g.1 + g.2.length ≤ f.1 + f.2.length := by
  unfold accesses at hg
  split at hg
  · rw [List.mem_singleton.1 hg]
    exact ⟨Nat.le_refl _, Nat.le_refl _⟩
  · have h := fieldsFrom_within _ _ g hg
    rwa [flatten_singles] at h

/-! ### Memory after abandoned writes -/

/-- R21, R195: the first groups are written, and some accesses of the next. -/
theorem Memory.cutWrites_eq (m : Memory) (groups : List (List Field)) (done draw : Nat) :
    ∃ chosen : List Field, chosen.Sublist ((groups.getD done []).flatMap accesses)
      ∧ m.cutWrites groups done draw
        = ((groups.take done).flatten.flatMap accesses ++ chosen).foldl Memory.writeField m :=
  ⟨_, List.filter_sublist, rfl⟩

theorem Memory.cutWrites_wf {m : Memory} (h : m.wf) (groups : List (List Field)) (done draw : Nat) :
    (m.cutWrites groups done draw).wf := Memory.wf_writeFields h _

/-- Abandoned writes leave every byte outside their fields alone. -/
theorem Memory.read_cutWrites_other (m : Memory) (groups : List (List Field)) (done draw a : Nat)
    (h : ∀ g ∈ groups, ∀ f ∈ g, a < f.1 ∨ f.1 + f.2.length ≤ a) :
    (m.cutWrites groups done draw).read a = m.read a := by
  refine Memory.read_writeFields_other m _ a (fun x hx => ?_)
  have hx : ∃ g ∈ groups, ∃ f ∈ g, x ∈ accesses f := by
    rcases List.mem_append.1 hx with hx | hx
    · obtain ⟨f, hf, hx⟩ := List.mem_flatMap.1 hx
      obtain ⟨g, hg, hf⟩ := List.mem_flatten.1 hf
      exact ⟨g, List.mem_of_mem_take hg, f, hf, hx⟩
    · obtain ⟨f, hf, hx⟩ := List.mem_flatMap.1 (List.mem_filter.1 hx).1
      by_cases hd : done < groups.length
      · rw [List.getD_eq_getElem _ _ hd] at hf
        exact ⟨_, List.getElem_mem hd, f, hf, hx⟩
      · rw [List.getD_eq_default _ _ (by omega)] at hf
        cases hf
  obtain ⟨g, hg, f, hf, hx⟩ := hx
  have := accesses_within f x hx
  have := h g hg f hf
  omega

/-- R21: an abandoned service touches the link, the pending flags, memory and the count of draws alone. -/
theorem abandonService_eq (s : State) :
    abandonService s = { s with
      link := (abandonService s).link
      notices := (abandonService s).notices
      mem := (abandonService s).mem
      draws := (abandonService s).draws } := by
  unfold abandonService
  simp only
  split <;> rfl

theorem abandonService_wf {s : State} (h : s.mem.wf) : (abandonService s).mem.wf := by
  unfold abandonService
  simp only
  split
  · exact h
  · exact Memory.cutWrites_wf h _ _ _

theorem abandonStart_eq (s : State) :
    abandonStart s = { s with mem := (abandonStart s).mem, draws := (abandonStart s).draws } := by
  unfold abandonStart
  split <;> rfl

theorem abandonStart_wf {s : State} (h : s.mem.wf) : (abandonStart s).mem.wf := by
  unfold abandonStart
  split
  · exact Memory.cutWrites_wf h _ _ _
  · exact h

/-- R164: an abandoned result write touches memory and the count of draws alone. -/
theorem abandonResult_eq (e : EngineId) (s : State) :
    abandonResult e s = { s with mem := (abandonResult e s).mem, draws := (abandonResult e s).draws } := by
  unfold abandonResult
  split <;> rfl

theorem abandonResult_wf {e : EngineId} {s : State} (h : s.mem.wf) : (abandonResult e s).mem.wf := by
  unfold abandonResult
  split
  · exact Memory.cutWrites_wf h _ _ _
  · exact h

/-- R21, R164, R195, R198: what a reset abandons changes the link, the pending flags, memory and the count of draws
alone. -/
theorem abandonWork_eq (s : State) :
    abandonWork s = { s with
      link := (abandonService s).link
      notices := (abandonService s).notices
      mem := (abandonWork s).mem
      draws := (abandonWork s).draws } := by
  have hs := abandonService_eq s
  have h0 := abandonStart_eq (abandonService s)
  have h1 := abandonResult_eq 0 (abandonStart (abandonService s))
  have h2 := abandonResult_eq 1 (abandonResult 0 (abandonStart (abandonService s)))
  simp only [abandonWork, forEach, List.foldl_cons, List.foldl_nil]
  generalize abandonResult 1 _ = w at *
  generalize abandonResult 0 _ = v at *
  generalize abandonStart _ = u at *
  generalize abandonService s = t at *
  cases w; cases v; cases u; cases t
  simp_all only [State.mk.injEq]

theorem abandonWork_wf {s : State} (h : s.mem.wf) : (abandonWork s).mem.wf :=
  abandonResult_wf (abandonResult_wf (abandonStart_wf (abandonService_wf h)))

/-- With no work for the writer, no start sequence writing and no result being written, a reset abandons nothing. -/
theorem abandonWork_none {s : State} (h : ∀ b : Bay, s.str[b.val].service = none)
    (hs : s.ctl.startSeq ≠ .initialising) (he : ∀ e : EngineId, s.eng[e.val].resultField = none) :
    abandonWork s = s := by
  have h1 : abandonService s = s := by simp [abandonService, h]
  have h2 : ∀ e, abandonResult e s = s := fun e => by rw [abandonResult, he e]
  simp only [abandonWork, h1, abandonStart, if_neg hs, forEach, List.foldl_cons, List.foldl_nil, h2]

/-! ### The acts of a service write what the service writes -/

/-- Two memories agree outside the published area. -/
def AgreeOff (m n : Memory) : Prop := ∀ a, ¬ publishedArea a → m.read a = n.read a

/-- The fields take a memory to another, outside the published area. -/
def Writes (m0 : Memory) (fs : List Field) (m1 : Memory) : Prop :=
  ∀ m : Memory, m.wf → m0.wf → AgreeOff m m0 →
    m1.wf ∧ AgreeOff (fs.foldl Memory.writeField m) m1

theorem Memory.read_write_congr {m n : Memory} (hm : m.wf) (hn : n.wf) (a x : Nat) (v : Byte)
    (h : m.read x = n.read x) : (m.write a v).read x = (n.write a v).read x := by
  rw [Memory.read_write hm, Memory.read_write hn, h]

theorem Memory.read_writeBytes_congr {m n : Memory} (hm : m.wf) (hn : n.wf) (a x : Nat) (bytes : List Byte)
    (h : m.read x = n.read x) : (m.writeBytes a bytes).read x = (n.writeBytes a bytes).read x := by
  induction bytes generalizing m n a with
  | nil => exact h
  | cons v rest ih =>
    exact ih (Memory.wf_write hm a v) (Memory.wf_write hn a v) (a + 1) (Memory.read_write_congr hm hn a x v h)

namespace Writes

theorem refl (m0 : Memory) : Writes m0 [] m0 := fun _ _ h ha => ⟨h, ha⟩

theorem append {m0 m1 m2 : Memory} {fs gs : List Field} (h : Writes m0 fs m1) (k : Writes m1 gs m2) :
    Writes m0 (fs ++ gs) m2 := fun m hm h0 ha => by
  obtain ⟨h1, hb⟩ := h m hm h0 ha
  rw [List.foldl_append]
  exact k _ (Memory.wf_writeFields hm fs) h1 hb

/-- Fields that follow one another write their bytes. -/
theorem bytes (m0 : Memory) (a : Nat) (xs : List (List Byte)) :
    Writes m0 (fieldsFrom a xs) (m0.writeBytes a xs.flatten) := fun m hm h0 ha =>
  ⟨Memory.wf_writeBytes h0 a _, fun x hx => by
    rw [Memory.writeFields_fieldsFrom]
    exact Memory.read_writeBytes_congr hm h0 a x _ (ha x hx)⟩

/-- One field writes its bytes. -/
theorem field (m0 : Memory) (f : Field) : Writes m0 [f] (m0.writeBytes f.1 f.2) := fun _ hm h0 ha =>
  ⟨Memory.wf_writeBytes h0 _ _, fun x hx => Memory.read_writeBytes_congr hm h0 f.1 x f.2 (ha x hx)⟩

/-- Fields of the published area write nothing outside it. -/
theorem published (m0 : Memory) (fs : List Field)
    (h : ∀ f ∈ fs, ∀ a, f.1 ≤ a → a < f.1 + f.2.length → publishedArea a) : Writes m0 fs m0 := fun m _ h0 ha =>
  ⟨h0, fun x hx => by
    rw [Memory.read_writeFields_other m fs x (fun f hf => ?_), ha x hx]
    by_cases h1 : f.1 ≤ x
    · by_cases h2 : x < f.1 + f.2.length
      · exact absurd (h f hf x h1 h2) hx
      · omega
    · omega⟩

end Writes

/-- The fields that acts write. -/
abbrev fieldsOf (acts : List Act) : List Field := acts.flatMap Act.fields

theorem fieldsOf_append (xs ys : List Act) : fieldsOf (xs ++ ys) = fieldsOf xs ++ fieldsOf ys := List.flatMap_append

theorem fieldsOf_cons (x : Act) (ys : List Act) : fieldsOf (x :: ys) = x.fields ++ fieldsOf ys := List.flatMap_cons

/-- R24, R201: an act on the mirror writes nothing outside the published area. -/
theorem mirrorAct_writes (s t : State) (m0 : Memory) : Writes m0 (mirrorAct s t).fields m0 := by
  refine Writes.published m0 _ (fun f hf a h1 h2 => ?_)
  have hp : f.place ∈ [freeField t, pendingField t].map Field.place := List.mem_map_of_mem (diffFields_subset hf)
  have hr : ∀ x ∈ [freeField t, pendingField t].map Field.place, 0x001000 ≤ x.1 ∧ x.1 + x.2 ≤ 0x002000 := by
    simp [mirrorAddr]
  have := hr (f.1, f.2.length) hp
  simp only [publishedArea]
  omega

theorem slotAct_writes (b : Bay) (body : RecordBody) (late : Bool) (delta : Nat) (s : State) :
    Writes s.mem (slotAct b body late delta s).fields (writeSlot b body late delta s).mem := by
  unfold slotAct writeSlot
  cases s.str[b.val].filling with
  | none => exact Writes.refl _
  | some u => exact Writes.bytes s.mem _ _

theorem deliverActs_writes (b : Bay) (u : PageUse) (s : State) :
    Writes s.mem (fieldsOf (deliverActs b u s)) (deliver b u s).mem :=
  (Writes.bytes s.mem _ _).append ((Writes.field _ _).append ((mirrorAct_writes s _ _).append (Writes.refl _)))

theorem deliverAll_cons (b : Bay) (u : PageUse) (rest : List PageUse) (s : State) :
    deliverAll b (u :: rest) s = deliverAll b rest (deliver b u s) := by
  simp only [deliverAll, forEach, List.foldl_cons]

theorem deliverAllActs_writes (b : Bay) (us : List PageUse) (s : State) :
    Writes s.mem (fieldsOf (deliverAllActs b us s)) (deliverAll b us s).mem := by
  induction us generalizing s with
  | nil => exact Writes.refl _
  | cons u rest ih =>
    rw [deliverAllActs, fieldsOf_append, deliverAll_cons]
    exact (deliverActs_writes b u s).append (ih (deliver b u s))

theorem retain_mem (b : Bay) (u : PageUse) (s : State) : (retain b u s).mem
    = (s.mem.writeBytes (mapAddr u.page) (leBytes 1 (pageStateCode (.retained b)))).writeBytes (pageAddr u.page)
      (headerBytes b s.str[b.val].k u false 0) := rfl

theorem endActs_writes (b : Bay) (s : State) : Writes s.mem (fieldsOf (endActs b s)) (endPage b s).mem := by
  unfold endActs endPage
  cases s.str[b.val].filling with
  | none => exact Writes.refl _
  | some u =>
    simp only
    split
    · rw [State.modStr_mem, retain_mem]
      have hf : fieldsOf [⟨s, mapField u.page (.retained b) :: headerFields b u false 0 s⟩]
          = [mapField u.page (.retained b)] ++ fieldsFrom (pageAddr u.page) (headerItems b s.str[b.val].k u false 0) := by
        simp [headerFields]
      rw [hf]
      exact (Writes.field s.mem (mapField u.page (.retained b))).append (Writes.bytes _ _ _)
    · exact deliverActs_writes b u s

theorem endIfFullActs_writes (b : Bay) (s : State) : Writes s.mem (fieldsOf (endIfFullActs b s)) (endIfFull b s).mem := by
  unfold endIfFullActs endIfFull
  split
  · exact endActs_writes b s
  · exact Writes.refl _

theorem lossActs_writes (b : Bay) (s : State) : Writes s.mem (fieldsOf (lossActs b s)) (writeLoss b s).mem := by
  unfold lossActs writeLoss
  split
  · exact Writes.refl _
  · rw [fieldsOf_cons]
    exact (slotAct_writes b _ _ _ s).append (endIfFullActs_writes b (lossSlot b s))

theorem dataActs_writes (b : Bay) (body : RecordBody) (late : Bool) (delta : Nat) (clamped : Tick) (s : State) :
    Writes s.mem (fieldsOf (dataActs b body late delta clamped s)) (writeData b body late delta clamped s).mem := by
  unfold dataActs writeData
  rw [fieldsOf_cons]
  exact (slotAct_writes b _ _ _ s).append (endIfFullActs_writes b (dataSlot b body late delta clamped s))

/-- R24, R27, R41: a page obtained is opened: its map byte and its header are written. -/
theorem obtainPage_opens {b : Bay} {base : Tick} {s t : State} (h : obtainPage b base s = some t) :
    ∃ u : PageUse, t.str[b.val].filling = some u ∧ t.mem = (s.mem.writeBytes (mapAddr u.page)
      (leBytes 1 (pageStateCode (.filling b)))).writeBytes (pageAddr u.page)
        (headerBytes b t.str[b.val].k u false 0) := by
  have ho : ∀ (p : Page) (x : State), x.mem = s.mem → ∃ u : PageUse, (openPage b p base x).str[b.val].filling = some u
      ∧ (openPage b p base x).mem = (s.mem.writeBytes (mapAddr u.page)
        (leBytes 1 (pageStateCode (.filling b)))).writeBytes (pageAddr u.page)
          (headerBytes b (openPage b p base x).str[b.val].k u false 0) := fun p x hx =>
    ⟨⟨p, x.str[b.val].sequence + 1#32, base, 0, false⟩, by simp [openPage, writeHeader, setPage],
      by simp [openPage, writeHeader, setPage, hx]⟩
  unfold obtainPage at h
  simp only at h
  have ha : ∀ p rest, ∃ u : PageUse, (allocate b p rest base s).str[b.val].filling = some u
      ∧ (allocate b p rest base s).mem = (s.mem.writeBytes (mapAddr u.page)
        (leBytes 1 (pageStateCode (.filling b)))).writeBytes (pageAddr u.page)
          (headerBytes b (allocate b p rest base s).str[b.val].k u false 0) := fun p rest => by
    unfold allocate
    simp only
    exact ho p _ (by split <;> rfl)
  split at h
  · split at h
    · cases h; exact ha _ _
    · split at h
      · cases h; exact ha _ _
      · cases h; exact ho _ _ rfl
    · cases h; exact ho _ _ rfl
    · cases h
  · split at h
    · cases h; exact ha _ _
    · cases h

theorem openActs_writes {b : Bay} {base : Tick} {s t : State} (h : obtainPage b base s = some t) :
    Writes s.mem (fieldsOf (openActs b s t)) t.mem := by
  obtain ⟨u, hu, hm⟩ := obtainPage_opens h
  rw [openActs, hu, hm]
  exact (Writes.field s.mem _).append
    ((mirrorAct_writes s t _).append ((Writes.bytes _ _ _).append (Writes.refl _)))

theorem placeActs_writes (tries : Nat) (b : Bay) (r : Record) (s : State) :
    Writes s.mem (fieldsOf (placeActs tries b r s)) (placeRecord tries b r s).mem := by
  induction tries generalizing s with
  | zero => exact Writes.refl _
  | succ n ih =>
    unfold placeActs placeRecord
    simp only
    cases h1 : (if s.str[b.val].filling.isNone = true then
        obtainPage b (s.str[b.val].timing r.time).clamped s else some s) with
    | none => exact Writes.refl _
    | some s1 =>
      simp only [fieldsOf_append]
      refine Writes.append (m1 := (writeLoss b s1).mem) (Writes.append (m1 := s1.mem) ?_ (lossActs_writes b s1)) ?_
      · split at h1
        · rw [if_pos ‹_›]
          exact openActs_writes h1
        · rw [if_neg ‹_›]
          cases h1
          exact Writes.refl _
      · split
        · exact ih _
        · split
          · exact dataActs_writes b _ _ _ _ _
          · split
            · split
              · rw [fieldsOf_cons]
                exact (slotAct_writes b _ _ _ _).append (dataActs_writes b _ _ _ _ _)
              · rw [fieldsOf_append]
                exact (endActs_writes b _).append (ih _)
            · exact dataActs_writes b _ _ _ _ _

/-- The trigger accounting of a record taken writes no memory. -/
theorem afterTake_mem (b : Bay) (isMark : Bool) (s : State) : (afterTake b isMark s).mem = s.mem := by
  have hc : ∀ x : State, (closeBatch b false x).mem = x.mem := fun x => by
    unfold closeBatch
    split <;> simp [offer]
  have hd : ∀ x : State, (toDraining b x).mem = x.mem := fun x => by simp [toDraining, hc]
  unfold afterTake
  simp only
  split
  · split
    · split <;> simp [hd]
    · simp
  · split
    · split <;> simp [hd]
    · rfl

theorem pageActs_writes (s : State) (b : Bay) (v : Service) :
    Writes s.mem (fieldsOf (s.pageActs b v)) (s.serve b v).mem := by
  cases v with
  | flush =>
    simp only [State.pageActs, State.serve, flushActs, serveFlush]
    cases s.str[b.val].flush with
    | none => exact Writes.refl _
    | some w =>
      cases s.str[b.val].filling with
      | none => exact Writes.refl _
      | some u =>
        simp only [report_mem]
        split
        · exact deliverActs_writes b u (takeFlush b s)
        · exact Writes.refl _
  | drain =>
    have h1 : Writes s.mem (fieldsOf (if s.str[b.val].drainsLoss then
        [slotAct b (.loss s.str[b.val].lostCount) false 0 (served b s)] else [])) (drainLoss b s).mem := by
      unfold drainLoss
      split
      · exact (slotAct_writes b _ _ _ (served b s)).append (Writes.refl _)
      · exact Writes.refl _
    have hm : (serveDrain b s).mem
        = (deliverAll b ((drainLoss b s).str[b.val].retained ++ (drainLoss b s).str[b.val].filling.toList)
          (drainLoss b s)).mem := by
      unfold serveDrain
      simp only
      split <;> rfl
    simp only [State.pageActs, State.serve, drainActs, fieldsOf_append, hm]
    exact h1.append (deliverAllActs_writes b _ (drainLoss b s))
  | record =>
    simp only [State.pageActs, State.serve, recordActs, serveRecord]
    cases s.str[b.val].queue with
    | nil => exact Writes.refl _
    | cons r rest =>
      simp only [afterTake_mem]
      exact placeActs_writes 3 b r (takeHead b rest s)

/-- R20, R33, R46, R47: the writes of all the acts of a service leave, outside the status block and the stream table,
the memory that the service leaves. -/
theorem serviceWrites_whole {s : State} (h : s.mem.wf) (b : Bay) (v : Service) (a : Nat) (ha : ¬ publishedArea a) :
    ((s.serviceWrites b v).flatten.foldl Memory.writeField s.mem).read a = (s.serve b v).mem.read a := by
  have hl : Writes (s.serve b v).mem (diffFields (streamFields s b) (streamFields (s.serve b v) b))
      (s.serve b v).mem := by
    refine Writes.published _ _ (fun f hf x h1 h2 => ?_)
    have hp : f.place ∈ (streamFields (s.serve b v) b).map Field.place := List.mem_map_of_mem (diffFields_subset hf)
    have hr : ∀ x ∈ (streamFields (s.serve b v) b).map Field.place, 0x004000 ≤ x.1 ∧ x.1 + x.2 ≤ 0x004200 := by
      have := b.isLt
      simp [streamFields, streamAddr]
      omega
    have := hr (f.1, f.2.length) hp
    simp only [publishedArea]
    omega
  have hw : (s.serviceWrites b v).flatten = fieldsOf (s.serviceActs b v) := rfl
  rw [hw, State.serviceActs, fieldsOf_append]
  exact ((pageActs_writes s b v).append (hl.append (Writes.refl _)) s.mem h h (fun _ _ => rfl)).2 a ha

end Sys2Proof.Machine
end

