-- ==== Sys2Proof/Laws/Frames.lean ====
section
/-! SUPPORT. Where publication writes: entry by entry, and field by field in the device mirror. -/

namespace Sys2Proof.Machine

/-- R192: what a refused START writes are published fields. -/
theorem refusalFields_published (s : State) : ∀ f ∈ refusalFields s, f ∈ publishedFields s := fun f hf => by
  simp only [publishedFields, mirrorFields, List.append_assoc, List.mem_append]
  exact .inr (.inl hf)

/-- R192: a refused START takes the sequence's end, the outcome, the error and the index, and writes memory. -/
theorem refuseStart_eq (e : ProfileError) (i : Nat) (s : State) :
    refuseStart e i s = { s with
      ctl := { s.ctl with startSeq := .none, outcome := .refused, profileError := e, errorIndex := i }
      mem := (refuseStart e i s).mem } := by
  simp [refuseStart, rewrite, State.modCtl]

theorem refuseStart_wf {s : State} (h : s.mem.wf) (e : ProfileError) (i : Nat) : (refuseStart e i s).mem.wf :=
  rewrite_wf h

/-- A byte of the status block or the stream table reads as before where the fields of its entry are as before. -/
theorem publish_read_entries (old new : State) (a : Nat)
    (hm : ∀ f ∈ diffFields (mirrorFields old) (mirrorFields new), a < f.1 ∨ f.1 + f.2.length ≤ a)
    (hb : ∀ b : Bay, inBayEntry b a → bayFields new b = bayFields old b)
    (hs : ∀ b : Bay, inStreamEntry b a → streamFields new b = streamFields old b) :
    (publish old new).mem.read a = new.mem.read a := by
  refine publish_read_same old new a (fun f hf => ?_)
  simp only [changedFields, List.mem_append, List.mem_flatMap] at hf
  obtain (hf | ⟨b, -, hf⟩) | ⟨b, -, hf⟩ := hf
  · exact hm f hf
  · by_cases h : inBayEntry b a
    · rw [hb b h, diffFields_self] at hf
      cases hf
    · have hp : f.place ∈ (bayFields new b).map Field.place := List.mem_map_of_mem (diffFields_subset hf)
      have hr : ∀ x ∈ (bayFields new b).map Field.place, bayAddr b ≤ x.1 ∧ x.1 + x.2 ≤ bayAddr b + 256 := by
        simp [bayFields, railFields]
        omega
      have := hr _ hp
      simp only [inBayEntry] at h this
      omega
  · by_cases h : inStreamEntry b a
    · rw [hs b h, diffFields_self] at hf
      cases hf
    · have hp : f.place ∈ (streamFields new b).map Field.place := List.mem_map_of_mem (diffFields_subset hf)
      have hr : ∀ x ∈ (streamFields new b).map Field.place, streamAddr b ≤ x.1 ∧ x.1 + x.2 ≤ streamAddr b + 64 := by
        simp [streamFields]
      have := hr _ hp
      simp only [inStreamEntry] at h this
      omega

/-- A byte outside the device mirror is in no field of it. -/
theorem mirrorFields_outside (old new : State) (a : Nat) (h : ¬ inMirror a) :
    ∀ f ∈ diffFields (mirrorFields old) (mirrorFields new), a < f.1 ∨ f.1 + f.2.length ≤ a := by
  intro f hf
  have hp : f.place ∈ (mirrorFields new).map Field.place := List.mem_map_of_mem (diffFields_subset hf)
  have hr : ∀ x ∈ (mirrorFields new).map Field.place, 0x001000 ≤ x.1 ∧ x.1 + x.2 ≤ 0x001800 := by
    simp [mirrorFields, refusalFields, syncFields, engineFields, mirrorAddr]
  have := hr _ hp
  simp only [inMirror] at h this
  omega

/-- The frame of a command that changes the mirror, one bay's entry and one bay's stream entry at most. -/
theorem publish_unchanged {s old new : State} {p : Nat → Prop} (hn : Unchanged p s new)
    (hm : ∀ a, ¬ p a → ∀ f ∈ diffFields (mirrorFields old) (mirrorFields new), a < f.1 ∨ f.1 + f.2.length ≤ a)
    (hb : ∀ (b : Bay) (a : Nat), ¬ p a → inBayEntry b a → bayFields new b = bayFields old b)
    (hs : ∀ (b : Bay) (a : Nat), ¬ p a → inStreamEntry b a → streamFields new b = streamFields old b) :
    Unchanged p s (publish old new) := by
  intro a ha
  rw [publish_read_entries old new a (hm a ha) (fun b => hb b a ha) (fun b => hs b a ha)]
  exact hn a ha

/-- A command that leaves every published field as it was publishes nothing. -/
theorem publish_same {old new : State} (h : publishedFields new = publishedFields old) : publish old new = new := by
  unfold publish
  rw [changedFields_eq, h, diffFields_self]
  rfl

/-- Fields that stand apart read back once they are all written. -/
theorem Memory.readBytes_writeFields {m : Memory} (h : m.wf) (fs : List Field)
    (hapart : fs.Pairwise (fun x y => Apart x.place y.place)) (hrange : ∀ f ∈ fs, f.1 + f.2.length ≤ cardMemorySize)
    (f : Field) (hf : f ∈ fs) : (fs.foldl Memory.writeField m).readBytes f.1 f.2.length = f.2 := by
  induction fs generalizing m with
  | nil => cases hf
  | cons g rest ih =>
    rw [List.pairwise_cons] at hapart
    simp only [List.foldl_cons]
    rcases List.mem_cons.1 hf with rfl | hf
    · rw [Memory.readBytes_writeFields_apart _ _ _ hapart.1]
      exact Memory.readBytes_writeBytes h _ _ (hrange _ (by simp))
    · exact ih (Memory.wf_writeField h g) hapart.2 (fun x hx => hrange x (by simp [hx])) hf

/-- A published field that has changed reads back after publication. -/
theorem publish_reads {old new : State} (h : new.mem.wf) (f : Field) (hf : f ∈ changedFields old new) :
    (publish old new).mem.readBytes f.1 f.2.length = f.2 := by
  rw [publish_mem]
  have hsub : (changedFields old new).Sublist (publishedFields new) := by
    rw [changedFields_eq]
    have hl : (publishedFields new).length = (publishedFields old).length := by
      simpa using congrArg List.length (publishedFields_places new old)
    have hz : ((publishedFields new).zip (publishedFields old)).map Prod.fst = publishedFields new :=
      List.map_fst_zip (le_of_eq hl)
    rw [diffFields]
    generalize publishedFields new = ns at *
    generalize publishedFields old = os at *
    clear hf hl
    induction ns generalizing os with
    | nil => simp
    | cons n ns ih =>
      cases os with
      | nil => simp at hz
      | cons o os =>
        simp only [List.zip_cons_cons, List.map_cons, List.cons.injEq, true_and] at hz
        simp only [List.zip_cons_cons, List.filterMap_cons]
        split
        · exact (ih os hz).cons _
        · rename_i heq
          split at heq
          · cases heq
          · cases heq
            exact (ih os hz).cons_cons _
  refine Memory.readBytes_writeFields h _ ?_ (fun g hg => ?_) f hf
  · have := publishedPlaces_apart.1
    rw [publishedPlaces, publishedFields_places State.reset new, List.pairwise_map] at this
    exact this.sublist hsub
  · have := publishedFields_area new g (hsub.subset hg)
    simp only [cardMemorySize]
    omega

end Sys2Proof.Machine
end

