-- ==== Sys2Proof/Tests/Slice0.lean ====
section
/-! SUPPORT. The model's own tests: ill-formed commands refused, the spec's worked examples, and for every obligation
with hypotheses a state and operands that meet them together. -/

namespace Sys2Proof.Tests

open Sys2Proof Sys2Proof.Machine

/-! ### Small states -/

/-- The machine after reset, RUNNING with every bay enabled. -/
def running : State := { State.reset with ctl := { Control.reset with device := .running, enabled := 0xFF#8 } }

/-- A state at a tick count. -/
def clockAt (n : Tick) (s : State) : State := { s with time := { s.time with count := n } }

/-- The next state of a command, or the state itself. -/
def after (c : Instr) (s : State) : State :=
  match exec c s with
  | .next t => t
  | _ => s

/-- A card in memory: its kind, its first five parameter bytes, its offset and its length, for bay 0. -/
def cardAt (i : Slot) (kind : Byte) (params : List Byte) (offset length : Nat) (s : State) : State :=
  (((s.hostWrite (cardAddr i) [kind]).hostWrite (cardAddr i + 0x0C) (leBytes 4 offset)).hostWrite
    (cardAddr i + 0x10) (leBytes 4 length)).hostWrite (cardAddr i + 0x18) params

/-- A slot record with a kind, in a state. -/
def slotWith (kind : Byte) (st : SlotState) : SlotRec :=
  { SlotRec.reset with state := st, card := { Card.reset with kind := kind } }

/-! ### Ill-formed commands are refused -/

theorem test_wf_read_of_no_lane_refused :
    (Instr.timeHighRead 0#4).wf = false ∧ (Instr.timeLowRead 0#4).wf = false ∧ (Instr.noticeRead 0#4).wf = false := by
  decide

theorem test_wf_unknown_command_with_a_known_code_refused :
    (Instr.unknownCommand 1#32).wf = false ∧ (Instr.unknownCommand 5#32).wf = false
    ∧ (Instr.unknownCommand 0#32).wf = true ∧ (Instr.unknownCommand 6#32).wf = true := by decide

theorem test_wf_full_write_of_an_acting_register_refused :
    (Instr.registerWriteIgnored 0x08 15#4 0#32).wf = false ∧ (Instr.registerWriteIgnored 0x0C 15#4 0#32).wf = false
    ∧ (Instr.registerWriteIgnored 0x10 15#4 0#32).wf = false ∧ (Instr.registerWriteIgnored 0x14 15#4 0#32).wf = false
    ∧ (Instr.registerWriteIgnored 0x08 0#4 0#32).wf = false := by decide

theorem test_wf_short_or_inert_write_accepted :
    (Instr.registerWriteIgnored 0x08 7#4 0#32).wf = true ∧ (Instr.registerWriteIgnored 0x00 15#4 0#32).wf = true
    ∧ (Instr.registerWriteIgnored 0x24 15#4 0#32).wf = true := by decide

theorem test_wf_shift_of_more_than_4096_bits_refused :
    (Instr.shiftEnd 0 (1 <<< 4096)).wf = false ∧ (Instr.shiftEnd 0 5).wf = true := by decide +kernel

theorem test_no_word_spells_a_command : decodeTableWord 32 0 = none := rfl

/-! ### The spec's worked examples -/

/-- 4: with full scale 6,600 mV the codes 3103 and 3104. -/
theorem test_rail_values : railValue 6600 3103#12 = 4999 ∧ railValue 6600 3104#12 = 5001 := by decide

/-- 2.5.2: the second record, the late console batch and the record that needs a TIME record, with k = 4. -/
theorem test_worked_encoding_k4 :
    ({ Stream.reset with k := 4, tLast := some 1000003#48 } : Stream).timing 1000250#48
      = ⟨15, false, 1000250#48, false⟩
    ∧ ({ Stream.reset with k := 4, tLast := some 1000250#48 } : Stream).timing 1000100#48
      = ⟨0, true, 1000250#48, false⟩
    ∧ ({ Stream.reset with k := 4, tLast := some 1000250#48 } : Stream).timing 270000000#48
      = ⟨16812485, false, 270000000#48, true⟩ := by decide

/-- 2.5.3: across the wrap of the count, with k = 10. -/
theorem test_worked_encoding_across_the_wrap :
    ({ Stream.reset with k := 10, tLast := some 281474976705656#48 } : Stream).timing 3000#48
      = ⟨7, false, 3000#48, false⟩
    ∧ ({ Stream.reset with k := 10, tLast := some 3000#48 } : Stream).timing 281474976700656#48
      = ⟨0, true, 3000#48, false⟩
    ∧ ({ Stream.reset with k := 10, tLast := some 3000#48 } : Stream).timing 50000#48
      = ⟨46, false, 50000#48, false⟩ := by decide

/-- 7.9, t3: under ROTATING bay 3 wins before bays 0 and 6; under FIXED bay 0. -/
def waitingHeads (a : Arbitration) : State :=
  let s := { running with
    disp := { Dispatcher.reset with rotation := [1, 2, 3, 4, 6, 7, 5, 0], arbitration := a }
    slots := upd (upd (upd running.slots 0 (fun _ => slotWith 1#8 .requested)) 3 (fun _ => slotWith 1#8 .requested)) 6
      (fun _ => slotWith 1#8 .requested) }
  ((s.modLane 0 .access (fun _ => ⟨[0], none⟩)).modLane 3 .access (fun _ => ⟨[3], none⟩)).modLane 6 .access
    (fun _ => ⟨[6], none⟩)

theorem test_worked_grant : (waitingHeads .rotating).winner = some 3 ∧ (waitingHeads .fixed).winner = some 0 := by
  decide

/-- 12.4: the summary of a job of 4 steps without a failed CHECK and 40 bits as a result. -/
theorem test_summary :
    ({ Engine.reset with stepsDone := 4, tdoBits := 40 } : Engine).summary = 0x28FFFF0004#64 := by decide

/-- R189: IDENT reads 0x4B800001, and a write-only register reads 0. -/
theorem test_plain_reads : plainRead 0x00 State.reset = 0x4B800001#32 ∧ plainRead 0x0C State.reset = 0#32 := by decide

/-- R13, R14: TIME_HIGH latches, TIME_LOW takes the latch once. -/
theorem test_time_latch :
    (after (.timeLowRead 15#4) (clockAt 9#48 (after (.timeHighRead 15#4) (clockAt 0x1234556677#48 State.reset)))).link.readData
      = [0x77#8, 0x66#8, 0x55#8, 0x34#8] := by decide

/-- R134: a bay in both masks of a BAYHOLD write is not held. -/
theorem test_bayhold_clears_after_it_sets : (after (.bayhold 0x0105#32) running).disp.hold = 4#8 := by decide

/-- R203: of two pending factors the one of the lower level is taken. -/
theorem test_notice_takes_the_lower_level :
    ({ Notices.reset with
        pend := upd (upd Notices.reset.pend 1 (fun _ => 1#4)) 2 (fun _ => 3#4)
        level := upd Notices.reset.level 1 (fun _ => 2)
        enable := Vector.replicate 8 15#4 } : Notices).choose = some (2, 0) := by decide

/-! ### States and operands that meet the obligations' hypotheses -/

/-- O1. -/
theorem witness_empty_queue : State.reset.pending = [] := rfl

/-- A run of the bench reference, at a count and a milestone. -/
def withRun (start edge now : Tick) (m : Nat) (src : Source) : State :=
  { State.reset with time :=
    { TimeBase.reset false with count := now, run := some ⟨start, edge⟩, milestone := m, source := src } }

/-- O3: no run; an edge 40 ticks after the last; the instants of milestones 1 and 4. -/
theorem witness_reference_run :
    State.reset.time.run = none
    ∧ (withRun 0#48 0#48 40#48 0 .internal).time.run = some ⟨0#48, 0#48⟩
    ∧ elapsed 0#48 (withRun 0#48 0#48 40#48 0 .internal).time.count ≤ 40
    ∧ elapsed 0#48 (withRun 0#48 9990#48 10000#48 0 .internal).time.count = refInstant 0
    ∧ elapsed 0#48 (withRun 0#48 1599990#48 1600000#48 3 .internal).time.count = refInstant 3
    ∧ (withRun 0#48 1599990#48 1600000#48 3 .internal).time.milestone < 4
    ∧ (withRun 0#48 0#48 40#48 0 .internal).mem.wf := by decide

/-- O4, with either source. -/
theorem witness_reference_loss :
    (withRun 0#48 0#48 40#48 4 .bench).time.run = some ⟨0#48, 0#48⟩
    ∧ elapsed 0#48 (withRun 0#48 0#48 40#48 4 .bench).time.count = 40
    ∧ (withRun 0#48 0#48 40#48 4 .bench).time.source = .bench
    ∧ (withRun 0#48 0#48 40#48 4 .internal).time.source = .internal := by decide

/-- O5, each clause. -/
theorem witness_selection :
    (withRun 0#48 0#48 0#48 3 .internal).time.milestone ≠ 4
    ∧ ((withRun 0#48 0#48 0#48 4 .bench).time.milestone = 4 ∧ (withRun 0#48 0#48 0#48 4 .bench).time.source = .bench)
    ∧ (withRun 0#48 0#48 0#48 4 .internal).time.source = .internal
    ∧ (withRun 0#48 0#48 0#48 4 .internal).time.source ≠ .bench
    ∧ (withRun 0#48 0#48 0#48 4 .bench).time.source ≠ .internal := by decide

/-- The SYNC input with a pending change since 0, at 100. -/
def syncAt (qual : Bool) : State :=
  { State.reset with time :=
    { TimeBase.reset false with count := 100#48, syncPending := some 0#48, syncQual := qual, syncRaw := !qual } }

/-- O6, each clause. -/
theorem witness_sync :
    (syncAt false).time.syncPending = some 0#48 ∧ elapsed 0#48 (syncAt false).time.count = 100
    ∧ (syncAt false).time.syncQual = false ∧ (syncAt true).time.syncPending = some 0#48
    ∧ elapsed 0#48 (syncAt true).time.count = 100 ∧ (syncAt true).time.syncQual = true := by decide

/-- A RUNNING device whose bay 0 has a stream. -/
def withStream (t : Stream) : State := { running with str := upd running.str 0 (fun _ => t) }

/-- A stream with one record of an event time, a filling page with room for three records, and a t_last. -/
def writing (k : Nat) (time last : Tick) : Stream :=
  { Stream.reset with
    state := .running
    queue := [⟨time, .settle 1⟩]
    k := k
    tLast := some last
    filling := some ⟨0, 1#32, 0#48, 251, false⟩ }

/-- O8. -/
theorem witness_next_work_at_once : NextWork (withStream (writing 0 5#48 0#48)) 1 .record := by
  refine ⟨by decide, by decide, by decide, ?_⟩
  intro k h1 h2
  omega

/-- O8, with the last bay in rotation served. -/
theorem witness_next_work_last :
    NextWork { running with str := upd running.str 7 (fun _ => writing 0 5#48 0#48) } 8 .record := by
  refine ⟨by decide, by decide, by decide, ?_⟩
  intro k h1 h2
  interval_cases k <;> rfl

/-- O9: the hypotheses of the writing of a record, and the three clauses of its delta at their boundaries. -/
theorem witness_record_written :
    (withStream (writing 15 5#48 0#48)).mem.wf
    ∧ (withStream (writing 15 5#48 0#48)).str[(bayAfter (withStream (writing 15 5#48 0#48)) 1).val].queue
      = [⟨5#48, .settle 1⟩]
    ∧ (payload (.settle 1)).length ≤ 11 ∧ 251 + 2 < 254
    ∧ (writing 15 5#48 0#48).lostCount = 0 ∧ (writing 15 5#48 0#48).lapsed = false ∧ (writing 15 5#48 0#48).k ≤ 15
    ∧ quantDelta 0 16777215#48 0#48 < 2 ^ 24
    ∧ (2 ^ 24 ≤ quantDelta 0 16777216#48 0#48 ∧ quantDelta 0 16777216#48 0#48 < 2 ^ (47 - 0))
    ∧ 2 ^ (47 - 0) ≤ quantDelta 0 0x800000000000#48 0#48 := by decide

/-- O9: a first record, one after a lapse, one in time at the limit of its delta, one that needs TIME, and a late one.
-/
theorem witness_timed :
    Timed Stream.reset 5#48 0 false 5#48 false
    ∧ Timed { writing 0 5#48 0#48 with lapsed := true } 5#48 0 false 5#48 true
    ∧ Timed (writing 0 16777215#48 0#48) 16777215#48 16777215 false 16777215#48 false
    ∧ Timed (writing 0 16777216#48 0#48) 16777216#48 16777216 false 16777216#48 true
    ∧ Timed (writing 15 0#48 0#48) 0x800000000000#48 0 true 0#48 false := by
  refine ⟨?_, ?_, ?_, ?_, ?_⟩ <;> simp [Timed, writing, Stream.reset, quantDelta, quantise]

/-- O9: a record in time and a late one. -/
theorem witness_rebuilt_time :
    ((writing 15 0#48 0#48).timing 0x3FFFFFFFFFFF#48).late = false
    ∧ ((writing 15 0#48 0#48).timing 0x800000000000#48).late = true
    ∧ (writing 15 0#48 0#48).tLast = some 0#48 := by decide

/-- O10: a FLUSH whose page is still the filling page, and one whose page is not. -/
theorem witness_flush :
    NextWork (withStream { writing 0 0#48 0#48 with flush := some ⟨0, 0⟩ }) 1 .flush
    ∧ NextWork (withStream { writing 0 0#48 0#48 with flush := some ⟨1, 0⟩ }) 1 .flush
    ∧ (writing 0 0#48 0#48).filling = some ⟨0, 1#32, 0#48, 251, false⟩ := by
  refine ⟨⟨by decide, by decide, by decide, fun k h1 h2 => ?_⟩, ⟨by decide, by decide, by decide, fun k h1 h2 => ?_⟩, rfl⟩
  · omega
  · omega

/-- O10: the end of a drain, with and without a CLOSE job. -/
theorem witness_drain :
    NextWork (withStream { writing 0 0#48 0#48 with state := .draining, queue := [], closer := some 5 }) 1 .drain
    ∧ NextWork (withStream { writing 0 0#48 0#48 with state := .draining, queue := [], closer := none }) 1 .drain := by
  refine ⟨⟨by decide, by decide, by decide, fun k h1 h2 => ?_⟩, ⟨by decide, by decide, by decide, fun k h1 h2 => ?_⟩⟩
  · omega
  · omega

/-- A stream that drains with two retained pages, a filling page and a loss to report. -/
def drainingWindow : Stream :=
  { writing 0 0#48 0#48 with
    state := .draining
    mode := .window
    queue := []
    lostCount := 3
    recycled := true
    retained := [⟨4, 1#32, 0#48, 254, true⟩, ⟨5, 2#32, 0#48, 254, false⟩] }

/-- O10: such a drain, its pages and the room for its LOSS record. -/
theorem witness_drain_pages :
    (withStream drainingWindow).mem.wf ∧ (drainPages drainingWindow).map PageUse.page = [4, 5, 0]
    ∧ ((drainPages drainingWindow).map PageUse.page).Nodup
    ∧ drainingWindow.lostCount ≠ 0 ∧ drainingWindow.filling = some ⟨0, 1#32, 0#48, 251, false⟩ := by decide

/-- O11: page 2,047 CLOSED and named, with 2,047 pages on the free list; a page that is not CLOSED; a number above every
page. -/
theorem witness_release :
    (0x000007FF#32 : Word).toNat % 65536 = (2047 : Page).val
    ∧ ((List.finRange 2048).dropLast : List Page).length < 2048
    ∧ (upd running.pool.map (2047 : Page) (fun _ => PageState.closed 0))[(2047 : Page).val] = .closed 0
    ∧ ((0x00000800#32 : Word).toNat % 65536 = 2048 ∧ ∀ p : Page, (0x00000800#32 : Word).toNat % 65536 ≠ p.val) := by
  refine ⟨by decide, by simp, by simp [upd], by decide, ?_⟩
  intro p
  have h := p.isLt
  simp
  omega

/-- A RUNNING device at a count, with line `l` of bay 0 as given. -/
def withLine (l : InLine) (x : MonLine) (now : Tick) : State := clockAt now (running.modInLine 0 l (fun _ => x))

/-- O12: a stopped monitor; a line without a pending edge; a pending edge that returns. -/
theorem witness_raw_change :
    State.reset.active 0 = false
    ∧ ((withLine 2 ⟨false, false, false, none, 1⟩ 5#48).active 0 = true
      ∧ (withLine 2 ⟨false, false, false, none, 1⟩ 5#48).mon[0].lines[2].edge = none
      ∧ (withLine 2 ⟨false, false, false, none, 1⟩ 5#48).mon[0].lines[2].q ≠ 0)
    ∧ (withLine 2 ⟨true, true, false, some 0#48, 1⟩ 5#48).mon[0].lines[2].edge = some 0#48 := by decide

/-- O13: a pending rise of PLATFORM_RESET and a pending fall of FAULT at their qualification times, and a line with no
qualification time. -/
theorem witness_edge_qualifies :
    ((withLine 1 ⟨true, true, false, some 0#48, 5⟩ 5#48).active 0 = true
      ∧ (withLine 1 ⟨true, true, false, some 0#48, 5⟩ 5#48).mon[0].lines[1].edge = some 0#48
      ∧ elapsed 0#48 (withLine 1 ⟨true, true, false, some 0#48, 5⟩ 5#48).time.count
        = (withLine 1 ⟨true, true, false, some 0#48, 5⟩ 5#48).mon[0].lines[1].q
      ∧ (withLine 1 ⟨true, true, false, some 0#48, 5⟩ 5#48).mon[0].lines[1].raw = true)
    ∧ ((withLine 4 ⟨false, false, true, some 0#48, 5⟩ 5#48).mon[0].lines[4].raw = false
      ∧ elapsed 0#48 (withLine 4 ⟨false, false, true, some 0#48, 5⟩ 5#48).time.count
        = (withLine 4 ⟨false, false, true, some 0#48, 5⟩ 5#48).mon[0].lines[4].q)
    ∧ ((withLine 5 ⟨false, false, false, none, 0⟩ 5#48).mon[0].lines[5].edge = none
      ∧ (withLine 5 ⟨false, false, false, none, 0⟩ 5#48).mon[0].lines[5].q = 0) := by decide

/-- O13 to O15: an edge that qualifies at its qualification time, and with Q of 0 one that qualifies at once, of a line
and of POWER_GOOD in both directions. -/
theorem witness_qualifies :
    Qualifies (withLine 1 ⟨true, true, false, some 0#48, 5⟩ 5#48) 0 1 (.lineQualify 0 1)
      (withLine 1 ⟨true, true, false, some 0#48, 5⟩ 5#48) 0#48 true
    ∧ (∃ x, Qualifies (withLine 4 ⟨true, true, true, none, 0⟩ 5#48) 0 4 (.lineRawChange 0 4) x 5#48 false)
    ∧ (∃ x, Qualifies (withLine 0 ⟨true, true, true, none, 0⟩ 5#48) 0 0 (.lineRawChange 0 0) x 5#48 false)
    ∧ ∃ x, Qualifies (withLine 0 ⟨false, false, false, none, 0⟩ 5#48) 0 0 (.lineRawChange 0 0) x 5#48 true :=
  ⟨Or.inl ⟨rfl, rfl, rfl, by decide, rfl⟩, ⟨_, Or.inr ⟨rfl, rfl, rfl, rfl, rfl, rfl⟩⟩,
    ⟨_, Or.inr ⟨rfl, rfl, rfl, rfl, rfl, rfl⟩⟩, ⟨_, Or.inr ⟨rfl, rfl, rfl, rfl, rfl, rfl⟩⟩⟩

/-- A state with a job of a kind in service of bay 0's ACCESS lane, in slot 9. -/
def serving (kind : Byte) (s : State) : State :=
  (s.modSlot 9 (fun _ => slotWith kind .inService)).modLane 0 .access (fun _ => ⟨[], some 9⟩)

/-- A SEND of four bytes in its second character or gap. -/
def sending (p : TxPhase) (tx : TxState) : Console :=
  { Console.reset with tx := tx, job := some ⟨9, 0x10000, 4, 100, 1, 1, 0x55#8, p⟩ }

/-- An engine at a SCAN of slot 9 of bay 0 in a step list, with its work. -/
def engaged (steps : List ScanEntry) (w : Work) : Engine :=
  { Engine.reset with
    state := .running
    phase := .step
    attached := some (0, 9)
    index := some 0
    steps := steps
    work := w }

/-- A state with engine 1 so engaged. -/
def scanning (g : Engine) (now : Tick) : State := clockAt now ((serving 1#8 running).modEng 1 (fun _ => g))

/-- A step list entry of a kind and an option, of 8 bits or units, with good regions. -/
def stepOf (kind option : Byte) : ScanEntry := ⟨kind, option, 8, 0x10000, 0x10010, 0x10020⟩

/-- A pending edge of POWER_GOOD of bay 0 that is 5 ticks old, in a state. -/
def powerEdge (rise : Bool) (s : State) : State :=
  clockAt 5#48 (s.modInLine 0 0 (fun _ => ⟨rise, rise, !rise, some 0#48, 5⟩))

/-- O14: a pending fall, under a SEND and under a SCAN. -/
theorem witness_power_fall :
    (powerEdge false running).active 0 = true ∧ (powerEdge false running).mon[0].lines[0].edge = some 0#48
    ∧ elapsed 0#48 (powerEdge false running).time.count = (powerEdge false running).mon[0].lines[0].q
    ∧ (powerEdge false running).mon[0].lines[0].raw = false
    ∧ (((powerEdge false (serving 2#8 running)).lane 0 .access).service = some 9
      ∧ (powerEdge false (serving 2#8 running)).slots[9].card.jobKind = some .send
      ∧ (sending (.gap 0#48) .sending).tx = .sending
      ∧ (sending (.character 0#48) (.finishing .timeout)).tx = .finishing .timeout
      ∧ (sending (.gap 0#48) .sending).job = some ⟨9, 0x10000, 4, 100, 1, 1, 0x55#8, .gap 0#48⟩)
    ∧ ((scanning (engaged [stepOf 4#8 0#8] (.clocks 0#48)) 5#48).engineOf 0 = some 1
      ∧ (scanning (engaged [stepOf 4#8 0#8] (.clocks 0#48)) 5#48).slots[9].card.jobKind = some .scan
      ∧ (scanning (engaged [stepOf 4#8 0#8] (.clocks 0#48)) 5#48).eng[1].attached = some (0, 9)
      ∧ (scanning (engaged [stepOf 4#8 0#8] (.clocks 0#48)) 5#48).eng[1].state ≠ .idle
      ∧ (scanning (engaged [stepOf 4#8 0#8] (.clocks 0#48)) 5#48).eng[1].work ≠ .reported) := by decide

/-- O15: a pending rise, with and without an engine. -/
theorem witness_power_rise :
    (powerEdge true running).active 0 = true ∧ (powerEdge true running).mon[0].lines[0].edge = some 0#48
    ∧ elapsed 0#48 (powerEdge true running).time.count = (powerEdge true running).mon[0].lines[0].q
    ∧ (powerEdge true running).mon[0].lines[0].raw = true ∧ (powerEdge true running).engineOf 0 = none
    ∧ (powerEdge true (scanning (engaged [] .check) 0#48)).engineOf 0 = some 1
    ∧ (powerEdge true running).seq[0].state ≠ .armed := by decide

/-- A settling bay 0. -/
def settling (m : Nat) (now : Tick) : State :=
  clockAt now (running.modMon 0 (fun v => { v with settleBase := some 0#48, milestone := m }))

/-- O15: the instants of milestones 1 and 8. -/
theorem witness_settle_milestone :
    (settling 0 100000#48).active 0 = true ∧ (settling 0 100000#48).mon[0].settleBase = some 0#48
    ∧ elapsed 0#48 (settling 0 100000#48).time.count = settleInstant 1
    ∧ (settling 7 20000000#48).mon[0].milestone < 8
    ∧ elapsed 0#48 (settling 7 20000000#48).time.count = settleInstant 8 := by decide

/-- A RUNNING device whose bay 0 has a code lane receiver. -/
def withCode (c : CodeRx) (now : Tick) : State := clockAt now (running.modCode 0 (fun _ => c))

/-- O16, each state of the receiver; O17, a new frame. -/
theorem witness_code_lane :
    (withCode CodeRx.reset 0#48).active 0 = true ∧ (withCode CodeRx.reset 0#48).code[0].state = .idle
    ∧ (withCode { CodeRx.reset with state := .data } 0#48).code[0].state = .data
    ∧ (withCode { CodeRx.reset with state := .data } 0#48).code[0].bits = 0
    ∧ (List.replicate 17 (true, 5#48) : List (Bool × Tick)).length = 17
    ∧ (withCode { CodeRx.reset with state := .stopWait } 0#48).code[0].state = .stopWait := by decide

/-- R60, R61: the code 0xA5C3 with its parity bit clocked in. -/
theorem test_code_0xA5C3 :
    let c := [true, false, true, false, false, true, false, true, true, true, false, false, false, false, true, true,
      true].foldl (fun c x => CodeRx.sampleBit x 7#48 c) { CodeRx.reset with state := .data }
    c.frameCode = 0xA5C3#16 ∧ c.oddParity = true ∧ c.state = .stopWait := by decide

/-- O18: times at their lapse; the stall reference none, lapsed, not later, and later. -/
theorem witness_lapse_and_stall_reference :
    elapsed 0#48 0x400000000000#48 = 2 ^ 46
    ∧ (writing 0 0#48 0#48).tLast = some 0#48 ∧ (writing 0 0#48 0#48).lapsed = false
    ∧ ({ CodeRx.reset with stallRef := some 0#48 } : CodeRx).stallLapsed = false
    ∧ CodeRx.reset.stallRef = none
    ∧ elapsed 0#48 0x7FFFFFFFFFFF#48 < 2 ^ 47 ∧ 2 ^ 47 ≤ elapsed 0#48 0x800000000000#48 := by decide +kernel

/-- O19: a frame of odd parity, one of even parity, a short one and a stalled one. -/
theorem witness_frames :
    ({ CodeRx.reset with state := .stopWait, bits := 17, shift := 1#17 } : CodeRx).oddParity = true
    ∧ ({ CodeRx.reset with state := .stopWait, bits := 17, shift := 3#17 } : CodeRx).oddParity = false
    ∧ (withCode { CodeRx.reset with state := .data, bits := 16 } 0#48).code[0].state = .data
    ∧ (withCode { CodeRx.reset with state := .stopWait, bits := 17, shift := 1#17 } 0#48).active 0 = true
    ∧ (withCode { CodeRx.reset with state := .data, bits := 16 } 100000#48).code[0].state ≠ .idle
    ∧ elapsed (withCode { CodeRx.reset with state := .data, bits := 16 } 100000#48).code[0].lastClk
      (withCode { CodeRx.reset with state := .data, bits := 16 } 100000#48).time.count = 100000 := by decide

/-- A conversion of a rail of bay 7 that ends now, the rail's window as given. -/
def converting (r : RailId) (w : RailWindow) : State :=
  { clockAt 2000#48 (running.modRail 7 r (fun _ => ⟨6600, 4750, 5250, 50, 0, w, none⟩)) with
    scanner := ⟨some (7, r), some ⟨7, r, 0#48⟩⟩ }

/-- O20: with the last rail of the last bay, and the values at the limits of the worked example. -/
theorem witness_conversion :
    (converting 2 .inside).ctl.device = .running ∧ (converting 2 .inside).scanner.conv = some ⟨7, 2, 0#48⟩
    ∧ elapsed 0#48 (converting 2 .inside).time.count = 2000 ∧ (converting 2 .inside).enabled 7 = true
    ∧ (converting 2 .inside).rail[7][2].judge 4750 = .inside ∧ (converting 2 .inside).rail[7][2].judge 4749 = .low
    ∧ (converting 2 .inside).rail[7][2].judge 5250 = .inside ∧ (converting 2 .inside).rail[7][2].judge 5251 = .high
    ∧ (converting 0 .low).rail[7][0].judge 4799 = .low ∧ (converting 0 .low).rail[7][0].judge 4800 = .inside
    ∧ (converting 1 .high).rail[7][1].judge 5201 = .high ∧ (converting 1 .high).rail[7][1].judge 5200 = .inside := by
  decide

/-- A RUNNING device whose bay 0 has a console port. -/
def withCon (c : Console) (now : Tick) : State := clockAt now (running.modCon 0 (fun _ => c))

/-- A byte in reception, at divisor 16. -/
def receiving (sample : Nat) (data : Byte) : Console :=
  { Console.reset with rx := .receiving, sample := sample, data := data }

/-- O21: IDLE, BREAK_HOLD, and the instants of samples 0, 1, 8 and 9. -/
theorem witness_receiver :
    (withCon Console.reset 0#48).con[0].rx = .idle ∧ (withCon { Console.reset with rx := .breakHold } 0#48).active 0 = true
    ∧ elapsed (withCon (receiving 0 0#8) 8#48).con[0].fall (withCon (receiving 0 0#8) 8#48).time.count = 16 / 2 + 0 * 16
    ∧ elapsed (withCon (receiving 1 0#8) 24#48).con[0].fall (withCon (receiving 1 0#8) 24#48).time.count
      = 16 / 2 + 1 * 16
    ∧ elapsed (withCon (receiving 8 0#8) 136#48).con[0].fall (withCon (receiving 8 0#8) 136#48).time.count
      = 16 / 2 + 8 * 16
    ∧ elapsed (withCon (receiving 9 0#8) 152#48).con[0].fall (withCon (receiving 9 0#8) 152#48).time.count
      = 16 / 2 + 9 * 16
    ∧ (withCon (receiving 9 0#8) 152#48).con[0].rx = .receiving := by decide

/-- A program with one entry and one pattern. -/
def program (e : Entry) : Program := ⟨[e], [[0x41#8]], [.timed 0 100], 31#8, 0, 3, 9, 3⟩

/-- An ARMED sequencer in stage `k` with a program of one entry. -/
def armedSeq (e : Entry) (k : Nat) : Sequencer :=
  { Sequencer.reset with
    state := .armed
    program := some (program e)
    stage := some k
    counters := [0]
    stageEntry := some 0#48
    stallStart := some 0#48 }

/-- O22: a good byte that no pattern is compared with, and one that ends the one pattern. -/
theorem witness_good_byte :
    (withCon (receiving 9 0x41#8) 152#48).active 0 = true
    ∧ (withCon (receiving 9 0x41#8) 152#48).con[0].sample = 9
    ∧ (withCon (receiving 9 0x41#8) 152#48).seq[0].state ≠ .armed
    ∧ (armedSeq ⟨1, .consoleMatch 0, 1, .fire⟩ 1).program = some (program ⟨1, .consoleMatch 0, 1, .fire⟩)
    ∧ (program ⟨1, .consoleMatch 0, 1, .fire⟩).patterns[0]? = some [0x41#8]
    ∧ [0x41#8] <:+ (after (.goodByte 0) (withCon (receiving 9 0x41#8) 152#48)).con[0].window := by decide

/-- O23: a framing error at the stop sample, and at the last tick before a break is settled. -/
theorem witness_framing_error :
    ((withCon (receiving 9 1#8) 152#48).con[0].data ≠ 0#8
      ∧ elapsed (withCon (receiving 9 1#8) 152#48).con[0].fall (withCon (receiving 9 1#8) 152#48).time.count
        = 16 / 2 + 9 * 16)
    ∧ ((withCon { Console.reset with rx := .breakCheck } 167#48).con[0].rx = .breakCheck
      ∧ elapsed (withCon { Console.reset with rx := .breakCheck } 167#48).con[0].fall
          (withCon { Console.reset with rx := .breakCheck } 167#48).time.count < 16 / 2 + 10 * 16) := by decide

/-- O23: a break at the instant at which it is settled, and a batch 20 bit times old. -/
theorem witness_break_and_idle_close :
    elapsed (withCon { Console.reset with rx := .breakCheck } 168#48).con[0].fall
        (withCon { Console.reset with rx := .breakCheck } 168#48).time.count = 16 / 2 + 10 * 16
    ∧ (withCon { Console.reset with batch := some ⟨0#48, [(1#8, false)], 152#48⟩ } 472#48).con[0].batch
      = some ⟨0#48, [(1#8, false)], 152#48⟩
    ∧ elapsed 152#48 (withCon Console.reset 472#48).time.count = 20 * 16 := by decide

/-- O24: a character and a gap at their ends, more bytes to come or the last or an abort to end with. -/
theorem witness_send :
    (withCon (sending (.character 0#48) .sending) 160#48).con[0].job
      = some ⟨9, 0x10000, 4, 100, 1, 1, 0x55#8, .character 0#48⟩
    ∧ elapsed 0#48 (withCon (sending (.character 0#48) .sending) 160#48).time.count = 10 * 16
    ∧ (withCon (sending (.character 0#48) (.finishing .timeout)) 160#48).con[0].tx = .finishing .timeout
    ∧ 1 + 1 < 4 ∧ ¬ (3 + 1 < 4) ∧ (100 : Nat) ≠ 0
    ∧ elapsed 0#48 (withCon (sending (.gap 0#48) .sending) 100#48).time.count = 100 := by decide

/-- R94, O24: with a gap of 0 the next byte's start bit begins as the stop bit ends. -/
theorem test_gap_of_zero :
    let c := { sending (.character 0#48) .sending with job := some ⟨9, 0x10000, 4, 0, 1, 1, 0x55#8, .character 0#48⟩ }
    (after (.characterEnd 0) ((withCon c 160#48).hostWrite 0x10002 [0x7A#8])).con[0].job
      = some ⟨9, 0x10000, 4, 0, 2, 2, 0x7A#8, .character 160#48⟩
    ∧ (after (.characterEnd 0) (withCon c 160#48)).conTx 0 = some false := by decide +kernel

/-- O24: the start bit, the last data bit and the stop bit of a character, and a port that does not run. -/
theorem witness_transmit_levels :
    (withCon (sending (.character 0#48) .sending) 159#48).active 0 = true ∧ State.reset.active 0 = false
    ∧ (withCon (sending (.character 0#48) .sending) 15#48).conTx 0 = some false
    ∧ (withCon (sending (.character 0#48) .sending) 143#48).conTx 0 = some ((0x55#8).getLsbD 7)
    ∧ (withCon (sending (.character 0#48) .sending) 159#48).conTx 0 = some true
    ∧ elapsed 0#48 (withCon (sending (.character 0#48) .sending) 159#48).time.count = 9 * 16 + 15 := by decide

/-- A RUNNING device with an ARMED sequencer in bay 0. -/
def armed (e : Entry) (k : Nat) (now : Tick) : State := clockAt now (running.modSeq 0 (fun _ => armedSeq e k))

/-- O25: the action sets of no action and of all, a PARKED slot to release, and a stream to stop. -/
theorem witness_fire :
    (program ⟨1, .jobFail, 1, .fire⟩).actions.getLsbD 2 = true
    ∧ (program ⟨1, .jobFail, 1, .fire⟩).actions.getLsbD 4 = true
    ∧ (program ⟨1, .jobFail, 1, .fire⟩).actions.getLsbD 3 = true
    ∧ (program ⟨1, .jobFail, 1, .fire⟩).pulseLine = (3 : OutLine).val
    ∧ (program ⟨1, .jobFail, 1, .fire⟩).presets[(program ⟨1, .jobFail, 1, .fire⟩).pulsePreset]? = some (.timed 0 100)
    ∧ (program ⟨1, .jobFail, 1, .fire⟩).releaseSlot = (9 : Slot).val
    ∧ (running.modSlot 9 (fun _ => slotWith 1#8 .parked)).slots[9].state = .parked
    ∧ (running.modSlot 9 (fun _ => slotWith 1#8 .parked)).slots[9].card.lane = some .access
    ∧ running.ctl.device ≠ .stopping
    ∧ (withStream (writing 0 0#48 0#48)).str[0].state = .running
    ∧ (withStream (writing 0 0#48 0#48)).str[0].queue.length < 32 := by decide

/-- O25: a stream with a full queue, RUNNING and with an open CONSOLE batch or none, and the fire that it loses. -/
theorem witness_fire_full :
    let full := { writing 0 0#48 0#48 with queue := List.replicate 32 ⟨0#48, .settle 1⟩ }
    (withStream full).ctl.device ≠ .stopping ∧ (withStream full).str[0].state = .running
    ∧ 32 ≤ (withStream full).str[0].queue.length ∧ (withStream full).con[0].batch = none := by decide

/-- R43, R116: with the MARK lost at a full queue, a stop request with P of 0 drains at once, and one with P of 2 counts
at once. -/
theorem test_stop_without_mark :
    let full := { writing 0 0#48 0#48 with queue := List.replicate 32 ⟨0#48, .settle 1⟩ }
    let p (n : Nat) : Program := { program ⟨1, .jobFail, 1, .fire⟩ with actions := 4#8, postCount := n }
    (fire 0 (p 0) 1 0 (withStream full)).str[0].state = .draining
    ∧ (fire 0 (p 2) 1 0 (withStream full)).str[0].state = .postTrigger
    ∧ (fire 0 (p 2) 1 0 (withStream full)).str[0].counting = true
    ∧ (fire 0 (p 2) 1 0 (withStream full)).str[0].lostTotal = full.lostTotal + 1 := by decide

/-- O26: a condition and an event of two kinds. -/
theorem witness_other_kind : conditionKind (.glitch 2) ≠ eventKind (.line 2 true) := by decide

/-- O26: an ARMED sequencer with its counters, an event that completes an entry and one that does not. -/
theorem witness_events :
    (armed ⟨4, .jobFail, 1, .next⟩ 4 0#48).seq[0].state = .armed
    ∧ (armed ⟨4, .jobFail, 1, .next⟩ 4 0#48).seq[0].stage = some 4
    ∧ (armed ⟨4, .jobFail, 1, .next⟩ 4 0#48).seq[0].counters.length = (program ⟨4, .jobFail, 1, .next⟩).entries.length
    ∧ Entry.counts ⟨4, .jobFail, 1, .next⟩ 4 (.jobFail 9 1 .timeout) = true
    ∧ firstComplete 4 (.jobFail 9 1 .timeout) [⟨4, .jobFail, 1, .next⟩] [1] 0 = some (0, ⟨4, .jobFail, 1, .next⟩)
    ∧ firstComplete 4 (.settle 1) [⟨4, .jobFail, 1, .next⟩] [0] 0 = none
    ∧ (running.seq[0].state ≠ .armed) := by decide

/-- O27: a budget of 200 µs due at its instant, and an ELAPSED entry of 1 µs. -/
theorem witness_timed_events :
    (armed ⟨1, .codeStall 200, 1, .fire⟩ 1 20000#48).stallDue 0 = some 200
    ∧ (armed ⟨1, .codeStall 200, 1, .fire⟩ 1 19999#48).stallDue 0 = none
    ∧ (armed ⟨1, .codeStall 200, 1, .fire⟩ 1 20000#48).active 0 = true
    ∧ (armed ⟨1, .elapsed 1, 1, .next⟩ 1 100#48).elapsedDue 0 = some 1
    ∧ elapsed 0#48 (armed ⟨1, .elapsed 1, 1, .next⟩ 1 100#48).time.count = 1 * 100
    ∧ elapsed 0#48 (armed ⟨1, .elapsed 1, 1, .next⟩ 1 99#48).time.count ≠ 1 * 100
    ∧ (Sequencer.reset.state ≠ .armed ∧ State.reset.active 0 = false) ∧ Sequencer.reset.stallStart = none
    ∧ Sequencer.reset.stageEntry = none := by decide

/-- O27: the budget that is due, as the statement says it. -/
theorem witness_budget_due :
    BudgetDue (armed ⟨1, .codeStall 200, 1, .fire⟩ 1 20000#48) 0 (program ⟨1, .codeStall 200, 1, .fire⟩) 0#48 200 := by
  refine ⟨⟨by decide, Or.inl (by decide)⟩, ⟨_, List.mem_cons_self, rfl⟩, ?_⟩
  rintro m - ⟨e, he, hm⟩
  simp only [program, List.mem_singleton] at he
  subst he
  exact le_of_eq (by simpa using hm)

/-- O27: no budget falls at the tick before that one. -/
theorem witness_no_budget_falls (m : Nat)
    (h : ∃ e ∈ (program ⟨1, .codeStall 200, 1, .fire⟩).entries, e.cond = .codeStall m) :
    ¬ BudgetFalls (armed ⟨1, .codeStall 200, 1, .fire⟩ 1 19999#48) 0 0#48 m := by
  obtain ⟨e, he, hm⟩ := h
  simp only [program, List.mem_singleton] at he
  subst he
  obtain rfl : 200 = m := by simpa using hm
  rintro ⟨-, h | ⟨h, -⟩⟩ <;> revert h <;> decide

/-- A RUNNING device whose bay 0 reads a trigger program image of one entry for the ARM in slot 9, with the image's
entry count as given. -/
def armReading (entries : Byte) (stopMark : Bool) : State :=
  (((running.hostWrite 0x11000 [entries, 0#8, 0#8, 1#8]).hostWrite 0x11010
      [1#8, 9#8, 1#8, 2#8, 0xFF#8, 0xFF#8, 0xFF#8, 0#8]).modSlot 9 (fun _ =>
    { slotWith 4#8 .inService with
      stopMark := stopMark
      card := { Card.reset with kind := 4#8, offset := 0x11000, length := 256 } })).modSeq 0 (fun q =>
    { q with reading := some ⟨9, []⟩ })

/-- O28: an image with one ELAPSED entry of the longest time, an image with no entry, and a job marked by STOP. -/
theorem witness_arm_read_end :
    (armReading 1#8 false).seq[0].reading = some ⟨9, []⟩ ∧ (armReading 1#8 false).slots[9].stopMark = false
    ∧ (armReading 1#8 true).slots[9].stopMark = true := by decide

theorem witness_valid_image :
    readProgram (armReading 1#8 false).mem (armReading 1#8 false).slots[9].card.offset
      = .ok ⟨[⟨1, .elapsed 16777215, 1, .fire⟩], [], [], 1#8, 0, 0, 0, 0⟩ := by rfl

theorem witness_invalid_image :
    readProgram (armReading 0#8 false).mem (armReading 0#8 false).slots[9].card.offset = .error (.progSize, 0) := by rfl

/-- O28, R119: an image whose entry count was read before the host changed it is taken as it was read. -/
theorem witness_image_read_early :
    readProgram ((armReading 0#8 false).mem.asRead [(0x11000, 1#8)]) (armReading 0#8 false).slots[9].card.offset
      = .ok ⟨[⟨1, .elapsed 16777215, 1, .fire⟩], [], [], 1#8, 0, 0, 0, 0⟩ := by rfl

/-- A card of a kind for a bay with a gate, a length and parameters. -/
def card (kind bay gate : Byte) (length : Nat) (params : List Byte) : Card :=
  { Card.reset with kind := kind, bay := bay, gate := gate, length := length, params := params }

/-- O29: each check at its boundary, and the order of two that fail together. -/
theorem witness_intake :
    intake 0xFF#8 9 (card 0#8 8#8 9#8 0 []) = .badBay
    ∧ intake 0xFF#8 9 (card 0#8 7#8 9#8 0 []) = .failed .badCard 2#16
    ∧ intake 0xFF#8 9 (card 7#8 7#8 0#8 0 []) = .failed .badCard 2#16
    ∧ intake 0xFF#8 9 (card 1#8 7#8 9#8 8 []) = .failed .badCard 3#16
    ∧ intake 0xFF#8 9 (card 1#8 7#8 8#8 8 []) = .failed .badCard 4#16
    ∧ intake 0xFF#8 9 (card 1#8 7#8 8#8 4096 []) = .accepted
    ∧ intake 0x7F#8 9 (card 1#8 7#8 8#8 16 []) = .failed .bayDisabled 0#16
    ∧ intake 0xFF#8 9 (card 6#8 0#8 9#8 0 [1#8, 9#8]) = .failed .badCard 5#16
    ∧ intake 0xFF#8 9 (card 6#8 0#8 9#8 0 [1#8, 64#8]) = .failed .badCard 4#16
    ∧ intake 0xFF#8 9 (card 6#8 0#8 9#8 0 [1#8, 63#8]) = .accepted
    ∧ intake 0xFF#8 9 (card 2#8 0#8 0#8 65537 []) = .failed .badCard 4#16
    ∧ intake 0xFF#8 9 (card 3#8 0#8 0#8 64 []) = .accepted
    ∧ intake 0xFF#8 9 (card 4#8 0#8 0#8 0 [3#8]) = .failed .badCard 4#16
    ∧ intake 0xFF#8 9 (card 5#8 0#8 0#8 0 [1#8, 2#8, 0#8]) = .accepted := by decide

/-- O30: a POST outside RUNNING, of slot 64, and of a slot that waits. -/
theorem witness_post_refused :
    State.reset.ctl.device ≠ .running ∧ 64 ≤ (0x40#32 : Word).toNat % 256
    ∧ (0x09#32 : Word).toNat % 256 = (9 : Slot).val
    ∧ (serving 1#8 running).slots[9].state = .inService := by decide

/-- A RUNNING device with the card of slot 63 in memory. -/
def posted (kind : Byte) (params : List Byte) : State := cardAt 63 kind params 0x10000 64 running

/-- O30: a card whose kind fails, and one whose bay is above 7. -/
theorem witness_post_fails_intake :
    (posted 0#8 []).mem.wf ∧ (posted 0#8 []).slots[63].state = .free
    ∧ intake (posted 0#8 []).ctl.enabled 63 (readCard (posted 0#8 []).mem 63) = .failed .badCard 2#16
    ∧ intake ((posted 0#8 []).hostWrite (cardAddr 63 + 1) [8#8]).ctl.enabled 63
        (readCard ((posted 0#8 []).hostWrite (cardAddr 63 + 1) [8#8]).mem 63) = .badBay
    ∧ (posted 0#8 []).seq[0].state ≠ .armed := by decide

/-- O31: an accepted SCAN card. -/
theorem witness_post_accepted :
    (0x0000013F#32 : Word).toNat % 256 = (63 : Slot).val ∧ (posted 1#8 []).ctl.device = .running
    ∧ (posted 1#8 []).mem.wf ∧ (posted 1#8 []).slots[63].state = .free
    ∧ intake (posted 1#8 []).ctl.enabled 63 (readCard (posted 1#8 []).mem 63) = .accepted
    ∧ (readCard (posted 1#8 []).mem 63).lane = some .access := by decide

/-- O32: CANCEL cards of both scopes, and targets in each state. -/
theorem witness_cancel :
    intake (posted 6#8 [1#8, 9#8]).ctl.enabled 63 (readCard (posted 6#8 [1#8, 9#8]).mem 63) = .accepted
    ∧ (readCard (posted 6#8 [1#8, 9#8]).mem 63).jobKind = some .cancel
    ∧ (readCard (posted 6#8 [1#8, 9#8]).mem 63).param 0 = 1
    ∧ (readCard (posted 6#8 [1#8, 9#8]).mem 63).param 1 = (9 : Slot).val
    ∧ (readCard (posted 6#8 [2#8]).mem 63).param 0 = 2
    ∧ intake (posted 6#8 [2#8]).ctl.enabled 63 (readCard (posted 6#8 [2#8]).mem 63) = .accepted
    ∧ ((posted 6#8 [1#8, 9#8]).modSlot 9 (fun _ => slotWith 1#8 .parked)).slots[9].state = .parked
    ∧ (slotWith 1#8 .inService).interruptible = true ∧ (slotWith 4#8 .inService).interruptible = false
    ∧ (slotWith 1#8 .inService).mark = none := by decide

/-- O34: waiting SCAN heads, under both modes. -/
theorem witness_grant :
    (waitingHeads .rotating).disp.rotation.Nodup ∧ (∀ c : Bay, c ∈ (waitingHeads .rotating).disp.rotation)
    ∧ (waitingHeads .rotating).granted 3 = some 0 ∧ (waitingHeads .fixed).granted 0 = some 0
    ∧ (waitingHeads .fixed).granted 3 = none := by decide

theorem witness_head_ready : HeadReady (waitingHeads .rotating) 3 .access 3 :=
  ⟨⟨[], rfl⟩, rfl, rfl, Or.inr (by decide), by decide⟩

/-- O35, O46: a head of each lane, dispatched. -/
def headOf (kind : Byte) (l : Lane) (params : List Byte) (offset length : Nat) : State :=
  (running.modSlot 9 (fun _ =>
    { slotWith kind .requested with
      card := { Card.reset with kind := kind, params := params, offset := offset, length := length } })).modLane 0 l
    (fun _ => ⟨[9], none⟩)

theorem witness_dispatch_ready :
    HeadReady (headOf 2#8 .access [] 0x10000 4) 0 .access 9 ∧ HeadReady (headOf 3#8 .drive [] 0x10000 8) 0 .drive 9
    ∧ HeadReady (headOf 4#8 .setup [1#8] 0x10000 256) 0 .setup 9
    ∧ HeadReady (headOf 5#8 .setup [1#8, 2#8, 33#8] 0 0) 0 .setup 9 :=
  ⟨⟨⟨[], rfl⟩, rfl, rfl, Or.inr (by decide), by decide⟩, ⟨⟨[], rfl⟩, rfl, rfl, Or.inr (by decide), by decide⟩,
    ⟨⟨[], rfl⟩, rfl, rfl, Or.inl rfl, by decide⟩, ⟨⟨[], rfl⟩, rfl, rfl, Or.inl rfl, by decide⟩⟩

theorem witness_dispatch_answers (b : Bay) (l : Lane) (s : State) : ∃ t, exec (.dispatch b l) s = .next t := ⟨_, rfl⟩

/-- O35, O46: the jobs' kinds, and regions at and past the ends of the job data area. -/
theorem witness_dispatch_kinds :
    (headOf 2#8 .access [] 0x10000 4).mem.wf ∧ (headOf 2#8 .access [] 0x10000 4).slots[9].card.jobKind = some .send
    ∧ (headOf 5#8 .setup [1#8, 2#8, 33#8] 0 0).slots[9].card.param 0 = 1
    ∧ (headOf 4#8 .setup [2#8] 0 0).slots[9].card.param 0 = 2
    ∧ inJobArea 0x7FFF00 256 = true ∧ inJobArea 0x7FFF01 256 = false ∧ inJobArea 0xFFFF 4 = false
    ∧ (withStream (writing 0 0#48 0#48)).str[0].state = .running
    ∧ (withStream (writing 0 0#48 0#48)).str[0].queue.length < 32 := by decide

/-- A LINES entry in memory: line 3 pressed after 5 µs for 7 µs, or a line as given with form 0. -/
def linesHead (line form : Byte) : State :=
  (headOf 3#8 .drive [0#8] 0x10000 8).hostWrite 0x10000 [line, form, 5#8, 0#8, 0#8, 7#8, 0#8, 0#8]

/-- O46: a good entry, and a bad one. -/
theorem witness_lines_job :
    readLineEntries (linesHead 3#8 1#8).mem 0x10000 1 = [⟨3, some (.timed 5 7)⟩]
    ∧ readLineEntries (linesHead 4#8 1#8).mem 0x10000 1 = [⟨4, some (.timed 5 7)⟩]
    ∧ readLineEntries (linesHead 3#8 0#8).mem 0x10000 1 = [⟨3, none⟩]
    ∧ (linesHead 3#8 1#8).slots[9].card.detach = false
    ∧ (linesHead 3#8 1#8).drv[0].lines[3].running = none ∧ (linesHead 3#8 1#8).drv[0].lines[3].force = none := by decide

/-- O46: a job of three entries for one line, a force, a release and a timed one, DETACHed, and one whose second entry
is bad. -/
def linesHeadOf (forms : List Byte) : State :=
  (headOf 3#8 .drive [1#8] 0x10000 (8 * forms.length)).hostWrite 0x10000
    (forms.flatMap (fun f => [3#8, f, 0#8, 0#8, 0#8, 0#8, 0#8, 0#8]))

theorem witness_lines_entries :
    (linesHeadOf [1#8, 2#8, 1#8]).slots[9].card.detach = true
    ∧ readLineEntries (linesHeadOf [1#8, 2#8, 1#8]).mem 0x10000 3 = [⟨3, some (.force 0)⟩, ⟨3, some .release⟩, ⟨3, some (.force 0)⟩]
    ∧ readLineEntries (linesHeadOf [1#8, 3#8]).mem 0x10000 2 = [⟨3, some (.force 0)⟩, ⟨3, none⟩]
    ∧ inJobArea 0x10000 24 = true ∧ inJobArea 0x7FFFF8 16 = false := by decide

theorem witness_lines_head : HeadReady (linesHead 3#8 1#8) 0 .drive 9 :=
  ⟨⟨[], rfl⟩, rfl, rfl, Or.inr (by decide), by decide⟩

/-- O36: reports of a failing and of an OK end of a SCAN and of an ARM. -/
theorem witness_job_end :
    (((serving 1#8 running).modSlot 9 (fun r => { r with report := some ⟨.powerLost, 0#16, 5#64, 3#48⟩ })).slots[9].report
      = some ⟨.powerLost, 0#16, 5#64, 3#48⟩)
    ∧ (serving 1#8 running).slots[9].state = .inService ∧ (serving 1#8 running).mem.wf
    ∧ failing .powerLost = true ∧ failing .ok = false
    ∧ (scanning (engaged [] .reported) 3#48).engineOf 0 = some 1
    ∧ (slotWith 4#8 .inService).card.jobKind ≠ some .scan ∧ (slotWith 4#8 .inService).card.lane = some .setup := by decide

/-- A slot of a kind and a state with a deadline that expires now. -/
def expiring (kind : Byte) (st : SlotState) : State :=
  clockAt 100000#48 ((serving kind running).modSlot 9 (fun r => { r with state := st, deadline := some ⟨0#48, 100000⟩ }))

/-- O37, each clause. -/
theorem witness_deadline :
    (expiring 1#8 .requested).slots[9].deadline = some ⟨0#48, 100000⟩
    ∧ elapsed 0#48 (expiring 1#8 .requested).time.count = 100000
    ∧ (expiring 1#8 .requested).slots[9].state = .requested
    ∧ ((expiring 2#8 .inService).slots[9].state = .inService ∧ (expiring 2#8 .inService).slots[9].interruptible = true
      ∧ (expiring 2#8 .inService).slots[9].card.jobKind = some .send)
    ∧ (expiring 4#8 .inService).slots[9].interruptible = false := by decide

/-- A RUNNING device whose bay 0 has the LINES job of slot 9: it runs on line 0, its program waits on line 1 and a
trigger's waits on line 0, and it forces line 2. -/
def linesInService : State :=
  (serving 3#8 running).modDrv 0 (fun v =>
    { lines := upd (upd (upd v.lines 0 (fun l => { l with
        running := some ⟨.timed 1 5, .job 9 0#48, .active, 900#48⟩
        level := some true
        buffered := some ⟨.timed 0 3, .trigger⟩ })) 1 (fun l => { l with
        running := some ⟨.timed 1 5, .trigger, .delay, 900#48⟩
        buffered := some ⟨.force 0, .job 9 0#48⟩ })) 2 (fun l => { l with force := some (.job 9 0#48), level := some true })
      job := some ⟨9, 0#48, 4, 1, 0⟩ })

/-- O37: the owners that are asked, a SEND in a character and in a gap, and the abort of that LINES job. -/
theorem witness_owners :
    (scanning (engaged [] .check) 0#48).engineOf 0 = some 1
    ∧ (expiring 1#8 .inService).slots[9].card.jobKind = some .scan ∧ (expiring 1#8 .inService).engineOf 0 = none
    ∧ (sending (.character 0#48) .sending).tx = .sending ∧ Console.reset.tx ≠ .sending
    ∧ linesInService.slots[9].card.jobKind = some .lines ∧ linesInService.drv[0].job = some ⟨9, 0#48, 4, 1, 0⟩
    ∧ (∀ d : OutLine, linesInService.drv[0].lines[d.val].buffered.map Buffered.prog ≠ some .release)
    ∧ restarts (.job 9 0#48) linesInService.drv[0].lines[0] = some ⟨.timed 0 3, .trigger⟩
    ∧ restarts (.job 9 0#48) linesInService.drv[0].lines[1] = none := by decide

/-! ### Scan engines -/

/-- O38: a step after which another comes, one after which none comes, and an abort taken. -/
theorem witness_steps_go_on :
    (scanning (engaged [stepOf 6#8 1#8, stepOf 7#8 0#8] .check) 0#48).eng[1].attached = some (0, 9)
    ∧ (scanning (engaged [stepOf 6#8 1#8, stepOf 7#8 0#8] .check) 0#48).eng[1].index = some 0
    ∧ (engaged [stepOf 6#8 1#8, stepOf 7#8 0#8] .check).steps[0 + 1]? = some (stepOf 7#8 0#8)
    ∧ (engaged [stepOf 6#8 1#8] .check).steps[0 + 1]? = none
    ∧ ({ engaged [] .check with abort := some .timeout } : Engine).abort ≠ none := by decide

/-- O39: the step checks at their boundaries. -/
theorem witness_step_checks :
    firstBadStep [stepOf 1#8 0#8, stepOf 7#8 0#8, stepOf 9#8 0#8] 0 = none
    ∧ firstBadStep [⟨3#8, 1#8, 4096, 0x7FFE00, 0x7FFE00, 0⟩] 0 = none
    ∧ firstBadStep [⟨3#8, 1#8, 4097, 0x10000, 0x10000, 0⟩] 0 = some (.badCard, .stepField, 0)
    ∧ firstBadStep [⟨3#8, 1#8, 4096, 0x7FFE01, 0x10000, 0⟩] 0 = some (.dataRange, .step, 0)
    ∧ firstBadStep [⟨3#8, 0#8, 8, 0x10000, 0, 0⟩] 0 = none
    ∧ firstBadStep [⟨4#8, 0#8, 16777215, 0, 0, 0⟩, ⟨0#8, 0#8, 0, 0, 0, 0⟩] 0 = some (.badCard, .stepKind, 1) := by decide

/-- An engine that loads a list of one entry of a kind, at a bay with a TAP knowledge. -/
def loading (kind : Byte) (k : Knowledge) : State :=
  (((scanning { engaged [] .loading with index := none, phase := .loading } 0#48).modSlot 9 (fun r =>
    { r with card := { r.card with offset := 0x10000, length := 16 } })).modPort 0 (fun p =>
    { p with knowledge := k })).store 0x10000 [kind]

/-- O39: a list that fails, one that enters the path, and one that needs no path; the end of a path. -/
theorem witness_loading :
    (loading 7#8 .unknown).eng[1].attached = some (0, 9) ∧ (loading 7#8 .unknown).eng[1].work = .loading
    ∧ (List.range ((loading 0#8 .unknown).slots[9].card.length / 16)).map
        (fun j => readScanEntry ((loading 0#8 .unknown).listRead 1) ((loading 0#8 .unknown).slots[9].card.offset + 16 * j))
      = [⟨0#8, 0#8, 0, 0, 0, 0⟩]
    ∧ firstBadStep [⟨0#8, 0#8, 0, 0, 0, 0⟩] 0 = some (.badCard, .stepKind, 0)
    ∧ firstBadStep [⟨7#8, 0#8, 0, 0, 0, 0⟩] 0 = none
    ∧ (loading 7#8 .unknown).port[0].knowledge ≠ .idle ∧ (loading 7#8 .idle).port[0].knowledge = .idle
    ∧ (loading 7#8 .idle).eng[1].abort = none ∧ (loading 7#8 .idle).eng[1].powerLost = false
    ∧ (scanning (engaged [stepOf 7#8 0#8] (.entryPath 0#48 6)) 24#48).eng[1].cutStop = none
    ∧ elapsed 0#48 (scanning (engaged [stepOf 7#8 0#8] (.entryPath 0#48 6)) 24#48).time.count = 6 * 4
    ∧ (scanning (engaged [stepOf 7#8 0#8] (.entryPath 0#48 6)) 24#48).port[0].divisor = 4 := by decide

theorem witness_in_hand (k o : Byte) (w : Work) (now : Tick) :
    InHand (scanning (engaged [stepOf k o] w) now) 1 0 0 (stepOf k o) := ⟨⟨9, rfl⟩, rfl, rfl⟩

/-- O40: the instants at which the clocks of a RESET_TAP, of an IDLE and the time of a DELAY end. -/
theorem witness_step_ends :
    elapsed 0#48 (scanning (engaged [stepOf 1#8 0#8] (.clocks 0#48)) 24#48).time.count = 6 * 4
    ∧ elapsed 0#48 (scanning (engaged [stepOf 4#8 0#8] (.clocks 0#48)) 32#48).time.count = 8 * 4
    ∧ elapsed 0#48 (scanning (engaged [stepOf 5#8 0#8] (.delay 0#48)) 800#48).time.count = 8 * 100
    ∧ (engaged [stepOf 4#8 0#8] (.clocks 0#48)).idleStop = none
    ∧ (engaged [stepOf 4#8 0#8] (.clocks 0#48)).cutStop = none
    ∧ (stepOf 6#8 1#8).option = 1#8 ∧ (stepOf 6#8 0#8).option ≠ 1#8 := by decide

/-- O40: a comparison that mismatches in its last bit, and one whose mask leaves that bit out. -/
theorem witness_mismatch :
    Mismatches ((running.hostWrite 0x10000 [0x80#8]).hostWrite 0x10020 [0x80#8]).mem (stepOf 6#8 1#8)
    ∧ ¬ Mismatches (running.hostWrite 0x10000 [0x80#8]).mem (stepOf 6#8 1#8) := by
  refine ⟨⟨7, by decide, by decide, by decide⟩, ?_⟩
  rintro ⟨k, h1, h2, -⟩
  simp only [stepOf] at h1 h2
  interval_cases k <;> exact absurd h2 (by decide)

/-- O41: a DR step of 8 bits with STORE at the end of its 13 clocks, and its result write. -/
theorem witness_shift :
    elapsed 0#48 (scanning (engaged [stepOf 3#8 1#8] (.clocks 0#48)) 52#48).time.count = (8 + 5) * 4
    ∧ elapsed 0#48 (scanning (engaged [stepOf 2#8 1#8] (.clocks 0#48)) 56#48).time.count = (8 + 6) * 4
    ∧ (scanning { engaged [stepOf 3#8 1#8] .writeResult with captured := 0xFF } 52#48).mem.wf
    ∧ ({ engaged [stepOf 3#8 1#8] .writeResult with captured := 0xFF } : Engine).captured < 2 ^ (stepOf 3#8 1#8).n
    ∧ (stepOf 3#8 1#8).option = 1#8 := by decide

theorem witness_stored_step_ok : StepOk (stepOf 3#8 1#8) := by simp [StepOk, stepOf]

/-- O42: the first and the last shift clock of a DR step, in the low and the high part. -/
theorem witness_shift_pins :
    (scanning (engaged [stepOf 3#8 1#8] (.clocks 0#48)) 12#48).active 0 = true
    ∧ (scanning (engaged [stepOf 3#8 1#8] (.clocks 0#48)) 12#48).engineOf 0 = some 1
    ∧ 4 ≤ (scanning (engaged [stepOf 3#8 1#8] (.clocks 0#48)) 12#48).port[0].divisor
    ∧ elapsed 0#48 (scanning (engaged [stepOf 3#8 1#8] (.clocks 0#48)) 12#48).time.count = 3 * 4 + 0
    ∧ elapsed 0#48 (scanning (engaged [stepOf 3#8 1#8] (.clocks 0#48)) 43#48).time.count = 10 * 4 + 3
    ∧ (scanning { engaged [stepOf 3#8 1#8] (.clocks 0#48) with tdi := [0x80#8] } 43#48).scanPins 0
      = some ⟨true, true, true⟩ := by decide

/-- O42: the fifth and the sixth clock of a RESET_TAP, a clock of an IDLE and the last of an entry path; a bay that is not
enabled, one without an engine, and an engine between clocks. -/
theorem witness_path_pins :
    elapsed 0#48 (scanning (engaged [stepOf 1#8 0#8] (.clocks 0#48)) 16#48).time.count = 4 * 4 + 0
    ∧ (scanning (engaged [stepOf 1#8 0#8] (.clocks 0#48)) 16#48).scanPins 0 = some ⟨false, true, true⟩
    ∧ (scanning (engaged [stepOf 1#8 0#8] (.clocks 0#48)) 23#48).scanPins 0 = some ⟨true, false, true⟩
    ∧ (scanning (engaged [stepOf 4#8 0#8] (.clocks 0#48)) 3#48).scanPins 0 = some ⟨true, false, true⟩
    ∧ (scanning { engaged [] (.entryPath 0#48 6) with index := none } 20#48).scanPins 0 = some ⟨false, false, true⟩
    ∧ State.reset.scanPins 0 = none ∧ running.scanPins 0 = some ⟨false, false, true⟩
    ∧ (scanning (engaged [stepOf 6#8 0#8] .check) 5#48).engineOf 0 = some 1
    ∧ (scanning (engaged [stepOf 6#8 0#8] .check) 5#48).scanPins 0 = some ⟨false, false, true⟩ := by decide

/-- O43: a CHECK in hand at a RUNNING engine. -/
theorem witness_check_met :
    InHand (scanning (engaged [stepOf 6#8 0#8] .check) 5#48) 1 0 0 (stepOf 6#8 0#8)
    ∧ (scanning (engaged [stepOf 6#8 0#8] .check) 5#48).eng[1].state = .running :=
  ⟨⟨⟨9, rfl⟩, rfl, rfl⟩, rfl⟩

/-- O43: a RUNNING engine in each work, an IDLE step before its end, and the clock that completes after an abort. -/
theorem witness_abort :
    (scanning (engaged [stepOf 4#8 0#8] (.clocks 0#48)) 5#48).eng[1].state = .running
    ∧ elapsed 0#48 (scanning (engaged [stepOf 4#8 0#8] (.clocks 0#48)) 5#48).time.count ≠ 8 * 4
    ∧ elapsed 0#48 (scanning (engaged [stepOf 5#8 0#8] (.delay 0#48)) 799#48).time.count ≠ 8 * 100
    ∧ ({ engaged [stepOf 4#8 0#8] (.clocks 0#48) with idleStop := some 2 } : Engine).idleStop = some 2
    ∧ elapsed 0#48 (scanning (engaged [stepOf 4#8 0#8] (.clocks 0#48)) 8#48).time.count = 2 * 4 := by decide

/-- O43: a power loss in the low and in the high part of a clock, and the fall that ends that clock. -/
theorem witness_power_loss :
    (scanning (engaged [stepOf 4#8 0#8] (.clocks 0#48)) 5#48).eng[1].state ≠ .idle
    ∧ (scanning (engaged [stepOf 4#8 0#8] (.clocks 0#48)) 5#48).eng[1].powerLost = false
    ∧ elapsed 0#48 (scanning (engaged [stepOf 4#8 0#8] (.clocks 0#48)) 5#48).time.count = 1 * 4 + 1
    ∧ elapsed 0#48 (scanning (engaged [stepOf 4#8 0#8] (.clocks 0#48)) 6#48).time.count = 1 * 4 + 2
    ∧ 1 < (engaged [stepOf 4#8 0#8] (.clocks 0#48)).stepClocks
    ∧ ({ engaged [stepOf 4#8 0#8] (.clocks 0#48) with cutStop := some 2 } : Engine).cutStop = some 2
    ∧ elapsed 0#48 (scanning (engaged [stepOf 4#8 0#8] (.clocks 0#48)) 8#48).time.count = 2 * 4 := by decide

/-- O43: a power loss without a clock: a DELAY before and at its end, and the last instants of a path, of a RESET_TAP,
of an IDLE and of a shift. -/
theorem witness_power_loss_by_work :
    (scanning { engaged [] .loading with index := none } 0#48).eng[1].work = .loading
    ∧ elapsed 0#48 (scanning (engaged [stepOf 5#8 0#8] (.delay 0#48)) 800#48).time.count = (stepOf 5#8 0#8).n * 100
    ∧ elapsed 0#48 (scanning (engaged [stepOf 5#8 0#8] (.delay 0#48)) 799#48).time.count ≠ (stepOf 5#8 0#8).n * 100
    ∧ elapsed 0#48 (scanning (engaged [] (.entryPath 0#48 6)) 24#48).time.count = 6 * 4
    ∧ elapsed 0#48 (scanning (engaged [stepOf 1#8 0#8] (.clocks 0#48)) 24#48).time.count = 6 * 4
    ∧ elapsed 0#48 (scanning (engaged [stepOf 4#8 0#8] (.clocks 0#48)) 32#48).time.count = (stepOf 4#8 0#8).n * 4
    ∧ elapsed 0#48 (scanning (engaged [stepOf 2#8 0#8] (.clocks 0#48)) 56#48).time.count = ((stepOf 2#8 0#8).n + 6) * 4
    ∧ (engaged [stepOf 2#8 0#8] (.clocks 0#48)).idleStop = none ∧ (9 : Slot) ≠ 8 := by decide

/-- R170: after a power loss at the end of a RESET_TAP, or in the result write, the TAP's state is not known. -/
theorem test_power_loss_forgets_the_tap :
    let g := fun kind w => { engaged [stepOf kind 1#8] w with tracked := some .runTestIdle }
    (scanPowerLoss 1 9 (scanning (g 1#8 (.clocks 0#48)) 24#48)).eng[1].tracked = none
    ∧ (scanPowerLoss 1 9 (scanning (g 3#8 .writeResult) 24#48)).eng[1].tracked = none := by decide

/-! ### Line drivers -/

/-- A RUNNING device whose bay 0 has line 3 as given, at 1,000. -/
def withOut (l : DrvLine) : State := clockAt 1000#48 (running.modOutLine 0 3 (fun _ => l))

/-- O44, O45: an idle line, a running program with and without a buffered one, a force, a line that has just returned
to rest, and programs whose phases end now. -/
theorem witness_line_programs :
    ((withOut DrvLine.reset).ctl.device ≠ .stopping ∧ (withOut DrvLine.reset).drv[0].lines[3].running = none
      ∧ (withOut DrvLine.reset).drv[0].lines[3].force = none)
    ∧ (withOut { DrvLine.reset with buffered := some ⟨.force 0, .job 9 0#48⟩, force := some .trigger }).drv[0].lines[3].buffered
      = some ⟨.force 0, .job 9 0#48⟩
    ∧ (withOut { DrvLine.reset with force := some .trigger }).drv[0].lines[3].force ≠ none
    ∧ (withOut { DrvLine.reset with justRested := true }).drv[0].lines[3].justRested = true
    ∧ (withOut { DrvLine.reset with running := some ⟨.timed 5 7, .job 9 0#48, .delay, 1000#48⟩ }).drv[0].lines[3].running
      = some ⟨.timed 5 7, .job 9 0#48, .delay,
        (withOut { DrvLine.reset with running := some ⟨.timed 5 7, .job 9 0#48, .delay, 1000#48⟩ }).time.count⟩
    ∧ (withOut { DrvLine.reset with running := some ⟨.timed 5 7, .trigger, .active, 1000#48⟩ }).drv[0].lines[3].running
      = some ⟨.timed 5 7, .trigger, .active, 1000#48⟩
    ∧ (⟨9, 0#48, 4, 2, 1⟩ : LinesJob).completed + (⟨9, 0#48, 4, 2, 1⟩ : LinesJob).superseded + 1 = 4 := by decide

/-- O44: programs that go active at once and ones that wait. -/
theorem witness_goes_active :
    GoesActive (.timed 0 7) DrvLine.reset ∧ GoesActive (.force 0) DrvLine.reset
    ∧ ¬ GoesActive (.force 5) DrvLine.reset
    ∧ ¬ GoesActive (.timed 0 7) { DrvLine.reset with justRested := true } := by
  refine ⟨⟨Or.inr ⟨7, rfl⟩, rfl⟩, ⟨Or.inl rfl, rfl⟩, ?_, fun h => Bool.noConfusion h.2⟩
  rintro ⟨h | ⟨w, h⟩, -⟩ <;> cases h

/-- R178: a program with delay 0 goes active one tick after the line's return to rest, and at once a tick later. -/
theorem test_rest_lasts_a_tick :
    (startProgram 0 3 (.force 0) .trigger (withOut { DrvLine.reset with justRested := true })).drv[0].lines[3].level = none
    ∧ (startProgram 0 3 (.force 0) .trigger (tick (withOut { DrvLine.reset with justRested := true }))).drv[0].lines[3].level
      = some true := by decide +kernel

/-! ### Control -/

/-- A profile in memory that passes its checks: all bays enabled, every rail with its limits. -/
def goodProfile : State :=
  { State.reset with mem := [(0, 0x4B#8), (1, 0x42#8), (2, 0x38#8), (3, 0x50#8), (4, 1#8), (6, 0xFF#8)]
    ++ (List.range 24).flatMap (fun i => [(railBlock i, 0xC8#8), (railBlock i + 1, 0x19#8), (railBlock i + 2, 0x8E#8),
      (railBlock i + 3, 0x12#8), (railBlock i + 4, 0x82#8), (railBlock i + 5, 0x14#8), (railBlock i + 6, 50#8)]) }

/-- O47: an IDLE device, a RUNNING one, a good profile and three bad ones. -/
theorem witness_start :
    State.reset.ctl.device = .idle ∧ State.reset.ctl.startSeq = .none ∧ running.ctl.device ≠ .idle
    ∧ ((after .start State.reset).ctl.startSeq = .reading)
    ∧ profileCheck goodProfile.mem = none
    ∧ profileCheck State.reset.mem = some (.badSignature, 0)
    ∧ profileCheck (goodProfile.hostWrite 6 [0#8]).mem = some (.noBays, 0)
    ∧ profileCheck (goodProfile.hostWrite (bayBlock 7) [16#8]).mem = some (.shiftRange, 7)
    ∧ profileCheck (goodProfile.hostWrite (railBlock 23 + 4) [0x8E#8, 0x12#8]).mem = some (.railWindow, 23)
    ∧ (0#32 : Word) = 0#32 ∧ 6 ≤ (6#32 : Word).toNat := by decide +kernel

/-- R192: a refused START writes its error and its index over what the mirror held. -/
theorem test_refusal_writes_the_mirror :
    let s := after .profileReadEnd (after .start (State.reset.hostWrite 0x001001 [9#8, 9#8, 9#8]))
    s.mem.readBytes 0x001001 3 = [3#8, 1#8, 0#8] := by decide +kernel

/-- O47: the last byte of an image and of a step list that are being read, and a byte of each known to be read. -/
theorem witness_reads :
    (armReading 1#8 false).mem.wf ∧ (armReading 1#8 false).slots[9].card.offset + 255 = 0x110FF
    ∧ 0x110FF < (armReading 1#8 false).slots[9].card.offset + 256
    ∧ (loading 7#8 .unknown).mem.wf ∧ (loading 7#8 .unknown).eng[1].early = []
    ∧ 0x1000F < (loading 7#8 .unknown).slots[9].card.offset + (loading 7#8 .unknown).slots[9].card.length
    ∧ 0x110FF ∈ (⟨9, [(0x110FF, 1#8)]⟩ : ImageRead).early.map Prod.fst := by decide

/-- R119: a byte known to have been read keeps what it was when the host writes it, and memory takes the new one. -/
theorem test_host_write_after_reading :
    let s := (armReading 1#8 false).modSeq 0 (fun q => { q with reading := some ⟨9, [(0x11000, 1#8)]⟩ })
    (s.hostWrite 0x11000 [7#8]).seq[0].reading.map (fun r => r.early) = some [(0x11000, 1#8)]
    ∧ (s.hostWrite 0x11000 [7#8]).mem.read 0x11000 = 7#8 := by decide +kernel

/-- O47: a host write in the READING step and outside it, a good signature, a shift of 16 and a pair of equal limits. -/
theorem witness_profile :
    (after .start State.reset).ctl.startSeq = .reading ∧ (after .start State.reset).ctl.earlyBytes = []
    ∧ State.reset.ctl.startSeq ≠ .reading ∧ ([1#8, 2#8] : List Byte)[1]? = some 2#8 ∧ 0x000FFF < 0x001000
    ∧ (∀ b : Bay, State.reset.seq[b.val].reading = none) ∧ (∀ e : EngineId, State.reset.eng[e.val].work ≠ .loading)
    ∧ (goodProfile.mem.readBytes 0 4 = [0x4B#8, 0x42#8, 0x38#8, 0x50#8] ∧ goodProfile.mem.field 4 2 = 1)
    ∧ ((goodProfile.hostWrite 0xF0 [16#8]).mem.read 6).getLsbD 7 = true
    ∧ 15 < ((goodProfile.hostWrite 0xF0 [16#8]).mem.read (0x10 + 32 * 7)).toNat
    ∧ (goodProfile.hostWrite 0x1CC [0x8E#8, 0x12#8]).mem.field (0x110 + 8 * 23 + 4) 2
      ≤ (goodProfile.hostWrite 0x1CC [0x8E#8, 0x12#8]).mem.field (0x110 + 8 * 23 + 2) 2 := by decide +kernel

/-- The device in the INITIALISING step with that profile. -/
def initialising : State :=
  { goodProfile with ctl :=
    { Control.reset with startSeq := .initialising, copy := some (readProfile goodProfile.mem) } }

/-- O48. -/
theorem witness_start_instant :
    initialising.ctl.startSeq = .initialising ∧ initialising.ctl.copy = some (readProfile goodProfile.mem)
    ∧ (readProfile goodProfile.mem).mask = 0xFF#8 := ⟨rfl, rfl, by decide +kernel⟩

/-- O49: a device that is not RUNNING, and a slot in each state under STOP. -/
theorem witness_stop :
    State.reset.ctl.device ≠ .running ∧ running.ctl.device = .running ∧ running.enabled 7 = true
    ∧ (expiring 1#8 .requested).slots[9].state = .requested
    ∧ (expiring 4#8 .inService).slots[9].card.lane = some .setup
    ∧ (expiring 1#8 .inService).slots[9].interruptible = true ∧ running.slots[0].state = .free
    ∧ (withStream (writing 0 0#48 0#48)).str[0].state = .running := by decide

/-- O50: a STOPPING device with nothing left to end. -/
theorem witness_return_to_idle :
    let s := { running with
      ctl := { running.ctl with device := .stopping }
      str := running.str.map (fun t : Stream => { t with state := .stopped }) }
    s.ctl.device = .stopping ∧ (∀ e : EngineId, s.eng[e.val].state = .idle)
    ∧ (∀ i : Slot, s.slots[i.val].state = .free ∨ s.slots[i.val].state = .done)
    ∧ ∀ b : Bay, s.enabled b = true → s.str[b.val].state = .stopped := by decide +kernel

/-- O51: a link that can return, and a PERST# that can be released. -/
theorem witness_link_reset :
    (after (.linkDown .linkLost) running).link.down = true ∧ (after (.linkDown .perstAsserted) running).link.perst = true
    ∧ running.ctl.startSeq ≠ .initialising ∧ running.mem.wf
    ∧ (∀ b : Bay, running.str[b.val].service = none) ∧ (withStream (writing 0 0#48 0#48)).str[0].service = some .record := by
  decide

/-- O51: an engine with a result write in progress, of one byte at 0x10010. -/
theorem witness_result_write_cut :
    ({ engaged [stepOf 3#8 1#8] .writeResult with captured := 0xA5 } : Engine).resultField = some (0x10010, [0xA5#8])
    ∧ (running.eng[1].resultField = none) := by decide

/-- O51: a start sequence that is writing, with no service in flight. -/
theorem witness_initialising :
    ({ running with ctl := { running.ctl with startSeq := .initialising } } : State).ctl.startSeq = .initialising
    ∧ ∀ b : Bay, ({ running with ctl := { running.ctl with startSeq := .initialising } } : State).str[b.val].service
      = none := by decide

/-- R187: the free count is one access, the pending set nine. -/
theorem test_accesses :
    accesses (freeField running) = [(0x00101C, [0#8, 8#8])]
    ∧ (accesses (pendingField running)).map Prod.fst
      = [0x1024, 0x1025, 0x1026, 0x1027, 0x1028, 0x1029, 0x102A, 0x102B, 0x102C] := by decide +kernel

/-- R27, R31, R47, R187, 12.7, 12.8: a FLUSH writes the page's header, then its map byte, then the pending set, then the
items of the stream table entry. -/
theorem test_flush_writes_in_order :
    ((withStream { writing 0 0#48 0#48 with flush := some ⟨0, 0⟩ }).serviceWrites 0 .flush).map (List.map Prod.fst)
      = [[0x800000, 0x800002, 0x800003, 0x800004, 0x800008, 0x800010, 0x800012, 0x800014]
          ++ (List.range 8).map (0x800018 + ·),
        [0x005000], [0x001024], [0x004006, 0x004010]] := by decide +kernel

/-- R21, R187: the tag of a JOB record and the detail of a CODE_ERR record lie on their boundaries; a CODE record's code
does not. -/
theorem test_slot_accesses :
    ((fieldsFrom 0x800020 (recordItems (.jobStart 1 4 7#32) false 0)).flatMap accesses).map (fun f => (f.1 % 16, f.2.length))
      = (List.range 8).map (·, 1) ++ [(8, 4), (12, 1), (13, 1), (14, 1), (15, 1)]
    ∧ ((8, 2) : Nat × Nat) ∉ ((fieldsFrom 0x800020 (recordItems (.code 9#16) false 0)).flatMap accesses).map
      (fun f => (f.1 % 16, f.2.length))
    ∧ ((6, 2) : Nat × Nat) ∈ ((fieldsFrom 0x800020 (recordItems (.codeErr .short 3) false 0)).flatMap accesses).map
      (fun f => (f.1 % 16, f.2.length)) := by decide +kernel

/-- O52: no factor, and one pending enabled factor. -/
theorem witness_notice :
    (∀ g : Fin 9, running.notices.ready g = 0#4)
    ∧ (((raiseFixture .badPost running).notices.ready 0).getLsbD 2 = true
      ∧ ∀ (h : Fin 9) (k : Fin 4), ((raiseFixture .badPost running).notices.ready h).getLsbD k.val = true →
        h = 0 ∧ k = 2) := by decide

/-- O52: the line in both forms, and a device whose STATUS fields are in their ranges. -/
theorem witness_line_and_status :
    running.link.down = false ∧ running.link.perst = false ∧ running.link.form = .message
    ∧ (running.time.milestone ≤ 4 ∧ running.ctl.errorIndex < 32) ∧ plainRead 0x04 running = 1#32 := by decide

/-- O53 to O58: a step that answers a next state. -/
theorem witness_step (s : State) : s.pending = [] → ∃ t, step s = .next t := by
  intro h
  refine ⟨tick s, ?_⟩
  unfold step
  rw [h]

theorem witness_reset_memory : State.reset.mem.wf := by decide

/-- The RUNNING device with its status block and stream table in memory. -/
def shown : State :=
  { running with mem := [(0x1000, 1#8), (0x1008, 0xFF#8), (0x100E, 0xFF#8), (0x100F, 0xFF#8), (0x101D, 8#8)]
    ++ allBays.flatMap (fun b => [(streamAddr b + 1, 1#8), (streamAddr b + 2, 1#8), (streamAddr b + 6, 0xFF#8),
      (streamAddr b + 7, 0xFF#8)]) }

/-- O58. -/
theorem witness_shown :
    (publishedFields shown).all (fun f => shown.mem.readBytes f.1 f.2.length == f.2) = true ∧ shown.mem.wf := by
  decide +kernel

theorem witness_engines_checked : shown.EnginesChecked := by
  intro e
  have h : shown.eng[e.val] = Engine.reset := by
    simp [shown, running, State.reset]
  rw [h]
  constructor <;> simp [Engine.reset]

/-- O54: a settling bay, and BENCH selected at milestone 4. -/
theorem witness_source_and_milestones :
    (withRun 0#48 0#48 0#48 4 .bench).SourceOk
    ∧ (running.modMon 0 (fun v =>
        { v with lines := upd v.lines 0 (fun x => { x with qual := true }), settleBase := some 0#48, milestone := 8 })).SettleOk := by
  refine ⟨⟨by decide, by decide⟩, ?_⟩
  unfold State.SettleOk Monitor.SettleOk
  decide

/-- O54: a bay with a pending fall of POWER_GOOD. -/
theorem witness_lines :
    (powerEdge false running).SourceOk ∧ (powerEdge false running).SettleOk ∧ (powerEdge false running).LinesOk := by
  refine ⟨⟨by decide, by decide⟩, ?_, ?_⟩
  · unfold State.SettleOk Monitor.SettleOk
    decide
  · unfold State.LinesOk
    decide

/-- O55: the rotation order under a SCAN in service. -/
theorem witness_rotation : (scanning (engaged [] .check) 0#48).RotationOk := by
  unfold State.RotationOk
  decide

/-- O57: driven lines with a FORCE buffered behind a TIMED program. -/
theorem witness_drivers :
    (withOut { DrvLine.reset with
      running := some ⟨.timed 5 7, .trigger, .active, 1000#48⟩
      buffered := some ⟨.force 0, .trigger⟩ }).DriversOk := by
  intro b d
  refine ⟨fun q h => ?_, fun r h => ?_⟩ <;> revert h <;> fin_cases b <;> fin_cases d <;>
    simp [withOut, running, State.reset, Driver.reset, DrvLine.reset, State.modOutLine, State.modDrv, upd, clockAt] <;>
    rintro rfl <;> simp

/-- O55: a SCAN in service at an engine. -/
theorem witness_queues_and_engines :
    (scanning (engaged [] .check) 0#48).QueuesOk ∧ (scanning (engaged [] .check) 0#48).EnginesOk := by
  refine ⟨⟨?_, ?_, ?_, ?_⟩, ⟨?_, ?_, ?_⟩⟩
  · intro b l
    cases l <;> revert b <;> decide
  · intro b l
    cases l <;> revert b <;> decide +kernel
  · intro b l
    cases l <;> revert b <;> decide +kernel
  · decide +kernel
  · decide
  · intro e b i h
    have h1 : e = 1 ∧ b = 0 ∧ i = 9 := by
      revert h
      fin_cases e <;> simp [scanning, engaged, clockAt, serving, running, State.reset, Engine.reset, State.modEng,
        State.modSlot, State.modLane, upd]
      rintro rfl rfl
      exact ⟨rfl, rfl⟩
    obtain ⟨rfl, rfl, rfl⟩ := h1
    exact ⟨by decide, by decide⟩
  · intro e f b i j h1 h2
    have k1 : e = 1 := by
      revert h1
      fin_cases e <;> simp [scanning, engaged, clockAt, serving, running, State.reset, Engine.reset, State.modEng,
        State.modSlot, State.modLane, upd]
    have k2 : f = 1 := by
      revert h2
      fin_cases f <;> simp [scanning, engaged, clockAt, serving, running, State.reset, Engine.reset, State.modEng,
        State.modSlot, State.modLane, upd]
    rw [k1, k2]

/-- O56: with every page free. -/
theorem witness_page_pool : running.PoolOk := by
  have hm : ∀ p : Page, running.pool.map[p.val] = .free := by
    intro p
    simp [running, State.reset, Pool.reset]
  have hs : ∀ b : Bay, running.str[b.val] = Stream.reset := by
    intro b
    simp [running, State.reset]
  refine ⟨?_, ?_, ?_, ?_, ?_, ?_, ?_, ?_, ?_, ?_, ?_⟩
  · simp [running, State.reset, Pool.reset, List.nodup_finRange]
  · intro p
    simp [running, State.reset, Pool.reset]
  · intro p b
    rw [hm, hs]
    simp [Stream.reset]
  · intro p b
    rw [hm, hs]
    simp [Stream.reset, Stream.retainedPages]
  · intro b
    rw [hs]
    simp [Stream.reset, Stream.retainedPages]
  · intro b _
    rw [hs]
    simp [Stream.reset]
  · intro b
    rw [hs]
    simp [Stream.reset]
  · intro b u h
    rw [hs] at h
    cases h
  · intro b
    rw [hs]
    decide
  · intro b _
    rw [hs]
    decide
  · intro b _
    rw [hs]
    rfl

/-- O57: an ARMED sequencer, and engines with no step in hand. -/
theorem witness_sequencers : (armed ⟨1, .jobFail, 1, .fire⟩ 1 0#48).SeqOk := by
  intro b
  by_cases hb : b = 0
  · subst hb
    refine ⟨?_, by decide, ?_⟩
    · intro p hp e he
      have : p = program ⟨1, .jobFail, 1, .fire⟩ := by
        simpa [armed, armedSeq, clockAt, running, State.reset, State.modSeq, upd, eq_comm] using hp
      subst this
      simp only [program, List.mem_singleton] at he
      subst he
      decide
    · intro _
      refine ⟨program ⟨1, .jobFail, 1, .fire⟩, 1, rfl, rfl, by decide, by decide, rfl, ?_⟩
      intro j e c he hc
      rcases j with _ | j
      · cases he
        cases hc
        decide
      · simp [program] at he
  · have h : (armed ⟨1, .jobFail, 1, .fire⟩ 1 0#48).seq[b.val] = Sequencer.reset := by
      have : (0 : Nat) ≠ b.val := fun h => hb (Fin.ext h.symm)
      simp [armed, clockAt, running, State.reset, State.modSeq, upd, this]
    rw [h]
    refine ⟨?_, ?_, ?_⟩ <;> simp [Sequencer.reset]

/-! ### Pages -/

/-- A WINDOW stream with its W reached: a retained page, a filling page and no loss. -/
def fullWindow : Stream :=
  { drainingWindow with state := .running, w := 2, lostCount := 0, retained := [⟨4, 1#32, 0#48, 254, true⟩] }

/-- O60: a stream that takes a free page, one at its W, one with an empty free list, and one that can obtain none. -/
theorem witness_obtain_page :
    (fullWindow.WindowRules ∧ ¬ (writing 0 0#48 0#48).WindowRules)
    ∧ { running.pool with freeList := [7] }.freeList = [7]
    ∧ fullWindow.retained.length + 1 ≤ fullWindow.w
    ∧ { fullWindow with w := 1 }.w < fullWindow.retained.length + 1
    ∧ (obtainPage 0 0#48 { running with pool := { running.pool with freeList := [] } }).isNone = true := by
  refine ⟨⟨by unfold Stream.WindowRules; decide, by unfold Stream.WindowRules; decide⟩, rfl, by decide, by decide, by decide⟩

/-- O60: the last record of a page, a page that ends, a record after a loss, and one that needs TIME with one slot
left. -/
theorem witness_placed :
    (writing 0 0#48 0#48).filling = some ⟨0, 1#32, 0#48, 251, false⟩
    ∧ Timed { writing 0 0#48 0#48 with filling := some ⟨0, 1#32, 0#48, 253, false⟩, lapsed := true } 9#48 0 false 9#48 true
    ∧ 254 < 253 + 2 ∧ Stream.reset.filling = none ∧ drainingWindow.lostCount ≠ 0 := by
  refine ⟨rfl, ?_, by decide, rfl, by decide⟩
  simp [Timed, writing, Stream.reset]

/-- O60: a record taken, the MARK of the fire next in the queue or behind another, and the last record of P. -/
theorem witness_taken :
    NextWork (withStream { writing 0 0#48 0#48 with state := .postTrigger, markAhead := some 1, pRemaining := 1 }) 1 .record
    ∧ ({ writing 0 0#48 0#48 with markAhead := some 2 } : Stream).markAhead = some 2
    ∧ ({ writing 0 0#48 0#48 with state := .postTrigger, counting := true, pRemaining := 1 } : Stream).counting = true
    ∧ (writing 0 0#48 0#48).markAhead = none := by
  refine ⟨⟨by decide, by decide, by decide, fun k h1 h2 => ?_⟩, rfl, rfl, rfl⟩
  omega

end Sys2Proof.Tests
end

section
/-! PROOF. What each command may touch: one lemma per command, from the laws of the operations it calls. -/

namespace Sys2Proof.Machine

/-- A command ends in the publication of a state that a relation ties to the one it began in. -/
def Leads (R : State → State → Prop) (c : Instr) : Prop := ∀ s, ∃ u, exec c s = commit s u ∧ R s u

/-- What publication needs of a command: the bytes of the published area are those of before, and the memory stays in
its canonical form. -/
structure Steady (s u : State) : Prop where
  shown : ∀ a, publishedArea a → u.mem.read a = s.mem.read a
  wf : s.mem.wf → u.mem.wf

theorem not_deviceArea_of_publishedArea {a : Nat} (h : publishedArea a) : ¬ deviceArea a := by
  simp only [publishedArea, deviceArea] at *
  omega

namespace Steady

theorem ofMem {s u : State} (h : u.mem = s.mem) : Steady s u := ⟨fun _ _ => by rw [h], fun w => h ▸ w⟩

theorem trans {s t u : State} (h : Steady s t) (k : Steady t u) : Steady s u :=
  ⟨fun a ha => (k.shown a ha).trans (h.shown a ha), fun w => k.wf (h.wf w)⟩

end Steady

theorem Wide.steady {s u : State} (h : Wide s u) : Steady s u :=
  ⟨fun a ha => h.area a (not_deviceArea_of_publishedArea ha), h.wf⟩

theorem Leads.imp {R Q : State → State → Prop} {c : Instr} (h : Leads R c) (k : ∀ {s u}, R s u → Q s u) :
    Leads Q c := fun s => by
  obtain ⟨u, hu, hr⟩ := h s
  exact ⟨u, hu, k hr⟩

/-- A guarded effect: the effect, or nothing. -/
theorem Wide.ite {s u : State} (p : Prop) [Decidable p] (h : Wide s u) : Wide s (if p then u else s) := by
  split
  · exact h
  · exact Wide.refl s

/-! ### Trace streams and the page pool -/

theorem writeRecord_wide : Leads Wide .writeRecord := fun s => by
  refine ⟨_, rfl, ?_⟩
  split
  · exact (Effects.serveRecord _ s).toWide
  · exact Wide.refl s

theorem flushClose_wide : Leads Wide .flushClose := fun s => by
  refine ⟨_, rfl, ?_⟩
  split
  · exact (Effects.serveFlush _ s).toWide
  · exact Wide.refl s

theorem drainEnd_wide : Leads Wide .drainEnd := fun s => by
  refine ⟨_, rfl, ?_⟩
  split
  · exact (Effects.serveDrain _ s).toWide
  · exact Wide.refl s

theorem tLastLapse_wide (b : Bay) : Leads Wide (.tLastLapse b) := fun s => by
  refine ⟨_, rfl, ?_⟩
  split
  · exact Wide.ite _ (Effects.modStr b _ s).toWide
  · exact Wide.refl s

theorem release_wide (value : Word) : Leads Wide (.release value) := fun s => by
  refine ⟨_, rfl, ?_⟩
  split
  · split
    · exact (Effects.freePage _ s).toWide
    · exact (Effects.raiseFixture _ s).toWide
  · exact (Effects.raiseFixture _ s).toWide

/-! ### The code lane -/

theorem Wide.afterFrame (b : Bay) (cond : CodeCond) (s : State) : Wide s (Machine.afterFrame b cond s) := by
  cases cond <;> exact Wide.modCode b _ s

theorem Wide.codeError (b : Bay) (cause : CodeErrCause) (detail : Nat) (s : State) :
    Wide s (Machine.codeError b cause detail s) :=
  (Effects.offer b _ _ s).toWide.trans (Wide.modCode b _ _)

theorem Wide.codeArrival (b : Bay) (s : State) : Wide s (Machine.codeArrival b s) :=
  ((Wide.modCode b _ s).trans (Wide.offerStall b _ _)).trans
    ((Effects.offer b _ _ _).trans (Effects.conditionEvent b _ _)).toWide

theorem codeStartCondition_wide (b : Bay) : Leads Wide (.codeStartCondition b) := fun s =>
  ⟨_, rfl, Wide.ite _ (Wide.modCode b _ s)⟩

theorem codeClkEdge_wide (b : Bay) (edge : ClkEdge) (dat : Bool) : Leads Wide (.codeClkEdge b edge dat) := fun s => by
  refine ⟨_, rfl, Wide.ite _ ?_⟩
  split
  · exact Wide.refl s
  · exact Wide.modCode b _ s
  · exact Wide.modCode b _ s

theorem codeArrival_wide (b : Bay) (cond : CodeCond) : Leads Wide (.codeArrival b cond) := fun s =>
  ⟨_, rfl, Wide.ite _ ((Wide.codeArrival b s).trans (Wide.afterFrame b cond _))⟩

theorem codeErr_wide (b : Bay) (cond : CodeCond) : Leads Wide (.codeErr b cond) := fun s => by
  refine ⟨_, rfl, Wide.ite _ ?_⟩
  split
  · exact Wide.refl s
  · exact (Wide.codeError b _ _ s).trans (Wide.afterFrame b cond _)
  · split
    · exact Wide.refl s
    · exact (Wide.codeError b _ _ s).trans (Wide.afterFrame b cond _)

theorem codeFrameStall_wide (b : Bay) : Leads Wide (.codeFrameStall b) := fun s =>
  ⟨_, rfl, Wide.ite _ ((Wide.codeError b _ _ s).trans (Wide.modCode b _ _))⟩

theorem stallReferenceLapse_wide (b : Bay) : Leads Wide (.stallReferenceLapse b) := fun s => by
  refine ⟨_, rfl, ?_⟩
  split
  · exact Wide.ite _ (Wide.modCode b _ s)
  · exact Wide.refl s

/-! ### The Console Port -/

theorem conRxFall_wide (b : Bay) : Leads Wide (.conRxFall b) := fun s =>
  ⟨_, rfl, Wide.ite _ (Effects.modCon b _ s).toWide⟩

theorem bitSample_wide (b : Bay) (level : Bool) : Leads Wide (.bitSample b level) := fun s =>
  ⟨_, rfl, Wide.ite _ (Effects.modCon b _ s).toWide⟩

theorem falseStart_wide (b : Bay) : Leads Wide (.falseStart b) := fun s =>
  ⟨_, rfl, Wide.ite _ (Effects.modCon b _ s).toWide⟩

theorem goodByte_wide (b : Bay) : Leads Wide (.goodByte b) := fun s =>
  ⟨_, rfl, Wide.ite _ (Effects.goodByte b s).toWide⟩

theorem framingError_wide (b : Bay) : Leads Wide (.framingError b) := fun s => by
  refine ⟨_, rfl, ?_⟩
  split
  · exact (Effects.framingByte b _ s).toWide
  · exact Wide.ite _ (Effects.framingByte b _ s).toWide

theorem breakCandidate_wide (b : Bay) : Leads Wide (.breakCandidate b) := fun s =>
  ⟨_, rfl, Wide.ite _ (Effects.modCon b _ s).toWide⟩

theorem Effects.breakRecord (b : Bay) (s : State) : Effects s (Machine.breakRecord b s) := by
  unfold Machine.breakRecord
  split
  · exact closeBatch b true s
  · exact offer b _ _ s

theorem breakSettled_wide (b : Bay) : Leads Wide (.breakSettled b) := fun s =>
  ⟨_, rfl, Wide.ite _ ((Effects.breakRecord b s).trans (Effects.modCon b _ _)).toWide⟩

theorem breakHoldRise_wide (b : Bay) : Leads Wide (.breakHoldRise b) := fun s =>
  ⟨_, rfl, Wide.ite _ (Effects.modCon b _ s).toWide⟩

theorem batchIdleClose_wide (b : Bay) : Leads Wide (.batchIdleClose b) := fun s => by
  refine ⟨_, rfl, ?_⟩
  split
  · exact Wide.ite _ (Effects.closeBatch b false s).toWide
  · exact Wide.refl s

theorem Effects.sendNext (b : Bay) (j : TxJob) (s : State) : Effects s (Machine.sendNext b j s) := modCon b _ s

theorem Effects.charEnd (b : Bay) (j : TxJob) (s : State) : Effects s (Machine.charEnd b j s) := by
  unfold Machine.charEnd
  simp only
  split
  · exact endSend b _ _ s
  · split
    · split
      · exact sendNext b _ s
      · exact modCon b _ s
    · exact endSend b _ _ s

theorem characterEnd_wide (b : Bay) : Leads Wide (.characterEnd b) := fun s => by
  refine ⟨_, rfl, ?_⟩
  split
  · split
    · exact Wide.ite _ (Effects.charEnd b _ s).toWide
    · exact Wide.refl s
  · exact Wide.refl s

theorem gapEnd_wide (b : Bay) : Leads Wide (.gapEnd b) := fun s => by
  refine ⟨_, rfl, ?_⟩
  split
  · split
    · exact Wide.ite _ (Effects.sendNext b _ s).toWide
    · exact Wide.refl s
  · exact Wide.refl s

/-! ### The Trigger Sequencer -/

theorem codeStallEvent_wide (b : Bay) : Leads Wide (.codeStallEvent b) := fun s => by
  refine ⟨_, rfl, Wide.ite _ ?_⟩
  split
  · exact (Effects.stallEvent b _ s).toWide
  · exact Wide.refl s

theorem elapsedEvent_wide (b : Bay) : Leads Wide (.elapsedEvent b) := fun s => by
  refine ⟨_, rfl, Wide.ite _ ?_⟩
  split
  · exact (Effects.conditionEvent b _ s).toWide
  · exact Wide.refl s

theorem armReadEnd_wide (b : Bay) : Leads Wide (.armReadEnd b) := fun s => by
  refine ⟨_, rfl, ?_⟩
  split
  · exact Wide.armReadEnd b _ s
  · exact Wide.refl s

/-! ### The Dispatcher -/

theorem post_wide (value : Word) : Leads Wide (.post value) := fun s => by
  refine ⟨_, rfl, ?_⟩
  split
  · split
    · exact Wide.takePost _ _ s
    · exact (Effects.raiseFixture _ s).toWide
  · exact (Effects.raiseFixture _ s).toWide

theorem bayhold_wide (value : Word) : Leads Wide (.bayhold value) := fun s => ⟨_, rfl, (Effects.modDisp _ s).toWide⟩

theorem dispatch_wide (b : Bay) (l : Lane) : Leads Wide (.dispatch b l) := fun s => by
  refine ⟨_, rfl, ?_⟩
  split
  · exact Wide.refl s
  · split
    · split
      · exact Wide.dispatchSlot b l _ _ s
      · exact Wide.refl s
    · exact Wide.dispatchSlot b l _ none s

theorem jobEnd_wide (i : Slot) : Leads Wide (.jobEnd i) := fun s => by
  refine ⟨_, rfl, ?_⟩
  split
  · exact Wide.ite _ ((((Effects.closeCard i _ _ _ _ s).trans (Effects.leaveService i _)).trans
      (Effects.endSteps i _)).toWide.trans (Wide.freeEngine i _))
  · exact Wide.refl s

theorem deadlineExpiry_wide (i : Slot) : Leads Wide (.deadlineExpiry i) := fun s => by
  refine ⟨_, rfl, Wide.ite _ ?_⟩
  split
  · exact (Effects.endUndispatched i _ _ _ s).toWide
  · exact Wide.ite _ (Wide.abortJob i _ s)
  · exact Wide.refl s

/-! ### The scan engines -/

theorem Wide.countStep (e : EngineId) (s : State) : Wide s (Machine.countStep e s) := Wide.modEng e _ s

theorem Wide.trackIdle (e : EngineId) (s : State) : Wide s (Machine.trackIdle e s) := Wide.modEng e _ s

theorem loadingEnd_wide (e : EngineId) : Leads Wide (.loadingEnd e) := fun s => by
  refine ⟨_, rfl, ?_⟩
  split
  · exact Wide.loadingEnd e _ _ s
  · exact Wide.refl s

theorem entryPathEnd_wide (e : EngineId) : Leads Wide (.entryPathEnd e) := fun s => by
  refine ⟨_, rfl, ?_⟩
  split
  · exact Wide.ite _ (Wide.entryDone e s)
  · exact Wide.refl s

theorem tdiRegionRead_wide (e : EngineId) : Leads Wide (.tdiRegionRead e) := fun s => by
  refine ⟨_, rfl, ?_⟩
  split
  · exact Wide.modEng e _ s
  · exact Wide.refl s

theorem resetTap_wide (e : EngineId) : Leads Wide (.resetTap e) := fun s =>
  ⟨_, rfl, Wide.ite _ ((Wide.trackIdle e s).trans (Wide.stepDone e _))⟩

theorem shiftEnd_wide (e : EngineId) (tdo : Nat) : Leads Wide (.shiftEnd e tdo) := fun s => by
  refine ⟨_, rfl, ?_⟩
  split
  · exact Wide.ite _ (Wide.shiftDone e _ tdo s)
  · exact Wide.refl s

theorem idleStepEnd_wide (e : EngineId) : Leads Wide (.idleStepEnd e) := fun s =>
  ⟨_, rfl, Wide.ite _ ((Wide.trackIdle e s).trans (Wide.stepDone e _))⟩

theorem abortedIdleClockEnd_wide (e : EngineId) : Leads Wide (.abortedIdleClockEnd e) := fun s => by
  refine ⟨_, rfl, ?_⟩
  split
  · exact Wide.ite _ (Wide.endJob e _ _ s)
  · exact Wide.refl s

theorem scanDelayEnd_wide (e : EngineId) : Leads Wide (.scanDelayEnd e) := fun s => by
  refine ⟨_, rfl, ?_⟩
  split
  · exact Wide.ite _ (Wide.stepDone e s)
  · exact Wide.refl s

theorem check_wide (e : EngineId) : Leads Wide (.check e) := fun s => by
  refine ⟨_, rfl, ?_⟩
  split
  · exact Wide.checkStep e _ s
  · exact Wide.refl s

theorem endStep_wide (e : EngineId) : Leads Wide (.endStep e) := fun s => by
  refine ⟨_, rfl, ?_⟩
  split
  · exact (Wide.countStep e s).trans (Wide.endJob e _ _ _)
  · exact Wide.refl s

theorem scanPowerLossStop_wide (e : EngineId) : Leads Wide (.scanPowerLossStop e) := fun s => by
  refine ⟨_, rfl, ?_⟩
  split
  · exact Wide.ite _ (Wide.cutNow e s)
  · exact Wide.ite _ (Wide.cutNow e s)
  · exact Wide.refl s

/-! ### The Line Driver -/

theorem lineDelayEnd_wide (b : Bay) (d : OutLine) : Leads Wide (.lineDelayEnd b d) := fun s =>
  ⟨_, rfl, (Effects.delayEnd b d s).toWide⟩

theorem widthEnd_wide (b : Bay) (d : OutLine) : Leads Wide (.widthEnd b d) := fun s =>
  ⟨_, rfl, (Effects.widthEnd b d s).toWide⟩

end Sys2Proof.Machine
end

section
/-! PROOF. What the commands of the Line Monitor change (R49 to R56): one monitor, and besides it only what a job's owner
or a condition event may touch. -/

namespace Sys2Proof.Machine

/-! ### Changes of one monitor -/

theorem upd_upd {α : Type} {n : Nat} (v : Vector α n) (i : Fin n) (f g : α → α) :
    upd (upd v i f) i g = upd v i (fun x => g (f x)) := by
  simp [upd]

theorem upd_id {α : Type} {n : Nat} (v : Vector α n) (i : Fin n) : upd v i (fun x => x) = v := by
  simp [upd]

theorem State.modMon_modMon (b : Bay) (f g : Monitor → Monitor) (s : State) :
    (s.modMon b f).modMon b g = s.modMon b (fun m => g (f m)) := by
  simp only [State.modMon, upd_upd]

theorem State.modMon_id (b : Bay) (s : State) : s.modMon b (fun m => m) = s := by
  simp only [State.modMon, upd_id]

theorem Wide.modMon {s u : State} (h : Wide s u) (b : Bay) (f : Monitor → Monitor) :
    Wide (s.modMon b f) (u.modMon b f) :=
  ⟨h.time, h.link, h.ctl, by simp only [State.modMon_mon, h.mon], h.rail, h.scanner, h.draws, h.pending, h.area, h.wf⟩

/-- Effects, then a change of a monitor with its effects: the change made first. -/
theorem Wide.modMon_trans {s u v : State} {b : Bay} {f : Monitor → Monitor} (h : Wide s u) (k : Wide (u.modMon b f) v) :
    Wide (s.modMon b f) v := (h.modMon b f).trans k

/-! ### Settle milestones (R54 to R56) -/

theorem raiseSettle_wide (b : Bay) (base : Tick) (k : Nat) (s : State) :
    Wide (s.modMon b (fun m => { m with milestone := k })) (raiseSettle b base k s) :=
  ((Effects.offer b _ _ _).trans (Effects.conditionEvent b _ _)).toWide

theorem raiseSettles_wide (b : Bay) (base : Tick) (ks : List Nat) (s : State) :
    Wide (s.modMon b (fun m => { m with milestone := ks.getLastD m.milestone })) (forEach ks (raiseSettle b base) s) := by
  induction ks generalizing s with
  | nil =>
    rw [show s.modMon b (fun m => { m with milestone := [].getLastD m.milestone }) = s from State.modMon_id b s]
    exact Wide.refl s
  | cons k rest ih =>
    have h := (raiseSettle_wide b base k s).modMon_trans (ih (raiseSettle b base k s))
    rw [State.modMon_modMon] at h
    simpa only [List.getLastD_cons, forEach, List.foldl_cons] using h

/-- R55: a rise of POWER_GOOD sets the settle base, and the last milestone already reached. -/
theorem powerRise_wide (b : Bay) (raw : Tick) (s : State) :
    Wide (s.modMon b (fun m =>
      { m with settleBase := some raw, milestone := (reachedMilestones (elapsed raw s.now)).getLastD 0 }))
      (powerRise b raw s) := by
  have h := (Wide.tapEdge b true (s.modMon b (fun m => { m with settleBase := some raw, milestone := 0 }))).modMon_trans
    (raiseSettles_wide b raw (reachedMilestones (elapsed raw s.now)) _)
  rwa [State.modMon_modMon] at h

theorem Wide.powerLossReport (b : Bay) (s : State) : Wide s (Machine.powerLossReport b s) := by
  unfold Machine.powerLossReport
  split
  · exact Wide.refl s
  · split
    · split
      · exact Wide.scanPowerLoss _ _ s
      · exact Wide.refl s
    · exact (Effects.sendPowerLoss b _ s).toWide
    · exact Wide.refl s

/-- R54: a fall of POWER_GOOD takes the settle base and the milestone away. -/
theorem powerFall_wide (b : Bay) (s : State) :
    Wide (s.modMon b (fun m => { m with settleBase := none, milestone := 0 })) (powerFall b s) :=
  ((Wide.tapEdge b false _).trans (Wide.powerLossReport b _)).trans (Effects.raiseBay b _ _).toWide

theorem reachedMilestones_last_le (age : Nat) : (reachedMilestones age).getLastD 0 ≤ 8 := by
  have hle : ∀ k ∈ reachedMilestones age, k ≤ 8 := fun k hk => by
    have := (List.mem_filter.1 hk).1
    simp only [List.mem_cons, List.not_mem_nil, or_false] at this
    omega
  rw [List.getLastD_eq_getLast?]
  cases h : (reachedMilestones age).getLast? with
  | none => exact Nat.zero_le 8
  | some k => exact hle k (List.mem_of_getLast? h)

/-! ### A monitor in order -/

/-- R49: no line of the monitor has a pending edge unless its levels differ. -/
def Monitor.LinesOk (m : Monitor) : Prop :=
  ∀ l : InLine, m.lines[l.val].edge = none ↔ m.lines[l.val].raw = m.lines[l.val].qual

/-- What the invariant of the Line Monitor says of one monitor. -/
def Monitor.Ok (m : Monitor) : Prop := m.SettleOk ∧ m.LinesOk

theorem State.monitors_ok_iff (s : State) : (s.SettleOk ∧ s.LinesOk) ↔ ∀ b : Bay, s.mon[b.val].Ok :=
  ⟨fun h b => ⟨h.1 b, h.2 b⟩, fun h => ⟨fun b => (h b).1, fun b => (h b).2⟩⟩

/-- A line changed keeps the lines in order when its own new levels and edge agree. -/
theorem Monitor.LinesOk.upd {m n : Monitor} (h : m.LinesOk) (l : InLine) (f : MonLine → MonLine)
    (hn : n.lines = Sys2Proof.upd m.lines l f)
    (hf : (f m.lines[l.val]).edge = none ↔ (f m.lines[l.val]).raw = (f m.lines[l.val]).qual) : n.LinesOk := fun k => by
  rw [hn, upd_get]
  split
  · next e => exact e ▸ hf
  · exact h k

/-- A line whose change has qualified is in order. -/
theorem Monitor.LinesOk.qualified {m n : Monitor} (h : m.LinesOk) (l : InLine) (level : Bool)
    (hn : n.lines = Sys2Proof.upd m.lines l (fun x => { x with raw := level, qual := level, edge := none })) :
    n.LinesOk := h.upd l _ hn ⟨fun _ => rfl, fun _ => rfl⟩

/-- A line changed keeps the settle milestone in order when its qualified level stays. -/
theorem Monitor.SettleOk.upd {m : Monitor} (h : m.SettleOk) (l : InLine) (f : MonLine → MonLine)
    (hf : (f m.lines[l.val]).qual = m.lines[l.val].qual ∨ l ≠ 0) :
    Monitor.SettleOk { m with lines := Sys2Proof.upd m.lines l f } := by
  refine ⟨h.1, fun k => ?_⟩
  have hq := h.2 k
  show (Sys2Proof.upd m.lines l f)[(0 : InLine).val].qual = true
  rw [upd_get]
  split
  · next e =>
    subst e
    exact (hf.resolve_right (fun k => k rfl)).trans hq
  · exact hq

/-- A command changes the monitor of a bay, keeps it in order, and has further effects. -/
def Monitors (b : Bay) (s u : State) : Prop :=
  ∃ f : Monitor → Monitor, Wide (s.modMon b f) u ∧ (s.mon[b.val].Ok → (f s.mon[b.val]).Ok)

theorem Wide.monitors {s u : State} (b : Bay) (h : Wide s u) : Monitors b s u :=
  ⟨fun m => m, by rwa [State.modMon_id], fun k => k⟩

theorem Monitors.trans {b : Bay} {s t u : State} (h : Monitors b s t) (k : Monitors b t u) : Monitors b s u := by
  obtain ⟨f, hf, hok⟩ := h
  obtain ⟨g, hg, gok⟩ := k
  refine ⟨fun m => g (f m), ?_, fun m => ?_⟩
  · rw [← State.modMon_modMon]
    exact hf.modMon_trans hg
  · have ht : t.mon[b.val] = f s.mon[b.val] := by simp only [hf.mon, State.modMon_mon, upd_self]
    rw [ht] at gok
    exact gok (hok m)

theorem Monitors.ok {b : Bay} {s u : State} (h : Monitors b s u) (k : ∀ c : Bay, s.mon[c.val].Ok) (c : Bay) :
    u.mon[c.val].Ok := by
  obtain ⟨f, hf, hok⟩ := h
  simp only [hf.mon, State.modMon_mon, upd_get]
  split
  · next e => exact e ▸ hok (k b)
  · exact k c

/-- A change of a line that leaves its qualified level. -/
theorem Monitors.modInLine (b : Bay) (l : InLine) (f : MonLine → MonLine) (s : State)
    (hq : ∀ x, (f x).qual = x.qual)
    (hf : (s.mon[b.val].lines[l.val].edge = none ↔ s.mon[b.val].lines[l.val].raw = s.mon[b.val].lines[l.val].qual) →
      ((f s.mon[b.val].lines[l.val]).edge = none
        ↔ (f s.mon[b.val].lines[l.val]).raw = (f s.mon[b.val].lines[l.val]).qual)) :
    Monitors b s (s.modInLine b l f) :=
  ⟨_, Wide.refl _, fun h => ⟨h.1.upd l f (.inl (hq _)), h.2.upd l f rfl (hf (h.2 l))⟩⟩

/-! ### Qualified edges, glitches and milestones (R50 to R56) -/

theorem lineEffect_wide (b : Bay) (l : InLine) (rise : Bool) (raw : Tick) (s : State) (hl : l ≠ 0) :
    Wide s (lineEffect b l rise raw s) := by
  unfold lineEffect
  split
  · next h => exact absurd (Fin.ext h) hl
  · next h => exact absurd (Fin.ext h) hl
  · exact Wide.offerStall b raw s
  · exact (Effects.raiseBay b _ s).toWide
  · exact Wide.refl s

/-- R51, R53: a qualified edge leaves the line without a pending edge, and POWER_GOOD's edges begin and end the settle
base. -/
theorem qualify_monitors (b : Bay) (l : InLine) (raw : Tick) (level : Bool) (s : State) :
    Monitors b s (qualify b l raw level s) := by
  have hev : ∀ x : State, Wide x (conditionEvent b (.line l level) (offer b (.line l level) raw x)) := fun x =>
    ((Effects.offer b _ _ x).trans (Effects.conditionEvent b _ _)).toWide
  by_cases hl : l = 0
  · subst hl
    cases level with
    | true =>
      have h := (hev (s.modInLine b 0 (fun x => { x with raw := true, qual := true, edge := none }))).modMon_trans
        (powerRise_wide b raw _)
      refine ⟨_, by rwa [State.modInLine, State.modMon_modMon] at h, fun hm => ⟨?_, hm.2.qualified 0 true rfl⟩⟩
      exact ⟨reachedMilestones_last_le _, fun _ => by simp [Sys2Proof.upd]⟩
    | false =>
      have h := (hev (s.modInLine b 0 (fun x => { x with raw := false, qual := false, edge := none }))).modMon_trans
        (powerFall_wide b _)
      refine ⟨_, by rwa [State.modInLine, State.modMon_modMon] at h, fun hm => ⟨?_, hm.2.qualified 0 false rfl⟩⟩
      exact ⟨Nat.zero_le 8, fun k => by simp at k⟩
  · exact ⟨_, (hev _).trans (lineEffect_wide b l level raw _ hl), fun hm =>
      ⟨hm.1.upd l _ (.inr hl), hm.2.qualified l level rfl⟩⟩

/-- R52: the return of a pending edge. -/
theorem glitch_monitors (b : Bay) (l : InLine) (raw : Tick) (s : State)
    (he : s.mon[b.val].lines[l.val].edge ≠ none) : Monitors b s (glitch b l raw s) := by
  refine (Monitors.modInLine b l (fun x => { x with raw := !x.raw, edge := none }) s (fun _ => rfl) (fun h => ?_)).trans
    (((Effects.offer b _ _ _).trans (Effects.conditionEvent b _ _)).toWide.monitors b)
  have hne := mt h.2 he
  revert hne
  cases s.mon[b.val].lines[l.val].raw <;> cases s.mon[b.val].lines[l.val].qual <;> simp

theorem rawChange_monitors (b : Bay) (l : InLine) (s : State) : Monitors b s (rawChange b l s) := by
  unfold rawChange
  simp only
  split
  · next raw he => exact glitch_monitors b l raw s (by simp [he])
  · next he =>
    split
    · exact qualify_monitors b l _ _ s
    · refine Monitors.modInLine b l _ s (fun _ => rfl) (fun h => ?_)
      rw [← h.1 he]
      cases s.mon[b.val].lines[l.val].raw <;> simp

theorem lineRawChange_monitors (b : Bay) (l : InLine) : Leads (Monitors b) (.lineRawChange b l) := fun s => by
  refine ⟨_, rfl, ?_⟩
  have hpin := Monitors.modInLine b l (fun x => { x with pin := !x.pin }) s (fun _ => rfl) (fun h => h)
  split
  · exact hpin.trans (rawChange_monitors b l _)
  · exact hpin

theorem lineQualify_monitors (b : Bay) (l : InLine) : Leads (Monitors b) (.lineQualify b l) := fun s => by
  refine ⟨_, rfl, ?_⟩
  split
  · split
    · exact qualify_monitors b l _ _ s
    · exact (Wide.refl s).monitors b
  · exact (Wide.refl s).monitors b

theorem settleMilestoneRaise_monitors (b : Bay) : Leads (Monitors b) (.settleMilestoneRaise b) := fun s => by
  refine ⟨_, rfl, ?_⟩
  split
  · next base hb =>
    simp only
    split
    · next h =>
      simp only [Bool.and_eq_true, decide_eq_true_eq] at h
      exact ⟨_, raiseSettle_wide b base _ s, fun hm => ⟨⟨h.1.2, fun _ => hm.1.2 (.inl (by simp [hb]))⟩, hm.2⟩⟩
    · exact (Wide.refl s).monitors b
  · exact (Wide.refl s).monitors b

end Sys2Proof.Machine
end

section
/-! PROOF. What every command but a reset and the start instant keeps: the bytes that show the device, or published
fields written from their values, and the invariants of the Time Base and the monitors (R4, R6, R8, R49, R55, R56). -/

namespace Sys2Proof.Machine

/-- R6, R8, R49, R55, R56: the invariants of the Time Base and of the Line Monitors. -/
def State.InputsOk (s : State) : Prop := s.SourceOk ∧ s.SettleOk ∧ s.LinesOk

theorem State.InputsOk.congr {s u : State} (source : u.time.source = s.time.source)
    (milestone : u.time.milestone = s.time.milestone) (mon : u.mon = s.mon) (h : s.InputsOk) : u.InputsOk := by
  simpa only [State.InputsOk, State.SourceOk, State.SettleOk, State.LinesOk, source, milestone, mon] using h

/-- Published fields of a state written from their values, on memory whose published area is that of before. -/
def Shows (s u : State) : Prop :=
  ∃ (v : State) (fs : List Field), u = rewrite fs v ∧ Steady s v ∧ ∀ f ∈ fs, f ∈ publishedFields v

theorem Steady.shows {s u : State} (h : Steady s u) : Shows s u := ⟨u, [], rfl, h, fun _ hf => by cases hf⟩

/-- What a command must do for the status block to stay true (of checked steps, as a result write must stay in the job
data area) and for the invariants of its inputs to be kept. -/
structure Sound (s u : State) : Prop where
  shows : s.EnginesChecked → Shows s u
  inputs : s.InputsOk → u.InputsOk

theorem Steady.sound {s u : State} (h : Steady s u) (k : s.InputsOk → u.InputsOk) : Sound s u := ⟨fun _ => h.shows, k⟩

theorem Wide.sound {s u : State} (h : Wide s u) : Sound s u := h.steady.sound (State.InputsOk.congr (by rw [h.time]) (by rw [h.time]) h.mon)

theorem Sound.refl (s : State) : Sound s s := (Wide.refl s).sound

/-- A change of the Time Base that keeps its invariant, then effects, then changes of neither the Time Base, the
monitors nor memory. -/
theorem Wide.sound_modTime {s u v : State} {f : TimeBase → TimeBase} (h : Wide (s.modTime f) u)
    (hf : s.SourceOk → (s.modTime f).SourceOk) (mem : v.mem = u.mem) (time : v.time = u.time) (mon : v.mon = u.mon) :
    Sound s v :=
  ((Steady.ofMem (s := s) (u := s.modTime f) rfl).trans (h.steady.trans (.ofMem mem))).sound (fun hs =>
    State.InputsOk.congr (s := s.modTime f) (by rw [time, h.time]) (by rw [time, h.time]) (mon.trans h.mon)
      ⟨hf hs.1, hs.2⟩)

/-- A change of neither the source, the milestone, the monitors nor memory. -/
theorem sound_of_eq {s v : State} (mem : v.mem = s.mem) (source : v.time.source = s.time.source)
    (milestone : v.time.milestone = s.time.milestone) (mon : v.mon = s.mon) : Sound s v :=
  (Steady.ofMem mem).sound (State.InputsOk.congr source milestone mon)

/-- A change of one monitor that keeps it in order, and effects. -/
theorem Monitors.sound {b : Bay} {s u : State} (h : Monitors b s u) : Sound s u := by
  obtain ⟨f, hf, -⟩ := id h
  refine ((Steady.ofMem (s := s) (u := s.modMon b f) rfl).trans hf.steady).sound (fun hs => ⟨?_,
    (State.monitors_ok_iff u).2 (h.ok ((State.monitors_ok_iff s).1 hs.2))⟩)
  simpa only [State.SourceOk, hf.time, State.modMon_time] using hs.1

/-! ### The Time Base -/

theorem qualificationRunStart_sound : Leads Sound .qualificationRunStart := fun s => by
  refine ⟨_, rfl, ?_⟩
  split
  · exact sound_of_eq rfl rfl rfl rfl
  · exact Sound.refl s

theorem referenceRisingEdge_sound : Leads Sound .referenceRisingEdge := fun s => by
  refine ⟨_, rfl, ?_⟩
  split
  · split
    · exact sound_of_eq rfl rfl rfl rfl
    · exact Sound.refl s
  · exact Sound.refl s

theorem referenceMilestoneRaise_sound : Leads Sound .referenceMilestoneRaise := fun s => by
  refine ⟨_, rfl, ?_⟩
  split
  · split
    · next h =>
      simp only [Bool.and_eq_true, decide_eq_true_eq] at h
      refine (Wide.refl (s.modTime _)).sound_modTime (fun hs => ⟨?_, fun hb => ?_⟩) rfl rfl rfl
      · exact h.1
      · have := hs.2 hb
        omega
    · exact Sound.refl s
  · exact Sound.refl s

/-- R9, R10: a change of source touches the source, and what an offer and a raised factor touch. -/
theorem switchSource_wide (src : Source) (cause : SourceCause) (s : State) :
    Wide (s.modTime (fun t => { t with source := src })) (switchSource src cause s) :=
  ((Effects.offerAll _ _ _).trans (Effects.raiseFixture _ _)).toWide

theorem referenceLoss_sound : Leads Sound .referenceLoss := fun s => by
  refine ⟨_, rfl, ?_⟩
  split
  · split
    · simp only
      split
      · exact (switchSource_wide .internal .loss (s.modTime (fun t => { t with run := none, milestone := 0 }))).sound_modTime
          (f := fun t => { t with run := none, milestone := 0, source := .internal })
          (fun _ => ⟨Nat.zero_le 4, fun h => by cases h⟩) rfl rfl rfl
      · next hb =>
        exact (Wide.refl (s.modTime (fun t => { t with run := none, milestone := 0 }))).sound_modTime
          (fun _ => ⟨Nat.zero_le 4, fun h => absurd h hb⟩) rfl rfl rfl
    · exact Sound.refl s
  · exact Sound.refl s

theorem selectBench_sound : Leads Sound .selectBench := fun s => by
  refine ⟨_, rfl, ?_⟩
  split
  · next h4 =>
    split
    · exact (switchSource_wide .bench .select s).sound_modTime (fun hs => ⟨hs.1, fun _ => h4⟩) rfl rfl rfl
    · exact sound_of_eq rfl rfl rfl rfl
  · exact sound_of_eq rfl rfl rfl rfl

theorem selectInternal_sound : Leads Sound .selectInternal := fun s => by
  refine ⟨_, rfl, ?_⟩
  split
  · exact (switchSource_wide .internal .select s).sound_modTime (fun hs => ⟨hs.1, fun h => by cases h⟩) rfl rfl rfl
  · exact sound_of_eq rfl rfl rfl rfl

theorem syncRawChange_sound : Leads Sound .syncRawChange := fun _ =>
  ⟨_, rfl, sound_of_eq rfl rfl rfl rfl⟩

theorem syncQualifiedFall_sound : Leads Sound .syncQualifiedFall := fun s => by
  refine ⟨_, rfl, ?_⟩
  split
  · split
    · exact sound_of_eq rfl rfl rfl rfl
    · exact Sound.refl s
  · exact Sound.refl s

theorem timeHighRead_sound (lanes : BitVec 4) : Leads Sound (.timeHighRead lanes) := fun _ =>
  ⟨_, rfl, sound_of_eq rfl rfl rfl rfl⟩

theorem timeLowRead_sound (lanes : BitVec 4) : Leads Sound (.timeLowRead lanes) := fun _ =>
  ⟨_, rfl, sound_of_eq rfl rfl rfl rfl⟩

/-- R12: the fields of the SYNC capture are published fields. -/
theorem syncFields_published (s : State) : ∀ f ∈ syncFields s, f ∈ publishedFields s := fun f hf => by
  simp only [publishedFields, mirrorFields, List.append_assoc, List.mem_append]
  exact .inr (.inr (.inr (.inl hf)))

/-- R12: the state at a capture before its two fields are written. -/
def captured (raw : Tick) (s : State) : State :=
  offerAll (.sync (s.time.syncCount + 1#32)) raw (s.modTime (fun t =>
    { t with syncQual := true, syncPending := none, lastSync := raw, syncCount := t.syncCount + 1#32 }))

theorem captureSync_eq (raw : Tick) (s : State) :
    captureSync raw s = rewrite (syncFields (captured raw s)) (captured raw s) := rfl

theorem captured_wide (raw : Tick) (s : State) :
    Wide (s.modTime (fun t =>
      { t with syncQual := true, syncPending := none, lastSync := raw, syncCount := t.syncCount + 1#32 }))
      (captured raw s) := (Effects.offerAll _ _ _).toWide

theorem syncCapture_sound : Leads Sound .syncCapture := fun s => by
  refine ⟨_, rfl, ?_⟩
  split
  · next raw _ =>
    split
    · have h := captured_wide raw s
      refine ⟨fun _ => ⟨captured raw s, _, captureSync_eq raw s, 
        (Steady.ofMem (s := s) (u := s.modTime _) rfl).trans h.steady, syncFields_published _⟩, fun hs => ?_⟩
      rw [captureSync_eq]
      exact State.InputsOk.congr (by rw [rewrite_time, h.time]; rfl) (by rw [rewrite_time, h.time]; rfl)
        (by rw [rewrite_mon, h.mon]; rfl) hs
    · exact Sound.refl s
  · exact Sound.refl s

/-! ### The Rail Scanner -/

theorem railFields_published (s : State) (b : Bay) (r : RailId) : ∀ f ∈ railFields s b r, f ∈ publishedFields s := by
  intro f hf
  have hb : f ∈ bayFields s b := by
    simp only [bayFields, List.append_assoc, List.mem_append]
    match r with
    | 0 => exact .inr (.inl hf)
    | 1 => exact .inr (.inr (.inl hf))
    | 2 => exact .inr (.inr (.inr (.inl hf)))
  simp only [publishedFields, List.append_assoc, List.mem_append, List.mem_flatMap]
  exact .inr (.inl ⟨b, by fin_cases b <;> decide, hb⟩)

/-- R73, R77, R78: a conversion changes its rail, then come a transition's effects, then the rail's fields are written. -/
theorem endConversion_eq (b : Bay) (r : RailId) (code : BitVec 12) (s : State) :
    ∃ (f : Rail → Rail) (v : State), endConversion b r code s = rewrite (railFields v b r) v
      ∧ Wide (s.modRail b r f) v := by
  let x := s.rail[b.val][r.val]
  refine ⟨fun y => { y with
    value := railValue x.fullScale code, window := x.judge (railValue x.fullScale code), lastConv := some s.now }, _, rfl, ?_⟩
  split
  · exact ((Effects.offer b _ _ _).trans (Effects.conditionEvent b _ _)).toWide
  · exact Wide.refl _

theorem conversion_sound (code : BitVec 12) : Leads Sound (.conversion code) := fun s => by
  refine ⟨_, rfl, ?_⟩
  split
  · next c _ =>
    split
    · obtain ⟨f, v, hv, hw⟩ := endConversion_eq c.bay c.rail code s
      rw [hv]
      refine ⟨fun _ => ⟨beginConversion (s.nextPosition c.bay c.rail) v, _, rfl, ?_, railFields_published _ c.bay c.rail⟩,
        State.InputsOk.congr (by simp [beginConversion, hw.time]) (by simp [beginConversion, hw.time])
          (by simp [beginConversion, hw.mon])⟩
      exact ((Steady.ofMem (s := s) (u := s.modRail c.bay c.rail f) rfl).trans hw.steady).trans (.ofMem rfl)
    · exact Sound.refl s
  · exact Sound.refl s

/-! ### Scan results (R164) -/

/-- R161: a list whose steps pass their checks begins with a step that passes its own. -/
theorem checkStep_of_firstBadStep {x : ScanEntry} {rest : List ScanEntry} {i : Nat}
    (h : firstBadStep (x :: rest) i = none) : x.checkStep = none := by
  simp only [firstBadStep] at h
  split at h
  · cases h
  · assumption

/-- R161: the regions of a checked step pass their checks. -/
theorem regionsOk_of_checkStep {x : ScanEntry} {k : StepKind} (h : x.checkStep = none) (hk : x.stepKind = some k) :
    x.regionsOk k = true := by
  simp only [ScanEntry.checkStep, hk] at h
  split at h
  · cases h
  · split at h
    · cases h
    · simpa using ‹¬ (!x.regionsOk k) = true›

/-- R161: the result region of a checked step that stores lies in the job data area. -/
theorem resultRegion_of_checkStep {x : ScanEntry} (h : x.checkStep = none) (hs : x.stores = true)
    (hk : x.stepKind = some .ir ∨ x.stepKind = some .dr) : inJobArea x.b x.bytes = true := by
  rcases hk with hk | hk
  all_goals
    have hr := regionsOk_of_checkStep h hk
    simp only [ScanEntry.regionsOk, hs, Bool.not_true, Bool.false_or, Bool.and_eq_true] at hr
    exact hr.2

/-- R161, R164: a result write of an engine on checked steps lies in the job data area. -/
theorem resultField_inJobArea {g : Engine} (h : g.Checked) {f : Field} (hf : g.resultField = some f) :
    0x010000 ≤ f.1 := by
  unfold Engine.resultField at hf
  split at hf
  · next x hw hx =>
    cases hf
    obtain ⟨y, hy, hs, hk⟩ := h.write hw
    obtain rfl : y = x := by simpa [hx] using hy.symm
    obtain ⟨i, hi, hget⟩ := Option.bind_eq_some_iff.1 hx
    have hd := (h.rest i y hi hget).1
    rw [List.drop_eq_getElem_cons (List.getElem?_eq_some_iff.1 hget).1, (List.getElem?_eq_some_iff.1 hget).2] at hd
    have := resultRegion_of_checkStep (checkStep_of_firstBadStep hd) hs hk
    simp only [inJobArea, Bool.and_eq_true, decide_eq_true_eq] at this
    exact this.1
  · cases hf

theorem Steady.overwrite {a : Nat} (h : 0x010000 ≤ a) (bytes : List Byte) (s : State) : Steady s (s.overwrite a bytes) := by
  refine ⟨fun x hx => ?_, fun w => ?_⟩
  · rw [State.overwrite_mem]
    refine Memory.read_writeBytes_other _ _ _ _ (.inl ?_)
    simp only [publishedArea] at hx
    omega
  · rw [State.overwrite_mem]
    exact Memory.wf_writeBytes w a bytes

theorem State.overwrite_time (a : Nat) (bytes : List Byte) (s : State) : (s.overwrite a bytes).time = s.time := by
  rw [State.overwrite, State.store_time, State.keepEarly_eq]

theorem State.overwrite_mon (a : Nat) (bytes : List Byte) (s : State) : (s.overwrite a bytes).mon = s.mon := by
  rw [State.overwrite, State.store_mon, State.keepEarly_eq]

theorem resultWrite_sound (e : EngineId) : Leads Sound (.resultWrite e) := fun s => by
  refine ⟨_, rfl, ?_⟩
  split
  · next f hf =>
    have h := Wide.stepDone e (s.overwrite f.1 f.2)
    exact ⟨fun hc => ((Steady.overwrite (resultField_inJobArea (hc e) hf) f.2 s).trans h.steady).shows,
      State.InputsOk.congr (by rw [h.time, State.overwrite_time]) (by rw [h.time, State.overwrite_time])
        (by rw [h.mon, State.overwrite_mon])⟩
  · exact Sound.refl s

/-! ### Control, the Notice Unit and the link -/

theorem start_sound : Leads Sound .start := fun s => by
  refine ⟨_, rfl, ?_⟩
  split <;> exact sound_of_eq rfl rfl rfl rfl

theorem profileReadEnd_sound : Leads Sound .profileReadEnd := fun s => by
  refine ⟨_, rfl, ?_⟩
  split
  · split
    · next e i _ =>
      exact ⟨fun _ => ⟨s.modCtl _, _, rfl, .ofMem rfl, refusalFields_published _⟩,
        State.InputsOk.congr (by rw [refuseStart_eq]) (by rw [refuseStart_eq]) (by rw [refuseStart_eq])⟩
    · exact sound_of_eq rfl rfl rfl rfl
  · exact Sound.refl s

/-- R196: STOP's requests. -/
theorem stopDevice_wide (s : State) : Wide (enterStopping s) (stopDevice s) :=
  (((Wide.forEach _ (fun b x => (Effects.modSeq b _ x).toWide) _).trans (Wide.dispatcherStop _)).trans
    (Wide.forEach _ (fun b x => (Effects.standDown b x).toWide) _)).trans
    (Wide.forEach _ (fun b x => (Effects.stopStream b x).toWide) _)

theorem stop_sound : Leads Sound .stop := fun s => by
  refine ⟨_, rfl, ?_⟩
  split
  · have h := stopDevice_wide s
    exact ((Steady.ofMem (s := s) (u := enterStopping s) rfl).trans h.steady).sound
      (State.InputsOk.congr (by rw [h.time]; rfl) (by rw [h.time]; rfl) (by rw [h.mon]; rfl))
  · exact sound_of_eq rfl rfl rfl rfl

/-- R49: a stopped monitor is in order when it was. -/
theorem Monitor.Ok.stopped {m : Monitor} (h : m.Ok) : Monitor.Ok { m with lines := m.lines.map MonLine.stopped } := by
  refine ⟨⟨h.1.1, fun k => ?_⟩, fun l => ?_⟩
  · simpa [MonLine.stopped] using h.1.2 k
  · simp [MonLine.stopped]

theorem returnToIdle_sound : Leads Sound .returnToIdle := fun s => by
  refine ⟨_, rfl, ?_⟩
  split
  · refine (Steady.ofMem (s := s) (u := idleBlocks s) rfl).sound (fun hs => ⟨hs.1, (State.monitors_ok_iff _).2 (fun b => ?_)⟩)
    simpa [idleBlocks] using ((State.monitors_ok_iff s).1 hs.2 b).stopped
  · exact Sound.refl s

theorem unknownCommand_sound (code : Word) : Leads Sound (.unknownCommand code) := fun s => by
  refine ⟨_, rfl, ?_⟩
  split
  · exact Sound.refl s
  · exact sound_of_eq rfl rfl rfl rfl

theorem linkDown_sound (cause : LinkDownCause) : Leads Sound (.linkDown cause) := fun s => by
  refine ⟨_, rfl, ?_⟩
  cases cause <;> exact sound_of_eq rfl rfl rfl rfl

theorem noticeRead_sound (lanes : BitVec 4) : Leads Sound (.noticeRead lanes) := fun s => by
  refine ⟨_, rfl, ?_⟩
  unfold takeNotice
  split <;> exact sound_of_eq rfl rfl rfl rfl

/-- A command that leaves the state as it is publishes nothing. -/
theorem commit_self (s : State) : commit s s = .next s := by
  have h : signalLine s s = s := by simp [signalLine]
  rw [commit_eq, h, publish_same rfl]

theorem registerWriteIgnored_sound (offset : Nat) (lanes : BitVec 4) (value : Word) :
    Leads Sound (.registerWriteIgnored offset lanes value) := fun s => ⟨s, (commit_self s).symm, Sound.refl s⟩

/-! ### Every command -/

/-- A command that is neither a reset nor the start instant publishes a state that is sound. -/
theorem exec_sound (c : Instr) (h : keepsRun c = true) (hs : c ≠ .startInstant) : Leads Sound c := by
  have wide {c : Instr} (h : Leads Wide c) : Leads Sound c := h.imp Wide.sound
  have monitors {b : Bay} {c : Instr} (h : Leads (Monitors b) c) : Leads Sound c := h.imp Monitors.sound
  match c with
  | .powerOnReset => cases h
  | .linkReset _ => cases h
  | .restart => cases h
  | .startInstant => exact absurd rfl hs
  | .qualificationRunStart => exact qualificationRunStart_sound
  | .referenceMilestoneRaise => exact referenceMilestoneRaise_sound
  | .referenceLoss => exact referenceLoss_sound
  | .referenceRisingEdge => exact referenceRisingEdge_sound
  | .selectBench => exact selectBench_sound
  | .selectInternal => exact selectInternal_sound
  | .syncRawChange => exact syncRawChange_sound
  | .syncCapture => exact syncCapture_sound
  | .syncQualifiedFall => exact syncQualifiedFall_sound
  | .timeHighRead lanes => exact timeHighRead_sound lanes
  | .timeLowRead lanes => exact timeLowRead_sound lanes
  | .writeRecord => exact wide writeRecord_wide
  | .flushClose => exact wide flushClose_wide
  | .drainEnd => exact wide drainEnd_wide
  | .tLastLapse b => exact wide (tLastLapse_wide b)
  | .release value => exact wide (release_wide value)
  | .lineRawChange b l => exact monitors (lineRawChange_monitors b l)
  | .lineQualify b l => exact monitors (lineQualify_monitors b l)
  | .settleMilestoneRaise b => exact monitors (settleMilestoneRaise_monitors b)
  | .codeArrival b cond => exact wide (codeArrival_wide b cond)
  | .codeErr b cond => exact wide (codeErr_wide b cond)
  | .codeFrameStall b => exact wide (codeFrameStall_wide b)
  | .stallReferenceLapse b => exact wide (stallReferenceLapse_wide b)
  | .codeStartCondition b => exact wide (codeStartCondition_wide b)
  | .codeClkEdge b edge dat => exact wide (codeClkEdge_wide b edge dat)
  | .conversion code => exact conversion_sound code
  | .falseStart b => exact wide (falseStart_wide b)
  | .goodByte b => exact wide (goodByte_wide b)
  | .framingError b => exact wide (framingError_wide b)
  | .breakSettled b => exact wide (breakSettled_wide b)
  | .batchIdleClose b => exact wide (batchIdleClose_wide b)
  | .conRxFall b => exact wide (conRxFall_wide b)
  | .bitSample b level => exact wide (bitSample_wide b level)
  | .breakCandidate b => exact wide (breakCandidate_wide b)
  | .breakHoldRise b => exact wide (breakHoldRise_wide b)
  | .characterEnd b => exact wide (characterEnd_wide b)
  | .gapEnd b => exact wide (gapEnd_wide b)
  | .codeStallEvent b => exact wide (codeStallEvent_wide b)
  | .elapsedEvent b => exact wide (elapsedEvent_wide b)
  | .armReadEnd b => exact wide (armReadEnd_wide b)
  | .post value => exact wide (post_wide value)
  | .bayhold value => exact wide (bayhold_wide value)
  | .dispatch b lane => exact wide (dispatch_wide b lane)
  | .jobEnd i => exact wide (jobEnd_wide i)
  | .deadlineExpiry i => exact wide (deadlineExpiry_wide i)
  | .loadingEnd e => exact wide (loadingEnd_wide e)
  | .entryPathEnd e => exact wide (entryPathEnd_wide e)
  | .tdiRegionRead e => exact wide (tdiRegionRead_wide e)
  | .resetTap e => exact wide (resetTap_wide e)
  | .shiftEnd e tdo => exact wide (shiftEnd_wide e tdo)
  | .resultWrite e => exact resultWrite_sound e
  | .idleStepEnd e => exact wide (idleStepEnd_wide e)
  | .abortedIdleClockEnd e => exact wide (abortedIdleClockEnd_wide e)
  | .scanDelayEnd e => exact wide (scanDelayEnd_wide e)
  | .check e => exact wide (check_wide e)
  | .endStep e => exact wide (endStep_wide e)
  | .scanPowerLossStop e => exact wide (scanPowerLossStop_wide e)
  | .lineDelayEnd b d => exact wide (lineDelayEnd_wide b d)
  | .widthEnd b d => exact wide (widthEnd_wide b d)
  | .start => exact start_sound
  | .profileReadEnd => exact profileReadEnd_sound
  | .stop => exact stop_sound
  | .returnToIdle => exact returnToIdle_sound
  | .unknownCommand code => exact unknownCommand_sound code
  | .noticeRead lanes => exact noticeRead_sound lanes
  | .registerWriteIgnored offset lanes value => exact registerWriteIgnored_sound offset lanes value
  | .linkDown cause => exact linkDown_sound cause

end Sys2Proof.Machine
end

section
/-! PROOF. The invariants of the Time Base and of the Line Monitors over a step (O54), and the status block over a
command (O58). -/

namespace Sys2Proof.Machine

/-! ### Resets and the start instant -/

theorem Monitor.Ok.reset (m : Monitor) : m.reset.Ok :=
  ⟨⟨Nat.zero_le 8, fun h => by simp [Monitor.reset] at h⟩, fun l => by simp [Monitor.reset, MonLine.reset]⟩

/-- R49, R57: a monitor at the start instant is in order. -/
theorem Monitor.Ok.started (on : Bool) (p : BayProfile) (m : Monitor) : (m.started on p).Ok := by
  refine ⟨⟨?_, fun h => ?_⟩, fun l => by simp [Monitor.started]⟩
  · simp only [Monitor.started]
    split <;> omega
  · simpa [Monitor.started] using h

theorem resetBlocks_inputs (s : State) (m : Memory) (n : Nat) :
    State.InputsOk { resetBlocks s with mem := m, draws := n } := by
  refine ⟨⟨Nat.zero_le 4, fun h => by cases h⟩, (State.monitors_ok_iff _).2 (fun b => ?_)⟩
  simpa [resetBlocks] using Monitor.Ok.reset s.mon[b.val]

theorem commitReset_inputs {old new t : State} (h : new.InputsOk) (ht : commitReset old new = .next t) : t.InputsOk := by
  cases ht
  exact h.congr rfl rfl rfl

theorem startInstant_inputs {s t : State} (h : s.InputsOk) (ht : exec .startInstant s = .next t) : t.InputsOk := by
  change execStartInstant s = .next t at ht
  unfold execStartInstant at ht
  split at ht
  · split at ht
    · cases ht
      refine ⟨by simpa [State.SourceOk, startBlocks] using h.1, (State.monitors_ok_iff _).2 (fun b => ?_)⟩
      simpa [startBlocks] using Monitor.Ok.started _ _ s.mon[b.val]
    · cases ht
      exact h
  · cases ht
    exact h

/-- Every command keeps the invariants of the Time Base and of the monitors. -/
theorem exec_inputs (c : Instr) {s t : State} (h : s.InputsOk) (ht : exec c s = .next t) : t.InputsOk := by
  by_cases hk : keepsRun c = true
  · by_cases hs : c = .startInstant
    · subst hs
      exact startInstant_inputs h ht
    · obtain ⟨u, hu, hsound⟩ := exec_sound c hk hs s
      rw [hu] at ht
      cases ht
      exact (hsound.inputs h).congr (by simp) (by simp) (by simp)
  · cases c with
    | powerOnReset => exact commitReset_inputs (resetBlocks_inputs s _ _) ht
    | linkReset cause =>
      change execLinkReset cause s = .next t at ht
      unfold execLinkReset at ht
      split at ht
      · exact commitReset_inputs (resetBlocks_inputs _ _ _) ht
      · cases ht
        exact h
    | restart =>
      have hr : State.InputsOk (setOutcome .accepted (resetBlocks (abandonWork s))) :=
        (resetBlocks_inputs (abandonWork s) s.mem s.draws).congr rfl rfl rfl
      exact commitReset_inputs hr ht
    | _ => exact absurd rfl hk

/-- Settles O54, from what each command keeps; a tick moves the count and the returns to rest alone. -/
theorem everyStepKeepsTheSourceAndTheMilestones : Obligations.EveryStepKeepsTheSourceAndTheMilestones := by
  intro s t h ht
  unfold step at ht
  split at ht
  · cases ht
    exact State.InputsOk.congr rfl rfl rfl h
  · next c rest _ => exact exec_inputs c (State.InputsOk.congr (u := { s with pending := rest }) rfl rfl rfl h) ht

/-! ### The status block over a command -/

/-- R199: a sound command publishes a status block that shows the device. -/
theorem Shows.publish_shown {s u : State} (h : Shows s u) (hs : s.Shown) (hw : s.mem.wf) :
    (publish s (signalLine s u)).Shown := by
  obtain ⟨v, fs, rfl, hv, hfs⟩ := h
  refine publish_rewrite_shown (new := signalLine s v) (hv.wf hw) hfs (fun f hf => ?_)
  rw [← hs f hf]
  have harea := publishedFields_area s f hf
  refine (congrArg _ (Memory.length_readBytes _ _ _)).trans (Memory.readBytes_congr _ _ (fun a h1 h2 => hv.shown a ?_))
  simp only [publishedArea]
  omega

theorem startMemory_wf {m : Memory} (h : m.wf) : (startMemory m).wf :=
  Memory.wf_zeroRange (Memory.wf_writeFields h _) _ _

/-- Memory shows the fields that have all been written. -/
theorem publishAll_shown (s : State) {m : Memory} (h : m.wf) : (publishAll { s with mem := m }).Shown := fun f hf => by
  have hf' : f ∈ publishedFields s := publishedFields_rewrite _ { s with mem := m } ▸ hf
  rw [publishAll_mem]
  refine Memory.readBytes_writeFields_mem h _ f (fun g hg => publishedFields_apart hf' hg) ?_ hf'
  have := publishedFields_area s f hf'
  simp only [cardMemorySize]
  omega

theorem State.Shown.signalLine {s u : State} (h : u.Shown) : (signalLine s u).Shown := h

theorem startInstant_shown {s t : State} (hs : s.Shown) (hw : s.mem.wf) (ht : exec .startInstant s = .next t) :
    t.Shown := by
  change execStartInstant s = .next t at ht
  unfold execStartInstant at ht
  split at ht
  · split at ht
    · next p _ =>
      cases ht
      exact (publishAll_shown (startBlocks p s) (startMemory_wf hw)).signalLine
    · cases ht
      exact hs
  · cases ht
    exact hs

theorem commandsKeepTheStatusBlockTrue : CommandsKeepTheStatusBlockTrue := by
  intro s t c hs hw he hk ht
  by_cases hc : c = .startInstant
  · subst hc
    exact startInstant_shown hs hw ht
  · obtain ⟨u, hu, hsound⟩ := exec_sound c hk hc s
    rw [hu] at ht
    cases ht
    exact (hsound.shows he).publish_shown hs hw

end Sys2Proof.Machine
end

section
/-! PROOF. The layout of the status block and of the stream table (12.3, 12.7): what memory that shows the published
fields holds at each of their places. -/

namespace Sys2Proof.Machine

/-! ### Fields shown are fields held -/

/-- Card memory holds a field's bytes as a number at its place. -/
def Stands (s : State) (f : Field) : Prop := s.mem.field f.1 f.2.length = leNat f.2

theorem State.Shown.stands {s : State} (h : s.Shown) {f : Field} (hf : f ∈ publishedFields s) : Stands s f :=
  congrArg leNat (h f hf)

theorem stands_fld (s : State) (a n v : Nat) : Stands s (fld a n v) ↔ Holds s a n v := by
  simp only [Stands, Holds, fld, leBytes_length, leNat_leBytes]

theorem holds_congr {s : State} {a a' n v v' : Nat} (h : Holds s a n v) (ha : a = a') (hv : v = v') :
    Holds s a' n v' := ha ▸ hv ▸ h

theorem mirrorFields_published {s : State} {f : Field} (h : f ∈ mirrorFields s) : f ∈ publishedFields s := by
  simp only [publishedFields, List.append_assoc, List.mem_append]
  exact .inl h

theorem mem_allBays (b : Bay) : b ∈ allBays := by
  fin_cases b <;> decide

theorem bayFields_published {s : State} {b : Bay} {f : Field} (h : f ∈ bayFields s b) : f ∈ publishedFields s := by
  simp only [publishedFields, List.append_assoc, List.mem_append, List.mem_flatMap]
  exact .inr (.inl ⟨b, mem_allBays b, h⟩)

theorem streamFields_published {s : State} {b : Bay} {f : Field} (h : f ∈ streamFields s b) : f ∈ publishedFields s := by
  simp only [publishedFields, List.append_assoc, List.mem_append, List.mem_flatMap]
  exact .inr (.inr ⟨b, mem_allBays b, h⟩)

theorem bit_isSome {α : Type} (x : Option α) [Decidable (x ≠ none)] : bit x.isSome = flag (x ≠ none) := by
  cases x <;> simp [bit, flag]

/-- R206: a field of one byte is the byte. -/
theorem read_of_holds {s : State} {a v : Nat} (h : Holds s a 1 v) : s.mem.read a = BitVec.ofNat 8 v := by
  refine BitVec.eq_of_toNat_eq ?_
  simp only [Holds, Memory.field, Memory.readBytes, leNat] at h
  rw [BitVec.toNat_ofNat]
  omega

/-! ### The device mirror -/

/-- R201: each byte of the pending set. -/
theorem State.Shown.pending {s : State} (h : s.Shown) (g : Fin 9) :
    Holds s (0x001024 + g.val) 1 s.notices.pend[g.val].toNat := by
  have hp := h _ (mirrorFields_published (f := pendingField s) (by simp [mirrorFields]))
  have hr : s.mem.read (0x001024 + g.val) = BitVec.ofNat 8 s.notices.pend[g.val].toNat := by
    simp only [pendingField, allGroups, List.map_cons, List.map_nil, List.length_cons, List.length_nil,
      Memory.readBytes, List.cons.injEq, mirrorAddr, and_true] at hp
    obtain ⟨h0, h1, h2, h3, h4, h5, h6, h7, h8⟩ := hp
    fin_cases g <;> assumption
  simp only [Holds, Memory.field, Memory.readBytes, leNat, hr, BitVec.toNat_ofNat]
  omega

theorem engineFields_published {s : State} (e : EngineId) {f : Field} (h : f ∈ engineFields s e) :
    f ∈ publishedFields s := by
  refine mirrorFields_published ?_
  simp only [mirrorFields, List.mem_append]
  match e with
  | 0 => exact .inl (.inr h)
  | 1 => exact .inr h

theorem State.Shown.mirror {s : State} (h : s.Shown) : MirrorLayout s := by
  have hf : ∀ f ∈ mirrorFields s, Stands s f := fun f hm => h.stands (mirrorFields_published hm)
  simp only [mirrorFields, refusalFields, syncFields, freeField, List.forall_mem_append, List.forall_mem_cons, stands_fld,
    List.not_mem_nil, false_imp_iff, implies_true, and_true, and_assoc] at hf
  obtain ⟨device, outcome, error, index, run, enabled, source, milestone, clamps, first, lastSync, syncCount, free,
    parked, requested, inService, -, -⟩ := hf
  refine ⟨device, outcome, error, index, run, enabled, source, milestone, clamps, first, lastSync, syncCount, free,
    parked, requested, inService, h.pending, fun e => ?_⟩
  have he : ∀ f ∈ engineFields s e, Stands s f := fun f hm => h.stands (engineFields_published e hm)
  simp only [engineFields, List.forall_mem_cons, stands_fld, List.not_mem_nil, false_imp_iff, implies_true, and_true,
    bit_isSome] at he
  obtain ⟨state, valid, bay, slot, phase, step⟩ := he
  have at1 (n : Nat) : mirrorAddr + 0x30 + 8 * e.val + n = 0x001030 + n + 8 * e.val := by
    simp only [mirrorAddr]
    omega
  exact ⟨state, holds_congr valid (at1 1) rfl, holds_congr bay (at1 2) (by cases s.eng[e.val].attached <;> rfl),
    holds_congr slot (at1 3) (by cases s.eng[e.val].attached <;> rfl), holds_congr phase (at1 4) rfl, holds_congr step (at1 5) rfl⟩

/-! ### The bay status entries -/

/-- 12.3: the bits of the qualified levels byte. -/
theorem qualByte_bits (m : Monitor) :
    (∀ l : InLine, (BitVec.ofNat 8 (qualByte m)).getLsbD l.val = m.lines[l.val].qual) ∧ qualByte m < 64 := by
  have key : ∀ x0 x1 x2 x3 x4 x5 : Bool,
      (∀ l : InLine, (BitVec.ofNat 8 (bit x0 + 2 * bit x1 + 4 * bit x2 + 8 * bit x3 + 16 * bit x4 + 32 * bit x5)).getLsbD
        l.val = [x0, x1, x2, x3, x4, x5][l.val])
      ∧ bit x0 + 2 * bit x1 + 4 * bit x2 + 8 * bit x3 + 16 * bit x4 + 32 * bit x5 < 64 := by decide
  obtain ⟨hbits, hlt⟩ := key m.lines[0].qual m.lines[1].qual m.lines[2].qual m.lines[3].qual m.lines[4].qual
    m.lines[5].qual
  refine ⟨fun l => (hbits l).trans ?_, hlt⟩
  fin_cases l <;> rfl

/-- R78: the fields of one rail. -/
theorem State.Shown.rail {s : State} (h : s.Shown) (b : Bay) (r : RailId) :
    Holds s (bayAddr b + 0x28 + 16 * r.val) 2 s.rail[b.val][r.val].value
    ∧ Holds s (bayAddr b + 0x28 + 16 * r.val + 2) 1 (windowCode s.rail[b.val][r.val].window)
    ∧ Holds s (bayAddr b + 0x28 + 16 * r.val + 3) 1 (flag (s.rail[b.val][r.val].lastConv ≠ none))
    ∧ Holds s (bayAddr b + 0x28 + 16 * r.val + 8) 8 (timeVal s.rail[b.val][r.val].lastConv) := by
  have hf : ∀ f ∈ railFields s b r, Stands s f := fun f hm => h.stands (railFields_published s b r f hm)
  simpa only [railFields, List.forall_mem_cons, stands_fld, List.not_mem_nil, false_imp_iff, implies_true, and_true,
    bit_isSome] using hf

theorem State.Shown.bay {s : State} (h : s.Shown) (b : Bay) : BayLayout s b (0x001800 + 256 * b.val) := by
  have hf : ∀ f ∈ bayFields s b, Stands s f := fun f hm => h.stands (bayFields_published hm)
  simp only [bayFields, validByte, driverByte, List.forall_mem_append, List.forall_mem_cons, stands_fld,
    List.not_mem_nil, false_imp_iff, implies_true, and_true, and_assoc, bit_isSome] at hf
  obtain ⟨qual, milestone, valid, knowledge, errors, base, codeTime, code, stall, -, -, -, received, framing, breaks,
    state, stage, fireStage, fireEntry, c0, c1, c2, c3, c4, c5, c6, c7, fires, stageEntry, fireTime, d0, d1, d2, d3⟩ := hf
  have hq := qualByte_bits s.mon[b.val]
  have hread : s.mem.read (0x001800 + 256 * b.val) = BitVec.ofNat 8 (qualByte s.mon[b.val]) := read_of_holds qual
  refine ⟨fun l => by rw [hread]; exact hq.1 l, ?_, milestone, valid, knowledge, errors,
    holds_congr base rfl (by cases s.mon[b.val].settleBase <;> rfl), codeTime,
    holds_congr code rfl (by cases s.code[b.val].lastCode <;> rfl),
    holds_congr stall rfl (by cases s.code[b.val].stallRef <;> rfl), fun r => ?_, received, framing, breaks, state, stage,
    holds_congr fireStage rfl (by cases s.seq[b.val].lastFire <;> rfl),
    holds_congr fireEntry rfl (by cases s.seq[b.val].lastFire <;> rfl), fun j hj => ?_, fires,
    holds_congr stageEntry rfl (by cases s.seq[b.val].stageEntry <;> rfl),
    holds_congr fireTime rfl (by cases s.seq[b.val].lastFire <;> rfl), fun d => ?_⟩
  · rw [hread, BitVec.toNat_ofNat, Nat.mod_eq_of_lt (by omega)]
    exact hq.2
  · obtain ⟨value, window, converted, time⟩ := h.rail b r
    have at1 (n : Nat) : bayAddr b + 0x28 + 16 * r.val + n = 0x001800 + 256 * b.val + (0x28 + n) + 16 * r.val := by
      simp only [bayAddr]
      omega
    exact ⟨value, holds_congr window (at1 2) rfl, holds_congr converted (at1 3) rfl,
      holds_congr time (at1 8) (by cases s.rail[b.val][r.val].lastConv <;> rfl)⟩
  · match j, hj with
    | 0, _ => exact c0
    | 1, _ => exact c1
    | 2, _ => exact c2
    | 3, _ => exact c3
    | 4, _ => exact c4
    | 5, _ => exact c5
    | 6, _ => exact c6
    | 7, _ => exact c7
  · match d with
    | 0 => exact d0
    | 1 => exact d1
    | 2 => exact d2
    | 3 => exact d3

/-! ### The stream table -/

theorem State.Shown.stream {s : State} (h : s.Shown) (b : Bay) : StreamLayout s b (0x004000 + 64 * b.val) := by
  have hf : ∀ f ∈ streamFields s b, Stands s f := fun f hm => h.stands (streamFields_published hm)
  simp only [streamFields, List.forall_mem_cons, stands_fld, List.not_mem_nil, false_imp_iff, implies_true,
    and_true] at hf
  obtain ⟨state, mode, w, retained, remaining, filling, lost, written, closed, sequence⟩ := hf
  exact ⟨state, mode, w, retained, remaining, holds_congr filling rfl (by cases s.str[b.val].filling <;> rfl), lost,
    written, closed, sequence⟩

theorem shownFieldsStandAtTheirPlaces : ShownFieldsStandAtTheirPlaces := fun _ h => ⟨h.mirror, h.bay, h.stream⟩

/-- Settles O58, from what each command writes, and the fields one by one. -/
theorem everyCommandKeepsTheStatusBlockTrue : Obligations.EveryCommandKeepsTheStatusBlockTrue :=
  ⟨commandsKeepTheStatusBlockTrue, shownFieldsStandAtTheirPlaces⟩

end Sys2Proof.Machine
end

section
/-! PROOF. The Time Base (chapter 1): what each of its commands leaves, and where it writes (O1, O3 to O7). -/

namespace Sys2Proof.Machine

/-! ### The outcome of a command that changes little -/

/-- A command that changes neither a flag nor a published field ends in its direct changes. -/
theorem commit_quiet {s u : State} (hn : u.notices = s.notices) (hp : publishedFields u = publishedFields s) :
    commit s u = .next u := by
  have hl : u.link.signal s.notices.asserted u.notices.asserted = u.link := by rw [hn, Link.signal_same]
  have h : signalLine s u = u := by rw [signalLine, hl]
  rw [commit_eq, h, publish_same hp]

/-- The fields of the mirror that cover a byte are as before. -/
def MirrorSame (old new : State) (a : Nat) : Prop :=
  ∀ q ∈ (mirrorFields new).zip (mirrorFields old), q.1 = q.2 ∨ a < q.1.1 ∨ q.1.1 + q.1.2.length ≤ a

theorem MirrorSame.outside {old new : State} {a : Nat} (h : MirrorSame old new a) :
    ∀ f ∈ diffFields (mirrorFields old) (mirrorFields new), a < f.1 ∨ f.1 + f.2.length ≤ a := by
  intro f hf
  simp only [diffFields, List.mem_filterMap] at hf
  obtain ⟨q, hq, he⟩ := hf
  split at he
  · cases he
  · next hne =>
    cases he
    exact (h q hq).resolve_left hne

/-- A command that changes fields of the mirror alone leaves every byte that no changed field covers. -/
theorem publish_unchanged_mirror {s new : State} {p : Nat → Prop} (hmem : new.mem = s.mem)
    (hm : ∀ a, ¬ p a → MirrorSame s new a) (hb : ∀ b, bayFields new b = bayFields s b)
    (hs : ∀ b, streamFields new b = streamFields s b) : Unchanged p s (publish s new) :=
  publish_unchanged (fun _ _ => by rw [hmem]) (fun a ha => (hm a ha).outside) (fun b _ _ _ => hb b) (fun b _ _ _ => hs b)

/-- A command that changes the mirror and the stream table alone writes there. -/
theorem publish_unchanged_streams {s new : State} (hmem : new.mem = s.mem) (hb : ∀ b, bayFields new b = bayFields s b) :
    Unchanged (fun a => inMirror a ∨ ∃ b, inStreamEntry b a) s (publish s new) :=
  publish_unchanged (fun _ _ => by rw [hmem]) (fun a ha => mirrorFields_outside _ _ a (fun h => ha (.inl h)))
    (fun b _ _ _ => hb b) (fun b _ ha h => absurd (.inr ⟨b, h⟩) ha)

/-! ### Steps -/

/-- Settles O1. -/
theorem stepTakesTheFrontCommandOrTicks : Obligations.StepTakesTheFrontCommandOrTicks := by
  refine ⟨fun c rest s => rfl, fun s h => ?_⟩
  unfold step
  split
  · rfl
  · next c rest hc => exact absurd (h.symm.trans hc) (List.cons_ne_nil c rest).symm

/-! ### Reads of the count (R13, R14) -/

/-- Settles O7: a read of the count changes no published field and no flag. -/
theorem timeReadsLatchAndReturnTheCount : Obligations.TimeReadsLatchAndReturnTheCount := by
  intro s lanes
  exact ⟨commit_quiet rfl rfl, commit_quiet rfl rfl⟩

/-! ### Runs of the bench reference (R4, R5) -/

theorem qualificationRunStart_eq {s : State} (h : s.time.run = none) : exec .qualificationRunStart s
    = .next { s with time := { s.time with run := some ⟨s.time.count, s.time.count⟩ } } := by
  change execQualificationRunStart s = _
  unfold execQualificationRunStart
  rw [h]
  exact commit_quiet rfl rfl

theorem referenceRisingEdge_eq {s : State} {r : RefRun} (h : s.time.run = some r)
    (he : elapsed r.lastEdge s.time.count ≤ 40) : exec .referenceRisingEdge s
      = .next { s with time := { s.time with run := some { r with lastEdge := s.time.count } } } := by
  change execReferenceRisingEdge s = _
  unfold execReferenceRisingEdge
  rw [h]
  have hg : elapsed r.lastEdge s.now ≤ refGap := he
  simp only [if_pos hg]
  exact commit_quiet rfl rfl

/-- R4's table is the model's. -/
theorem refMilestoneTicks_succ {m : Nat} (h : m < 4) : refMilestoneTicks (m + 1) = refInstant m := by
  interval_cases m <;> rfl

theorem referenceMilestoneRaise_eq {s : State} {r : RefRun} (hr : s.time.run = some r) (hm : s.time.milestone < 4)
    (he : elapsed r.start s.time.count = refInstant s.time.milestone) : exec .referenceMilestoneRaise s
      = commit s (s.modTime (fun t => { t with milestone := t.milestone + 1 })) := by
  change execReferenceMilestoneRaise s = _
  unfold execReferenceMilestoneRaise
  rw [hr]
  simp [State.passed, refMilestoneTicks_succ hm, hm, he]

/-- R17: a change of the milestone changes its byte of the mirror alone. -/
theorem mirrorSame_milestone {s : State} (f : TimeBase → TimeBase) (source : (f s.time).source = s.time.source)
    (lastSync : (f s.time).lastSync = s.time.lastSync) (syncCount : (f s.time).syncCount = s.time.syncCount) {a : Nat}
    (ha : ¬ a = 0x00100A) : MirrorSame s (s.modTime f) a := by
  have hm : a < 0x00100A ∨ 0x00100A + 1 ≤ a := by omega
  simpa [MirrorSame, mirrorFields, refusalFields, syncFields, freeField, engineFields, pendingField, State.countSlots,
    mirrorAddr, source, lastSync, syncCount, fld, leBytes_length] using .inr hm

/-- R17: a change of the milestone writes its byte of the mirror alone. -/
theorem publish_milestone {s : State} (f : TimeBase → TimeBase) (source : (f s.time).source = s.time.source)
    (lastSync : (f s.time).lastSync = s.time.lastSync) (syncCount : (f s.time).syncCount = s.time.syncCount) :
    ∃ t, commit s (s.modTime f) = .next t ∧ t = { s with time := f s.time, mem := t.mem }
      ∧ Unchanged (fun a => a = 0x00100A) s t ∧ t = publish s (s.modTime f) := by
  have h : signalLine s (s.modTime f) = s.modTime f := by simp [signalLine, State.modTime]
  refine ⟨publish s (s.modTime f), by rw [commit_eq, h], rfl, ?_, rfl⟩
  exact publish_unchanged_mirror rfl (fun a ha => mirrorSame_milestone f source lastSync syncCount ha) (fun _ => rfl)
    (fun _ => rfl)

/-- R17: the milestone raised reads back from its byte. -/
theorem publish_milestone_reads {s : State} (hm : s.time.milestone < 4) (hw : s.mem.wf) :
    (publish s (s.modTime (fun t => { t with milestone := t.milestone + 1 }))).mem.read 0x00100A
      = BitVec.ofNat 8 (s.time.milestone + 1) := by
  have hf : fld 0x00100A 1 (s.time.milestone + 1)
      ∈ changedFields s (s.modTime (fun t => { t with milestone := t.milestone + 1 })) := by
    have hne : leBytes 1 (s.time.milestone + 1) ≠ leBytes 1 s.time.milestone := by
      generalize s.time.milestone = m at hm
      interval_cases m <;> decide
    refine List.mem_append_left _ (List.mem_append_left _ ?_)
    simp [diffFields, mirrorFields, refusalFields, syncFields, freeField, engineFields, pendingField, State.countSlots,
      mirrorAddr, fld, hne]
  have hr := publish_reads (old := s) (new := s.modTime (fun t => { t with milestone := t.milestone + 1 })) hw _ hf
  simpa [fld, leBytes, Memory.readBytes] using hr

/-- Settles O3. -/
theorem referenceRunsRaiseTheirMilestones : Obligations.ReferenceRunsRaiseTheirMilestones := by
  refine ⟨fun s => ⟨qualificationRunStart_eq, fun r => referenceRisingEdge_eq⟩, fun s r hr hm he => ?_⟩
  obtain ⟨t, ht, heq, hun, hp⟩ := publish_milestone (s := s) (fun t => { t with milestone := t.milestone + 1 }) rfl rfl rfl
  refine ⟨t, by rw [referenceMilestoneRaise_eq hr hm he, ht], heq, hun, fun hw => ?_⟩
  rw [hp]
  exact publish_milestone_reads hm hw

/-! ### Changes of source (R5 to R10) -/

theorem offerAll_eq (body : RecordBody) (t : Tick) (s : State) :
    offerAll body t s = { s with str := (offerAll body t s).str } := by
  have h : ∀ (xs : List Bay) (s : State), forEach xs (fun b => offer b body t) s
      = { s with str := (forEach xs (fun b => offer b body t) s).str } := by
    intro xs
    induction xs with
    | nil => exact fun _ => rfl
    | cons b rest ih => exact fun s => ih (offer b body t s)
  exact h allBays s

/-- R10, R12: every stream is offered the record. -/
theorem offerAll_str (body : RecordBody) (t : Tick) (s : State) (b : Bay) :
    (offerAll body t s).str[b.val] = s.str[b.val].offer ⟨t, body⟩ := by
  simp only [offerAll, forEach, allBays, List.foldl_cons, List.foldl_nil, offer, State.modStr_str]
  fin_cases b <;> simp [upd]

/-- R9, R10: a switch of the source, in its parts. -/
theorem switchSource_eq (src : Source) (cause : SourceCause) (s : State) : switchSource src cause s
    = { s with
        time := { s.time with source := src }
        str := (switchSource src cause s).str
        notices := s.notices.raise 0 0 } := by
  simp only [switchSource, raiseFixture, fixtureFactorIx]
  rw [offerAll_eq]
  rfl

theorem switchSource_str (src : Source) (cause : SourceCause) (s : State) (b : Bay) :
    (switchSource src cause s).str[b.val]
      = s.str[b.val].offer ⟨s.time.count, .source src cause s.time.milestone⟩ :=
  offerAll_str (.source src cause s.time.milestone) s.time.count (s.modTime (fun t => { t with source := src })) b

theorem referenceLoss_eq {s : State} {r : RefRun} (hr : s.time.run = some r)
    (he : elapsed r.lastEdge s.time.count = 40) : exec .referenceLoss s = commit s
      (if s.time.source = .bench then
        switchSource .internal .loss (s.modTime (fun t => { t with run := none, milestone := 0 }))
      else s.modTime (fun t => { t with run := none, milestone := 0 })) := by
  change execReferenceLoss s = _
  unfold execReferenceLoss
  have hp : s.passed r.lastEdge refGap = true := by simp [State.passed, refGap, he]
  rw [hr]
  simp only [if_pos hp]

/-- Settles O4. -/
theorem referenceLossEndsTheRunAndFallsBack : Obligations.ReferenceLossEndsTheRunAndFallsBack := by
  intro s r hr he
  rw [referenceLoss_eq hr he]
  refine ⟨fun hsrc => ?_, fun hsrc => ?_⟩
  · rw [if_neg (by rw [hsrc]; decide)]
    obtain ⟨t, ht, heq, hun, -⟩ := publish_milestone (s := s) (fun t => { t with run := none, milestone := 0 }) rfl rfl rfl
    exact ⟨t, ht, heq, hun⟩
  · rw [if_pos hsrc]
    have hu := switchSource_eq .internal .loss (s.modTime (fun t => { t with run := none, milestone := 0 }))
    have hstr := switchSource_str .internal .loss (s.modTime (fun t => { t with run := none, milestone := 0 }))
    generalize switchSource .internal .loss (s.modTime (fun t => { t with run := none, milestone := 0 })) = u at hu hstr ⊢
    refine ⟨_, rfl, by rw [hu]; rfl, fun b => by simpa using hstr b, ?_⟩
    exact publish_unchanged_streams (by rw [hu]; rfl) (fun b => by rw [hu]; rfl)

/-- R191: a change of the outcome changes its byte of the mirror alone. -/
theorem mirrorSame_outcome {s : State} (o : CmdOutcome) {a : Nat} (ha : ¬ a = 0x001001) :
    MirrorSame s (setOutcome o s) a := by
  have hm : a < 0x001001 ∨ 0x001001 + 1 ≤ a := by omega
  simpa [MirrorSame, mirrorFields, refusalFields, syncFields, freeField, engineFields, pendingField, State.countSlots,
    mirrorAddr, fld, leBytes_length] using .inr hm

/-- R191: a command that sets the outcome alone. -/
theorem commit_setOutcome (o : CmdOutcome) (s : State) :
    ∃ t, commit s (setOutcome o s) = .next t ∧ t = { s with ctl := { s.ctl with outcome := o }, mem := t.mem }
      ∧ Unchanged (fun a => a = 0x001001) s t := by
  have h : signalLine s (setOutcome o s) = setOutcome o s := by simp [signalLine, setOutcome, State.modCtl]
  refine ⟨publish s (setOutcome o s), by rw [commit_eq, h], rfl, ?_⟩
  exact publish_unchanged_mirror rfl (fun a ha => mirrorSame_outcome o ha) (fun _ => rfl) (fun _ => rfl)

/-- R6, R7, R9, R10: a command that switches the source and is accepted. -/
theorem commit_switch (src : Source) (s : State) :
    ∃ t, commit s (setOutcome .accepted (switchSource src .select s)) = .next t
      ∧ t = { s with
          time := { s.time with source := src }
          ctl := { s.ctl with outcome := .accepted }
          str := t.str
          notices := s.notices.raise 0 0
          link := s.link.signal s.notices.asserted t.notices.asserted
          mem := t.mem }
      ∧ (∀ b : Bay, t.str[b.val] = s.str[b.val].offer ⟨s.time.count, .source src .select s.time.milestone⟩)
      ∧ Unchanged (fun a => inMirror a ∨ ∃ b, inStreamEntry b a) s t := by
  have hu := switchSource_eq src .select s
  have hstr := switchSource_str src .select s
  generalize switchSource src .select s = u at hu hstr ⊢
  refine ⟨_, rfl, by rw [hu]; rfl, fun b => by simpa using hstr b, ?_⟩
  exact publish_unchanged_streams (by rw [hu]; rfl) (fun b => by rw [hu]; rfl)

theorem selectBench_eq (s : State) : exec .selectBench s = commit s (if s.time.milestone = 4 then
      setOutcome .accepted (if s.time.source = .internal then switchSource .bench .select s else s)
    else setOutcome .refused s) := rfl

theorem selectInternal_eq (s : State) : exec .selectInternal s
    = commit s (setOutcome .accepted (if s.time.source = .bench then switchSource .internal .select s else s)) := rfl

/-- Settles O5. -/
theorem selectionSwitchesTheSource : Obligations.SelectionSwitchesTheSource := by
  intro s
  refine ⟨fun hm => ?_, fun hm hsrc => ?_, fun hsrc => ?_, fun c src hc hsrc => ?_⟩
  · rw [selectBench_eq, if_neg hm]
    exact commit_setOutcome .refused s
  · rw [selectBench_eq, if_pos hm, if_neg (by rw [hsrc]; decide)]
    exact commit_setOutcome .accepted s
  · rw [selectInternal_eq, if_neg (by rw [hsrc]; decide)]
    exact commit_setOutcome .accepted s
  · obtain ⟨rfl, rfl, hm⟩ | ⟨rfl, rfl⟩ := hc
    · have hi : s.time.source = .internal := by
        cases h : s.time.source with
        | internal => rfl
        | bench => exact absurd h hsrc
      rw [selectBench_eq, if_pos hm, if_pos hi]
      exact commit_switch .bench s
    · have hb : s.time.source = .bench := by
        cases h : s.time.source with
        | bench => rfl
        | internal => exact absurd h hsrc
      rw [selectInternal_eq, if_pos hb]
      exact commit_switch .internal s

/-! ### The SYNC input (R11, R12) -/

theorem syncRawChange_eq (s : State) : exec .syncRawChange s = .next { s with time := { s.time with
    syncRaw := !s.time.syncRaw
    syncPending := if s.time.syncPending.isNone then some s.time.count else none } } := by
  change execSyncRawChange s = _
  unfold execSyncRawChange
  cases h : s.time.syncPending
  all_goals
    simp only [State.modTime, h, Option.isNone_none, Option.isNone_some, if_true, Bool.false_eq_true, if_false]
    exact commit_quiet rfl rfl

theorem syncQualifiedFall_eq {s : State} {raw : Tick} (hp : s.time.syncPending = some raw)
    (he : elapsed raw s.time.count = 100) (hq : s.time.syncQual = true) : exec .syncQualifiedFall s
      = .next { s with time := { s.time with syncQual := false, syncPending := none } } := by
  change execSyncQualifiedFall s = _
  unfold execSyncQualifiedFall
  have hc : (s.time.syncQual && s.passed raw syncHold) = true := by simp [hq, State.passed, syncHold, he]
  rw [hp]
  simp only [if_pos hc]
  exact commit_quiet rfl rfl

theorem syncCapture_eq {s : State} {raw : Tick} (hp : s.time.syncPending = some raw)
    (he : elapsed raw s.time.count = 100) (hq : s.time.syncQual = false) :
    exec .syncCapture s = commit s (rewrite (syncFields (captured raw s)) (captured raw s)) := by
  change execSyncCapture s = _
  unfold execSyncCapture
  have hc : (!s.time.syncQual && s.passed raw syncHold) = true := by simp [hq, State.passed, syncHold, he]
  rw [hp]
  simp only [if_pos hc, captureSync_eq]

theorem captured_eq (raw : Tick) (s : State) : captured raw s = { s with
    time := { s.time with
      syncQual := true
      syncPending := none
      lastSync := raw
      syncCount := s.time.syncCount + 1#32 }
    str := (captured raw s).str } := offerAll_eq _ _ _

theorem captured_str (raw : Tick) (s : State) (b : Bay) :
    (captured raw s).str[b.val] = s.str[b.val].offer ⟨raw, .sync (s.time.syncCount + 1#32)⟩ := offerAll_str _ _ _ b

/-- Fields written whether or not they have changed read back after publication. -/
theorem publish_rewrite_reads {old new : State} {fs : List Field} (h : new.mem.wf)
    (hfs : ∀ f ∈ fs, f ∈ publishedFields new) {f : Field} (hf : f ∈ fs) :
    (publish old (rewrite fs new)).mem.readBytes f.1 f.2.length = f.2 := by
  have hsub : ∀ g ∈ fs ++ changedFields old (rewrite fs new), g ∈ publishedFields new := fun g hg => by
    rcases List.mem_append.1 hg with hg | hg
    · exact hfs g hg
    · rw [changedFields_eq, publishedFields_rewrite] at hg
      exact diffFields_subset hg
  have hr := publishedFields_area new f (hfs f hf)
  rw [publish_mem, rewrite_mem, ← List.foldl_append]
  exact Memory.readBytes_writeFields_mem h _ f (fun g hg => publishedFields_apart (hfs f hf) (hsub g hg))
    (by simp only [cardMemorySize]; omega) (List.mem_append_left _ hf)

/-- R12, R17: a capture changes the mirror's two fields of SYNC alone. -/
theorem mirrorSame_captured (raw : Tick) (s : State) {a : Nat} (ha : ¬ (0x001010 ≤ a ∧ a < 0x00101C)) :
    MirrorSame s (captured raw s) a := by
  have hm : a < 0x001010 ∨ 0x001010 + 8 ≤ a := by omega
  have hn : a < 0x001018 ∨ 0x001018 + 4 ≤ a := by omega
  rw [captured_eq]
  simpa [MirrorSame, mirrorFields, refusalFields, syncFields, freeField, engineFields, pendingField, State.countSlots,
    mirrorAddr, fld, leBytes_length] using ⟨.inr hm, .inr hn⟩

theorem mirrorFields_rewrite (fs : List Field) (u : State) : mirrorFields (rewrite fs u) = mirrorFields u := rfl

theorem bayFields_rewrite (fs : List Field) (u : State) (b : Bay) : bayFields (rewrite fs u) b = bayFields u b := rfl

theorem publish_capture_unchanged (raw : Tick) (s : State) :
    Unchanged (fun a => (0x001010 ≤ a ∧ a < 0x00101C) ∨ ∃ b, inStreamEntry b a) s
      (publish s (rewrite (syncFields (captured raw s)) (captured raw s))) := by
  refine publish_unchanged (fun a ha => ?_) (fun a ha => ?_) (fun b a _ _ => ?_) (fun b a ha h => absurd (.inr ⟨b, h⟩) ha)
  · rw [rewrite_mem, Memory.read_writeFields_other, captured_eq]
    simp only [syncFields, List.forall_mem_cons, fld, leBytes_length, mirrorAddr, List.not_mem_nil, false_imp_iff,
      implies_true, and_true]
    omega
  · rw [mirrorFields_rewrite]
    exact (mirrorSame_captured raw s (fun h => ha (.inl h))).outside
  · rw [bayFields_rewrite, captured_eq]
    rfl

/-- R12: the capture's two fields hold the raw time and the count after publication. -/
theorem publish_syncFields_hold {old u : State} (h : u.mem.wf) :
    (publish old (rewrite (syncFields u) u)).mem.field 0x001010 8 = u.time.lastSync.toNat
    ∧ (publish old (rewrite (syncFields u) u)).mem.field 0x001018 4 = u.time.syncCount.toNat := by
  have hr : ∀ f ∈ syncFields u, Stands (publish old (rewrite (syncFields u) u)) f := fun f hf =>
    congrArg leNat (publish_rewrite_reads h (syncFields_published u) hf)
  generalize publish old (rewrite (syncFields u) u) = t at hr
  simp only [syncFields, List.forall_mem_cons, stands_fld, List.not_mem_nil, false_imp_iff, implies_true,
    and_true] at hr
  exact ⟨hr.1.trans (Nat.mod_eq_of_lt (by have := u.time.lastSync.isLt; omega)),
    hr.2.trans (Nat.mod_eq_of_lt (by have := u.time.syncCount.isLt; omega))⟩

/-- Settles O6. -/
theorem syncIsQualifiedAndCaptured : Obligations.SyncIsQualifiedAndCaptured := by
  intro s
  refine ⟨syncRawChange_eq s, fun raw hp he hq => ?_, fun raw => syncQualifiedFall_eq⟩
  have hc := captured_eq raw s
  have hstr := captured_str raw s
  have hun := publish_capture_unchanged raw s
  rw [syncCapture_eq hp he hq]
  generalize captured raw s = u at hc hstr hun ⊢
  have hn : (rewrite (syncFields u) u).notices = s.notices := by rw [rewrite_notices, hc]
  have hl : (rewrite (syncFields u) u).link.signal s.notices.asserted (rewrite (syncFields u) u).notices.asserted
      = (rewrite (syncFields u) u).link := by rw [hn, Link.signal_same]
  have hsig : signalLine s (rewrite (syncFields u) u) = rewrite (syncFields u) u := by rw [signalLine, hl]
  rw [commit_eq, hsig]
  refine ⟨_, rfl, ?_, fun b => by rw [publish_str, rewrite_str, hstr b], fun hw => ?_, hun⟩
  · have hp : publish s (rewrite (syncFields u) u)
        = { u with str := u.str, mem := (publish s (rewrite (syncFields u) u)).mem } := rfl
    refine hp.trans ?_
    rw [publish_str, rewrite_str]
    generalize (publish s (rewrite (syncFields u) u)).mem = m
    generalize u.str = x at hc ⊢
    rw [hc]
  · have hw' : u.mem.wf := by rw [hc]; exact hw
    obtain ⟨h1, h2⟩ := publish_syncFields_hold (old := s) hw'
    exact ⟨by rw [h1, hc], by rw [h2, hc]⟩

end Sys2Proof.Machine
end

section
/-! PROOF. The state after reset: its blocks (O2) and its invariants (O59). -/

namespace Sys2Proof.Machine

/-! ### The tables of the state after reset -/

@[simp] theorem reset_pend (g : Fin 9) : State.reset.notices.pend[g.val] = 0#4 := by
  simp [State.reset, Notices.reset]
@[simp] theorem reset_level (b : Bay) : State.reset.notices.level[b.val] = 6 := by
  simp [State.reset, Notices.reset]
@[simp] theorem reset_enable (b : Bay) : State.reset.notices.enable[b.val] = 0#4 := by
  simp [State.reset, Notices.reset]
@[simp] theorem reset_map (p : Page) : State.reset.pool.map[p.val] = .free := by
  simp [State.reset, Pool.reset]
theorem reset_freeList : State.reset.pool.freeList = List.finRange 2048 := by
  simp only [State.reset, Pool.reset]
@[simp] theorem reset_str (b : Bay) : State.reset.str[b.val] = Stream.reset := by
  simp [State.reset]
@[simp] theorem reset_mon (b : Bay) :
    State.reset.mon[b.val] = ⟨Vector.replicate 6 (MonLine.reset false), none, 0⟩ := by
  simp [State.reset]
@[simp] theorem reset_line (b : Bay) (l : InLine) : State.reset.mon[b.val].lines[l.val] = MonLine.reset false := by
  simp
@[simp] theorem reset_code (b : Bay) : State.reset.code[b.val] = CodeRx.reset := by
  simp [State.reset]
@[simp] theorem reset_rail (b : Bay) (r : RailId) : State.reset.rail[b.val][r.val] = Rail.reset := by
  simp [State.reset]
@[simp] theorem reset_con (b : Bay) : State.reset.con[b.val] = Console.reset := by
  simp [State.reset]
@[simp] theorem reset_seq (b : Bay) : State.reset.seq[b.val] = Sequencer.reset := by
  simp [State.reset]
@[simp] theorem reset_drv (b : Bay) : State.reset.drv[b.val] = Driver.reset := by
  simp [State.reset]
@[simp] theorem reset_outLine (d : OutLine) : Driver.reset.lines[d.val] = DrvLine.reset := by
  simp [Driver.reset]
@[simp] theorem reset_slot (i : Slot) : State.reset.slots[i.val] = SlotRec.reset := by
  simp [State.reset]
@[simp] theorem reset_lane (b : Bay) (l : Lane) : State.reset.lane b l = LaneQ.reset := by
  simp [State.lane, State.reset]
@[simp] theorem reset_eng (e : EngineId) : State.reset.eng[e.val] = Engine.reset := by
  simp [State.reset]
@[simp] theorem reset_port (b : Bay) : State.reset.port[b.val] = ScanPort.reset := by
  simp [State.reset]

/-- Settles O2, block by block. -/
theorem resetLeavesEveryBlockAtItsResetValues : Obligations.ResetLeavesEveryBlockAtItsResetValues := by
  refine ⟨⟨rfl, rfl, rfl, rfl, rfl, rfl, rfl, rfl, rfl, rfl, rfl⟩, ⟨rfl, rfl, rfl, rfl, rfl, rfl, rfl⟩,
    ⟨reset_pend, reset_level, reset_enable⟩, ⟨rfl, rfl⟩, ⟨reset_freeList, rfl, reset_map⟩, fun b => ?_, fun b => ?_, fun b => ?_,
    ⟨rfl, rfl, fun b r => ?_⟩, fun b => ?_, fun b => ?_, fun b d => ?_, fun i => ?_, fun b l => ?_, fun e => ?_,
    fun b => ?_⟩
  · simp [Stream.reset]
  · simp [MonLine.reset]
  · simp [CodeRx.reset]
  · simp [Rail.reset]
  · simp [Console.reset]
  · simp [Sequencer.reset]
  · simp [DrvLine.reset, Driver.reset]
  · simp [SlotRec.reset]
  · simp [LaneQ.reset]
  · simp [Engine.reset]
  · simp [ScanPort.reset]

/-! ### The invariants -/

theorem reset_inputs : State.reset.InputsOk := by
  refine ⟨⟨Nat.zero_le 4, fun h => by cases h⟩, fun b => ⟨by simp, by simp⟩, fun b l => by simp [MonLine.reset]⟩

theorem reset_queues : State.reset.QueuesOk where
  once b l := by simp [LaneQ.reset]
  queued b l i := by simp [LaneQ.reset, SlotRec.reset]
  serving b l i := by simp [LaneQ.reset, SlotRec.reset]
  laned i := by simp [SlotRec.reset]

theorem reset_engines : State.reset.EnginesOk where
  idle e := by simp [Engine.reset]
  serves e b i := by simp [Engine.reset]
  apart e f b i j := by simp [Engine.reset]

theorem reset_rotation : State.reset.RotationOk := by
  constructor
  · decide
  · decide

theorem reset_pool : State.reset.PoolOk where
  once := by
    rw [reset_freeList]
    exact List.nodup_finRange 2048
  free p := by
    rw [reset_map, reset_freeList]
    exact ⟨fun _ => rfl, fun _ => List.mem_finRange p⟩
  filling p b := by simp [Stream.reset]
  retained p b := by simp [Stream.reset, Stream.retainedPages]
  distinct b := by simp [Stream.reset, Stream.retainedPages]
  rest b := by simp [Stream.reset]
  queue b := by simp [Stream.reset]
  room b u := by simp [Stream.reset]
  window b := by simp [Stream.reset]
  bound b := by simp [Stream.reset]
  unretained b := by simp [Stream.reset]

theorem Sequencer.Ok.reset : Sequencer.reset.Ok where
  program p h := by cases h
  disarmed _ := ⟨rfl, rfl, rfl⟩
  armed h := by cases h

theorem Engine.Checked.reset : Engine.reset.Checked where
  before _ := rfl
  entry t n h := by cases h
  rest i x h := by cases h
  write h := by cases h

/-- Settles O59. -/
theorem resetIsSafe : Obligations.ResetIsSafe where
  memory := Memory.wf_nil
  source := reset_inputs.1
  settle := reset_inputs.2.1
  lines := reset_inputs.2.2
  queues := reset_queues
  engines := reset_engines
  rotation := reset_rotation
  drivers b d := by
    rw [reset_drv, reset_outLine]
    exact ⟨fun q h => (by cases h), fun r h => (by cases h)⟩
  pool := reset_pool
  sequencers b := by
    rw [reset_seq]
    exact Sequencer.Ok.reset
  steps e := by
    rw [reset_eng]
    exact Engine.Checked.reset

end Sys2Proof.Machine
end

section
/-! PROOF. The resets (O51): the values they leave, and the writes they cut short. -/

namespace Sys2Proof.Machine

/-! ### The link over a reset (R202) -/

@[simp] theorem Link.signal_form (l : Link) (x y : Bool) : (l.signal x y).form = l.form := by
  unfold Link.signal
  split <;> rfl

@[simp] theorem Link.signal_readData (l : Link) (x y : Bool) : (l.signal x y).readData = l.readData := by
  unfold Link.signal
  split <;> rfl

@[simp] theorem Link.signal_down (l : Link) (x y : Bool) : (l.signal x y).down = l.down := by
  unfold Link.signal
  split <;> rfl

@[simp] theorem Link.signal_perst (l : Link) (x y : Bool) : (l.signal x y).perst = l.perst := by
  unfold Link.signal
  split <;> rfl

@[simp] theorem Link.after_form (l : Link) (c : LinkResetCause) : (l.after c).form = l.form := by
  cases c <;> rfl

@[simp] theorem Link.after_readData (l : Link) (c : LinkResetCause) : (l.after c).readData = l.readData := by
  cases c <;> rfl

/-- R202: an abandoned service may have signalled a change of the notice line. -/
theorem abandonService_link (s : State) : ∃ x y : Bool, (abandonService s).link = s.link.signal x y := by
  unfold abandonService
  simp only
  split
  · exact ⟨true, true, (Link.signal_same _ _).symm⟩
  · exact ⟨_, _, rfl⟩

/-! ### The values a reset leaves -/

theorem reset_asserted : State.reset.notices.asserted = false := by
  decide

/-- The state that a reset of `v` leaves before the notice line's change is sent, with an outcome, memory and a count
of draws. -/
def resetState (o : CmdOutcome) (v : State) (m : Memory) (n : Nat) : State :=
  { setOutcome o (resetBlocks v) with mem := m, draws := n }

theorem powerOnReset_eq (s : State) : exec .powerOnReset s
    = .next (signalLine s (resetState .none s (powerOnMemory s.draws) (s.draws + 1))) := rfl

theorem restart_eq (s : State) : exec .restart s
    = .next (signalLine (abandonWork s) (resetState .accepted (abandonWork s) (abandonWork s).mem (abandonWork s).draws)) :=
  rfl

theorem linkReset_eq {s : State} {c : LinkResetCause} (h : s.link.canReset c = true) : exec (.linkReset c) s
    = .next (signalLine (abandonWork s) (resetState .none { abandonWork s with link := (abandonWork s).link.after c }
        (abandonWork s).mem (abandonWork s).draws)) := by
  change execLinkReset c s = _
  unfold execLinkReset
  rw [if_pos h]
  rfl

theorem resetState_eq (old v : State) (o : CmdOutcome) (m : Memory) (n : Nat) : signalLine old (resetState o v m n)
    = { State.reset with
        time := { State.reset.time with syncRaw := v.time.syncRaw, syncQual := v.time.syncRaw }
        ctl := { State.reset.ctl with outcome := o }
        link := v.link.signal old.notices.asserted false
        mon := v.mon.map Monitor.reset
        mem := m
        draws := n
        checkDraws := v.checkDraws
        pending := v.pending } := by
  have h : (resetState o v m n).notices.asserted = false := reset_asserted
  rw [signalLine, h]
  rfl

/-- R49: the monitors after a reset. -/
theorem resetMonitor_eq (v : Vector Monitor 8) (b : Bay) :
    (v.map Monitor.reset)[b.val].settleBase = none ∧ (v.map Monitor.reset)[b.val].milestone = 0
    ∧ ∀ l : InLine, (v.map Monitor.reset)[b.val].lines[l.val]
      = { State.reset.mon[b.val].lines[l.val] with pin := v[b.val].lines[l.val].pin } := by
  simp [Monitor.reset, MonLine.reset]

/-! ### The memory that abandoned writes leave -/

theorem abandonResult_none {e : EngineId} {u : State} (h : u.eng[e.val].resultField = none) : abandonResult e u = u := by
  rw [abandonResult, h]

theorem abandonResult_some {e : EngineId} {u : State} {f : Field} (h : u.eng[e.val].resultField = some f) :
    (abandonResult e u).mem = u.mem.cutWrites [[f]] (Config.groupsDone u.draws) u.draws := by
  rw [abandonResult, h]

theorem resultCut_none {s : State} {e : EngineId} (h : s.eng[e.val].resultField = none) (m : Memory) :
    ResultCut s e m m := by
  rw [ResultCut, h]

theorem resultCut_some {s : State} {e : EngineId} {f : Field} (h : s.eng[e.val].resultField = some f) {m n : Memory}
    (hp : PartlyWritten m n [[f]]) : ResultCut s e m n := by
  rwa [ResultCut, h]

theorem abandonResult_cut (s : State) (e : EngineId) {u : State} (h : u.eng = s.eng) :
    ResultCut s e u.mem (abandonResult e u).mem := by
  cases hf : s.eng[e.val].resultField with
  | none =>
    rw [abandonResult_none (by rwa [h])]
    exact resultCut_none hf u.mem
  | some f =>
    obtain ⟨chosen, hs, hc⟩ := Memory.cutWrites_eq u.mem [[f]] (Config.groupsDone u.draws) u.draws
    exact resultCut_some hf ⟨_, chosen, hs, (abandonResult_some (by rwa [h])).trans hc⟩

/-- R195: the groups of the INITIALISING step, byte by byte. -/
theorem initialWrites_eq : initialWrites =
    [ (List.finRange 64).map (fun i : Slot => (cardAddr i + 0x40, [0#8])),
      (List.finRange 8).flatMap (fun b : Bay => fieldsFrom (streamAddr b)
        ([[0#8], [1#8], [1#8], [0#8], [0#8, 0#8], [0xFF#8, 0xFF#8]] ++ List.replicate 4 (List.replicate 4 0#8)
          ++ List.replicate 40 [0#8])),
      (List.finRange 2048).map (fun p : Page => (mapAddr p, [0#8])) ] := rfl

theorem abandonStart_cut {u : State} (h : u.ctl.startSeq = .initialising) :
    PartlyWritten u.mem (abandonStart u).mem initialWrites := by
  unfold abandonStart
  rw [if_pos h]
  obtain ⟨chosen, hs, hc⟩ := Memory.cutWrites_eq u.mem initialWrites (Config.groupsDone u.draws) u.draws
  exact ⟨_, chosen, hs, hc⟩

theorem abandonStart_none {u : State} (h : u.ctl.startSeq ≠ .initialising) : abandonStart u = u := by
  rw [abandonStart, if_neg h]

theorem abandonService_none {s : State} (h : ∀ b : Bay, s.str[b.val].service = none) : abandonService s = s := by
  simp [abandonService, h]

theorem abandonService_cut (s : State) : (abandonService s).mem = s.mem
    ∨ ∃ (b : Bay) (v : Service), s.str[b.val].service = some v
      ∧ PartlyWritten s.mem (abandonService s).mem (s.serviceWrites b v) := by
  unfold abandonService
  simp only
  split
  · exact .inl rfl
  · next v hv =>
    obtain ⟨chosen, hs, hc⟩ := Memory.cutWrites_eq s.mem (s.serviceWrites (Config.abandonedBay s.draws) v)
      (Config.groupsDone s.draws) s.draws
    exact .inr ⟨_, v, hv, _, chosen, hs, hc⟩

theorem abandonService_ctl (s : State) : (abandonService s).ctl = s.ctl := by
  rw [abandonService_eq]

/-- R21, R164, R195, R198: what a link reset and RESTART leave of the writes they abandon. -/
theorem abandonWork_cuts (s : State) : ∃ m0 m1 : Memory, ResultCut s 0 m0 m1 ∧ ResultCut s 1 m1 (abandonWork s).mem
    ∧ (s.ctl.startSeq ≠ .initialising → (∀ b : Bay, s.str[b.val].service = none) → m0 = s.mem)
    ∧ (s.ctl.startSeq ≠ .initialising → m0 = s.mem
      ∨ ∃ (b : Bay) (v : Service), s.str[b.val].service = some v ∧ PartlyWritten s.mem m0 (s.serviceWrites b v))
    ∧ (s.ctl.startSeq = .initialising → (∀ b : Bay, s.str[b.val].service = none) →
      PartlyWritten s.mem m0 initialWrites) := by
  have he0 : (abandonStart (abandonService s)).eng = s.eng := by rw [abandonStart_eq, abandonService_eq]
  have he1 : (abandonResult 0 (abandonStart (abandonService s))).eng = s.eng := by rw [abandonResult_eq, he0]
  refine ⟨_, _, abandonResult_cut s 0 he0, abandonResult_cut s 1 he1, fun hi hn => ?_, fun hi => ?_, fun hi hn => ?_⟩
  · rw [abandonService_none hn, abandonStart_none hi]
  · rw [abandonStart_none (by rwa [abandonService_ctl])]
    exact abandonService_cut s
  · rw [abandonService_none hn]
    exact abandonStart_cut hi

end Sys2Proof.Machine
end

section
/-! PROOF. Where the writes that a reset cuts short lie (O51): those of a writer service, of the INITIALISING step and
of a result write. -/

namespace Sys2Proof.Machine

/-! ### The writer's fields (R20, R22, R27, R33, R47) -/

/-- What a writer service writes: the status block, the stream table, the page state map, and the trace pages. -/
def writerArea (a : Nat) : Prop := publishedArea a ∨ (0x005000 ≤ a ∧ a < 0x005800) ∨ 0x800000 ≤ a

/-- Every byte of the fields is one that a writer service writes. -/
def InWriterArea (fs : List Field) : Prop := ∀ f ∈ fs, ∀ a, f.1 ≤ a → a < f.1 + f.2.length → writerArea a

@[simp] theorem inWriterArea_nil : InWriterArea [] := fun _ hf => by cases hf

theorem inWriterArea_append {fs gs : List Field} : InWriterArea (fs ++ gs) ↔ InWriterArea fs ∧ InWriterArea gs :=
  List.forall_mem_append

theorem headerFields_inWriterArea (b : Bay) (u : PageUse) (recycled : Bool) (lost : Nat) (s : State) :
    InWriterArea (headerFields b u recycled lost s) := fun f hf a h1 _ => .inr (.inr (by
  have := fieldsFrom_within _ _ f hf
  simp only [pageAddr] at this
  omega))

theorem mapField_inWriterArea (p : Page) (st : PageState) : InWriterArea [mapField p st] := fun f hf a h1 h2 => .inr (.inl (by
  cases List.mem_singleton.1 hf
  have := p.isLt
  simp only [mapField, fld, leBytes_length, mapAddr] at h1 h2
  omega))

theorem slotAct_inWriterArea (b : Bay) (body : RecordBody) (late : Bool) (delta : Nat) (s : State) :
    InWriterArea (slotAct b body late delta s).fields := by
  unfold slotAct
  cases s.str[b.val].filling with
  | none => exact inWriterArea_nil
  | some u => exact fun f hf a h1 _ => .inr (.inr (by
      have := fieldsFrom_within _ _ f hf
      simp only [recordAddr, pageAddr] at this
      omega))

theorem mirrorAct_inWriterArea (s t : State) : InWriterArea (mirrorAct s t).fields := fun f hf a h1 h2 => .inl (by
  have hp : f.place ∈ [freeField t, pendingField t].map Field.place := List.mem_map_of_mem (diffFields_subset hf)
  have hr : ∀ x ∈ [freeField t, pendingField t].map Field.place, 0x001000 ≤ x.1 ∧ x.1 + x.2 ≤ 0x002000 := by
    simp [mirrorAddr]
  have := hr (f.1, f.2.length) hp
  simp only [publishedArea]
  omega)

/-- R47: every changed item of a bay's stream table entry stands in that entry. -/
theorem diffStream_inEntry (b : Bay) (s t : State) {f : Field} (hf : f ∈ diffFields (streamFields s b) (streamFields t b)) :
    streamAddr b ≤ f.1 ∧ f.1 + f.2.length ≤ streamAddr b + 64 ∧ 0 < f.2.length := by
  have hp : f.place ∈ (streamFields t b).map Field.place := List.mem_map_of_mem (diffFields_subset hf)
  have hr : ∀ x ∈ (streamFields t b).map Field.place, streamAddr b ≤ x.1 ∧ x.1 + x.2 ≤ streamAddr b + 64 ∧ 0 < x.2 := by
    simp [streamFields]
  exact hr _ hp

theorem diffStream_inWriterArea (b : Bay) (s t : State) :
    InWriterArea (diffFields (streamFields s b) (streamFields t b)) := fun f hf a h1 h2 => .inl (by
  have := diffStream_inEntry b s t hf
  have := b.isLt
  simp only [streamAddr, publishedArea] at *
  omega)

/-! ### The acts of a service -/

theorem deliverActs_inWriterArea (b : Bay) (u : PageUse) (s : State) : InWriterArea (fieldsOf (deliverActs b u s)) :=
  inWriterArea_append.2 ⟨headerFields_inWriterArea b u _ _ s, inWriterArea_append.2 ⟨mapField_inWriterArea _ _,
    inWriterArea_append.2 ⟨mirrorAct_inWriterArea s _, inWriterArea_nil⟩⟩⟩

theorem deliverAllActs_inWriterArea (b : Bay) (us : List PageUse) (s : State) :
    InWriterArea (fieldsOf (deliverAllActs b us s)) := by
  induction us generalizing s with
  | nil => exact inWriterArea_nil
  | cons u rest ih =>
    rw [deliverAllActs, fieldsOf_append]
    exact inWriterArea_append.2 ⟨deliverActs_inWriterArea b u s, ih (deliver b u s)⟩

theorem endActs_inWriterArea (b : Bay) (s : State) : InWriterArea (fieldsOf (endActs b s)) := by
  unfold endActs
  cases s.str[b.val].filling with
  | none => exact inWriterArea_nil
  | some u =>
    simp only
    split
    · rw [fieldsOf_cons, ← List.singleton_append]
      exact inWriterArea_append.2 ⟨inWriterArea_append.2 ⟨mapField_inWriterArea _ _,
        headerFields_inWriterArea b u false 0 s⟩, inWriterArea_nil⟩
    · exact deliverActs_inWriterArea b u s

theorem endIfFullActs_inWriterArea (b : Bay) (s : State) : InWriterArea (fieldsOf (endIfFullActs b s)) := by
  unfold endIfFullActs
  split
  · exact endActs_inWriterArea b s
  · exact inWriterArea_nil

theorem lossActs_inWriterArea (b : Bay) (s : State) : InWriterArea (fieldsOf (lossActs b s)) := by
  unfold lossActs
  split
  · exact inWriterArea_nil
  · rw [fieldsOf_cons]
    exact inWriterArea_append.2 ⟨slotAct_inWriterArea b _ _ _ s, endIfFullActs_inWriterArea b _⟩

theorem dataActs_inWriterArea (b : Bay) (body : RecordBody) (late : Bool) (delta : Nat) (clamped : Tick) (s : State) :
    InWriterArea (fieldsOf (dataActs b body late delta clamped s)) := by
  rw [dataActs, fieldsOf_cons]
  exact inWriterArea_append.2 ⟨slotAct_inWriterArea b _ _ _ s, endIfFullActs_inWriterArea b _⟩

theorem openActs_inWriterArea (b : Bay) (s t : State) : InWriterArea (fieldsOf (openActs b s t)) := by
  unfold openActs
  cases t.str[b.val].filling with
  | none => exact inWriterArea_nil
  | some u =>
    exact inWriterArea_append.2 ⟨mapField_inWriterArea _ _, inWriterArea_append.2 ⟨mirrorAct_inWriterArea s t,
      inWriterArea_append.2 ⟨headerFields_inWriterArea b u false 0 t, inWriterArea_nil⟩⟩⟩

theorem placeActs_inWriterArea (tries : Nat) (b : Bay) (r : Record) (s : State) :
    InWriterArea (fieldsOf (placeActs tries b r s)) := by
  induction tries generalizing s with
  | zero => exact inWriterArea_nil
  | succ n ih =>
    unfold placeActs
    simp only
    split
    · exact inWriterArea_nil
    · next s1 _ =>
      have hopen : InWriterArea (fieldsOf (if s.str[b.val].filling.isNone then openActs b s s1 else [])) := by
        split
        · exact openActs_inWriterArea b s s1
        · exact inWriterArea_nil
      simp only [fieldsOf_append]
      refine inWriterArea_append.2 ⟨inWriterArea_append.2 ⟨hopen, lossActs_inWriterArea b s1⟩, ?_⟩
      split
      · exact ih _
      split
      · exact dataActs_inWriterArea b _ _ _ _ _
      split
      · split
        · rw [fieldsOf_cons]
          exact inWriterArea_append.2 ⟨slotAct_inWriterArea b _ _ _ _, dataActs_inWriterArea b _ _ _ _ _⟩
        · rw [fieldsOf_append]
          exact inWriterArea_append.2 ⟨endActs_inWriterArea b _, ih _⟩
      · exact dataActs_inWriterArea b _ _ _ _ _

theorem pageActs_inWriterArea (s : State) (b : Bay) (v : Service) : InWriterArea (fieldsOf (s.pageActs b v)) := by
  cases v with
  | flush =>
    simp only [State.pageActs, flushActs]
    split
    · split
      · exact deliverActs_inWriterArea b _ _
      · exact inWriterArea_nil
    · exact inWriterArea_nil
  | drain =>
    simp only [State.pageActs, drainActs, fieldsOf_append]
    refine inWriterArea_append.2 ⟨?_, deliverAllActs_inWriterArea b _ _⟩
    split
    · exact inWriterArea_append.2 ⟨slotAct_inWriterArea b _ _ _ _, inWriterArea_nil⟩
    · exact inWriterArea_nil
  | record =>
    simp only [State.pageActs, recordActs]
    split
    · exact inWriterArea_nil
    · exact placeActs_inWriterArea 3 b _ _

theorem serviceWrites_inWriterArea (s : State) (b : Bay) (v : Service) {g : List Field} (hg : g ∈ s.serviceWrites b v) :
    InWriterArea g := by
  have hall : InWriterArea (fieldsOf (s.serviceActs b v)) := by
    rw [State.serviceActs, fieldsOf_append]
    exact inWriterArea_append.2 ⟨pageActs_inWriterArea s b v,
      inWriterArea_append.2 ⟨diffStream_inWriterArea b s _, inWriterArea_nil⟩⟩
  obtain ⟨act, ha, rfl⟩ := List.mem_map.1 hg
  exact fun f hf => hall f (List.mem_flatMap.2 ⟨act, ha, hf⟩)

/-! ### What abandoned writes leave alone -/

theorem abandonService_unchanged (s : State) {a : Nat} (ha : ¬ writerArea a) : (abandonService s).mem.read a = s.mem.read a := by
  unfold abandonService
  simp only
  split
  · rfl
  · refine Memory.read_cutWrites_other _ _ _ _ _ (fun g hg f hf => ?_)
    have := serviceWrites_inWriterArea s _ _ hg f hf a
    by_contra hin
    exact ha (this (by omega) (by omega))

theorem startStreamItems_length : startStreamItems.flatten.length = 64 := by
  rfl

/-- R195: what the INITIALISING step writes: card states, the stream table and the page state map. -/
theorem initialWrites_within {g : List Field} (hg : g ∈ initialWrites) {f : Field} (hf : f ∈ g) :
    (∃ i : Slot, f.1 = cardAddr i + 0x40 ∧ f.2.length = 1)
    ∨ (0x004000 ≤ f.1 ∧ f.1 + f.2.length ≤ 0x004200) ∨ (0x005000 ≤ f.1 ∧ f.1 + f.2.length ≤ 0x005800) := by
  simp only [initialWrites, List.mem_cons, List.not_mem_nil, or_false] at hg
  rcases hg with hg | hg | hg <;> rw [hg] at hf
  · obtain ⟨i, -, rfl⟩ := List.mem_map.1 hf
    exact .inl ⟨i, rfl, leBytes_length _ _⟩
  · obtain ⟨b, -, hb⟩ := List.mem_flatMap.1 hf
    have hin := fieldsFrom_within _ _ f hb
    have := b.isLt
    simp only [startStreamItems_length, streamAddr] at hin
    omega
  · obtain ⟨p, -, rfl⟩ := List.mem_map.1 hf
    have := p.isLt
    simp only [fld, leBytes_length, mapAddr]
    omega

theorem abandonStart_unchanged (s : State) {a : Nat} (ha : ¬ writerArea a) (hc : ∀ i : Slot, a ≠ cardAddr i + 0x40) :
    (abandonStart s).mem.read a = s.mem.read a := by
  unfold abandonStart
  split
  · refine Memory.read_cutWrites_other _ _ _ _ _ (fun g hg f hf => ?_)
    simp only [writerArea, publishedArea] at ha
    rcases initialWrites_within hg hf with ⟨i, h1, h2⟩ | h | h
    · have := hc i
      omega
    · omega
    · omega
  · rfl

theorem abandonResult_unchanged (e : EngineId) (s : State) {a : Nat}
    (ha : ∀ f, s.eng[e.val].resultField = some f → a < f.1 ∨ f.1 + f.2.length ≤ a) :
    (abandonResult e s).mem.read a = s.mem.read a := by
  unfold abandonResult
  split
  · next f hf =>
    refine Memory.read_cutWrites_other _ _ _ _ _ (fun g hg x hx => ?_)
    cases List.mem_singleton.1 hg
    cases List.mem_singleton.1 hx
    exact ha f hf
  · rfl

/-- R21, R164, R195: the bytes that the writes a reset abandons may have changed. -/
theorem abandonWork_unchanged (s : State) : Unchanged (fun a => publishedArea a ∨ (0x005000 ≤ a ∧ a < 0x005800)
    ∨ 0x800000 ≤ a ∨ (∃ i : Slot, a = cardAddr i + 0x40)
    ∨ ∃ (e : EngineId) (f : Nat × List Byte), s.eng[e.val].resultField = some f
      ∧ f.1 ≤ a ∧ a < f.1 + f.2.length) s (abandonWork s) := by
  intro a ha
  have hw : ¬ writerArea a := fun h => ha (h.imp_right (Or.imp_right .inl))
  have hc : ∀ i : Slot, a ≠ cardAddr i + 0x40 := fun i h => ha (.inr (.inr (.inr (.inl ⟨i, h⟩))))
  have hr : ∀ (e : EngineId) (u : State), u.eng = s.eng → ∀ f, u.eng[e.val].resultField = some f →
      a < f.1 ∨ f.1 + f.2.length ≤ a := fun e u hu f hf => by
    by_contra hin
    exact ha (.inr (.inr (.inr (.inr ⟨e, f, by rwa [hu] at hf, by omega, by omega⟩))))
  have he : (abandonStart (abandonService s)).eng = s.eng := by rw [abandonStart_eq, abandonService_eq]
  calc (abandonWork s).mem.read a
    _ = (abandonResult 0 (abandonStart (abandonService s))).mem.read a :=
      abandonResult_unchanged 1 _ (hr 1 _ ((congrArg State.eng (abandonResult_eq 0 _)).trans he))
    _ = (abandonStart (abandonService s)).mem.read a := abandonResult_unchanged 0 _ (hr 0 _ he)
    _ = (abandonService s).mem.read a := abandonStart_unchanged _ hw hc
    _ = s.mem.read a := abandonService_unchanged s hw

/-! ### The forms of the groups -/

theorem resultField_eq_some (g : Engine) (f : Field) : g.resultField = some f ↔
    g.work = .writeResult ∧ ∃ x, g.step = some x ∧ f = (x.b, leBytes x.bytes g.captured) := by
  unfold Engine.resultField
  split
  · next x hw hx => simp [hw, hx, eq_comm]
  · next h => exact ⟨fun k => (by cases k), fun ⟨hw, x, hx, _⟩ => absurd hx (h x hw)⟩

theorem resultWritesInProgress : ResultWritesInProgress := fun s e f => by
  simp only [resultField_eq_some, Engine.step, Option.bind_eq_some_iff, ScanEntry.bytes]
  exact and_congr_right fun _ => ⟨fun ⟨x, ⟨n, hn, hx⟩, hf⟩ => ⟨n, x, hn, hx, hf⟩, fun ⟨n, x, hn, hx, hf⟩ => ⟨x, ⟨n, hn, hx⟩, hf⟩⟩

theorem fieldsAreWrittenByTheirAccesses : FieldsAreWrittenByTheirAccesses := fun m a bytes =>
  ⟨fun hl ha => accesses_aligned (a, bytes) (by simpa using hl) ha, Memory.writeFields_accesses m (a, bytes)⟩

theorem servicesWriteTheirGroups : ServicesWriteTheirGroups := fun s b v _ hm => by
  refine ⟨fun a ha => (serviceWrites_whole hm b v a ha).trans ?_,
    diffFields (streamFields s b) (streamFields (s.serve b v) b), ?_, fun f hf => ?_⟩
  · cases v <;> rfl
  · simp [State.serviceWrites, State.serviceActs]
  · have := diffStream_inEntry b s _ hf
    exact ⟨by omega, by omega⟩

end Sys2Proof.Machine
end

section
/-! PROOF. The three resets, block by block (O51). -/

namespace Sys2Proof.Machine

/-! ### What is abandoned, and what it leaves of the state -/

@[simp] theorem abandonWork_time (s : State) : (abandonWork s).time = s.time := by rw [abandonWork_eq]

@[simp] theorem abandonWork_mon (s : State) : (abandonWork s).mon = s.mon := by rw [abandonWork_eq]

@[simp] theorem abandonWork_checkDraws (s : State) : (abandonWork s).checkDraws = s.checkDraws := by rw [abandonWork_eq]

@[simp] theorem abandonWork_pending (s : State) : (abandonWork s).pending = s.pending := by rw [abandonWork_eq]

/-- R202: an abandoned service may have signalled a change of the notice line. -/
theorem abandonWork_link (s : State) : ∃ x y : Bool, (abandonWork s).link = s.link.signal x y := by
  rw [abandonWork_eq]
  exact abandonService_link s

/-- Without a service in flight the link and the pending flags are untouched. -/
theorem abandonWork_idle {s : State} (h : ∀ b : Bay, s.str[b.val].service = none) :
    (abandonWork s).link = s.link ∧ (abandonWork s).notices = s.notices := by
  have hs : abandonService s = s := abandonService_none h
  rw [abandonWork_eq, hs]
  exact ⟨rfl, rfl⟩

/-! ### The values after a reset -/

/-- R2, R186, R202: a state is the reset state of `s` but for memory and draws: the pins and what waits are those of
`s`, the notice line is down, and the outcome is as given. -/
structure ResetValues (s : State) (o : CmdOutcome) (t : State) : Prop where
  eq : t = { State.reset with
    time := { State.reset.time with syncRaw := s.time.syncRaw, syncQual := s.time.syncRaw }
    ctl := { State.reset.ctl with outcome := o }
    link := t.link
    mon := t.mon
    mem := t.mem
    draws := t.draws
    checkDraws := s.checkDraws
    pending := s.pending }
  mon : ∀ b : Bay, t.mon[b.val].settleBase = none ∧ t.mon[b.val].milestone = 0
    ∧ ∀ l : InLine, t.mon[b.val].lines[l.val] = { State.reset.mon[b.val].lines[l.val] with
        pin := s.mon[b.val].lines[l.val].pin }
  asserted : t.notices.asserted = false

theorem resetState_values {s old v : State} (o : CmdOutcome) (m : Memory) (n : Nat) (time : v.time = s.time)
    (mon : v.mon = s.mon) (checks : v.checkDraws = s.checkDraws) (pending : v.pending = s.pending) :
    ResetValues s o (signalLine old (resetState o v m n)) := by
  rw [resetState_eq, time, mon, checks, pending]
  exact ⟨rfl, resetMonitor_eq s.mon, reset_asserted⟩

theorem signalLine_resetState_link (old v : State) (o : CmdOutcome) (m : Memory) (n : Nat) :
    (signalLine old (resetState o v m n)).link = v.link.signal old.notices.asserted false := by
  rw [resetState_eq]

theorem signalLine_resetState_mem (old v : State) (o : CmdOutcome) (m : Memory) (n : Nat) :
    (signalLine old (resetState o v m n)).mem = m := by
  rw [resetState_eq]

/-- R21, R164, R195, R198: the memory after a reset that keeps it. -/
theorem abandonWork_memory (s : State) : ∃ m0 m1 : Memory, ResultCut s 0 m0 m1 ∧ ResultCut s 1 m1 (abandonWork s).mem
    ∧ (s.ctl.startSeq ≠ .initialising → (∀ b : Bay, s.str[b.val].service = none) → m0 = s.mem)
    ∧ (s.ctl.startSeq ≠ .initialising → m0 = s.mem
      ∨ ∃ (b : Bay) (v : Service), s.str[b.val].service = some v ∧ PartlyWritten s.mem m0 (s.serviceWrites b v))
    ∧ (s.ctl.startSeq = .initialising → (∀ b : Bay, s.str[b.val].service = none) → PartlyWritten s.mem m0
      [ (List.finRange 64).map (fun i : Slot => (cardAddr i + 0x40, [0#8])),
        (List.finRange 8).flatMap (fun b : Bay => fieldsFrom (streamAddr b)
          ([[0#8], [1#8], [1#8], [0#8], [0#8, 0#8], [0xFF#8, 0xFF#8]] ++ List.replicate 4 (List.replicate 4 0#8)
            ++ List.replicate 40 [0#8])),
        (List.finRange 2048).map (fun p : Page => (mapAddr p, [0#8])) ]) := by
  have h := abandonWork_cuts s
  rwa [initialWrites_eq] at h

theorem Link.canReset_of {l : Link} {x : LinkResetCause} (hr : x = .linkReturn → l.down = true)
    (hp : x = .perstRelease → l.perst = true) : l.canReset x = true := by
  cases x
  case hotReset => rfl
  case linkReturn => exact hr rfl
  case perstRelease => exact hp rfl

theorem resetsLeaveTheirValues : ResetsLeaveTheirValues := by
  intro s c x hc
  obtain ⟨y, z, hl⟩ := abandonWork_link s
  rcases hc with rfl | rfl | ⟨rfl, hr, hp⟩
  · have hv := resetState_values (s := s) (old := s) .none (powerOnMemory s.draws) (s.draws + 1) rfl rfl rfl rfl
    have hlink := signalLine_resetState_link s s .none (powerOnMemory s.draws) (s.draws + 1)
    refine ⟨_, powerOnReset_eq s, hv.eq, hv.mon, ?_, ?_, nofun, nofun, nofun, fun h => absurd rfl h, fun _ => hlink, nofun,
      fun h => absurd rfl h, hv.asserted⟩
    · rw [hlink, Link.signal_form]
    · rw [hlink, Link.signal_readData]
  · have hv := resetState_values (s := s) (old := abandonWork s) .accepted (abandonWork s).mem (abandonWork s).draws
      (abandonWork_time s) (abandonWork_mon s) (abandonWork_checkDraws s) (abandonWork_pending s)
    have hlink := signalLine_resetState_link (abandonWork s) (abandonWork s) .accepted (abandonWork s).mem
      (abandonWork s).draws
    have hmem := signalLine_resetState_mem (abandonWork s) (abandonWork s) .accepted (abandonWork s).mem
      (abandonWork s).draws
    refine ⟨_, restart_eq s, hv.eq, hv.mon, ?_, ?_, fun _ => ⟨?_, ?_⟩, nofun, nofun, fun _ => ?_, fun h => ?_, nofun,
      fun _ _ a ha => ?_, hv.asserted⟩
    · rw [hlink, hl, Link.signal_form, Link.signal_form]
    · rw [hlink, hl, Link.signal_readData, Link.signal_readData]
    · rw [hlink, hl, Link.signal_down, Link.signal_down]
    · rw [hlink, hl, Link.signal_perst, Link.signal_perst]
    · rw [hmem]
      exact abandonWork_memory s
    · obtain ⟨hk, hn⟩ := abandonWork_idle (h.resolve_left nofun).2
      rw [hlink, hk, hn]
    · rw [hmem]
      exact abandonWork_unchanged s a ha
  · have hv := resetState_values (s := s) (old := abandonWork s)
      (v := { abandonWork s with link := (abandonWork s).link.after x }) .none (abandonWork s).mem (abandonWork s).draws
      (abandonWork_time s) (abandonWork_mon s) (abandonWork_checkDraws s) (abandonWork_pending s)
    have hlink := signalLine_resetState_link (abandonWork s) { abandonWork s with link := (abandonWork s).link.after x }
      .none (abandonWork s).mem (abandonWork s).draws
    have hmem := signalLine_resetState_mem (abandonWork s) { abandonWork s with link := (abandonWork s).link.after x }
      .none (abandonWork s).mem (abandonWork s).draws
    refine ⟨_, linkReset_eq (Link.canReset_of hr hp), hv.eq, hv.mon, ?_, ?_, nofun, fun h => ?_, fun h => ?_, fun _ => ?_,
      fun h => ?_, fun _ h => ?_, fun _ _ a ha => ?_, hv.asserted⟩
    · rw [hlink, Link.signal_form, Link.after_form, hl, Link.signal_form]
    · rw [hlink, Link.signal_readData, Link.after_readData, hl, Link.signal_readData]
    · cases h
      rw [hlink, Link.signal_down]
      rfl
    · cases h
      rw [hlink, Link.signal_perst]
      rfl
    · rw [hmem]
      exact abandonWork_memory s
    · rcases h with h | h <;> simp at h
    · obtain ⟨hk, hn⟩ := abandonWork_idle h
      rw [hlink, hk, hn]
    · rw [hmem]
      exact abandonWork_unchanged s a ha

/-- Settles O51, from the values of the blocks and the writes that are cut short. -/
theorem resetsSetEveryBlock : Obligations.ResetsSetEveryBlock :=
  ⟨resetsLeaveTheirValues, resultWritesInProgress, fieldsAreWrittenByTheirAccesses, servicesWriteTheirGroups⟩

end Sys2Proof.Machine
end

section
/-! PROOF. What a command of one bay's inputs leaves (R68, R101, R202): its outcome where it writes the bay's published
fields alone, and where a condition event follows. -/

namespace Sys2Proof.Machine

/-! ### The published fields of one bay -/

/-- R68, R78, R92, R124, R157, R180: what the status entry of a bay is made of. -/
theorem bayFields_congr {s x : State} {c : Bay} (mon : x.mon[c.val] = s.mon[c.val]) (code : x.code[c.val] = s.code[c.val])
    (rail : x.rail = s.rail) (con : x.con = s.con) (seq : x.seq[c.val] = s.seq[c.val]) (drv : x.drv = s.drv)
    (port : x.port = s.port) : bayFields x c = bayFields s c := by
  simp only [bayFields, validByte, railFields, mon, code, rail, con, seq, drv, port]

theorem streamFields_congr {s x : State} {c : Bay} (str : x.str[c.val] = s.str[c.val]) :
    streamFields x c = streamFields s c := by
  simp only [streamFields, str]

/-- The published fields follow from the mirror, the status entries and the stream table. -/
theorem publishedFields_congr {s x : State} (mirror : mirrorFields x = mirrorFields s)
    (bay : ∀ c, bayFields x c = bayFields s c) (stream : ∀ c, streamFields x c = streamFields s c) :
    publishedFields x = publishedFields s := by
  simp only [publishedFields, mirror, funext bay, funext stream]

/-- A state that differs from another in the inputs, the sequencer and the stream of one bay alone. -/
structure BayInputs (b : Bay) (s x : State) : Prop where
  eq : x = { s with mon := x.mon, code := x.code, seq := x.seq, str := x.str }
  mon : ∀ c, c ≠ b → x.mon[c.val] = s.mon[c.val]
  code : ∀ c, c ≠ b → x.code[c.val] = s.code[c.val]
  seq : ∀ c, c ≠ b → x.seq[c.val] = s.seq[c.val]
  str : ∀ c, c ≠ b → x.str[c.val] = s.str[c.val]

namespace BayInputs

theorem refl (b : Bay) (s : State) : BayInputs b s s := ⟨rfl, fun _ _ => rfl, fun _ _ => rfl, fun _ _ => rfl, fun _ _ => rfl⟩

theorem trans {b : Bay} {s x y : State} (h : BayInputs b s x) (k : BayInputs b x y) : BayInputs b s y where
  eq := k.eq.trans (by rw [h.eq])
  mon c hc := (k.mon c hc).trans (h.mon c hc)
  code c hc := (k.code c hc).trans (h.code c hc)
  seq c hc := (k.seq c hc).trans (h.seq c hc)
  str c hc := (k.str c hc).trans (h.str c hc)

theorem modMon (b : Bay) (f : Monitor → Monitor) (s : State) : BayInputs b s (s.modMon b f) :=
  ⟨rfl, fun _ hc => upd_ne s.mon f hc.symm, fun _ _ => rfl, fun _ _ => rfl, fun _ _ => rfl⟩

theorem modInLine (b : Bay) (l : InLine) (f : MonLine → MonLine) (s : State) : BayInputs b s (s.modInLine b l f) :=
  modMon b _ s

theorem modCode (b : Bay) (f : CodeRx → CodeRx) (s : State) : BayInputs b s (s.modCode b f) :=
  ⟨rfl, fun _ _ => rfl, fun _ hc => upd_ne s.code f hc.symm, fun _ _ => rfl, fun _ _ => rfl⟩

theorem offer (b : Bay) (body : RecordBody) (t : Tick) (s : State) : BayInputs b s (offer b body t s) :=
  ⟨rfl, fun _ _ => rfl, fun _ _ => rfl, fun _ _ => rfl, fun _ hc => upd_ne s.str _ hc.symm⟩

variable {b : Bay} {s x : State} (h : BayInputs b s x)
include h

theorem notices : x.notices = s.notices := by rw [h.eq]

theorem mem : x.mem = s.mem := by rw [h.eq]

theorem link : x.link = s.link := by rw [h.eq]

theorem time : x.time = s.time := by rw [h.eq]

theorem eng : x.eng = s.eng := by rw [h.eq]

theorem port : x.port = s.port := by rw [h.eq]

theorem con : x.con = s.con := by rw [h.eq]

theorem rail : x.rail = s.rail := by rw [h.eq]

theorem drv : x.drv = s.drv := by rw [h.eq]

theorem slots : x.slots = s.slots := by rw [h.eq]

theorem lanes : x.lanes = s.lanes := by rw [h.eq]

theorem mirrorFields : mirrorFields x = mirrorFields s := by rw [h.eq]; rfl

/-- The published fields that differ are those of the bay. -/
theorem publish_unchanged :
    Unchanged (fun a => inBayEntry b a ∨ inStreamEntry b a) s (publish s (signalLine s x)) := by
  refine Machine.publish_unchanged (fun a _ => by rw [signalLine_mem, h.mem]) (fun a _ => ?_) (fun c a ha hc => ?_)
    (fun c a ha hc => ?_)
  · have hm : Machine.mirrorFields (signalLine s x) = Machine.mirrorFields s := h.mirrorFields
    rw [hm, diffFields_self]
    exact fun f hf => by cases hf
  · have hne : c ≠ b := fun e => ha (.inl (e ▸ hc))
    exact bayFields_congr (h.mon c hne) (h.code c hne) h.rail h.con (h.seq c hne) h.drv h.port
  · exact streamFields_congr (h.str c (fun e => ha (.inr (e ▸ hc))))

end BayInputs

/-! ### Outcomes -/

theorem Unchanged.mono {p q : Nat → Prop} {s t : State} (h : Unchanged p s t) (k : ∀ a, p a → q a) : Unchanged q s t :=
  fun a ha => h a (fun hp => ha (k a hp))

/-- A command that writes nothing outside the device's own areas leaves what it published. -/
theorem leaves_blockArea {s u : State} (h : ∀ a, ¬ deviceArea a → u.mem.read a = s.mem.read a) :
    Leaves s (publish s (signalLine s u)) u blockArea :=
  ⟨rfl, fun a ha => (publish_read_other s _ a (fun k => ha (.inr k))).trans (h a (fun k => ha (.inl k)))⟩

/-- A command that changes the inputs, the sequencer and the stream of one bay writes that bay's entries. -/
theorem BayInputs.leaves {b : Bay} {s x : State} (h : BayInputs b s x) :
    Leaves s (publish s (signalLine s x)) x (fun a => inBayEntry b a ∨ inStreamEntry b a) :=
  ⟨rfl, h.publish_unchanged⟩

/-- R101: a sequencer that is not ARMED ignores a condition event. -/
theorem conditionEvent_of_not_armed {b : Bay} {ev : Event} {x : State} (h : x.seq[b.val].state ≠ .armed) :
    conditionEvent b ev x = x := by
  simp only [conditionEvent, if_neg h]

/-- A condition event after changes of the bay's inputs. -/
theorem BayInputs.takesEvent {b : Bay} {s x : State} (h : BayInputs b s x) (ev : Event) :
    ∃ t, commit s (conditionEvent b ev x) = .next t ∧ TakesEvent b ev s x t := by
  refine ⟨_, rfl, leaves_blockArea (fun a ha => ?_), fun hs => ?_⟩
  · rw [(Effects.conditionEvent b ev x).area a ha, h.mem]
  · rw [conditionEvent_of_not_armed hs]
    exact ⟨h.leaves.1, h.leaves.2.mono (fun _ ha => .inr ha)⟩

end Sys2Proof.Machine
end

section
/-! PROOF. The monitored lines (R48 to R53): raw changes (O12) and qualified edges (O13). -/

namespace Sys2Proof.Machine

/-! ### Changes of one line -/

theorem State.modInLine_modInLine (b : Bay) (l : InLine) (f g : MonLine → MonLine) (s : State) :
    (s.modInLine b l f).modInLine b l g = s.modInLine b l (fun x => g (f x)) := by
  simp only [State.modInLine, State.modMon_modMon, upd_upd]

theorem State.modInLine_line (b : Bay) (l : InLine) (f : MonLine → MonLine) (s : State) :
    (s.modInLine b l f).mon[b.val].lines[l.val] = f s.mon[b.val].lines[l.val] := by
  simp only [State.modInLine_mon, upd_self]

theorem qualByte_congr {m n : Monitor} (h : ∀ l : InLine, m.lines[l.val].qual = n.lines[l.val].qual) :
    qualByte m = qualByte n := by
  simp only [qualByte]
  rw [show m.lines[0].qual = _ from h 0, show m.lines[1].qual = _ from h 1, show m.lines[2].qual = _ from h 2,
    show m.lines[3].qual = _ from h 3, show m.lines[4].qual = _ from h 4, show m.lines[5].qual = _ from h 5]
  rfl

/-- R68: a line changed shows nothing while its qualified level stays. -/
theorem publishedFields_modInLine (b : Bay) (l : InLine) (f : MonLine → MonLine) (s : State)
    (hf : ∀ x, (f x).qual = x.qual) : publishedFields (s.modInLine b l f) = publishedFields s := by
  refine publishedFields_congr rfl (fun c => ?_) (fun _ => rfl)
  by_cases hc : b = c
  · subst hc
    have hq : qualByte (s.modInLine b l f).mon[b.val] = qualByte s.mon[b.val] := qualByte_congr (fun k => by
      simp only [State.modInLine_mon, upd_self, upd_get]
      split
      · next e => exact e ▸ hf _
      · rfl)
    have hb : (s.modInLine b l f).mon[b.val].settleBase = s.mon[b.val].settleBase := by simp
    have hm : (s.modInLine b l f).mon[b.val].milestone = s.mon[b.val].milestone := by simp
    simp only [bayFields, validByte, railFields, hq, hb, hm, State.modInLine_code, State.modInLine_rail,
      State.modInLine_con, State.modInLine_seq, State.modInLine_drv, State.modInLine_port]
  · exact bayFields_congr (upd_ne s.mon _ hc) rfl rfl rfl rfl rfl rfl

/-- R48, R50: a line changed without its qualified level is the whole outcome. -/
theorem commit_modInLine (b : Bay) (l : InLine) (f : MonLine → MonLine) (s : State) (hf : ∀ x, (f x).qual = x.qual) :
    commit s (s.modInLine b l f) = .next (s.modInLine b l f) :=
  commit_quiet rfl (publishedFields_modInLine b l f s hf)

/-! ### Raw changes (R48, R50, R52) -/

theorem lineRawChange_stopped {s : State} {b : Bay} (l : InLine) (h : s.active b = false) :
    exec (.lineRawChange b l) s = .next (s.modInLine b l (fun x => { x with pin := !x.pin })) := by
  change execLineRawChange b l s = _
  simp only [execLineRawChange, h, Bool.false_eq_true, if_false]
  exact commit_modInLine b l _ s (fun _ => rfl)

theorem lineRawChange_eq {s : State} {b : Bay} (l : InLine) (h : s.active b = true) : exec (.lineRawChange b l) s
    = commit s (rawChange b l (s.modInLine b l (fun x => { x with pin := !x.pin }))) := by
  change execLineRawChange b l s = _
  simp only [execLineRawChange, h, if_true]

/-- Settles O12, by the state of the monitor and of the line. -/
theorem rawChangeBeginsOrEndsAPendingEdge : Obligations.RawChangeBeginsOrEndsAPendingEdge := by
  refine fun s b l => ⟨lineRawChange_stopped l, fun ha he hq => ?_, fun since ha he => ?_⟩
  · rw [lineRawChange_eq l ha]
    simp only [rawChange, State.modInLine_line, he, if_neg hq, State.modInLine_modInLine]
    exact commit_modInLine b l _ s (fun _ => rfl)
  · rw [lineRawChange_eq l ha]
    simp only [rawChange, glitch, State.modInLine_line, he, State.modInLine_modInLine]
    exact ((BayInputs.modInLine b l _ s).trans (BayInputs.offer b _ _ _)).takesEvent _

/-! ### Qualified edges (R51, R53) -/

/-- R50, R51: a command that qualifies an edge takes the steps of R51. -/
theorem qualifies_exec {s : State} {b : Bay} {l : InLine} {c : Instr} {x : State} {since : Tick} {level : Bool}
    (h : Qualifies s b l c x since level) (ha : s.active b = true) : exec c s
      = commit s (lineEffect b l level since (conditionEvent b (.line l level) (edgeTaken b l since level x))) := by
  obtain ⟨rfl, rfl, he, hq, rfl⟩ | ⟨rfl, rfl, he, hq, rfl, rfl⟩ := h
  · change execLineQualify b l x = _
    have hp : x.passed since x.mon[b.val].lines[l.val].q = true := decide_eq_true hq
    simp only [execLineQualify, he, ha, hp, Bool.and_self, if_true]
    rfl
  · rw [lineRawChange_eq l ha]
    simp only [rawChange, State.modInLine_line, he, hq, if_true]
    rfl

theorem qualifies_bayInputs {s : State} {b : Bay} {l : InLine} {c : Instr} {x : State} {since : Tick} {level : Bool}
    (h : Qualifies s b l c x since level) : BayInputs b s x := by
  obtain ⟨-, rfl, -⟩ | ⟨-, rfl, -⟩ := h
  · exact BayInputs.refl b x
  · exact BayInputs.modInLine b l _ s

theorem edgeTaken_bayInputs (b : Bay) (l : InLine) (since : Tick) (level : Bool) (x : State) :
    BayInputs b x (edgeTaken b l since level x) := (BayInputs.modInLine b l _ x).trans (BayInputs.offer b _ _ _)

/-- R48 table: which lines other than POWER_GOOD have an effect of their own. -/
theorem lineEffect_eq (b : Bay) {l : InLine} (hl : l ≠ 0) (level : Bool) (since : Tick) (s : State) :
    lineEffect b l level since s = if l = 1 ∧ level = true then offerStall b since s
      else if l = 4 ∧ level = false then raiseBay b .fault s else s := by
  match l, level with
  | 0, _ => exact absurd rfl hl
  | 1, true | 1, false | 2, true | 2, false | 3, true | 3, false | 4, true | 4, false | 5, true | 5, false => rfl

/-- Settles O13: the steps of R51, and then the effect of the line. -/
theorem edgeQualifiesWithItsEffect : Obligations.EdgeQualifiesWithItsEffect := by
  intro s b l c x since level ha hl hq
  have hx := (qualifies_bayInputs hq).trans (edgeTaken_bayInputs b l since level x)
  have hmem : ∀ a, ¬ deviceArea a →
      (conditionEvent b (.line l level) (edgeTaken b l since level x)).mem.read a = s.mem.read a := fun a h => by
    rw [(Effects.conditionEvent b _ _).area a h, hx.mem]
  rw [qualifies_exec hq ha, lineEffect_eq b hl]
  split
  · next h =>
    obtain ⟨-, rfl⟩ := h
    exact ⟨_, rfl, leaves_blockArea (fun a h => ((Wide.offerStall b since _).area a h).trans (hmem a h))⟩
  · split
    · next h =>
      obtain ⟨-, rfl⟩ := h
      exact ⟨_, rfl, leaves_blockArea hmem⟩
    · exact hx.takesEvent _

end Sys2Proof.Machine
end

section
/-! PROOF. The Code Lane Receiver (R58 to R65): its wires (O16), a whole frame (O17) and the end of a frame (O19). -/

namespace Sys2Proof.Machine

/-! ### Changes of one receiver -/

theorem State.modCode_modCode (b : Bay) (f g : CodeRx → CodeRx) (s : State) :
    (s.modCode b f).modCode b g = s.modCode b (fun c => g (f c)) := by
  simp only [State.modCode, upd_upd]

/-- What the status entry shows of a receiver stays. -/
structure CodeRx.SameShown (c d : CodeRx) : Prop where
  errors : d.errors = c.errors
  lastCode : d.lastCode = c.lastCode
  lastCodeTime : d.lastCodeTime = c.lastCodeTime
  stallRef : d.stallRef = c.stallRef

/-- R68: a frame in progress shows nothing. -/
theorem publishedFields_modCode (b : Bay) (f : CodeRx → CodeRx) (s : State)
    (hf : CodeRx.SameShown s.code[b.val] (f s.code[b.val])) : publishedFields (s.modCode b f) = publishedFields s := by
  refine publishedFields_congr rfl (fun c => ?_) (fun _ => rfl)
  by_cases hc : b = c
  · subst hc
    simp only [bayFields, validByte, railFields, State.modCode_code, upd_self, hf.errors, hf.lastCode, hf.lastCodeTime,
      hf.stallRef, State.modCode_mon, State.modCode_rail, State.modCode_con, State.modCode_seq, State.modCode_drv,
      State.modCode_port]
  · exact bayFields_congr rfl (upd_ne s.code _ hc) rfl rfl rfl rfl rfl

theorem commit_modCode (b : Bay) (f : CodeRx → CodeRx) (s : State)
    (hf : CodeRx.SameShown s.code[b.val] (f s.code[b.val])) : commit s (s.modCode b f) = .next (s.modCode b f) :=
  commit_quiet rfl (publishedFields_modCode b f s hf)

/-! ### Wires (R58 to R60) -/

theorem codeStartCondition_idle {s : State} {b : Bay} (ha : s.active b = true) (hs : s.code[b.val].state = .idle) :
    exec (.codeStartCondition b) s = .next (s.modCode b (newFrame s.time.count)) := by
  change execCodeStartCondition b s = _
  simp only [execCodeStartCondition, ha, hs, decide_true, Bool.and_self, if_true]
  exact commit_modCode b _ s ⟨rfl, rfl, rfl, rfl⟩

theorem codeClkEdge_idle {s : State} {b : Bay} (edge : ClkEdge) (dat : Bool) (ha : s.active b = true)
    (hs : s.code[b.val].state = .idle) : exec (.codeClkEdge b edge dat) s = .next s := by
  change execCodeClkEdge b edge dat s = _
  simp only [execCodeClkEdge, ha, hs, if_true]
  exact commit_self s

/-- R60: a rise of CLK in DATA samples DAT. -/
theorem codeClkEdge_rise {s : State} {b : Bay} (dat : Bool) (ha : s.active b = true) (hs : s.code[b.val].state = .data) :
    exec (.codeClkEdge b .rise dat) s = .next (s.modCode b (CodeRx.sampleBit dat s.time.count)) := by
  change execCodeClkEdge b .rise dat s = _
  simp only [execCodeClkEdge, ha, hs, if_true]
  exact commit_modCode b _ s ⟨rfl, rfl, rfl, rfl⟩

/-- R60: a fall in DATA, and any edge in STOP_WAIT, is activity alone. -/
theorem codeClkEdge_activity {s : State} {b : Bay} {edge : ClkEdge} (dat : Bool) (ha : s.active b = true)
    (hs : s.code[b.val].state = .data ∧ edge = .fall ∨ s.code[b.val].state = .stopWait) :
    exec (.codeClkEdge b edge dat) s = .next (s.modCode b (fun c => { c with lastClk := s.time.count })) := by
  change execCodeClkEdge b edge dat s = _
  obtain ⟨hs, rfl⟩ | hs := hs <;> simp only [execCodeClkEdge, ha, hs, if_true] <;>
    exact commit_modCode b _ s ⟨rfl, rfl, rfl, rfl⟩

/-- Settles O16, by the state of the receiver. -/
theorem codeLaneFollowsItsWires : Obligations.CodeLaneFollowsItsWires := fun _ _ edge dat ha =>
  ⟨fun hs => ⟨codeStartCondition_idle ha hs, codeClkEdge_idle edge dat ha hs⟩, codeClkEdge_rise dat ha,
    codeClkEdge_activity dat ha⟩

/-! ### A whole frame (R60, R61) -/

/-- The receiver after rises of CLK in DATA. -/
def CodeRx.sampleBits (c : CodeRx) (bits : List (Bool × Tick)) : CodeRx :=
  bits.foldl (fun c x => c.sampleBit x.1 x.2) c

theorem CodeRx.sampleBits_cons (c : CodeRx) (x : Bool × Tick) (rest : List (Bool × Tick)) :
    c.sampleBits (x :: rest) = (c.sampleBit x.1 x.2).sampleBits rest := rfl

/-- R60: up to 17 rises clock their bits in. -/
theorem clockIn_eq (b : Bay) (bits : List (Bool × Tick)) (s : State) (ha : s.active b = true)
    (hs : bits ≠ [] → s.code[b.val].state = .data) (hn : s.code[b.val].bits + bits.length ≤ 17) :
    ∃ t, clockIn b bits s = some t ∧ t.code[b.val] = s.code[b.val].sampleBits bits := by
  induction bits generalizing s with
  | nil => exact ⟨s, rfl, rfl⟩
  | cons x rest ih =>
    obtain ⟨dat, now⟩ := x
    have hd : s.code[b.val].state = .data := hs (List.cons_ne_nil _ _)
    have hstep := codeClkEdge_rise (s := { s with time := { s.time with count := now } }) dat ha hd
    have hcode : (State.modCode b (CodeRx.sampleBit dat now) { s with time := { s.time with count := now } }).code[b.val]
        = s.code[b.val].sampleBit dat now := upd_self s.code b _
    simp only [clockIn, hstep, CodeRx.sampleBits_cons, ← hcode]
    simp only [List.length_cons] at hn
    refine ih _ ha (fun hr => ?_) ?_
    · have hpos := List.length_pos_of_ne_nil hr
      rw [hcode, CodeRx.sampleBit, if_neg (by simp only [frameBits]; omega)]
    · rw [hcode]
      simp only [CodeRx.sampleBit]
      omega

theorem CodeRx.sampleBits_frameStart (c : CodeRx) (bits : List (Bool × Tick)) :
    (c.sampleBits bits).frameStart = c.frameStart := by
  induction bits generalizing c with
  | nil => rfl
  | cons x rest ih => exact ih _

theorem CodeRx.sampleBits_bits (c : CodeRx) (bits : List (Bool × Tick)) :
    (c.sampleBits bits).bits = c.bits + bits.length := by
  induction bits generalizing c with
  | nil => rfl
  | cons x rest ih =>
    rw [CodeRx.sampleBits_cons, ih, List.length_cons]
    simp only [CodeRx.sampleBit]
    omega

/-- R60: the last bit decides the state. -/
theorem CodeRx.sampleBits_state (c : CodeRx) (bits : List (Bool × Tick)) (h : bits ≠ []) :
    (c.sampleBits bits).state = if c.bits + bits.length = 17 then .stopWait else .data := by
  induction bits generalizing c with
  | nil => exact absurd rfl h
  | cons x rest ih =>
    rw [CodeRx.sampleBits_cons]
    cases rest with
    | nil => rfl
    | cons y rest =>
      rw [ih _ (List.cons_ne_nil y rest)]
      simp only [CodeRx.sampleBit, List.length_cons]
      congr 2
      omega

theorem CodeRx.sampleBit_shift (c : CodeRx) (dat : Bool) (now : Tick) {j : Nat} (hj : j < 17) :
    (c.sampleBit dat now).shift.getLsbD j = if j = 0 then dat else c.shift.getLsbD (j - 1) := by
  cases j with
  | zero => cases dat <;> simp [CodeRx.sampleBit]
  | succ j => cases dat <;> simp [CodeRx.sampleBit, hj, BitVec.getLsbD_eq_getElem (show j < 17 by omega)]

/-- R60: the bits stand in the shift value with the last one lowest, above them what stood there before. -/
theorem CodeRx.sampleBits_shift (c : CodeRx) (bits : List (Bool × Tick)) {j : Nat} (hj : j < 17) :
    (c.sampleBits bits).shift.getLsbD j = if h : j < bits.length then bits[bits.length - 1 - j].1
      else c.shift.getLsbD (j - bits.length) := by
  induction bits generalizing c with
  | nil => rfl
  | cons x rest ih =>
    rw [CodeRx.sampleBits_cons, ih]
    by_cases h1 : j < rest.length
    · have hx : (x :: rest).length - 1 - j = (rest.length - 1 - j) + 1 := by simp only [List.length_cons]; omega
      rw [dif_pos h1, dif_pos (by simp only [List.length_cons]; omega)]
      simp only [hx, List.getElem_cons_succ]
    · rw [dif_neg h1, CodeRx.sampleBit_shift _ _ _ (by omega)]
      by_cases h2 : j = rest.length
      · subst h2
        simp
      · rw [if_neg (by omega), dif_neg (by simp only [List.length_cons]; omega), List.length_cons,
          Nat.sub_sub]

/-- R61: of 17 bits the first 16 are the code, most significant first. -/
theorem CodeRx.sampleBits_frameCode (c : CodeRx) {bits : List (Bool × Tick)} (hl : bits.length = 17) {i : Nat} (hi : i < 16) :
    (bits.map Prod.fst)[i]? = some ((c.sampleBits bits).frameCode.getLsbD (15 - i)) := by
  have hb : (c.sampleBits bits).frameCode.getLsbD (15 - i) = (c.sampleBits bits).shift.getLsbD (16 - i) := by
    simp only [CodeRx.frameCode, BitVec.getLsbD_setWidth, BitVec.getLsbD_ushiftRight]
    rw [show 1 + (15 - i) = 16 - i by omega]
    simp only [Bool.and_eq_right_iff_imp, decide_eq_true_eq]
    omega
  have hx : bits.length - 1 - (16 - i) = i := by omega
  rw [hb, CodeRx.sampleBits_shift c bits (by omega), dif_pos (by omega)]
  simp only [hx, List.getElem?_map, List.getElem?_eq_getElem (show i < bits.length by omega), Option.map_some]

/-- R61: the 1 bits of the shift value are those of the 17 bits. -/
theorem CodeRx.sampleBits_ones (c : CodeRx) {bits : List (Bool × Tick)} (hl : bits.length = 17) :
    countOnes (c.sampleBits bits).shift = (bits.map Prod.fst).count true := by
  have hrev : (List.range 17).map (c.sampleBits bits).shift.getLsbD = (bits.map Prod.fst).reverse := by
    refine List.ext_getElem (by simp [hl]) (fun j h1 h2 => ?_)
    have hj : j < 17 := by simpa using h1
    simp only [List.getElem_map, List.getElem_range, CodeRx.sampleBits_shift c bits hj, hl, dif_pos hj,
      List.getElem_reverse, List.length_map]
  calc countOnes (c.sampleBits bits).shift
    _ = ((List.range 17).map (c.sampleBits bits).shift.getLsbD).count true := by
      simp [countOnes, List.count, List.countP_map, Function.comp_def]
    _ = (bits.map Prod.fst).count true := by rw [hrev, List.count_reverse]

/-- Settles O17, by induction on the bits clocked in. -/
theorem seventeenBitsMakeACode : Obligations.SeventeenBitsMakeACode := by
  intro s b bits ha hs hb hl
  obtain ⟨t, ht, hc⟩ := clockIn_eq b bits s ha (fun _ => hs) (by omega)
  have hne : bits ≠ [] := fun e => by simp [e] at hl
  refine ⟨t, ht, ?_⟩
  rw [hc]
  refine ⟨?_, ?_, CodeRx.sampleBits_frameStart _ _, fun i hi => CodeRx.sampleBits_frameCode _ hl hi, ?_⟩
  · rw [CodeRx.sampleBits_state _ _ hne, hb, hl]
    rfl
  · rw [CodeRx.sampleBits_bits, hb, hl]
  · simp only [CodeRx.oddParity, CodeRx.sampleBits_ones _ hl, decide_eq_true_eq]

/-! ### The end of a frame (R61 to R65) -/

theorem afterFrame_eq (b : Bay) (cond : CodeCond) (s : State) :
    afterFrame b cond s = s.modCode b (frameEnded cond s.time.count) := by
  cases cond <;> rfl

theorem offerStall_lastCode (b : Bay) (t : Tick) (s : State) :
    (offerStall b t s).code[b.val].lastCode = s.code[b.val].lastCode
      ∧ (offerStall b t s).code[b.val].lastCodeTime = s.code[b.val].lastCodeTime := by
  unfold offerStall
  split
  · simp [beginStall]
  · exact ⟨rfl, rfl⟩

/-- R63: what a code arrival leaves in the receiver. -/
theorem codeArrival_lastCode (b : Bay) (s : State) :
    (codeArrival b s).code[b.val].lastCode = some s.code[b.val].frameCode
      ∧ (codeArrival b s).code[b.val].lastCodeTime = s.code[b.val].frameStart := by
  simp only [codeArrival, (Effects.conditionEvent b _ _).code, (Effects.offer b _ _ _).code, offerStall_lastCode,
    State.modCode_code, upd_self, and_self]

theorem frameEnded_lastCode (cond : CodeCond) (now : Tick) (c : CodeRx) :
    (frameEnded cond now c).lastCode = c.lastCode ∧ (frameEnded cond now c).lastCodeTime = c.lastCodeTime
      ∧ (frameEnded cond now c).state = if cond = .start then .data else .idle := by
  cases cond <;> exact ⟨rfl, rfl, rfl⟩

theorem codeArrivalIsRecordedAndHanded : CodeArrivalIsRecordedAndHanded := by
  intro s b cond ha hs hp
  have hw := Wide.codeArrival b s
  have hexec : exec (.codeArrival b cond) s = commit s ((codeArrival b s).modCode b (frameEnded cond s.time.count)) := by
    change execCodeArrival b cond s = _
    simp only [execCodeArrival, ha, hs, hp, decide_true, Bool.and_self, if_true, afterFrame_eq, hw.time]
  obtain ⟨hcode, htime⟩ := codeArrival_lastCode b s
  obtain ⟨hlast, hlastTime, hstate⟩ := frameEnded_lastCode cond s.time.count (codeArrival b s).code[b.val]
  refine ⟨_, hexec, leaves_blockArea hw.area, ?_, ?_, ?_⟩ <;>
    simp only [publish_code, signalLine_code, State.modCode_code, upd_self]
  · rw [hlast, hcode]
  · rw [hlastTime, htime]
  · exact hstate

/-- R64: a frame in error, and what follows it. -/
theorem codeError_modCode (b : Bay) (cause : CodeErrCause) (detail : Nat) (after : CodeRx → CodeRx) (s : State) :
    (codeError b cause detail s).modCode b after
      = (offer b (.codeErr cause detail) s.code[b.val].frameStart s).modCode b
        (fun r => after { r with errors := r.errors + 1#32 }) := State.modCode_modCode b _ _ _

theorem codeErr_parity {s : State} {b : Bay} (cond : CodeCond) (ha : s.active b = true)
    (hs : s.code[b.val].state = .stopWait) (hp : s.code[b.val].oddParity = false) : exec (.codeErr b cond) s
      = commit s ((codeError b .parity s.code[b.val].frameCode.toNat s).modCode b (frameEnded cond s.time.count)) := by
  change execCodeErr b cond s = _
  simp only [execCodeErr, ha, hs, hp, if_true, afterFrame_eq, Bool.false_eq_true, if_false]
  rfl

theorem codeErr_short {s : State} {b : Bay} (cond : CodeCond) (ha : s.active b = true)
    (hs : s.code[b.val].state = .data) : exec (.codeErr b cond) s
      = commit s ((codeError b .short s.code[b.val].bits s).modCode b (frameEnded cond s.time.count)) := by
  change execCodeErr b cond s = _
  simp only [execCodeErr, ha, hs, if_true, afterFrame_eq]
  rfl

theorem codeFrameStall_eq {s : State} {b : Bay} (ha : s.active b = true) (hs : s.code[b.val].state ≠ .idle)
    (he : elapsed s.code[b.val].lastClk s.time.count = 100000) : exec (.codeFrameStall b) s
      = commit s ((codeError b .stalled s.code[b.val].bits s).modCode b (fun r => { r with state := .idle, bits := 0 })) := by
  change execCodeFrameStall b s = _
  have hp : s.passed s.code[b.val].lastClk frameStallTicks = true := decide_eq_true he
  simp only [execCodeFrameStall, ha, ne_eq, hs, not_false_eq_true, decide_true, hp, Bool.and_self, if_true]

theorem frameErrorsAreRecorded : FrameErrorsAreRecorded := by
  intro s b c cause detail after ha h
  have hexec : exec c s = commit s ((codeError b cause detail s).modCode b after) := by
    obtain ⟨cond, rfl, hs, hp, rfl, rfl, rfl⟩ | ⟨cond, rfl, hs, rfl, rfl, rfl⟩ | ⟨rfl, hs, he, rfl, rfl, rfl⟩ := h
    · exact codeErr_parity cond ha hs hp
    · exact codeErr_short cond ha hs
    · exact codeFrameStall_eq ha hs he
  rw [codeError_modCode] at hexec
  exact ⟨_, hexec, ((BayInputs.offer b _ _ s).trans (BayInputs.modCode b _ _)).leaves⟩

/-- Settles O19: a code arrival, or a frame in error. -/
theorem framesAreJudgedAtTheirEnd : Obligations.FramesAreJudgedAtTheirEnd :=
  ⟨codeArrivalIsRecordedAndHanded, frameErrorsAreRecorded⟩

end Sys2Proof.Machine
end

section
/-! PROOF. What a condition event keeps (R101 to R118): the jobs in service with their cards and their owners at the
Console Ports, and that it neither reads nor writes the monitors, the engines and the scan ports. -/

namespace Sys2Proof.Machine

/-! ### Jobs in service -/

/-- The jobs in service stay, with their cards, and so do the transmitters. -/
structure JobsKept (s t : State) : Prop where
  con : ∀ b : Bay, t.con[b.val].tx = s.con[b.val].tx ∧ t.con[b.val].job = s.con[b.val].job
  service : ∀ (b : Bay) (l : Lane), (t.lane b l).service = (s.lane b l).service
  card : ∀ i : Slot, t.slots[i.val].card = s.slots[i.val].card

namespace JobsKept

theorem ofEq {s t : State} (con : t.con = s.con) (lanes : t.lanes = s.lanes) (slots : t.slots = s.slots) :
    JobsKept s t :=
  ⟨fun _ => by rw [con]; exact ⟨rfl, rfl⟩, fun _ _ => by rw [State.lane, lanes]; rfl, fun _ => by rw [slots]⟩

theorem refl (s : State) : JobsKept s s := ofEq rfl rfl rfl

theorem trans {s t u : State} (h : JobsKept s t) (k : JobsKept t u) : JobsKept s u :=
  ⟨fun b => ⟨(k.con b).1.trans (h.con b).1, (k.con b).2.trans (h.con b).2⟩,
    fun b l => (k.service b l).trans (h.service b l), fun i => (k.card i).trans (h.card i)⟩

theorem modSlot (i : Slot) (f : SlotRec → SlotRec) (s : State)
    (hf : ∀ r, (f r).card = r.card := by exact fun _ => rfl) :
    JobsKept s (s.modSlot i f) := by
  refine ⟨fun _ => ⟨rfl, rfl⟩, fun _ _ => rfl, fun j => ?_⟩
  rw [State.modSlot_slots, upd_get]
  split
  · exact hf _
  · rfl

theorem modLane (b : Bay) (l : Lane) (f : LaneQ → LaneQ) (s : State)
    (hf : ∀ q, (f q).service = q.service := by exact fun _ => rfl) :
    JobsKept s (s.modLane b l f) := by
  refine ⟨fun _ => ⟨rfl, rfl⟩, fun c k => ?_, fun _ => rfl⟩
  simp only [State.lane, State.modLane_lanes, upd_get]
  split
  · next e =>
    subst e
    rw [upd_get]
    split
    · exact hf _
    · rfl
  · rfl

theorem modCon (b : Bay) (f : Console → Console) (s : State)
    (hf : ∀ c, (f c).tx = c.tx ∧ (f c).job = c.job := by exact fun _ => ⟨rfl, rfl⟩) :
    JobsKept s (s.modCon b f) := by
  refine ⟨fun c => ?_, fun _ _ => rfl, fun _ => rfl⟩
  rw [State.modCon_con, upd_get]
  split
  · exact hf _
  · exact ⟨rfl, rfl⟩

theorem modStr (b : Bay) (f : Stream → Stream) (s : State) : JobsKept s (s.modStr b f) := ofEq rfl rfl rfl

theorem modDrv (b : Bay) (f : Driver → Driver) (s : State) : JobsKept s (s.modDrv b f) := ofEq rfl rfl rfl

theorem modSeq (b : Bay) (f : Sequencer → Sequencer) (s : State) : JobsKept s (s.modSeq b f) := ofEq rfl rfl rfl

theorem offer (b : Bay) (body : RecordBody) (t : Tick) (s : State) : JobsKept s (Machine.offer b body t s) :=
  modStr b _ s

theorem store (a : Nat) (bytes : List Byte) (s : State) : JobsKept s (s.store a bytes) := ofEq rfl rfl rfl

theorem raiseBay (b : Bay) (f : BayFactor) (s : State) : JobsKept s (Machine.raiseBay b f s) := ofEq rfl rfl rfl

theorem report (i : Slot) (st : Status) (d : BitVec 16) (r : BitVec 64) (s : State) :
    JobsKept s (Machine.report i st d r s) := modSlot i _ s

/-! #### Streams -/

theorem deliverAll (b : Bay) (us : List PageUse) (s : State) : JobsKept s (Machine.deliverAll b us s) := by
  induction us generalizing s with
  | nil => exact refl s
  | cons u rest ih =>
    have hpage (x : State) : JobsKept x (setPage u.page (.closed b) x) := ofEq rfl rfl rfl
    exact ((((store _ _ s).trans (hpage _)).trans (modStr b _ _)).trans (raiseBay b _ _)).trans (ih _)

theorem toDraining (b : Bay) (s : State) : JobsKept s (Machine.toDraining b s) := by
  unfold Machine.toDraining closeBatch
  split
  · exact modStr b _ s
  · exact ((offer b _ _ s).trans (modCon b _ _)).trans (modStr b _ _)

theorem stopTrace (b : Bay) (p : Nat) (taken : Bool) (s : State) : JobsKept s (Machine.stopTrace b p taken s) := by
  unfold Machine.stopTrace
  simp only
  split
  · split <;> split
    · exact ((modStr b _ s).trans ((deliverAll b _ _).trans (modStr b _ _))).trans (toDraining b _)
    · exact (modStr b _ s).trans (toDraining b _)
    · exact (modStr b _ s).trans ((deliverAll b _ _).trans (modStr b _ _))
    · exact modStr b _ s
  · exact refl s

/-! #### Driven lines -/

theorem setLevel (b : Bay) (d : OutLine) (level : Bool) (c : DriveCause × Option Slot) (s : State) :
    JobsKept s (Machine.setLevel b d level c s) := (modDrv b _ s).trans (offer b _ _ _)

theorem releaseForce (b : Bay) (d : OutLine) (c : DriveCause × Option Slot) (s : State) :
    JobsKept s (Machine.releaseForce b d c s) := ((modDrv b _ s).trans (setLevel b d _ c _)).trans (modDrv b _ _)

theorem goActive (b : Bay) (d : OutLine) (p : LineProg) (o : Owner) (s : State) :
    JobsKept s (Machine.goActive b d p o s) := by
  unfold Machine.goActive
  simp only
  split
  · exact (setLevel b d _ _ s).trans (modDrv b _ _)
  · exact ((setLevel b d _ _ s).trans (modDrv b _ _)).trans (modDrv b _ _)
  · exact setLevel b d _ _ s

theorem startProgram (b : Bay) (d : OutLine) (p : LineProg) (o : Owner) (s : State) :
    JobsKept s (Machine.startProgram b d p o s) := by
  unfold Machine.startProgram
  split
  · exact goActive b d p o s
  · exact modDrv b _ s

theorem startBuffered (b : Bay) (d : OutLine) (s : State) : JobsKept s (Machine.startBuffered b d s) := by
  unfold Machine.startBuffered
  split
  · exact refl s
  · exact (modDrv b _ s).trans (startProgram b d _ _ _)

theorem arrive (b : Bay) (d : OutLine) (p : LineProg) (o : Owner) (s : State) :
    JobsKept s (Machine.arrive b d p o s) := by
  unfold Machine.arrive
  split
  · exact refl s
  · simp only
    split
    · split
      · exact ((releaseForce b d _ s).trans (modDrv b _ _)).trans (startBuffered b d _)
      · exact modDrv b _ s
    · split
      · exact startProgram b d _ o s
      · split
        · exact modDrv b _ s
        · exact (modDrv b _ s).trans (modDrv b _ _)

theorem endLinesIfDone (b : Bay) (s : State) : JobsKept s (Machine.endLinesIfDone b s) := by
  unfold Machine.endLinesIfDone
  split
  · exact refl s
  · split
    · exact (modDrv b _ s).trans (report _ _ _ _ _)
    · exact refl s

/-! #### Slots -/

theorem leaveOwnQueue (i : Slot) (s : State) : JobsKept s (Machine.leaveOwnQueue i s) := by
  unfold Machine.leaveOwnQueue
  split
  · exact refl s
  · exact modLane _ _ _ s

theorem requestSlot (i : Slot) (base : Tick) (s : State) : JobsKept s (Machine.requestSlot i base s) := by
  unfold Machine.requestSlot
  simp only
  split
  · exact modSlot i _ s
  · exact (modSlot i _ s).trans (modLane _ _ _ _)

theorem closeCard (i : Slot) (st : Status) (d : BitVec 16) (r : BitVec 64) (t : Tick) (s : State) :
    JobsKept s (Machine.closeCard i st d r t s) := by
  have hend (x : State) : JobsKept x (writeEnd i st d t r x) :=
    ((((store _ _ x).trans (store _ _ _)).trans (store _ _ _)).trans (store _ _ _)).trans (store _ _ _)
  unfold Machine.closeCard
  simp only
  split
  · exact (hend s).trans (modSlot i _ _)
  · exact ((store _ _ s).trans (hend _)).trans (modSlot i _ _)

theorem releaseSlot (i : Slot) (s : State) : JobsKept s (Machine.releaseSlot i s) := by
  unfold Machine.releaseSlot
  split
  · split
    · exact ((leaveOwnQueue i s).trans (closeCard i _ _ _ _ _)).trans ((offer _ _ _ _).trans (raiseBay _ _ _))
    · exact (requestSlot i _ s).trans (store _ _ _)
  · exact refl s

/-! #### Fires and condition events -/

theorem fire (b : Bay) (p : Program) (stage entry : Nat) (s : State) : JobsKept s (Machine.fire b p stage entry s) := by
  have hold (x : State) : JobsKept x (fireHold p b x) := by
    unfold fireHold
    split <;> exact ofEq rfl rfl rfl
  have release (x : State) : JobsKept x (fireRelease p x) := by
    unfold fireRelease
    split
    · split
      · exact releaseSlot _ x
      · exact refl x
    · exact refl x
  have stop (k : Bool) (x : State) : JobsKept x (fireStopTrace p b k x) := by
    unfold fireStopTrace
    split
    · exact stopTrace b _ k x
    · exact refl x
  have pulse (x : State) : JobsKept x (firePulse p b x) := by
    unfold firePulse
    split
    · split
      · exact (arrive b _ _ _ x).trans (endLinesIfDone b _)
      · exact refl x
    · exact refl x
  have notice (x : State) : JobsKept x (fireNotice p b x) := by
    unfold fireNotice
    split <;> exact ofEq rfl rfl rfl
  unfold Machine.fire
  exact ((((((modSeq b _ s).trans (hold _)).trans (release _)).trans (offer b _ _ _)).trans (stop _ _)).trans
    (pulse _)).trans (notice _)

theorem takeOutcome (b : Bay) (p : Program) (stage i : Nat) (e : Entry) (s : State) :
    JobsKept s (Machine.takeOutcome b p stage i e s) := by
  unfold Machine.takeOutcome
  split
  · exact fire b _ _ _ s
  · exact modSeq b _ s
  · split
    · exact modSeq b _ s
    · exact fire b _ _ _ s

theorem conditionEvent (b : Bay) (ev : Event) (s : State) : JobsKept s (Machine.conditionEvent b ev s) := by
  unfold Machine.conditionEvent
  simp only
  split
  · split
    · split
      · exact (modSeq b _ s).trans (takeOutcome b _ _ _ _ _)
      · exact modSeq b _ s
    · exact refl s
  · exact refl s

end JobsKept

/-! ### Other monitors, engines and scan ports -/

/-- The same state with other monitors, engines and scan ports. -/
def State.withPorts (mon : Vector Monitor 8) (eng : Vector Engine 2) (port : Vector ScanPort 8) (s : State) : State :=
  { s with mon := mon, eng := eng, port := port }

section
variable (mon : Vector Monitor 8) (eng : Vector Engine 2) (port : Vector ScanPort 8)

@[simp] theorem State.withPorts_time (s : State) : (s.withPorts mon eng port).time = s.time := rfl
@[simp] theorem State.withPorts_ctl (s : State) : (s.withPorts mon eng port).ctl = s.ctl := rfl
@[simp] theorem State.withPorts_con (s : State) : (s.withPorts mon eng port).con = s.con := rfl
@[simp] theorem State.withPorts_seq (s : State) : (s.withPorts mon eng port).seq = s.seq := rfl
@[simp] theorem State.withPorts_drv (s : State) : (s.withPorts mon eng port).drv = s.drv := rfl
@[simp] theorem State.withPorts_str (s : State) : (s.withPorts mon eng port).str = s.str := rfl
@[simp] theorem State.withPorts_slots (s : State) : (s.withPorts mon eng port).slots = s.slots := rfl

@[simp] theorem State.modStr_withPorts (b : Bay) (f : Stream → Stream) (s : State) :
    (s.withPorts mon eng port).modStr b f = (s.modStr b f).withPorts mon eng port := rfl
@[simp] theorem State.modSeq_withPorts (b : Bay) (f : Sequencer → Sequencer) (s : State) :
    (s.withPorts mon eng port).modSeq b f = (s.modSeq b f).withPorts mon eng port := rfl
@[simp] theorem State.modDrv_withPorts (b : Bay) (f : Driver → Driver) (s : State) :
    (s.withPorts mon eng port).modDrv b f = (s.modDrv b f).withPorts mon eng port := rfl
@[simp] theorem State.modOutLine_withPorts (b : Bay) (d : OutLine) (f : DrvLine → DrvLine) (s : State) :
    (s.withPorts mon eng port).modOutLine b d f = (s.modOutLine b d f).withPorts mon eng port := rfl
@[simp] theorem State.modSlot_withPorts (i : Slot) (f : SlotRec → SlotRec) (s : State) :
    (s.withPorts mon eng port).modSlot i f = (s.modSlot i f).withPorts mon eng port := rfl
@[simp] theorem State.modLane_withPorts (b : Bay) (l : Lane) (f : LaneQ → LaneQ) (s : State) :
    (s.withPorts mon eng port).modLane b l f = (s.modLane b l f).withPorts mon eng port := rfl
@[simp] theorem offer_withPorts (b : Bay) (body : RecordBody) (t : Tick) (s : State) :
    offer b body t (s.withPorts mon eng port) = (offer b body t s).withPorts mon eng port := rfl
@[simp] theorem report_withPorts (i : Slot) (st : Status) (d : BitVec 16) (r : BitVec 64) (s : State) :
    report i st d r (s.withPorts mon eng port) = (report i st d r s).withPorts mon eng port := rfl
@[simp] theorem raiseBay_withPorts (b : Bay) (f : BayFactor) (s : State) :
    raiseBay b f (s.withPorts mon eng port) = (raiseBay b f s).withPorts mon eng port := rfl

@[simp] theorem State.modCon_withPorts (b : Bay) (f : Console → Console) (s : State) :
    (s.withPorts mon eng port).modCon b f = (s.modCon b f).withPorts mon eng port := rfl
@[simp] theorem State.store_withPorts (a : Nat) (bytes : List Byte) (s : State) :
    (s.withPorts mon eng port).store a bytes = (s.store a bytes).withPorts mon eng port := rfl
@[simp] theorem setPage_withPorts (p : Page) (st : PageState) (s : State) :
    setPage p st (s.withPorts mon eng port) = (setPage p st s).withPorts mon eng port := rfl
@[simp] theorem holdBay_withPorts (b : Bay) (s : State) :
    holdBay b (s.withPorts mon eng port) = (holdBay b s).withPorts mon eng port := rfl

/-! #### Streams -/

@[simp] theorem closeBatch_withPorts (b : Bay) (brk : Bool) (s : State) :
    closeBatch b brk (s.withPorts mon eng port) = (closeBatch b brk s).withPorts mon eng port := by
  cases h : s.con[b.val].batch <;> simp [closeBatch, h]

@[simp] theorem toDraining_withPorts (b : Bay) (s : State) :
    toDraining b (s.withPorts mon eng port) = (toDraining b s).withPorts mon eng port := by
  simp [toDraining]

@[simp] theorem deliver_withPorts (b : Bay) (u : PageUse) (s : State) :
    deliver b u (s.withPorts mon eng port) = (deliver b u s).withPorts mon eng port := by
  simp [deliver, writeHeader]

@[simp] theorem deliverAll_withPorts (b : Bay) (us : List PageUse) (s : State) :
    deliverAll b us (s.withPorts mon eng port) = (deliverAll b us s).withPorts mon eng port := by
  induction us generalizing s with
  | nil => rfl
  | cons u rest ih =>
    have hu := ih (deliver b u s)
    rwa [← deliver_withPorts] at hu

@[simp] theorem stopTrace_withPorts (b : Bay) (p : Nat) (taken : Bool) (s : State) :
    stopTrace b p taken (s.withPorts mon eng port) = (stopTrace b p taken s).withPorts mon eng port := by
  by_cases hr : s.str[b.val].state = .running
  · by_cases hm : s.str[b.val].mode = .window <;> simp [stopTrace, hr, hm, apply_ite (State.withPorts mon eng port)]
  · simp [stopTrace, hr]

/-! #### Driven lines -/

@[simp] theorem setLevel_withPorts (b : Bay) (d : OutLine) (level : Bool) (c : DriveCause × Option Slot) (s : State) :
    setLevel b d level c (s.withPorts mon eng port) = (setLevel b d level c s).withPorts mon eng port := rfl

@[simp] theorem goActive_withPorts (b : Bay) (d : OutLine) (p : LineProg) (o : Owner) (s : State) :
    goActive b d p o (s.withPorts mon eng port) = (goActive b d p o s).withPorts mon eng port := by
  cases p <;> simp [goActive, countCompleted]

@[simp] theorem startProgram_withPorts (b : Bay) (d : OutLine) (p : LineProg) (o : Owner) (s : State) :
    startProgram b d p o (s.withPorts mon eng port) = (startProgram b d p o s).withPorts mon eng port := by
  simp [startProgram, apply_ite (State.withPorts mon eng port)]

@[simp] theorem startBuffered_withPorts (b : Bay) (d : OutLine) (s : State) :
    startBuffered b d (s.withPorts mon eng port) = (startBuffered b d s).withPorts mon eng port := by
  cases h : s.drv[b.val].lines[d.val].buffered <;> simp [startBuffered, h]

@[simp] theorem releaseForce_withPorts (b : Bay) (d : OutLine) (c : DriveCause × Option Slot) (s : State) :
    releaseForce b d c (s.withPorts mon eng port) = (releaseForce b d c s).withPorts mon eng port := by
  simp [releaseForce, toRest]

@[simp] theorem arrive_withPorts (b : Bay) (d : OutLine) (p : LineProg) (o : Owner) (s : State) :
    arrive b d p o (s.withPorts mon eng port) = (arrive b d p o s).withPorts mon eng port := by
  cases p <;> cases h : s.drv[b.val].lines[d.val].buffered <;>
    simp [arrive, h, countCompleted, countSuperseded, apply_ite (State.withPorts mon eng port)]

@[simp] theorem endLinesIfDone_withPorts (b : Bay) (s : State) :
    endLinesIfDone b (s.withPorts mon eng port) = (endLinesIfDone b s).withPorts mon eng port := by
  cases h : s.drv[b.val].job <;> simp [endLinesIfDone, h, apply_ite (State.withPorts mon eng port)]

/-! #### Slots -/

@[simp] theorem leaveOwnQueue_withPorts (i : Slot) (s : State) :
    leaveOwnQueue i (s.withPorts mon eng port) = (leaveOwnQueue i s).withPorts mon eng port := by
  cases h : s.slots[i.val].card.lane <;> simp [leaveOwnQueue, leaveQueue, h]

@[simp] theorem requestSlot_withPorts (i : Slot) (base : Tick) (s : State) :
    requestSlot i base (s.withPorts mon eng port) = (requestSlot i base s).withPorts mon eng port := by
  cases h : s.slots[i.val].card.lane <;> simp [requestSlot, h]

@[simp] theorem closeCard_withPorts (i : Slot) (st : Status) (d : BitVec 16) (r : BitVec 64) (t : Tick) (s : State) :
    closeCard i st d r t (s.withPorts mon eng port) = (closeCard i st d r t s).withPorts mon eng port := by
  by_cases h : s.slots[i.val].state = .inService <;> simp [closeCard, writeEnd, writeCardState, writeCardTime, h]

@[simp] theorem releaseSlot_withPorts (i : Slot) (s : State) :
    releaseSlot i (s.withPorts mon eng port) = (releaseSlot i s).withPorts mon eng port := by
  have parked : (s.withPorts mon eng port).parked i = s.parked i := rfl
  simp [releaseSlot, parked, endStopped, offerEnd, writeCardState, apply_ite (State.withPorts mon eng port)]

/-! #### Fires and condition events -/

@[simp] theorem fireRelease_withPorts (p : Program) (s : State) :
    fireRelease p (s.withPorts mon eng port) = (fireRelease p s).withPorts mon eng port := by
  cases h : slotOf p.releaseSlot <;> simp [fireRelease, h, apply_ite (State.withPorts mon eng port)]

@[simp] theorem firePulse_withPorts (p : Program) (b : Bay) (s : State) :
    firePulse p b (s.withPorts mon eng port) = (firePulse p b s).withPorts mon eng port := by
  cases hl : outLineOf p.pulseLine <;> cases hp : p.presets[p.pulsePreset]? <;>
    simp [firePulse, hl, hp, apply_ite (State.withPorts mon eng port)]

@[simp] theorem fire_withPorts (b : Bay) (p : Program) (stage entry : Nat) (s : State) :
    fire b p stage entry (s.withPorts mon eng port) = (fire b p stage entry s).withPorts mon eng port := by
  have hold (x : State) : fireHold p b (x.withPorts mon eng port) = (fireHold p b x).withPorts mon eng port := by
    simp [fireHold, apply_ite (State.withPorts mon eng port)]
  have stop (k : Bool) (x : State) :
      fireStopTrace p b k (x.withPorts mon eng port) = (fireStopTrace p b k x).withPorts mon eng port := by
    simp [fireStopTrace, apply_ite (State.withPorts mon eng port)]
  have notice (x : State) : fireNotice p b (x.withPorts mon eng port) = (fireNotice p b x).withPorts mon eng port := by
    simp [fireNotice, apply_ite (State.withPorts mon eng port)]
  have missed (x : State) : releaseMissed p (x.withPorts mon eng port) = releaseMissed p x := rfl
  have takes (x : State) : (x.withPorts mon eng port).takes b = x.takes b := rfl
  simp [fire, seqFired, hold, stop, notice, missed, takes]

@[simp] theorem takeOutcome_withPorts (b : Bay) (p : Program) (stage i : Nat) (e : Entry) (s : State) :
    takeOutcome b p stage i e (s.withPorts mon eng port) = (takeOutcome b p stage i e s).withPorts mon eng port := by
  cases h : e.outcome <;> simp [takeOutcome, h, apply_ite (State.withPorts mon eng port)]

/-- R101 to R118: a condition event neither reads nor writes the monitors, the engines and the scan ports. -/
@[simp] theorem conditionEvent_withPorts (b : Bay) (ev : Event) (s : State) :
    conditionEvent b ev (s.withPorts mon eng port) = (conditionEvent b ev s).withPorts mon eng port := by
  unfold conditionEvent
  simp only [State.withPorts_seq, State.modSeq_withPorts]
  by_cases ha : s.seq[b.val].state = .armed
  · cases hp : s.seq[b.val].program with
    | none => simp [ha]
    | some p =>
      cases hs : s.seq[b.val].stage with
      | none => simp [ha]
      | some stage =>
        cases hf : firstComplete stage ev p.entries (countEvent stage ev p.entries s.seq[b.val].counters) 0 <;>
          simp [ha, hf]
  · simp [ha]

end

end Sys2Proof.Machine
end

section
/-! PROOF. A qualified fall of POWER_GOOD (R54, R96, R157): the SEND, the engine and the port that it reaches (O14). -/

namespace Sys2Proof.Machine

/-! ### The pool at an edge of POWER_GOOD (R157) -/

theorem upd_congr {α : Type} {n : Nat} (v : Vector α n) (i : Fin n) {f g : α → α} (h : f v[i.val] = g v[i.val]) :
    upd v i f = upd v i g := by
  simp only [upd, h]

theorem upd_same {α : Type} {n : Nat} (v : Vector α n) (i : Fin n) {f : α → α} (h : f v[i.val] = v[i.val]) :
    upd v i f = v := (upd_congr v i h).trans (upd_id v i)

/-- R155: which engine serves a bay is in the attachments. -/
theorem State.engineOf_congr {s t : State} (h : ∀ e : EngineId, t.eng[e.val].attached = s.eng[e.val].attached) (b : Bay) :
    t.engineOf b = s.engineOf b := by
  simp only [State.engineOf, h]

theorem State.engineOf_attached {s : State} {b : Bay} {e : EngineId} (h : s.engineOf b = some e) :
    ∃ i, s.eng[e.val].attached = some (b, i) := by
  have ha := List.find?_some h
  simp only [Option.any_eq_true, decide_eq_true_eq] at ha
  obtain ⟨⟨c, i⟩, hx, rfl⟩ := ha
  exact ⟨i, hx⟩

theorem tapEdge_eq (b : Bay) (rise : Bool) (s : State) :
    tapEdge b rise s = s.withPorts s.mon (tapEdge b rise s).eng (tapEdge b rise s).port := by
  unfold tapEdge
  split <;> rfl

theorem tapEdge_free {b : Bay} {s : State} (rise : Bool) (h : s.engineOf b = none) : (tapEdge b rise s).eng = s.eng
    ∧ (tapEdge b rise s).port = upd s.port b (fun p => { p with knowledge := if rise then .reset else .unknown }) := by
  simp only [tapEdge, h, State.modPort_eng, State.modPort_port, and_self]

theorem tapEdge_served {b : Bay} {e : EngineId} {s : State} (rise : Bool) (h : s.engineOf b = some e) :
    (tapEdge b rise s).eng = upd s.eng e (fun g => { g with disturbed := true })
    ∧ (tapEdge b rise s).port = upd s.port b (fun p => { p with knowledge := .unknown }) := by
  simp only [tapEdge, h, State.modPort_eng, State.modEng_eng, State.modPort_port, State.modEng_port, and_self]

/-- R157: after a fall nothing is known of the TAP. -/
theorem tapEdge_fall_port (b : Bay) (s : State) :
    (tapEdge b false s).port = upd s.port b (fun p => { p with knowledge := .unknown }) := by
  cases h : s.engineOf b with
  | none => exact (tapEdge_free false h).2
  | some e => exact (tapEdge_served false h).2

theorem tapEdge_attached (b : Bay) (rise : Bool) (s : State) (e : EngineId) :
    (tapEdge b rise s).eng[e.val].attached = s.eng[e.val].attached := by
  cases h : s.engineOf b with
  | none => rw [(tapEdge_free rise h).1]
  | some k =>
    rw [(tapEdge_served rise h).1, upd_get]
    split <;> rfl

/-! ### Power loss at an engine (R170, R171) -/

/-- What an engine may do once it has taken a power loss: its work, the CHECKs met and the reports change, and a scan
port of which nothing is known stays so. -/
structure PowerCut (e : EngineId) (s t : State) : Prop where
  frame : t = { s with eng := t.eng, port := t.port, slots := t.slots, checkDraws := t.checkDraws }
  lost : t.eng[e.val].powerLost = s.eng[e.val].powerLost
  disturbed : t.eng[e.val].disturbed = s.eng[e.val].disturbed
  attached : t.eng[e.val].attached = s.eng[e.val].attached
  port : s.eng[e.val].powerLost = true →
    (∀ b i, s.eng[e.val].attached = some (b, i) → s.port[b.val].knowledge = .unknown) → t.port = s.port

namespace PowerCut

theorem refl (e : EngineId) (s : State) : PowerCut e s s := ⟨rfl, rfl, rfl, rfl, fun _ _ => rfl⟩

theorem trans {e : EngineId} {s t u : State} (h : PowerCut e s t) (k : PowerCut e t u) : PowerCut e s u where
  frame := k.frame.trans (by rw [h.frame])
  lost := k.lost.trans h.lost
  disturbed := k.disturbed.trans h.disturbed
  attached := k.attached.trans h.attached
  port hl hk := by
    have ht := h.port hl hk
    exact (k.port (h.lost.trans hl) (fun b i hb => by rw [ht]; exact hk b i (h.attached ▸ hb))).trans ht

theorem modEng (e : EngineId) (f : Engine → Engine) (s : State)
    (hf : ∀ g, (f g).powerLost = g.powerLost ∧ (f g).disturbed = g.disturbed ∧ (f g).attached = g.attached := by
      exact fun _ => ⟨rfl, rfl, rfl⟩) : PowerCut e s (s.modEng e f) := by
  obtain ⟨hl, hd, ha⟩ := hf s.eng[e.val]
  have he : (s.modEng e f).eng[e.val] = f s.eng[e.val] := upd_self s.eng e f
  exact ⟨rfl, by rw [he, hl], by rw [he, hd], by rw [he, ha], fun _ _ => rfl⟩

theorem checkDraws (e : EngineId) (n : Nat) (s : State) : PowerCut e s { s with checkDraws := n } :=
  ⟨rfl, rfl, rfl, rfl, fun _ _ => rfl⟩

/-- R157: a scan port of which nothing is known may be set to what is known under a power loss. -/
theorem modPort (e : EngineId) (b : Bay) (f : ScanPort → ScanPort) (s : State) (hf : s.eng[e.val].powerLost = true →
    (∀ b i, s.eng[e.val].attached = some (b, i) → s.port[b.val].knowledge = .unknown) → f s.port[b.val] = s.port[b.val]) :
    PowerCut e s (s.modPort b f) :=
  ⟨rfl, rfl, rfl, rfl, fun hl hk => upd_same s.port b (hf hl hk)⟩

theorem report (e : EngineId) (i : Slot) (st : Status) (d : BitVec 16) (r : BitVec 64) (s : State) :
    PowerCut e s (Machine.report i st d r s) := ⟨rfl, rfl, rfl, rfl, fun _ _ => rfl⟩

/-- R157, R173: the end of a job under a power loss leaves the TAP unknown. -/
theorem endJob (e : EngineId) (st : Status) (d : BitVec 16) (s : State) : PowerCut e s (Machine.endJob e st d s) := by
  unfold Machine.endJob
  simp only
  split
  · exact refl e s
  · next b i hb =>
    have hwork := modEng e (fun g => { g with work := .reported, idleStop := none, cutStop := none }) s
    refine (hwork.trans (modPort e b _ _ (fun hl hk => ?_))).trans (report e i _ d _ _)
    have hlost := hwork.lost.symm.trans hl
    have hu := hk b i (hwork.attached.trans hb)
    simp only [Engine.knowledgeAfter, hlost, Bool.or_true, if_true, ← hu]

theorem cutNow (e : EngineId) (s : State) : PowerCut e s (Machine.cutNow e s) := (modEng e _ s).trans (endJob e _ _ _)

theorem meetCheck (e : EngineId) (s : State) : PowerCut e s (Machine.meetCheck e s) := by
  have h1 : PowerCut e s { s with checkDraws := s.checkDraws + 1 } := checkDraws e _ s
  unfold Machine.meetCheck
  simp only
  split
  · split
    · refine (h1.trans ?_).trans (modEng e _ _)
      unfold recordCheck
      split
      · exact modEng e _ _
      · exact refl e _
    · exact h1
  · exact h1

theorem cutClocks (e : EngineId) (t : Tick) (s : State) : PowerCut e s (Machine.cutClocks e t s) := by
  unfold Machine.cutClocks
  simp only
  split
  · exact (modEng e _ s).trans (modEng e _ _)
  · exact (modEng e _ s).trans (cutNow e _)

theorem finishClocks (e : EngineId) (s : State) : PowerCut e s (Machine.finishClocks e s) := by
  unfold Machine.finishClocks
  split
  · exact (modEng e _ s).trans (cutNow e _)
  · exact modEng e _ s

end PowerCut

/-- R170: an engine with the job in work takes the power loss; every other report is without effect. -/
theorem scanPowerLoss_cases (e : EngineId) (i : Slot) (s : State) :
    scanPowerLoss e i s = s ∧ (s.eng[e.val].state ≠ .idle → s.eng[e.val].attached.any (fun x => x.2 = i) = true →
        s.eng[e.val].work ≠ .reported → s.eng[e.val].work ≠ .none → s.eng[e.val].powerLost = true)
    ∨ PowerCut e (s.modEng e (fun g => { g with powerLost := true })) (scanPowerLoss e i s) := by
  unfold scanPowerLoss
  simp only
  split
  · split
    · next hw => exact .inl ⟨rfl, fun _ _ h _ => absurd hw h⟩
    · next hw => exact .inl ⟨rfl, fun _ _ _ h => absurd hw h⟩
    · exact .inr (.cutNow e _)
    · exact .inr (.cutNow e _)
    · exact .inr ((PowerCut.meetCheck e _).trans (.cutNow e _))
    · exact .inr ((PowerCut.modEng e _ _).trans (.cutNow e _))
    · split
      · exact .inr ((PowerCut.modEng e _ _).trans (.cutNow e _))
      · exact .inr (.cutNow e _)
    · exact .inr (.modEng e _ _)
    · split
      · exact .inr (.cutNow e _)
      · exact .inr (.cutClocks e _ _)
    · split
      · exact .inr (.finishClocks e _)
      · exact .inr (.cutClocks e _ _)
  · next h =>
    refine .inl ⟨rfl, fun hs ha _ _ => ?_⟩
    simpa [hs, ha] using h

/-! ### The power-loss report (R54, R96) -/

/-- R54: the owner of the bay's ACCESS job is at its Console Port or at an engine, and what is not known of the bay's TAP
stays unknown. -/
theorem powerLossReport_frame (b : Bay) (s : State) : powerLossReport b s = { s with
    con := (powerLossReport b s).con
    slots := (powerLossReport b s).slots
    eng := (powerLossReport b s).eng
    port := (powerLossReport b s).port
    checkDraws := (powerLossReport b s).checkDraws }
    ∧ (s.port[b.val].knowledge = .unknown → (powerLossReport b s).port = s.port) := by
  unfold powerLossReport
  split
  · exact ⟨rfl, fun _ => rfl⟩
  · next i _ =>
    split
    · split
      · next e he =>
        obtain ⟨k, hk⟩ := State.engineOf_attached he
        rcases scanPowerLoss_cases e i s with h | h
        · rw [h.1]
          exact ⟨rfl, fun _ => rfl⟩
        · have heng : (s.modEng e (fun g => { g with powerLost := true })).eng[e.val]
            = { s.eng[e.val] with powerLost := true } := upd_self s.eng e _
          refine ⟨by rw [h.frame]; rfl, fun hu => (h.port (by rw [heng]) (fun c j hc => ?_)).trans rfl⟩
          rw [heng] at hc
          cases hk.symm.trans hc
          exact hu
      · exact ⟨rfl, fun _ => rfl⟩
    · unfold sendPowerLoss
      split
      · split
        · split <;> exact ⟨rfl, fun _ => rfl⟩
        · exact ⟨rfl, fun _ => rfl⟩
      · exact ⟨rfl, fun _ => rfl⟩
    · exact ⟨rfl, fun _ => rfl⟩

/-- R96: a SEND in service ends POWER_LOST, or with the status of the abort it is finishing under. -/
theorem powerLossReport_send {b : Bay} {i : Slot} {j : TxJob} {st : Status} {s : State}
    (hi : (s.lane b .access).service = some i) (hk : s.slots[i.val].card.jobKind = some .send)
    (hj : s.con[b.val].job = some j) (hs : j.slot = i)
    (ht : s.con[b.val].tx = .sending ∧ st = .powerLost ∨ s.con[b.val].tx = .finishing st) :
    powerLossReport b s = endSend b j st s := by
  have hi' : s.lanes[b.val][0].service = some i := hi
  obtain ⟨ht, rfl⟩ | ht := ht <;> simp only [powerLossReport, sendPowerLoss, hi', hk, hj, hs, ht, if_true]

theorem endSend_ends (b : Bay) (j : TxJob) (st : Status) (s : State) : (endSend b j st s).con[b.val].tx = .idle
    ∧ (endSend b j st s).con[b.val].job = none
    ∧ (endSend b j st s).slots[j.slot.val].report = some ⟨st, 0#16, BitVec.ofNat 64 j.sent, s.time.count⟩ := by
  simp [endSend]

/-- R170: the engine that serves the bay takes the power loss. -/
theorem powerLossReport_scan {b : Bay} {i : Slot} {e : EngineId} {s : State}
    (hi : (s.lane b .access).service = some i) (hk : s.slots[i.val].card.jobKind = some .scan)
    (he : s.engineOf b = some e) (ha : s.eng[e.val].attached = some (b, i)) (hs : s.eng[e.val].state ≠ .idle)
    (hr : s.eng[e.val].work ≠ .reported) (hn : s.eng[e.val].work ≠ .none) :
    (powerLossReport b s).eng[e.val].powerLost = true
      ∧ (powerLossReport b s).eng[e.val].disturbed = s.eng[e.val].disturbed := by
  have hi' : s.lanes[b.val][0].service = some i := hi
  have heq : powerLossReport b s = scanPowerLoss e i s := by simp only [powerLossReport, hi', hk, he]
  rw [heq]
  rcases scanPowerLoss_cases e i s with ⟨h, hl⟩ | h
  · rw [h]
    exact ⟨hl hs (by simp [ha]) hr hn, rfl⟩
  · have heng : (s.modEng e (fun g => { g with powerLost := true })).eng[e.val]
      = { s.eng[e.val] with powerLost := true } := upd_self s.eng e _
    exact ⟨h.lost.trans (by rw [heng]), h.disturbed.trans (by rw [heng])⟩

/-! ### A fall of POWER_GOOD (R54) -/

/-- R54 steps 1 and 2, R157: the state in which the power loss is reported. -/
def settleEnded (b : Bay) (s : State) : State :=
  tapEdge b false (s.modMon b (fun m => { m with settleBase := none, milestone := 0 }))

theorem powerFall_eq (b : Bay) (s : State) : powerFall b s = raiseBay b .fault (powerLossReport b (settleEnded b s)) := rfl

/-- R54, R157: the end of settling touches the monitor, the engine's disturbed flag and the bay's knowledge alone. -/
theorem settleEnded_eq (b : Bay) (s : State) :
    settleEnded b s = s.withPorts (settleEnded b s).mon (settleEnded b s).eng (settleEnded b s).port := by
  rw [settleEnded, tapEdge_eq]
  rfl

theorem settleEnded_lanes (b : Bay) (s : State) : (settleEnded b s).lanes = s.lanes := by
  rw [settleEnded_eq]
  rfl

theorem settleEnded_slots (b : Bay) (s : State) : (settleEnded b s).slots = s.slots := by
  rw [settleEnded_eq]
  rfl

theorem settleEnded_con (b : Bay) (s : State) : (settleEnded b s).con = s.con := by
  rw [settleEnded_eq]
  rfl

theorem settleEnded_time (b : Bay) (s : State) : (settleEnded b s).time = s.time := by
  rw [settleEnded_eq]
  rfl

theorem settleEnded_port (b : Bay) (s : State) :
    (settleEnded b s).port = upd s.port b (fun p => { p with knowledge := .unknown }) := tapEdge_fall_port b _

theorem settleEnded_engineOf (b : Bay) (s : State) : (settleEnded b s).engineOf b = s.engineOf b :=
  State.engineOf_congr (tapEdge_attached b false _) b

theorem settleEnded_eng {b : Bay} {e : EngineId} {s : State} (h : s.engineOf b = some e) :
    (settleEnded b s).eng[e.val] = { s.eng[e.val] with disturbed := true } := by
  have h' : (s.modMon b (fun m => { m with settleBase := none, milestone := 0 })).engineOf b = some e := h
  rw [settleEnded, (tapEdge_served false h').1, upd_self]
  rfl

/-- What a fall of POWER_GOOD leaves besides the work it ends. -/
theorem powerFall_frame (b : Bay) (s : State) : powerFall b s = { s with
    mon := (powerFall b s).mon
    con := (powerFall b s).con
    slots := (powerFall b s).slots
    eng := (powerFall b s).eng
    port := upd s.port b (fun p => { p with knowledge := .unknown })
    checkDraws := (powerFall b s).checkDraws
    notices := s.notices.raise (bayGroup b) 3 } := by
  obtain ⟨hf, hp⟩ := powerLossReport_frame b (settleEnded b s)
  have hu : (settleEnded b s).port[b.val].knowledge = .unknown := by rw [settleEnded_port, upd_self]
  have hport := (hp hu).trans (settleEnded_port b s)
  rw [powerFall_eq, ← hport, hf, settleEnded_eq]
  rfl

/-- R50, R51: the raw change and the qualified edge touch the monitor alone. -/
theorem qualifies_frame {s : State} {b : Bay} {l : InLine} {c : Instr} {x : State} {since : Tick} {level : Bool}
    (h : Qualifies s b l c x since level) : x = { s with mon := x.mon } := by
  obtain ⟨-, rfl, -⟩ | ⟨-, rfl, -⟩ := h <;> rfl

/-- What R54 does to a SEND in service. -/
theorem powerFall_send {b : Bay} {i : Slot} {j : TxJob} {st : Status} {s : State}
    (hi : (s.lane b .access).service = some i) (hk : s.slots[i.val].card.jobKind = some .send)
    (hj : s.con[b.val].job = some j) (hs : j.slot = i)
    (ht : s.con[b.val].tx = .sending ∧ st = .powerLost ∨ s.con[b.val].tx = .finishing st) :
    (powerFall b s).con[b.val].tx = .idle ∧ (powerFall b s).con[b.val].job = none
      ∧ (powerFall b s).slots[i.val].report = some ⟨st, 0#16, BitVec.ofNat 64 j.sent, s.time.count⟩ := by
  have hsend : powerLossReport b (settleEnded b s) = endSend b j st (settleEnded b s) :=
    powerLossReport_send (by rw [State.lane, settleEnded_lanes]; exact hi) (by rw [settleEnded_slots]; exact hk)
      (by rw [settleEnded_con]; exact hj) hs (by rw [settleEnded_con]; exact ht)
  subst hs
  rw [powerFall_eq, hsend, ← settleEnded_time b s]
  exact endSend_ends b j st (settleEnded b s)

/-- What R54 and R157 do to the engine of a SCAN in service. -/
theorem powerFall_scan {b : Bay} {i : Slot} {e : EngineId} {s : State}
    (hi : (s.lane b .access).service = some i) (hk : s.slots[i.val].card.jobKind = some .scan)
    (he : s.engineOf b = some e) (ha : s.eng[e.val].attached = some (b, i)) (hs : s.eng[e.val].state ≠ .idle)
    (hr : s.eng[e.val].work ≠ .reported) (hn : s.eng[e.val].work ≠ .none) :
    (powerFall b s).eng[e.val].powerLost = true ∧ (powerFall b s).eng[e.val].disturbed = true := by
  have heng := settleEnded_eng he
  obtain ⟨hlost, hdisturbed⟩ := powerLossReport_scan (s := settleEnded b s) (b := b) (i := i) (e := e)
    (by rw [State.lane, settleEnded_lanes]; exact hi) (by rw [settleEnded_slots]; exact hk) (by rw [settleEnded_engineOf, he])
    (by rw [heng]; exact ha) (by rw [heng]; exact hs) (by rw [heng]; exact hr) (by rw [heng]; exact hn)
  exact ⟨hlost, hdisturbed.trans (by rw [heng])⟩

/-- The changes of R51 and R54 of the monitor at a fall of POWER_GOOD, and what else its effects may touch. -/
theorem powerGoodFall_wide (b : Bay) (since : Tick) (x : State) :
    Wide (x.modMon b (fun m =>
      { lines := upd m.lines 0 (fun v => { v with raw := false, qual := false, edge := none })
        settleBase := none
        milestone := 0 }))
      (powerFall b (conditionEvent b (.line 0 false) (edgeTaken b 0 since false x))) := by
  have hev := (Effects.offer b (.line 0 false) since (x.modInLine b 0
    (fun v => { v with raw := false, qual := false, edge := none }))).trans (Effects.conditionEvent b (.line 0 false) _)
  have h := hev.toWide.modMon_trans (powerFall_wide b _)
  rwa [State.modInLine, State.modMon_modMon] at h

/-- Settles O14: the steps of R54 on the state that the LINE event leaves. -/
theorem powerGoodFallEndsThePoweredPeriod : Obligations.PowerGoodFallEndsThePoweredPeriod := by
  intro s b c x since ha hq
  have hx := (qualifies_bayInputs hq).trans (edgeTaken_bayInputs b 0 since false x)
  have hev := Effects.conditionEvent b (.line 0 false) (edgeTaken b 0 since false x)
  have hjobs := JobsKept.conditionEvent b (.line 0 false) (edgeTaken b 0 since false x)
  obtain ⟨t, ht, rfl, hafter⟩ := afterJobs (s := s) (powerGoodFall_wide b since x) (qualifies_bayInputs hq).notices
  refine ⟨_, _, (qualifies_exec hq ha).trans ht, rfl, hafter, ?_⟩
  generalize conditionEvent b (.line 0 false) (edgeTaken b 0 since false x) = y at hev hjobs
  have htime : y.time = s.time := hev.time.trans hx.time
  have hport : y.port = s.port := hev.port.trans hx.port
  have heng : y.eng = s.eng := hev.eng.trans hx.eng
  have hservice : (y.lane b .access).service = (s.lane b .access).service :=
    (hjobs.service b .access).trans (by rw [State.lane, hx.lanes]; rfl)
  have hcard (i : Slot) : y.slots[i.val].card = s.slots[i.val].card := (hjobs.card i).trans (by rw [hx.slots])
  have hcon : y.con[b.val].tx = s.con[b.val].tx ∧ y.con[b.val].job = s.con[b.val].job := by
    have h := hjobs.con b
    rwa [hx.con] at h
  have hcode : y.code = s.code := hev.code.trans (by rw [edgeTaken, qualifies_frame hq]; rfl)
  have hf := powerFall_frame b y
  simp only [publish_code, publish_seq, publish_str, publish_drv, publish_disp, publish_lanes, publish_pool, publish_port,
    publish_notices, publish_con, publish_slots, publish_eng, signalLine_code, signalLine_seq, signalLine_str,
    signalLine_drv, signalLine_disp, signalLine_lanes, signalLine_pool, signalLine_port, signalLine_notices,
    signalLine_con, signalLine_slots, signalLine_eng]
  refine ⟨by rw [hf, ← hcode], by rw [hf], by rw [hf], by rw [hf], by rw [hf], by rw [hf], by rw [hf],
    by rw [hf, hport], by rw [hf], fun i j st hi hk hj hs ht => ?_,
    fun i e hi hk he ha hs hr hn => ?_⟩
  · rw [← htime]
    exact powerFall_send (hservice.trans hi) (by rw [hcard]; exact hk) (hcon.2.trans hj) hs (by rw [hcon.1]; exact ht)
  · exact powerFall_scan (hservice.trans hi) (by rw [hcard]; exact hk)
      ((State.engineOf_congr (fun e => by rw [heng]) b).trans he) (by rw [heng]; exact ha) (by rw [heng]; exact hs)
      (by rw [heng]; exact hr) (by rw [heng]; exact hn)

end Sys2Proof.Machine
end

section
/-! PROOF. Settling (R55 to R57): a rise of POWER_GOOD and the later milestones (O15). -/

namespace Sys2Proof.Machine

/-! ### The milestones reached (R55) -/

theorem settleInstant_eq (k : Nat) : settleInstant k = settleTable k := by
  match k with
  | 0 | 1 | 2 | 3 | 4 | 5 | 6 | 7 | 8 => rfl
  | _ + 9 => rfl

theorem settleTable_mono {j k : Nat} (h : j ≤ k) (hk : k ≤ 8) : settleTable j ≤ settleTable k := by
  have key : ∀ k ≤ 8, ∀ j ≤ k, settleTable j ≤ settleTable k := by decide
  exact key k hk j h

/-- R55: the last milestone whose instant has come. -/
def lastReached (age : Nat) : Nat := Nat.findGreatest (fun k => settleTable k ≤ age) 8

theorem lastReached_le (age : Nat) : lastReached age ≤ 8 := Nat.findGreatest_le 8

theorem le_lastReached (age k : Nat) : k ≤ lastReached age ↔ k ≤ 8 ∧ settleTable k ≤ age := by
  refine ⟨fun h => ?_, fun h => Nat.le_findGreatest h.1 h.2⟩
  have hs : settleTable (lastReached age) ≤ age :=
    Nat.findGreatest_spec (P := fun k => settleTable k ≤ age) (Nat.zero_le 8) (Nat.zero_le age)
  exact ⟨h.trans (lastReached_le age), (settleTable_mono h (lastReached_le age)).trans hs⟩

/-- R55: the milestones reached are those from 1 to the last. -/
theorem reachedMilestones_eq (age : Nat) : reachedMilestones age = (List.range (lastReached age)).map (· + 1) := by
  have hfilter : reachedMilestones age = [1, 2, 3, 4, 5, 6, 7, 8].filter (fun k => k ≤ lastReached age) := by
    refine List.filter_congr (fun k hk => decide_eq_decide.2 ?_)
    have h8 : k ≤ 8 := by
      simp only [List.mem_cons, List.not_mem_nil, or_false] at hk
      omega
    rw [le_lastReached, and_iff_right h8]
  have hle := lastReached_le age
  rw [hfilter]
  generalize lastReached age = m at hle
  interval_cases m <;> rfl

theorem reachedMilestones_last (age : Nat) : (reachedMilestones age).getLastD 0 = lastReached age := by
  rw [reachedMilestones_eq]
  cases lastReached age with
  | zero => rfl
  | succ m => simp [List.range_succ]

/-! ### Milestones raised (R56) -/

/-- R56: a raise but for the milestone itself: its record and its event. -/
def settleTaken (b : Bay) (base : Tick) (k : Nat) (s : State) : State :=
  conditionEvent b (.settle k) (offer b (.settle k) (base + BitVec.ofNat 48 (settleTable k)) s)

theorem raiseSettle_withPorts (mon : Vector Monitor 8) (eng : Vector Engine 2) (port : Vector ScanPort 8) (b : Bay)
    (base : Tick) (k : Nat) (s : State) : raiseSettle b base k (s.withPorts mon eng port)
      = (settleTaken b base k s).withPorts (upd mon b (fun v => { v with milestone := k })) eng port := by
  have hmon : (s.withPorts mon eng port).modMon b (fun v => { v with milestone := k })
      = s.withPorts (upd mon b (fun v => { v with milestone := k })) eng port := rfl
  simp only [raiseSettle, hmon, offer_withPorts, conditionEvent_withPorts, settleTaken]

theorem raiseSettles_withPorts (eng : Vector Engine 2) (port : Vector ScanPort 8) (b : Bay) (base : Tick)
    (ks : List Nat) (mon : Vector Monitor 8) (s : State) : ∃ mon', forEach ks (raiseSettle b base) (s.withPorts mon eng port)
      = (ks.foldl (fun y k => settleTaken b base k y) s).withPorts mon' eng port := by
  induction ks generalizing mon s with
  | nil => exact ⟨mon, rfl⟩
  | cons k rest ih =>
    obtain ⟨mon', h⟩ := ih (upd mon b (fun v => { v with milestone := k })) (settleTaken b base k s)
    rw [← raiseSettle_withPorts] at h
    exact ⟨mon', h⟩

theorem settleRaised_eq (b : Bay) (base : Tick) (m : Nat) (s : State) :
    settleRaised b base m s = ((List.range m).map (· + 1)).foldl (fun y k => settleTaken b base k y) s := by
  simp only [settleRaised, settleInstant_eq, List.foldl_map, settleTaken]

/-! ### A rise of POWER_GOOD (R55) -/

/-- R55, R157: a rise of POWER_GOOD raises the milestones reached, and changes the engine's disturbed flag and the bay's
knowledge. -/
theorem powerRise_eq (b : Bay) (base : Tick) (s : State) : ∃ mon, powerRise b base s
    = (settleRaised b base (lastReached (elapsed base s.time.count)) s).withPorts mon
      (tapEdge b true (s.modMon b (fun m => { m with settleBase := some base, milestone := 0 }))).eng
      (tapEdge b true (s.modMon b (fun m => { m with settleBase := some base, milestone := 0 }))).port := by
  rw [settleRaised_eq, ← reachedMilestones_eq, powerRise, tapEdge_eq]
  exact raiseSettles_withPorts _ _ b base _ _ s

/-- The changes of R51 and R55 of the monitor at a rise of POWER_GOOD, and what else its effects may touch. -/
theorem powerGoodRise_wide (b : Bay) (since : Tick) (x : State) :
    Wide (x.modMon b (fun m =>
      { lines := upd m.lines 0 (fun v => { v with raw := true, qual := true, edge := none })
        settleBase := some since
        milestone := lastReached (elapsed since x.time.count) }))
      (powerRise b since (conditionEvent b (.line 0 true) (edgeTaken b 0 since true x))) := by
  have hev := (Effects.offer b (.line 0 true) since (x.modInLine b 0
    (fun v => { v with raw := true, qual := true, edge := none }))).trans (Effects.conditionEvent b (.line 0 true) _)
  have h := hev.toWide.modMon_trans (powerRise_wide b since _)
  rw [reachedMilestones_last, State.now, hev.time, State.modInLine_time, State.modInLine, State.modMon_modMon] at h
  exact h

theorem powerGoodRiseStartsSettling : PowerGoodRiseStartsSettling := by
  intro s b c x since ha hq
  have hx := (qualifies_bayInputs hq).trans (edgeTaken_bayInputs b 0 since true x)
  have hev := Effects.conditionEvent b (.line 0 true) (edgeTaken b 0 since true x)
  have hwide := powerGoodRise_wide b since x
  rw [(qualifies_bayInputs hq).time] at hwide
  obtain ⟨t, ht, rfl, hafter⟩ := afterJobs (s := s) hwide (qualifies_bayInputs hq).notices
  have hmem : ∀ a, ¬ deviceArea a → (powerRise b since (conditionEvent b (.line 0 true)
      (edgeTaken b 0 since true x))).mem.read a = s.mem.read a := fun a h => by
    rw [hwide.area a h, State.modMon_mem, (qualifies_bayInputs hq).mem]
  refine ⟨_, _, _, (qualifies_exec hq ha).trans ht, rfl, hafter, fun n => ?_, ?_⟩
  · rw [le_lastReached, settleInstant_eq]
    refine ⟨.inr, ?_⟩
    rintro (rfl | h)
    · exact ⟨Nat.zero_le 8, Nat.zero_le _⟩
    · exact h
  generalize conditionEvent b (.line 0 true) (edgeTaken b 0 since true x) = y at hev hmem
  have heng : y.eng = s.eng := hev.eng.trans hx.eng
  have hport : y.port = s.port := hev.port.trans hx.port
  obtain ⟨mon, hr⟩ := powerRise_eq b since y
  rw [hev.time.trans hx.time] at hr
  have hengine : (y.modMon b (fun m => { m with settleBase := some since, milestone := 0 })).engineOf b = s.engineOf b :=
    State.engineOf_congr (fun e => by rw [State.modMon_eng, heng]) b
  simp only [publish_mon, publish_eng, publish_port, signalLine_mon, signalLine_eng, signalLine_port]
  refine ⟨?_, fun he => ?_, fun e he => ?_⟩
  · have h := leaves_blockArea hmem
    rw [hr] at h ⊢
    exact h
  · obtain ⟨h1, h2⟩ := tapEdge_free true (hengine.trans he)
    rw [hr]
    exact ⟨h1.trans heng, h2.trans (by rw [State.modMon_port, hport]; rfl)⟩
  · obtain ⟨h1, h2⟩ := tapEdge_served true (hengine.trans he)
    rw [hr]
    exact ⟨h1.trans (by rw [State.modMon_eng, heng]), h2.trans (by rw [State.modMon_port, hport])⟩

/-- R55, R56: the next milestone at its instant. -/
theorem settleMilestoneRisesAtItsInstant : SettleMilestoneRisesAtItsInstant := by
  intro s b base ha hb hm he
  have hexec : exec (.settleMilestoneRaise b) s = commit s (raiseSettle b base (s.mon[b.val].milestone + 1) s) := by
    change execSettleMilestoneRaise b s = _
    have hp : s.passed base (settleTable (s.mon[b.val].milestone + 1)) = true :=
      decide_eq_true (he.trans (settleInstant_eq _))
    have h8 : s.mon[b.val].milestone + 1 ≤ 8 := hm
    simp only [execSettleMilestoneRaise, hb, ha, hp, h8, decide_true, Bool.and_self, if_true]
  have hmon : s.modMon b (fun m => { m with milestone := s.mon[b.val].milestone + 1 })
      = s.modMon b (fun m => { m with milestone := m.milestone + 1 }) :=
    congrArg (fun v => { s with mon := v }) (upd_congr s.mon b rfl)
  rw [hexec, raiseSettle, hmon, ← settleInstant_eq]
  exact ((BayInputs.modMon b _ s).trans (BayInputs.offer b _ _ _)).takesEvent _

/-- Settles O15: the rise, and the milestones after it. -/
theorem settleMilestonesRise : Obligations.SettleMilestonesRise :=
  ⟨powerGoodRiseStartsSettling, settleMilestoneRisesAtItsInstant⟩

end Sys2Proof.Machine
end

section
/-! PROOF. The return to IDLE (R197): its conditions, the state it leaves and the bytes it writes (O50). -/

namespace Sys2Proof.Machine

/-! ### The conditions (R197) -/

theorem countSlots_eq_zero {s : State} {st : SlotState} (h : ∀ i : Slot, s.slots[i.val].state ≠ st) :
    s.countSlots st = 0 := by
  refine List.countP_eq_zero.2 (fun r hr => ?_)
  obtain ⟨i, hi, rfl⟩ := Vector.mem_iff_getElem.1 (Vector.mem_toList_iff.1 hr)
  simpa using h ⟨i, hi⟩

/-- R197: no engine works, no slot waits or is served, and no stream of an enabled bay is open. -/
theorem settled_of_quiet {s : State} (hd : s.ctl.device = .stopping) (he : ∀ e : EngineId, s.eng[e.val].state = .idle)
    (hs : ∀ i : Slot, s.slots[i.val].state = .free ∨ s.slots[i.val].state = .done)
    (hb : ∀ b : Bay, s.enabled b = true → s.str[b.val].state = .stopped) : s.settled = true := by
  have h0 : s.eng[0].state = .idle := he 0
  have h1 : s.eng[1].state = .idle := he 1
  have hcount {st : SlotState} (hf : st ≠ .free) (hn : st ≠ .done) : s.countSlots st = 0 :=
    countSlots_eq_zero (fun i h => (hs i).elim (fun k => hf (h.symm.trans k)) (fun k => hn (h.symm.trans k)))
  have hall : s.enabledBays.all (fun b => s.str[b.val].state = .stopped) = true :=
    List.all_eq_true.2 (fun b hm => decide_eq_true (hb b (List.mem_filter.1 hm).2))
  simp only [State.settled, hd, h0, h1, hcount (st := .parked) nofun nofun, hcount (st := .requested) nofun nofun,
    hcount (st := .inService) nofun nofun, hall, decide_true, Bool.and_self]

/-! ### Where the return writes (R180, R199) -/

theorem qualByte_stopped (m : Monitor) : qualByte { m with lines := m.lines.map MonLine.stopped } = qualByte m :=
  qualByte_congr (fun l => by simp [MonLine.stopped])

/-- A field of a changed list stands there, and its change is one of the pairs of fields. -/
theorem mem_diffFields {old new : List Field} {f : Field} {p : Field → Prop} (hf : f ∈ diffFields old new)
    (h : ∀ q ∈ new.zip old, q.1 = q.2 ∨ p q.1) : p f := by
  simp only [diffFields, List.mem_filterMap] at hf
  obtain ⟨q, hq, he⟩ := hf
  split at he
  · cases he
  · next hne =>
    cases he
    exact (h q hq).resolve_left hne

/-- The status entry of a bay after the return to IDLE: of what it shows, only the driven lines have changed. -/
theorem bayFields_idleBlocks (s : State) (b : Bay) :
    bayFields (idleBlocks s) b = bayFields { s with drv := (idleBlocks s).drv } b := by
  have hm : qualByte (idleBlocks s).mon[b.val] = qualByte s.mon[b.val]
      ∧ (idleBlocks s).mon[b.val].milestone = s.mon[b.val].milestone
      ∧ (idleBlocks s).mon[b.val].settleBase = s.mon[b.val].settleBase := by
    simpa [idleBlocks] using qualByte_stopped s.mon[b.val]
  have hc : (idleBlocks s).code[b.val] = { s.code[b.val] with state := .idle, bits := 0 } := by simp [idleBlocks]
  have hn : (idleBlocks s).con[b.val] = { s.con[b.val] with rx := .idle } := by simp [idleBlocks]
  obtain ⟨hqual, hmile, hbase⟩ := hm
  simp only [bayFields, validByte, hqual, hmile, hbase, hc, hn]
  rfl

/-- R180: fields that differ with the drivers alone are those of the driven lines. -/
theorem bayFields_drv (s : State) (v : Vector Driver 8) (b : Bay) {a : Nat}
    (ha : ∀ d : OutLine, a ≠ 0x001888 + 256 * b.val + d.val) :
    ∀ q ∈ (bayFields { s with drv := v } b).zip (bayFields s b),
      q.1 = q.2 ∨ a < q.1.1 ∨ q.1.1 + q.1.2.length ≤ a := by
  have h0 : a ≠ 0x001888 + 256 * b.val := ha 0
  have h1 : a ≠ 0x001888 + 256 * b.val + 1 := ha 1
  have h2 : a ≠ 0x001888 + 256 * b.val + 2 := ha 2
  have h3 : a ≠ 0x001888 + 256 * b.val + 3 := ha 3
  simp only [bayFields, validByte, railFields, List.cons_append, List.nil_append, List.zip_cons_cons,
    List.forall_mem_cons, List.zip_nil_left, List.not_mem_nil, false_imp_iff, implies_true, true_or, true_and, and_true,
    fld, leBytes_length, bayAddr]
  omega

/-- R180, R199: a byte that is no driven line's is in no changed field of a status entry. -/
theorem bayFields_returned (s : State) (b : Bay) {a : Nat} (ha : ∀ d : OutLine, a ≠ 0x001888 + 256 * b.val + d.val) :
    ∀ f ∈ diffFields (bayFields s b) (bayFields (idleBlocks s) b), a < f.1 ∨ f.1 + f.2.length ≤ a := fun f hf =>
  mem_diffFields (p := fun f => a < f.1 ∨ f.1 + f.2.length ≤ a) hf
    (by rw [bayFields_idleBlocks]; exact bayFields_drv s _ b ha)

/-- R199: a byte that is not the device state is in no changed field of the mirror. -/
theorem mirrorSame_idleBlocks (s : State) {a : Nat} (ha : a ≠ 0x001000) : MirrorSame s (idleBlocks s) a := by
  have hd : a < 0x001000 ∨ 0x001000 + 1 ≤ a := by omega
  simpa [MirrorSame, mirrorFields, refusalFields, syncFields, freeField, engineFields, pendingField, State.countSlots,
    mirrorAddr, idleBlocks, fld, leBytes_length] using .inr hd

/-- R180, R199: the return to IDLE writes the device state and the driven lines' bytes. -/
theorem publish_idleBlocks (s : State) :
    Unchanged (fun a => a = 0x001000 ∨ ∃ (b : Bay) (d : OutLine), a = 0x001888 + 256 * b.val + d.val) s
      (publish s (idleBlocks s)) := by
  intro a ha
  obtain ⟨hd, hl⟩ := not_or.1 ha
  refine publish_read_same s (idleBlocks s) a (fun f hf => ?_)
  simp only [changedFields, List.mem_append, List.mem_flatMap] at hf
  obtain (hm | ⟨b, -, hb⟩) | ⟨b, -, hs⟩ := hf
  · exact (mirrorSame_idleBlocks s hd).outside f hm
  · exact bayFields_returned s b (fun d h => hl ⟨b, d, h⟩) f hb
  · have hsame : streamFields (idleBlocks s) b = streamFields s b := rfl
    rw [hsame, diffFields_self] at hs
    cases hs

/-! ### The return (R197) -/

theorem returnToIdle_eq {s : State} (h : s.settled = true) :
    exec .returnToIdle s = .next (publish s (idleBlocks s)) := by
  change execReturnToIdle s = _
  rw [execReturnToIdle, if_pos h, commit_eq]
  simp only [signalLine, idleBlocks, Link.signal_same]

/-- Settles O50, through the fields that the return changes: the device state and the driven lines. -/
theorem stoppingReturnsToIdle : Obligations.StoppingReturnsToIdle := by
  intro s hd he hs hb
  refine ⟨publish s (idleBlocks s), returnToIdle_eq (settled_of_quiet hd he hs hb), rfl, fun b => ?_,
    publish_idleBlocks s⟩
  have hoff : (publish s (idleBlocks s)).active b = false := rfl
  simp [State.scanPins, State.conTx, hoff]

end Sys2Proof.Machine
end

section
/-! PROOF. The Rail Scanner (R71 to R78): the end of a conversion, and the next in scan order (O20). -/

namespace Sys2Proof.Machine

/-! ### Scan order (R71) -/

theorem mem_enabledBays {s : State} {b : Bay} : b ∈ s.enabledBays ↔ s.enabled b = true := by
  simp only [State.enabledBays, List.mem_filter, mem_allBays, true_and]

theorem enabledBays_ascending (s : State) : s.enabledBays.Pairwise (· < ·) :=
  (show allBays.Pairwise (· < ·) by decide).filter s.enabled

/-- The first entry of an ascending list that meets a condition is the least. -/
theorem le_of_find?_eq_some {xs : List Bay} (h : xs.Pairwise (· < ·)) {p : Bay → Bool} {c x : Bay}
    (hc : xs.find? p = some c) (hx : x ∈ xs) (hp : p x = true) : c ≤ x := by
  obtain ⟨-, before, after, rfl, hb⟩ := List.find?_eq_some_iff_append.1 hc
  rcases List.mem_append.1 hx with hx | hx
  · have := hb x hx
    rw [hp] at this
    cases this
  · rcases List.mem_cons.1 hx with rfl | hx
    · exact le_refl x
    · exact le_of_lt ((List.pairwise_cons.1 (List.pairwise_append.1 h).2.1).1 x hx)

/-- R71: the bay after an enabled bay in rotation is the first enabled one above it, or, where there is none, the
lowest-numbered one. -/
theorem nextBay_inRotation {s : State} {b : Bay} (hb : s.enabled b = true) :
    s.enabled (s.nextBay b) = true
    ∧ (b < s.nextBay b → ∀ x, b < x → x < s.nextBay b → s.enabled x = false)
    ∧ (s.nextBay b ≤ b → ∀ x, b < x ∨ x < s.nextBay b → s.enabled x = false) := by
  have hasc := enabledBays_ascending s
  cases hf : s.enabledBays.find? (fun x => b < x) with
  | some c =>
    have hn : s.nextBay b = c := by simp [State.nextBay, hf]
    have hlt : b < c := of_decide_eq_true (List.find?_some (p := fun x => decide (b < x)) hf)
    rw [hn]
    refine ⟨mem_enabledBays.1 (List.mem_of_find?_eq_some hf), fun _ x hx hxc => ?_,
      fun hle => absurd hlt (not_lt.2 hle)⟩
    by_contra hx'
    have := le_of_find?_eq_some hasc hf (mem_enabledBays.2 (eq_true_of_ne_false hx')) (decide_eq_true hx)
    exact absurd hxc (not_lt.2 this)
  | none =>
    have habove : ∀ x, s.enabled x = true → ¬ b < x := fun x hx h =>
      List.find?_eq_none.1 hf x (mem_enabledBays.2 hx) (decide_eq_true h)
    cases hl : s.enabledBays with
    | nil => exact absurd (mem_enabledBays.2 hb) (by simp [hl])
    | cons c rest =>
      have hn : s.nextBay b = c := by
        rw [State.nextBay, hf, hl]
        rfl
      have hc : s.enabled c = true := mem_enabledBays.1 (by simp [hl])
      rw [hl] at hasc
      rw [hn]
      refine ⟨hc, fun h => absurd h (habove c hc), fun _ x hx => ?_⟩
      by_contra hx'
      have hxe := eq_true_of_ne_false hx'
      have hxc : x < c := hx.resolve_left (habove x hxe)
      rcases List.mem_cons.1 (hl ▸ mem_enabledBays.2 hxe) with rfl | hm
      · exact lt_irrefl x hxc
      · exact lt_asymm hxc ((List.pairwise_cons.1 hasc).1 x hm)

/-! ### The window (R74 to R76) -/

theorem Rail.judge_windowAfter (r : Rail) (v : Nat) : WindowAfter r v (r.judge v) := by
  unfold WindowAfter Rail.judge
  cases h : r.window with
  | unknown | inside =>
    refine ⟨fun _ => ⟨fun hl => ?_, fun hl hh => ?_, fun hl hh => ?_⟩, nofun, nofun⟩
    · simp only [if_pos hl]
    · simp only [if_neg (not_lt.2 hl), if_pos hh]
    · simp only [if_neg (not_lt.2 hl), if_neg (not_lt.2 hh)]
  | low =>
    refine ⟨nofun, fun _ => ⟨fun hh => ?_, fun hl hh => ?_, fun hh hout => ?_⟩, nofun⟩
    · simp only [if_pos hh]
    · simp only [if_neg (show ¬ r.highLimit < v by omega), hl, hh, decide_true, Bool.and_self, if_true]
    · simp only [if_neg (not_lt.2 hh), Bool.and_eq_true, decide_eq_true_eq,
        if_neg (show ¬ (r.lowLimit + r.hyst ≤ v ∧ v ≤ r.highLimit - r.hyst) by omega)]
  | high =>
    refine ⟨nofun, nofun, fun _ => ⟨fun hl => ?_, fun hl hin hh => ?_, fun hl hout => ?_⟩⟩
    · simp only [if_pos hl]
    · simp only [if_neg (not_lt.2 hl), hin, hh, decide_true, Bool.and_self, if_true]
    · simp only [if_neg (not_lt.2 hl), Bool.and_eq_true, decide_eq_true_eq,
        if_neg (show ¬ (r.lowLimit + r.hyst ≤ v ∧ v ≤ r.highLimit - r.hyst) by omega)]

/-- R74 to R76: what is no transition. -/
theorem isTransition_eq_false {x y : RailWindow} :
    isTransition x y = false ↔ y = x ∨ x = .unknown ∧ y = .inside := by
  cases x <;> cases y <;> decide

/-! ### The end of a conversion (R73, R77, R78) -/

/-- R73: the value of a rail for a code. -/
abbrev State.railReading (s : State) (b : Bay) (r : RailId) (code : BitVec 12) : Nat :=
  railValue s.rail[b.val][r.val].fullScale code

/-- R74 to R76: the window state of a rail after a code. -/
abbrev State.railVerdict (s : State) (b : Bay) (r : RailId) (code : BitVec 12) : RailWindow :=
  s.rail[b.val][r.val].judge (s.railReading b r code)

/-- R73: the rail with the value, the window state and the time of a conversion. -/
def railJudged (b : Bay) (r : RailId) (code : BitVec 12) (s : State) : State :=
  s.modRail b r (fun x =>
    { x with
      value := s.railReading b r code
      window := s.railVerdict b r code
      lastConv := some s.now })

/-- R73, R77: the rail judged, and the effects of a transition. -/
def conversionEnded (b : Bay) (r : RailId) (code : BitVec 12) (s : State) : State :=
  if isTransition s.rail[b.val][r.val].window (s.railVerdict b r code) then
    railTransition b r s.rail[b.val][r.val].window (s.railVerdict b r code) (s.railReading b r code)
      (railJudged b r code s)
  else railJudged b r code s

theorem endConversion_eq_rewrite (b : Bay) (r : RailId) (code : BitVec 12) (s : State) : endConversion b r code s
    = rewrite (railFields (conversionEnded b r code s) b r) (conversionEnded b r code s) := rfl

/-- R77: beyond its rail, a conversion has the effects of a record and a condition event at most. -/
theorem conversionEnded_effects (b : Bay) (r : RailId) (code : BitVec 12) (s : State) :
    Effects (railJudged b r code s) (conversionEnded b r code s) := by
  unfold conversionEnded
  split
  · exact (Effects.offer b _ _ _).trans (Effects.conditionEvent b _ _)
  · exact Effects.refl _

/-- R71, R77: a conversion ended and the next begun, before its fields are written. -/
def conversionFollowed (b : Bay) (r : RailId) (code : BitVec 12) (s : State) : State :=
  signalLine s (beginConversion (s.nextPosition b r) (conversionEnded b r code s))

/-- R78: the outcome of a conversion, its rail's fields written. -/
def conversionOutcome (b : Bay) (r : RailId) (code : BitVec 12) (s : State) : State :=
  publish s (rewrite (railFields (conversionFollowed b r code s) b r) (conversionFollowed b r code s))

/-- Fields written before the next conversion begins are fields written after. -/
theorem commit_beginConversion_rewrite (s v : State) (p : Bay × RailId) (fs : List Field) :
    commit s (beginConversion p (rewrite fs v))
      = .next (publish s (rewrite fs (signalLine s (beginConversion p v)))) := rfl

theorem railFields_beginConversion (s v : State) (p : Bay × RailId) (b : Bay) (r : RailId) :
    railFields (signalLine s (beginConversion p v)) b r = railFields v b r := rfl

theorem conversion_exec {s : State} {b : Bay} {r : RailId} {start : Tick} (code : BitVec 12)
    (hd : s.ctl.device = .running) (hc : s.scanner.conv = some ⟨b, r, start⟩)
    (he : elapsed start s.time.count = 2000) : exec (.conversion code) s = .next (conversionOutcome b r code s) := by
  change execConversion code s = _
  have hp : s.passed start conversionTicks = true := decide_eq_true he
  simp only [execConversion, hc, hd, hp, decide_true, Bool.and_self, if_true, endConversion_eq_rewrite,
    commit_beginConversion_rewrite, conversionOutcome, conversionFollowed, railFields_beginConversion]

/-- What the next conversion and the fields written add to a state: the scanner, the notice line's change, memory. -/
theorem publish_beginConversion_eq (s v : State) (p : Bay × RailId) (fs : List Field) :
    publish s (rewrite fs (signalLine s (beginConversion p v))) = { v with
      scanner := (publish s (rewrite fs (signalLine s (beginConversion p v)))).scanner
      link := v.link.signal s.notices.asserted v.notices.asserted
      mem := (publish s (rewrite fs (signalLine s (beginConversion p v)))).mem } := rfl

/-- Beside its memory, the outcome is what the conversion, its transition and the next position leave. -/
theorem conversionOutcome_eq (b : Bay) (r : RailId) (code : BitVec 12) (s : State) :
    conversionOutcome b r code s = { conversionEnded b r code s with
      scanner := (conversionOutcome b r code s).scanner
      link := (conversionEnded b r code s).link.signal s.notices.asserted (conversionEnded b r code s).notices.asserted
      mem := (conversionOutcome b r code s).mem } := publish_beginConversion_eq s _ _ _

theorem conversionFollowed_rails (b : Bay) (r : RailId) (code : BitVec 12) (s : State) :
    (conversionFollowed b r code s).rail = (railJudged b r code s).rail := (conversionEnded_effects b r code s).rail

theorem conversionOutcome_rails (b : Bay) (r : RailId) (code : BitVec 12) (s : State) :
    (conversionOutcome b r code s).rail = (railJudged b r code s).rail := by
  rw [conversionOutcome, publish_rail, rewrite_rail, conversionFollowed_rails]

theorem conversionOutcome_scanner (b : Bay) (r : RailId) (code : BitVec 12) (s : State) :
    (conversionOutcome b r code s).scanner
      = ⟨some (s.nextPosition b r), some ⟨(s.nextPosition b r).1, (s.nextPosition b r).2, s.time.count⟩⟩ := by
  have ht : (conversionEnded b r code s).now = s.time.count :=
    congrArg TimeBase.count (conversionEnded_effects b r code s).time
  rw [← ht]
  rfl

/-! ### What a conversion writes (R78) -/

/-- A rail's fields written whether or not they have changed are held after publication. -/
theorem publish_railFields_hold {old u : State} (h : u.mem.wf) (b : Bay) (r : RailId) :
    Holds (publish old (rewrite (railFields u b r) u)) (bayAddr b + 0x28 + 16 * r.val) 2 u.rail[b.val][r.val].value
    ∧ Holds (publish old (rewrite (railFields u b r) u)) (bayAddr b + 0x28 + 16 * r.val + 2) 1
        (windowCode u.rail[b.val][r.val].window)
    ∧ Holds (publish old (rewrite (railFields u b r) u)) (bayAddr b + 0x28 + 16 * r.val + 3) 1
        (bit u.rail[b.val][r.val].lastConv.isSome)
    ∧ Holds (publish old (rewrite (railFields u b r) u)) (bayAddr b + 0x28 + 16 * r.val + 8) 8
        (timeVal u.rail[b.val][r.val].lastConv) := by
  have hr : ∀ f ∈ railFields u b r, Stands (publish old (rewrite (railFields u b r) u)) f := fun f hf =>
    congrArg leNat (publish_rewrite_reads h (railFields_published u b r) hf)
  generalize publish old (rewrite (railFields u b r) u) = t at hr ⊢
  simpa only [railFields, List.forall_mem_cons, stands_fld, List.not_mem_nil, false_imp_iff, implies_true,
    and_true] using hr

theorem conversionFollowed_wf {s : State} (h : s.mem.wf) (b : Bay) (r : RailId) (code : BitVec 12) :
    (conversionFollowed b r code s).mem.wf := (conversionEnded_effects b r code s).wf h

theorem conversionFollowed_rail (b : Bay) (r : RailId) (code : BitVec 12) (s : State) :
    (conversionFollowed b r code s).rail[b.val][r.val] = { s.rail[b.val][r.val] with
      value := s.railReading b r code
      window := s.railVerdict b r code
      lastConv := some s.time.count } := by
  rw [conversionFollowed_rails, railJudged, State.modRail_rail, upd_self, upd_self]
  rfl

/-- R78: every conversion writes the value, the window state, the flag and the time. -/
theorem conversionOutcome_fields {s : State} (h : s.mem.wf) (b : Bay) (r : RailId) (code : BitVec 12) :
    (conversionOutcome b r code s).mem.field (0x001828 + 256 * b.val + 16 * r.val) 2
      = code.toNat * s.rail[b.val][r.val].fullScale / 4096 % 65536
    ∧ (conversionOutcome b r code s).mem.read (0x00182A + 256 * b.val + 16 * r.val)
      = BitVec.ofNat 8 (windowCode (s.railVerdict b r code))
    ∧ (conversionOutcome b r code s).mem.read (0x00182B + 256 * b.val + 16 * r.val) = 1#8
    ∧ (conversionOutcome b r code s).mem.field (0x001830 + 256 * b.val + 16 * r.val) 8 = s.time.count.toNat := by
  obtain ⟨value, window, converted, time⟩ :=
    publish_railFields_hold (old := s) (conversionFollowed_wf h b r code) b r
  rw [conversionFollowed_rail] at value window converted time
  have place (n : Nat) : bayAddr b + 0x28 + 16 * r.val + n = 0x001828 + n + 256 * b.val + 16 * r.val := by
    simp only [bayAddr]
    omega
  refine ⟨holds_congr value (place 0) rfl, read_of_holds (holds_congr window (place 2) rfl),
    read_of_holds (holds_congr converted (place 3) rfl), (holds_congr time (place 8) rfl).trans ?_⟩
  have := s.time.count.isLt
  exact Nat.mod_eq_of_lt (by simp only [timeVal]; omega)

/-- R78: a rail's fields stand in the status entry of its bay. -/
theorem railFields_inBayEntry (s : State) (b : Bay) (r : RailId) {a : Nat} (ha : ¬ inBayEntry b a) :
    ∀ f ∈ railFields s b r, a < f.1 ∨ f.1 + f.2.length ≤ a := by
  have := r.isLt
  simp only [inBayEntry] at ha
  simp only [railFields, List.forall_mem_cons, fld, leBytes_length, List.not_mem_nil, false_imp_iff, implies_true,
    and_true]
  omega

/-! ### Without a transition -/

theorem conversionEnded_quiet {s : State} {b : Bay} {r : RailId} {code : BitVec 12}
    (h : isTransition s.rail[b.val][r.val].window (s.railVerdict b r code) = false) :
    conversionEnded b r code s = railJudged b r code s := by
  simp only [conversionEnded, h, Bool.false_eq_true, if_false]

/-- R78: the rail's change shows in the status entry of its bay alone. -/
theorem bayFields_railJudged {b c : Bay} (hc : c ≠ b) (r : RailId) (code : BitVec 12) (s : State) :
    bayFields (railJudged b r code s) c = bayFields s c := by
  simp only [bayFields, validByte, railFields, railJudged, State.modRail_rail, upd_ne s.rail _ hc.symm]
  rfl

theorem conversionFollowed_quiet {s : State} {b : Bay} {r : RailId} {code : BitVec 12}
    (h : conversionEnded b r code s = railJudged b r code s) :
    conversionFollowed b r code s = beginConversion (s.nextPosition b r) (railJudged b r code s) := by
  simp only [conversionFollowed, h, signalLine]
  exact congrArg (fun l => { beginConversion (s.nextPosition b r) (railJudged b r code s) with link := l })
    (Link.signal_same s.link s.notices.asserted)

/-- R77, R78: a conversion without a transition changes its rail, the scanner and the bay's status entry. -/
theorem conversionOutcome_quiet {s : State} {b : Bay} {r : RailId} {code : BitVec 12}
    (h : conversionEnded b r code s = railJudged b r code s) :
    conversionOutcome b r code s = { s with
      rail := (conversionOutcome b r code s).rail
      scanner := (conversionOutcome b r code s).scanner
      mem := (conversionOutcome b r code s).mem }
    ∧ Unchanged (inBayEntry b) s (conversionOutcome b r code s) := by
  have hu := conversionFollowed_quiet h
  constructor
  · have ho := conversionOutcome_eq b r code s
    have hl : (railJudged b r code s).link.signal s.notices.asserted (railJudged b r code s).notices.asserted = s.link :=
      Link.signal_same s.link s.notices.asserted
    rw [h, hl] at ho
    generalize conversionOutcome b r code s = t at ho ⊢
    rw [ho]
    rfl
  · refine publish_unchanged (fun a ha => ?_) (fun a _ => ?_) (fun c a ha hc => ?_) (fun c _ _ _ => ?_)
    · rw [rewrite_mem, Memory.read_writeFields_other _ _ _ (railFields_inBayEntry _ b r ha), hu]
      rfl
    · have hm : mirrorFields (conversionFollowed b r code s) = mirrorFields s := by
        rw [hu]
        rfl
      rw [mirrorFields_rewrite, hm, diffFields_self]
      exact fun f hf => by cases hf
    · have hne : c ≠ b := fun e => ha (e ▸ hc)
      rw [bayFields_rewrite, hu]
      exact bayFields_railJudged hne r code s
    · change streamFields (conversionFollowed b r code s) c = _
      rw [hu]
      rfl

/-! ### With a transition (R77) -/

theorem conversionEnded_transition {s : State} {b : Bay} {r : RailId} {code : BitVec 12}
    (h : isTransition s.rail[b.val][r.val].window (s.railVerdict b r code) = true) :
    conversionEnded b r code s = railTransition b r s.rail[b.val][r.val].window (s.railVerdict b r code)
      (s.railReading b r code) (railJudged b r code s) := by
  simp only [conversionEnded, h, if_true]

/-- A conversion writes nothing outside the areas in which blocks write. -/
theorem conversionOutcome_unchanged (b : Bay) (r : RailId) (code : BitVec 12) (s : State) :
    Unchanged blockArea s (conversionOutcome b r code s) := by
  intro a ha
  obtain ⟨hdev, hpub⟩ := not_or.1 ha
  have hb : ¬ inBayEntry b a := fun h => hpub (by
    have := b.isLt
    simp only [inBayEntry, bayAddr, publishedArea] at *
    omega)
  calc (conversionOutcome b r code s).mem.read a
    _ = (rewrite (railFields (conversionFollowed b r code s) b r) (conversionFollowed b r code s)).mem.read a :=
      publish_read_other s _ a hpub
    _ = (conversionFollowed b r code s).mem.read a := by
      rw [rewrite_mem, Memory.read_writeFields_other _ _ _ (railFields_inBayEntry _ b r hb)]
    _ = s.mem.read a := (conversionEnded_effects b r code s).area a hdev

/-- The outcome is what the conversion and its transition leave, with the scanner at the next position. -/
theorem conversionOutcome_leaves (b : Bay) (r : RailId) (code : BitVec 12) (s : State) :
    Leaves s (conversionOutcome b r code s)
      { conversionEnded b r code s with scanner := (conversionOutcome b r code s).scanner } blockArea :=
  ⟨conversionOutcome_eq b r code s, conversionOutcome_unchanged b r code s⟩

/-- R77: the state from which a transition is taken is the one before but for the rails. -/
theorem railJudged_eq (b : Bay) (r : RailId) (code : BitVec 12) (s : State) :
    railJudged b r code s = { s with rail := (conversionOutcome b r code s).rail } := by
  rw [conversionOutcome_rails]
  rfl

/-! ### The conversion -/

/-- R71: the next position. -/
theorem nextPosition_inScanOrder (s : State) (b : Bay) (r : RailId) :
    (r ≠ 2 → (s.nextPosition b r).1 = b ∧ (s.nextPosition b r).2 = r + 1)
    ∧ (r = 2 → s.enabled b = true → (s.nextPosition b r).2 = 0 ∧ s.enabled (s.nextPosition b r).1 = true
      ∧ (b < (s.nextPosition b r).1 → ∀ x, b < x → x < (s.nextPosition b r).1 → s.enabled x = false)
      ∧ ((s.nextPosition b r).1 ≤ b → ∀ x, b < x ∨ x < (s.nextPosition b r).1 → s.enabled x = false)) := by
  refine ⟨fun h => ?_, fun h hb => ?_⟩
  · rw [State.nextPosition, if_neg h]
    exact ⟨rfl, rfl⟩
  · rw [State.nextPosition, if_pos h]
    exact ⟨rfl, nextBay_inRotation hb⟩

/-- Settles O20: the rail judged, the position after it, the fields written, and the effects of a transition. -/
theorem conversionJudgesItsRail : Obligations.ConversionJudgesItsRail := by
  intro s b r start code hd hc he
  refine ⟨conversionOutcome b r code s, s.railVerdict b r code, conversion_exec code hd hc he,
    Rail.judge_windowAfter _ _, conversionOutcome_rails b r code s,
    ⟨_, _, conversionOutcome_scanner b r code s, nextPosition_inScanOrder s b r⟩, fun hw => ?_, fun hq => ?_,
    fun hne hun => ?_⟩
  · obtain ⟨value, window, converted, time⟩ := conversionOutcome_fields hw b r code
    refine ⟨value, window.trans ?_, converted, time⟩
    cases s.railVerdict b r code <;> rfl
  · exact conversionOutcome_quiet (conversionEnded_quiet (isTransition_eq_false.2 hq))
  · have ht := eq_true_of_ne_false (mt isTransition_eq_false.1 (not_or.2 ⟨hne, hun⟩))
    have hl := conversionOutcome_leaves b r code s
    rw [conversionEnded_transition ht, railTransition, railJudged_eq] at hl
    exact hl

end Sys2Proof.Machine
end

section
/-! PROOF. The Console Ports (R81 to R87): the receiver's samples (O21), framing errors, breaks and the idle close (O23). -/

namespace Sys2Proof.Machine

/-! ### Changes of one port -/

theorem State.modCon_congr {b : Bay} {f g : Console → Console} {s : State} (h : f s.con[b.val] = g s.con[b.val]) :
    s.modCon b f = s.modCon b g := by
  simp only [State.modCon, upd_congr s.con b h]

/-- R92: the counts that the status entry shows of a port stay. -/
structure Console.SameShown (c d : Console) : Prop where
  received : d.received = c.received
  framing : d.framing = c.framing
  breaks : d.breaks = c.breaks

/-- R92: a byte in reception and a transmitter show nothing. -/
theorem publishedFields_modCon (b : Bay) (f : Console → Console) (s : State)
    (hf : Console.SameShown s.con[b.val] (f s.con[b.val])) : publishedFields (s.modCon b f) = publishedFields s := by
  refine publishedFields_congr rfl (fun c => ?_) (fun _ => rfl)
  by_cases hc : b = c
  · subst hc
    simp only [bayFields, validByte, railFields, State.modCon_con, upd_self, hf.received, hf.framing, hf.breaks,
      State.modCon_mon, State.modCon_code, State.modCon_rail, State.modCon_seq, State.modCon_drv, State.modCon_port]
  · simp only [bayFields, validByte, railFields, State.modCon_con, upd_ne s.con f hc, State.modCon_mon,
      State.modCon_code, State.modCon_rail, State.modCon_seq, State.modCon_drv, State.modCon_port]

theorem commit_modCon (b : Bay) (f : Console → Console) (s : State)
    (hf : Console.SameShown s.con[b.val] (f s.con[b.val])) : commit s (s.modCon b f) = .next (s.modCon b f) :=
  commit_quiet rfl (publishedFields_modCon b f s hf)

/-! ### Samples (R81 to R83) -/

/-- R81: the conditions of a sample's instant. -/
theorem State.atSample_iff {s : State} {b : Bay} (ha : s.active b = true) (hr : s.con[b.val].rx = .receiving)
    (he : elapsed s.con[b.val].fall s.time.count
      = s.con[b.val].divisor / 2 + s.con[b.val].sample * s.con[b.val].divisor) (i : Nat) :
    s.atSample b i = true ↔ s.con[b.val].sample = i := by
  constructor
  · simp only [State.atSample, Bool.and_eq_true, decide_eq_true_eq]
    exact fun h => h.1.2
  · rintro rfl
    simp [State.atSample, State.passed, sampleTicks, ha, hr, he]

theorem conRxFall_idle {s : State} {b : Bay} (ha : s.active b = true) (hr : s.con[b.val].rx = .idle) :
    exec (.conRxFall b) s = .next (s.modCon b (fun c =>
      { c with rx := .receiving, fall := s.time.count, sample := 0, data := 0#8 })) := by
  change execConRxFall b s = _
  simp only [execConRxFall, ha, hr, decide_true, Bool.and_self, if_true]
  exact commit_modCon b _ s ⟨rfl, rfl, rfl⟩

theorem breakHoldRise_breakHold {s : State} {b : Bay} (ha : s.active b = true) (hr : s.con[b.val].rx = .breakHold) :
    exec (.breakHoldRise b) s = .next (s.modCon b (fun c => { c with rx := .idle })) := by
  change execBreakHoldRise b s = _
  simp only [execBreakHoldRise, ha, hr, decide_true, Bool.and_self, if_true]
  exact commit_modCon b _ s ⟨rfl, rfl, rfl⟩

/-- R81: a sample of the start bit that reads low. -/
theorem bitSample_start {s : State} {b : Bay} (hs : s.atSample b 0 = true) (hi : s.con[b.val].sample = 0) :
    exec (.bitSample b false) s = .next (s.modCon b (fun c => { c with sample := 1 })) := by
  change execBitSample b false s = _
  simp only [execBitSample, hi, hs, Nat.zero_le, decide_true, Bool.and_false, Bool.not_false, Bool.and_self, if_true]
  exact commit_modCon b _ s ⟨rfl, rfl, rfl⟩

theorem falseStart_eq {s : State} {b : Bay} (hs : s.atSample b 0 = true) :
    exec (.falseStart b) s = .next (s.modCon b (fun c => { c with rx := .idle })) := by
  change execFalseStart b s = _
  simp only [execFalseStart, hs, if_true]
  exact commit_modCon b _ s ⟨rfl, rfl, rfl⟩

theorem addBit_eq (data : Byte) (i : Nat) (level : Bool) :
    addBit data i level = data ||| (if level then 1#8 <<< i else 0#8) := by
  cases level <;> simp [addBit]

/-- R81: a data bit joins the byte. -/
theorem bitSample_data {s : State} {b : Bay} (level : Bool) (hs : s.atSample b s.con[b.val].sample = true)
    (h1 : 1 ≤ s.con[b.val].sample) (h8 : s.con[b.val].sample ≤ 8) :
    exec (.bitSample b level) s = .next (s.modCon b (fun c =>
      { c with
        sample := c.sample + 1
        data := c.data ||| (if level then 1#8 <<< (c.sample - 1) else 0#8) })) := by
  change execBitSample b level s = _
  have h0 : s.con[b.val].sample ≠ 0 := Nat.ne_of_gt h1
  simp only [execBitSample, hs, h8, h0, decide_true, decide_false, Bool.false_and, Bool.not_false, Bool.and_self,
    if_true, if_false, addBit_eq]
  rw [commit_modCon b _ s ⟨rfl, rfl, rfl⟩]
  exact congrArg _ (State.modCon_congr rfl)

theorem breakCandidate_eq {s : State} {b : Bay} (hs : s.atSample b 9 = true) (hd : s.con[b.val].data = 0#8) :
    exec (.breakCandidate b) s = .next (s.modCon b (fun c => { c with rx := .breakCheck })) := by
  change execBreakCandidate b s = _
  simp only [execBreakCandidate, hs, hd, decide_true, Bool.and_self, if_true]
  exact commit_modCon b _ s ⟨rfl, rfl, rfl⟩

/-- Settles O21, by the state of the receiver and the sample that is due. -/
theorem receiverSamplesTenBits : Obligations.ReceiverSamplesTenBits := by
  refine fun s b level ha => ⟨conRxFall_idle ha, breakHoldRise_breakHold ha, fun hr he => ?_⟩
  have hs := State.atSample_iff ha hr he
  exact ⟨fun hi => ⟨bitSample_start ((hs 0).2 hi) hi, falseStart_eq ((hs 0).2 hi)⟩,
    bitSample_data level ((hs _).2 rfl), fun hi => breakCandidate_eq ((hs 9).2 hi)⟩

/-! ### What a received byte or a batch changes (R84 to R87) -/

/-- A state that differs from another in the port and the stream of one bay alone. -/
structure PortInput (b : Bay) (s x : State) : Prop where
  eq : x = { s with con := x.con, str := x.str }
  con : ∀ c : Bay, c ≠ b → x.con[c.val] = s.con[c.val]
  str : ∀ c : Bay, c ≠ b → x.str[c.val] = s.str[c.val]

namespace PortInput

theorem refl (b : Bay) (s : State) : PortInput b s s := ⟨rfl, fun _ _ => rfl, fun _ _ => rfl⟩

theorem trans {b : Bay} {s x y : State} (h : PortInput b s x) (k : PortInput b x y) : PortInput b s y where
  eq := k.eq.trans (by rw [h.eq])
  con c hc := (k.con c hc).trans (h.con c hc)
  str c hc := (k.str c hc).trans (h.str c hc)

theorem modCon (b : Bay) (f : Console → Console) (s : State) : PortInput b s (s.modCon b f) :=
  ⟨rfl, fun _ hc => upd_ne s.con f hc.symm, fun _ _ => rfl⟩

theorem offer (b : Bay) (body : RecordBody) (t : Tick) (s : State) : PortInput b s (Machine.offer b body t s) :=
  ⟨rfl, fun _ _ => rfl, fun _ hc => upd_ne s.str _ hc.symm⟩

theorem closeBatch (b : Bay) (brk : Bool) (s : State) : PortInput b s (Machine.closeBatch b brk s) := by
  unfold Machine.closeBatch
  split
  · exact refl b s
  · exact (offer b _ _ s).trans (modCon b _ _)

theorem batchByte (b : Bay) (x : Byte) (err : Bool) (fall stop : Tick) (s : State) :
    PortInput b s (Machine.batchByte b x err fall stop s) := by
  unfold Machine.batchByte
  split
  · simp only
    split
    · exact (modCon b _ s).trans (closeBatch b false _)
    · exact modCon b _ s
  · exact refl b s

theorem framingByte (b : Bay) (x : Byte) (s : State) : PortInput b s (Machine.framingByte b x s) :=
  (batchByte b x true _ _ s).trans (modCon b _ _)

variable {b : Bay} {s x : State} (h : PortInput b s x)
include h

theorem seq : x.seq = s.seq := by rw [h.eq]

theorem mem : x.mem = s.mem := by rw [h.eq]

theorem mirrorFields : mirrorFields (signalLine s x) = Machine.mirrorFields s := by
  rw [h.eq]
  rfl

/-- R92: the status entry of a bay whose counts stay. -/
theorem bayFields {c : Bay} (hc : Console.SameShown s.con[c.val] x.con[c.val]) :
    bayFields (signalLine s x) c = Machine.bayFields s c := by
  obtain ⟨received, framing, breaks⟩ := hc
  rw [h.eq] at received framing breaks ⊢
  simp only [signalLine, Machine.bayFields, validByte, railFields, received, framing, breaks]

/-- R92: the counts of another bay's port. -/
theorem sameShown {c : Bay} (hc : c ≠ b) : Console.SameShown s.con[c.val] x.con[c.val] := by
  rw [h.con c hc]
  exact ⟨rfl, rfl, rfl⟩

theorem outcome {con : Vector Console 8} {str : Vector Stream 8} (hcon : x.con = con) (hstr : x.str = str) :
    publish s (signalLine s x) = { s with con := con, str := str, mem := (publish s (signalLine s x)).mem } := by
  subst hcon hstr
  have hl : signalLine s x = x := by
    rw [h.eq]
    simp [signalLine]
  rw [hl]
  exact (congrArg (fun y : State => { y with mem := (publish s x).mem }) h.eq)

/-- A command that changes the port and the stream of a bay writes that bay's entries. -/
theorem publish_unchanged :
    Unchanged (fun a => inBayEntry b a ∨ inStreamEntry b a) s (publish s (signalLine s x)) := by
  refine Machine.publish_unchanged (fun a _ => by rw [signalLine_mem, h.mem]) (fun a _ => ?_) (fun c a ha hc => ?_)
    (fun c a ha hc => ?_)
  · rw [h.mirrorFields, diffFields_self]
    exact fun f hf => by cases hf
  · exact h.bayFields (h.sameShown (fun e => ha (.inl (e ▸ hc))))
  · exact streamFields_congr (h.str c (fun e => ha (.inr (e ▸ hc))))

end PortInput

/-! ### Batches (R85, R86) -/

theorem accepting_iff (st : StreamState) : accepting st = true ↔ st = .running ∨ st = .postTrigger := by
  simp only [accepting, Bool.or_eq_true, decide_eq_true_eq]

/-- R86, R87: an open batch closes as a record. -/
theorem closeBatch_open {b : Bay} {s : State} {p : Batch} (brk : Bool) (h : s.con[b.val].batch = some p) :
    closeBatch b brk s
      = (offer b (.console p.bytes brk) p.time s).modCon b (fun c => { c with batch := none }) := by
  simp only [closeBatch, h]

theorem closeBatch_joined (b : Bay) (brk : Bool) (p : Batch) (s : State) :
    closeBatch b brk (s.modCon b (fun c => { c with batch := some p }))
      = (offer b (.console p.bytes brk) p.time s).modCon b (fun c => { c with batch := none }) := by
  rw [closeBatch_open (p := p) brk (by simp)]
  simp only [State.modCon, offer, State.modStr, upd_upd]

theorem Console.join_eq (x : Byte) (err : Bool) (c : Console) :
    Console.join x err c.fall c.stopTime c = { c with batch := some (batchAfter c x err) } := by
  cases h : c.batch <;> simp only [Console.join, batchAfter, h] <;> rfl

/-- R85: beside the batch, a byte batched leaves the port as it was. -/
theorem batchByte_con (b : Bay) (x : Byte) (err : Bool) (fall stop : Tick) (s : State) :
    (batchByte b x err fall stop s).con[b.val]
      = { s.con[b.val] with batch := (batchByte b x err fall stop s).con[b.val].batch } := by
  unfold batchByte
  split
  · simp only
    split
    · unfold closeBatch
      split <;> simp [Console.join, offer]
    · simp [Console.join]
  · rfl

/-- R85, R86, R89: a byte joins the open batch while the stream accepts records, and the eighth closes it. -/
theorem batchByte_batched (b : Bay) (x : Byte) (err : Bool) (s : State) :
    Batched s (batchByte b x err s.con[b.val].fall s.con[b.val].stopTime s) b x err := by
  have hjoin : (s.modCon b (Console.join x err s.con[b.val].fall s.con[b.val].stopTime))
      = s.modCon b (fun c => { c with batch := some (batchAfter s.con[b.val] x err) }) :=
    State.modCon_congr (Console.join_eq x err _)
  unfold Batched batchByte
  by_cases ha : s.str[b.val].state = .running ∨ s.str[b.val].state = .postTrigger
  · simp only [if_pos ha, (accepting_iff _).2 ha, if_true, hjoin, Console.batchSize, State.modCon_con, upd_self,
      Option.map_some, Option.getD_some, batchCapacity]
    split
    · simp [closeBatch_joined, offer]
    · simp
  · simp only [if_neg ha, mt (accepting_iff _).1 ha, if_false, Bool.false_eq_true, and_self]

/-! ### Framing errors (R82, R83, R85) -/

theorem framingError_stopLow {s : State} {b : Bay} (hs : s.atSample b 9 = true) (hd : s.con[b.val].data ≠ 0#8) :
    exec (.framingError b) s = commit s (framingByte b s.con[b.val].data s) := by
  change execFramingError b s = _
  simp only [execFramingError, hs, ne_eq, hd, not_false_eq_true, decide_true, Bool.and_self, if_true]

/-- R83: the line of a break candidate rises before the break is settled. -/
theorem framingError_rise {s : State} {b : Bay} (ha : s.active b = true) (hr : s.con[b.val].rx = .breakCheck)
    (he : elapsed s.con[b.val].fall s.time.count < s.con[b.val].divisor / 2 + 10 * s.con[b.val].divisor) :
    exec (.framingError b) s = commit s (framingByte b 0#8 s) := by
  change execFramingError b s = _
  have hs : s.atSample b 9 = false := by simp [State.atSample, hr]
  simp [execFramingError, hs, ha, hr, settleTicks, sampleTicks, le_of_lt he]

/-- R85: what a byte with a framing error leaves of the port. -/
theorem framingByte_con (b : Bay) (x : Byte) (s : State) : (framingByte b x s).con[b.val] = { s.con[b.val] with
    rx := .idle
    received := s.con[b.val].received + 1#32
    framing := s.con[b.val].framing + 1#32
    window := []
    batch := (framingByte b x s).con[b.val].batch } := by
  have h := batchByte_con b x true s.con[b.val].fall s.con[b.val].stopTime s
  simp only [framingByte, State.modCon_con, upd_self]
  rw [h]

theorem framingByte_batched (b : Bay) (x : Byte) (s : State) : Batched s (framingByte b x s) b x true := by
  simpa only [Batched, framingByte, State.modCon_con, State.modCon_str, upd_self] using batchByte_batched b x true s

theorem framingErrorIsCountedAndEmptiesTheWindow : FramingErrorIsCountedAndEmptiesTheWindow := by
  intro s b byte ha h
  have hexec : exec (.framingError b) s = commit s (framingByte b byte s) := by
    obtain ⟨hr, hi, hd, rfl, he⟩ | ⟨hr, rfl, he⟩ := h
    · exact framingError_stopLow ((State.atSample_iff ha hr (hi ▸ he) 9).2 hi) hd
    · exact framingError_rise ha hr he
  have hp := PortInput.framingByte b byte s
  refine ⟨_, hexec, ?_⟩
  simp only [Batched, publish_con, publish_str, signalLine_con, signalLine_str]
  exact ⟨hp.outcome rfl rfl, framingByte_con b byte s, framingByte_batched b byte s, fun c hc => ⟨hp.con c hc, hp.str c hc⟩,
    hp.publish_unchanged⟩

/-! ### Breaks and the idle close (R83, R86, R87) -/

/-- R87: a settled break closes the open batch. -/
theorem breakRecord_con (b : Bay) (s : State) :
    (breakRecord b s).con = upd s.con b (fun c => { c with batch := none }) := by
  cases h : s.con[b.val].batch with
  | none =>
    simp only [breakRecord, h]
    exact (upd_same s.con b (by rw [← h])).symm
  | some p =>
    simp only [breakRecord, h, closeBatch_open true h]
    rfl

/-- R87: the record of a settled break: the open batch's, or an empty one at the fall. -/
theorem breakRecord_str (b : Bay) (s : State) :
    (breakRecord b s).str = upd s.str b (fun v => v.offer (match s.con[b.val].batch with
      | some p => ⟨p.time, .console p.bytes true⟩
      | none => ⟨s.con[b.val].fall, .console [] true⟩)) := by
  cases h : s.con[b.val].batch with
  | none =>
    simp only [breakRecord, h]
    rfl
  | some p =>
    simp only [breakRecord, h, closeBatch_open true h]
    rfl

/-- R83, R87: a break settled. -/
def breakEnded (b : Bay) (s : State) : State :=
  (breakRecord b s).modCon b (fun c => { c with rx := .breakHold, window := [], breaks := c.breaks + 1#32 })

theorem breakEnded_con (b : Bay) (s : State) : (breakEnded b s).con = upd s.con b (fun c =>
    { c with rx := .breakHold, window := [], breaks := c.breaks + 1#32, batch := none }) := by
  rw [breakEnded, State.modCon_con, breakRecord_con]
  exact upd_upd s.con b _ _

theorem PortInput.breakEnded (b : Bay) (s : State) : PortInput b s (Machine.breakEnded b s) := by
  refine PortInput.trans ?_ (modCon b _ _)
  unfold breakRecord
  split
  · exact closeBatch b true s
  · exact offer b _ _ s

theorem breakSettled_exec {s : State} {b : Bay} (ha : s.active b = true) (hr : s.con[b.val].rx = .breakCheck)
    (he : elapsed s.con[b.val].fall s.time.count = s.con[b.val].divisor / 2 + 10 * s.con[b.val].divisor) :
    exec (.breakSettled b) s = commit s (breakEnded b s) := by
  change execBreakSettled b s = _
  have hp : s.passed s.con[b.val].fall (settleTicks s.con[b.val].divisor) = true := decide_eq_true he
  simp only [execBreakSettled, ha, hr, hp, decide_true, Bool.and_self, if_true]
  rfl

theorem batchIdleClose_exec {s : State} {b : Bay} {p : Batch} (ha : s.active b = true)
    (hb : s.con[b.val].batch = some p) (he : elapsed p.lastStop s.time.count = 20 * s.con[b.val].divisor) :
    exec (.batchIdleClose b) s = commit s (closeBatch b false s) := by
  change execBatchIdleClose b s = _
  have hp : s.passed p.lastStop (20 * s.con[b.val].divisor) = true := decide_eq_true he
  simp only [execBatchIdleClose, hb, ha, hp, Bool.and_self, if_true]

theorem closeBatch_sameShown (b : Bay) (brk : Bool) (s : State) :
    Console.SameShown s.con[b.val] (closeBatch b brk s).con[b.val] := by
  cases h : s.con[b.val].batch with
  | none =>
    simp only [closeBatch, h]
    exact ⟨rfl, rfl, rfl⟩
  | some p =>
    rw [closeBatch_open brk h, State.modCon_con, upd_self]
    exact ⟨rfl, rfl, rfl⟩

/-- R86: a close of a batch shows in the stream table alone. -/
theorem closeBatch_unchanged (b : Bay) (brk : Bool) (s : State) :
    Unchanged (fun a => inStreamEntry b a) s (publish s (signalLine s (closeBatch b brk s))) := by
  have h := PortInput.closeBatch b brk s
  refine Machine.publish_unchanged (fun a _ => by rw [signalLine_mem, h.mem]) (fun a _ => ?_) (fun c _ _ _ => ?_)
    (fun c a ha hc => streamFields_congr (h.str c (fun e => ha (e ▸ hc))))
  · rw [h.mirrorFields, diffFields_self]
    exact fun f hf => by cases hf
  · refine h.bayFields ?_
    by_cases hc : c = b
    · subst hc
      exact closeBatch_sameShown c brk s
    · exact h.sameShown hc

theorem breaksAndIdleCloseBatches : BreaksAndIdleCloseBatches := by
  refine fun s b ha => ⟨fun hr he => ?_, fun p hb he => ?_⟩
  · have hp := PortInput.breakEnded b s
    exact ⟨_, breakSettled_exec ha hr he, hp.outcome (breakEnded_con b s) (breakRecord_str b s), hp.publish_unchanged⟩
  · have hp := PortInput.closeBatch b false s
    refine ⟨_, batchIdleClose_exec ha hb he, hp.outcome ?_ ?_, closeBatch_unchanged b false s⟩ <;>
      rw [closeBatch_open false hb] <;> rfl

/-- Settles O23: bytes in error, and the closes of a batch. -/
theorem framingErrorsBreaksAndIdleCloses : Obligations.FramingErrorsBreaksAndIdleCloses :=
  ⟨framingErrorIsCountedAndEmptiesTheWindow, breaksAndIdleCloseBatches⟩

end Sys2Proof.Machine
end

section
/-! PROOF. SEND jobs at the Console Port (R94, R95): their characters and gaps, and the level of CON_TX (O24). -/

namespace Sys2Proof.Machine

/-! ### The end report of a job (R140) -/

/-- R153: the slots counted in a state are counted as before while every slot keeps its state. -/
theorem State.countSlots_congr {s t : State} (h : ∀ i : Slot, t.slots[i.val].state = s.slots[i.val].state)
    (st : SlotState) : t.countSlots st = s.countSlots st := by
  have hmap : t.slots.map SlotRec.state = s.slots.map SlotRec.state :=
    Vector.ext (fun i hi => by simpa using h ⟨i, hi⟩)
  have hcount (x : State) : x.countSlots st = (x.slots.map SlotRec.state).toList.countP (fun k => k = st) := by
    rw [Vector.toList_map, List.countP_map]
    rfl
  rw [hcount, hcount, hmap]

theorem report_state (i k : Slot) (st : Status) (d : BitVec 16) (r : BitVec 64) (s : State) :
    (report i st d r s).slots[k.val].state = s.slots[k.val].state := by
  rw [report, State.modSlot_slots, upd_get]
  split <;> rfl

/-- R153: a report shows nothing before the Dispatcher takes it. -/
theorem publishedFields_report (i : Slot) (st : Status) (d : BitVec 16) (r : BitVec 64) (s : State) :
    publishedFields (report i st d r s) = publishedFields s := by
  refine publishedFields_congr ?_ (fun _ => rfl) (fun _ => rfl)
  simp only [mirrorFields, State.countSlots_congr (fun k => report_state i k st d r s)]
  rfl

/-! ### Characters and gaps (R94, R95) -/

/-- R93, R94: the job of a port changed shows nothing. -/
theorem commit_job (b : Bay) (job : Option TxJob) (s : State) :
    commit s (s.modCon b (fun c => { c with job := job })) = .next (s.modCon b (fun c => { c with job := job })) :=
  commit_modCon b _ s ⟨rfl, rfl, rfl⟩

/-- R94, R95: the end of a SEND at the port is the whole outcome. -/
theorem commit_endSend (b : Bay) (j : TxJob) (st : Status) (s : State) :
    commit s (endSend b j st s) = .next ((s.modCon b (fun c => { c with tx := .idle, job := none })).modSlot j.slot
      (fun r => { r with report := some ⟨st, 0#16, BitVec.ofNat 64 j.sent, s.time.count⟩ })) :=
  commit_quiet rfl ((publishedFields_report _ _ _ _ _).trans (publishedFields_modCon b _ s ⟨rfl, rfl, rfl⟩))

theorem characterEnd_exec {s : State} {b : Bay} {j : TxJob} {start : Tick} (hj : s.con[b.val].job = some j)
    (hp : j.phase = .character start) (he : elapsed start s.time.count = 10 * s.con[b.val].divisor) :
    exec (.characterEnd b) s = commit s (charEnd b j s) := by
  change execCharacterEnd b s = _
  have hpassed : s.passed start (charTicks s.con[b.val].divisor) = true := decide_eq_true he
  simp only [execCharacterEnd, hj, hp, hpassed, if_true]

/-- R94: a character that is not the last is followed by a gap. -/
theorem charEnd_gap {s : State} {b : Bay} {j : TxJob} (ht : s.con[b.val].tx = .sending) (hn : j.next + 1 < j.length)
    (hg : j.gap ≠ 0) : charEnd b j s = s.modCon b (fun c =>
      { c with job := some { j with sent := j.sent + 1, next := j.next + 1, phase := .gap s.time.count } }) := by
  simp only [charEnd, ht, if_pos hn, if_neg hg]
  rfl

/-- R94: with a gap of 0 the next character follows at once. -/
theorem charEnd_next {s : State} {b : Bay} {j : TxJob} (ht : s.con[b.val].tx = .sending) (hn : j.next + 1 < j.length)
    (hg : j.gap = 0) : charEnd b j s = s.modCon b (fun c =>
      { c with job := some { j with
          byte := s.mem.read (j.offset + (j.next + 1))
          sent := j.sent + 1
          next := j.next + 1
          phase := .character s.time.count } }) := by
  simp only [charEnd, ht, if_pos hn, if_pos hg]
  rfl

/-- R94, R95: the last character ends the job, and so does the one that an abort lets finish. -/
theorem charEnd_last {s : State} {b : Bay} {j : TxJob} {st : Status}
    (h : s.con[b.val].tx = .finishing st ∨ s.con[b.val].tx = .sending ∧ j.length ≤ j.next + 1 ∧ st = .ok) :
    charEnd b j s = endSend b { j with sent := j.sent + 1, next := j.next + 1 } st s := by
  obtain ht | ⟨ht, hn, rfl⟩ := h
  · simp only [charEnd, ht]
  · simp only [charEnd, ht, if_neg (not_lt.2 hn)]

theorem gapEnd_exec {s : State} {b : Bay} {j : TxJob} {start : Tick} (hj : s.con[b.val].job = some j)
    (hp : j.phase = .gap start) (he : elapsed start s.time.count = j.gap) :
    exec (.gapEnd b) s = commit s (sendNext b j s) := by
  change execGapEnd b s = _
  have hpassed : s.passed start j.gap = true := decide_eq_true he
  simp only [execGapEnd, hj, hp, hpassed, if_true]

theorem charactersAndGapsFollow : CharactersAndGapsFollow := by
  refine fun s b j start hj => ⟨fun hp he => ?_, fun hp he => (gapEnd_exec hj hp he).trans (commit_job b _ s)⟩
  rw [characterEnd_exec hj hp he]
  refine ⟨fun ht hn => ⟨fun hg => ?_, fun hg => ?_⟩, fun st h => ?_⟩
  · rw [charEnd_gap ht hn hg]
    exact commit_job b _ s
  · rw [charEnd_next ht hn hg]
    exact commit_job b _ s
  · rw [charEnd_last h]
    exact commit_endSend b _ st s

/-! ### The level of CON_TX (R80, R94) -/

theorem conTx_stopped {s : State} {b : Bay} (ha : s.active b = false) : s.conTx b = none := by
  simp only [State.conTx, ha, Bool.false_eq_true, if_false]

theorem conTx_idle {s : State} {b : Bay} (ha : s.active b = true) (hj : s.con[b.val].job = none) :
    s.conTx b = some true := by
  simp only [State.conTx, ha, hj, if_true]

theorem conTx_gap {s : State} {b : Bay} {j : TxJob} {start : Tick} (ha : s.active b = true)
    (hj : s.con[b.val].job = some j) (hp : j.phase = .gap start) : s.conTx b = some true := by
  simp only [State.conTx, ha, hj, hp, if_true]

/-- R94: in bit time `i` of a character CON_TX carries the character's bit `i`. -/
theorem conTx_character {s : State} {b : Bay} {j : TxJob} {start : Tick} {i r : Nat} (ha : s.active b = true)
    (hj : s.con[b.val].job = some j) (hp : j.phase = .character start) (hr : r < s.con[b.val].divisor)
    (he : elapsed start s.time.count = i * s.con[b.val].divisor + r) : s.conTx b = some (charBit j.byte i) := by
  have hi : (i * s.con[b.val].divisor + r) / s.con[b.val].divisor = i := by
    rw [Nat.mul_comm, Nat.mul_add_div (Nat.zero_lt_of_lt hr), Nat.div_eq_of_lt hr, Nat.add_zero]
  simp only [State.conTx, ha, hj, hp, State.now_eq, he, hi, if_true]

theorem transmitLevels : TransmitLevels := by
  refine fun s b => ⟨conTx_stopped, fun ha => ⟨conTx_idle ha, fun j start hj => ⟨conTx_gap ha hj, ?_⟩⟩⟩
  intro i r hp hr _ he
  rw [conTx_character ha hj hp hr he]
  refine ⟨fun h0 => ?_, fun h1 h8 => ?_, fun h9 => ?_⟩
  · rw [h0]
    rfl
  · simp only [charBit, Nat.ne_of_gt h1, h8, if_true, if_false]
  · rw [h9]
    rfl

/-- Settles O24. -/
theorem sendSendsItsBytesInOrder : Obligations.SendSendsItsBytesInOrder := ⟨charactersAndGapsFollow, transmitLevels⟩

end Sys2Proof.Machine
end

section
/-! PROOF. What the actions of a fire and a condition event keep (R101 to R118): the ports but for their batches, every
slot that is not PARKED but for its report, and, but for the fire itself, the sequencers. -/

namespace Sys2Proof.Machine

/-! ### What programs on driven lines change (R177 to R180) -/

/-- A state that differs from another in the drivers and the streams alone. -/
structure Drives (s t : State) : Prop where
  eq : t = { s with drv := t.drv, str := t.str }

namespace Drives

theorem refl (s : State) : Drives s s := ⟨rfl⟩

theorem trans {s t u : State} (h : Drives s t) (k : Drives t u) : Drives s u := ⟨k.eq.trans (by rw [h.eq])⟩

theorem forEach {α : Type} (xs : List α) {f : α → State → State} (h : ∀ x s, Drives s (f x s)) (s : State) :
    Drives s (Machine.forEach xs f s) := by
  induction xs generalizing s with
  | nil => exact refl s
  | cons x rest ih => exact (h x s).trans (ih (f x s))

theorem modDrv (b : Bay) (f : Driver → Driver) (s : State) : Drives s (s.modDrv b f) := ⟨rfl⟩

theorem toRest (b : Bay) (d : OutLine) (c : DriveCause × Option Slot) (s : State) :
    Drives s (Machine.toRest b d c s) := ⟨rfl⟩

theorem releaseForce (b : Bay) (d : OutLine) (c : DriveCause × Option Slot) (s : State) :
    Drives s (Machine.releaseForce b d c s) := ⟨rfl⟩

theorem goActive (b : Bay) (d : OutLine) (p : LineProg) (o : Owner) (s : State) :
    Drives s (Machine.goActive b d p o s) := by
  cases p <;> exact ⟨rfl⟩

theorem startProgram (b : Bay) (d : OutLine) (p : LineProg) (o : Owner) (s : State) :
    Drives s (Machine.startProgram b d p o s) := by
  unfold Machine.startProgram
  split
  · exact goActive b d p o s
  · exact modDrv b _ s

theorem startBuffered (b : Bay) (d : OutLine) (s : State) : Drives s (Machine.startBuffered b d s) := by
  unfold Machine.startBuffered
  split
  · exact refl s
  · exact (modDrv b _ s).trans (startProgram b d _ _ _)

theorem arrive (b : Bay) (d : OutLine) (p : LineProg) (o : Owner) (s : State) :
    Drives s (Machine.arrive b d p o s) := by
  unfold Machine.arrive
  split
  · exact refl s
  · simp only
    split
    · split
      · exact ((releaseForce b d _ s).trans (modDrv b _ _)).trans (startBuffered b d _)
      · exact modDrv b _ s
    · split
      · exact startProgram b d _ o s
      · split
        · exact modDrv b _ s
        · exact (modDrv b _ s).trans (modDrv b _ _)

end Drives

/-! ### What a condition event keeps -/

/-- The ports stay but for their batches; a slot that is not PARKED stays but for its report, and joins no queue. -/
structure EventKeeps (s t : State) : Prop where
  port : ∀ c : Bay, t.con[c.val] = { s.con[c.val] with batch := t.con[c.val].batch }
  slot : ∀ i : Slot, s.slots[i.val].state ≠ .parked →
    t.slots[i.val] = { s.slots[i.val] with report := t.slots[i.val].report }
  queue : ∀ (b : Bay) (l : Lane) (i : Slot), s.slots[i.val].state ≠ .parked → i ∈ (t.lane b l).queue →
    i ∈ (s.lane b l).queue

/-- What the actions of a fire keep besides. -/
structure ActionKeeps (s t : State) : Prop extends EventKeeps s t where
  seq : t.seq = s.seq

namespace EventKeeps

theorem ofEq {s t : State} (con : t.con = s.con) (slots : t.slots = s.slots) (lanes : t.lanes = s.lanes) :
    EventKeeps s t :=
  ⟨fun _ => by rw [con], fun _ _ => by rw [slots], fun _ _ _ _ h => by rwa [State.lane, lanes] at h⟩

theorem refl (s : State) : EventKeeps s s := ofEq rfl rfl rfl

theorem trans {s t u : State} (h : EventKeeps s t) (k : EventKeeps t u) : EventKeeps s u := by
  have state (i : Slot) (hi : s.slots[i.val].state ≠ .parked) : t.slots[i.val].state ≠ .parked := by
    rwa [h.slot i hi]
  exact ⟨fun c => by rw [k.port c, h.port c], fun i hi => by rw [k.slot i (state i hi), h.slot i hi],
    fun b l i hi hm => h.queue b l i hi (k.queue b l i (state i hi) hm)⟩

theorem forEach {α : Type} (xs : List α) {f : α → State → State} (h : ∀ x s, EventKeeps s (f x s)) (s : State) :
    EventKeeps s (Machine.forEach xs f s) := by
  induction xs generalizing s with
  | nil => exact refl s
  | cons x rest ih => exact (h x s).trans (ih (f x s))

theorem modSeq (b : Bay) (f : Sequencer → Sequencer) (s : State) : EventKeeps s (s.modSeq b f) := ofEq rfl rfl rfl

end EventKeeps

theorem leaveOwnQueue_slots (i : Slot) (s : State) : (leaveOwnQueue i s).slots = s.slots := by
  unfold leaveOwnQueue
  split <;> rfl

namespace ActionKeeps

theorem ofEq {s t : State} (con : t.con = s.con) (slots : t.slots = s.slots) (lanes : t.lanes = s.lanes)
    (seq : t.seq = s.seq) : ActionKeeps s t := ⟨.ofEq con slots lanes, seq⟩

theorem refl (s : State) : ActionKeeps s s := ofEq rfl rfl rfl rfl

theorem trans {s t u : State} (h : ActionKeeps s t) (k : ActionKeeps t u) : ActionKeeps s u :=
  ⟨h.toEventKeeps.trans k.toEventKeeps, k.seq.trans h.seq⟩

theorem ofDrives {s t : State} (h : Drives s t) : ActionKeeps s t :=
  ofEq (by rw [h.eq]) (by rw [h.eq]) (by rw [h.eq]) (by rw [h.eq])

theorem modStr (b : Bay) (f : Stream → Stream) (s : State) : ActionKeeps s (s.modStr b f) := ofEq rfl rfl rfl rfl

theorem offer (b : Bay) (body : RecordBody) (t : Tick) (s : State) : ActionKeeps s (Machine.offer b body t s) :=
  modStr b _ s

theorem store (a : Nat) (bytes : List Byte) (s : State) : ActionKeeps s (s.store a bytes) := ofEq rfl rfl rfl rfl

theorem raiseBay (b : Bay) (f : BayFactor) (s : State) : ActionKeeps s (Machine.raiseBay b f s) := ofEq rfl rfl rfl rfl

/-! #### Streams -/

theorem deliverAll (b : Bay) (us : List PageUse) (s : State) : ActionKeeps s (Machine.deliverAll b us s) := by
  induction us generalizing s with
  | nil => exact refl s
  | cons u rest ih =>
    have hpage (x : State) : ActionKeeps x (setPage u.page (.closed b) x) := ofEq rfl rfl rfl rfl
    exact ((((store _ _ s).trans (hpage _)).trans (modStr b _ _)).trans (raiseBay b _ _)).trans (ih _)

theorem closeBatch (b : Bay) (brk : Bool) (s : State) : ActionKeeps s (Machine.closeBatch b brk s) := by
  unfold Machine.closeBatch
  split
  · exact refl s
  · refine ⟨⟨fun c => ?_, fun _ _ => rfl, fun _ _ _ _ h => h⟩, rfl⟩
    rw [State.modCon_con, upd_get]
    split <;> rfl

theorem toDraining (b : Bay) (s : State) : ActionKeeps s (Machine.toDraining b s) :=
  (closeBatch b false s).trans (modStr b _ _)

theorem stopTrace (b : Bay) (p : Nat) (taken : Bool) (s : State) : ActionKeeps s (Machine.stopTrace b p taken s) := by
  have deliver (x : State) : ActionKeeps x
      ((Machine.deliverAll b s.str[b.val].retained x).modStr b (fun t => { t with retained := [] })) :=
    (deliverAll b _ x).trans (modStr b _ _)
  unfold Machine.stopTrace
  simp only
  split
  · split <;> split
    · exact ((modStr b _ s).trans (deliver _)).trans (toDraining b _)
    · exact (modStr b _ s).trans (toDraining b _)
    · exact (modStr b _ s).trans (deliver _)
    · exact modStr b _ s
  · exact refl s

/-! #### Slots -/

theorem report (i : Slot) (st : Status) (d : BitVec 16) (r : BitVec 64) (s : State) :
    ActionKeeps s (Machine.report i st d r s) := by
  refine ⟨⟨fun _ => rfl, fun k _ => ?_, fun _ _ _ _ h => h⟩, rfl⟩
  rw [Machine.report, State.modSlot_slots, upd_get]
  split <;> rfl

theorem endLinesIfDone (b : Bay) (s : State) : ActionKeeps s (Machine.endLinesIfDone b s) := by
  unfold Machine.endLinesIfDone
  split
  · exact refl s
  · split
    · exact (ofDrives (.modDrv b _ s)).trans (report _ _ _ _ _)
    · exact refl s

/-- A PARKED slot is free to change. -/
theorem modParked {i : Slot} (f : SlotRec → SlotRec) {s : State} (hi : s.slots[i.val].state = .parked) :
    ActionKeeps s (s.modSlot i f) := by
  refine ⟨⟨fun _ => rfl, fun k hk => ?_, fun _ _ _ _ h => h⟩, rfl⟩
  have hne : i ≠ k := by
    rintro rfl
    exact hk hi
  rw [State.modSlot_slots, upd_ne s.slots f hne]

/-- A lane changed so that no slot but a PARKED one joins its queue. -/
theorem modLane (b : Bay) (l : Lane) (f : LaneQ → LaneQ) (s : State)
    (hf : ∀ (q : LaneQ) (i : Slot), s.slots[i.val].state ≠ .parked → i ∈ (f q).queue → i ∈ q.queue) :
    ActionKeeps s (s.modLane b l f) := by
  refine ⟨⟨fun _ => rfl, fun _ _ => rfl, fun c k i hi h => ?_⟩, rfl⟩
  simp only [State.lane, State.modLane_lanes, upd_get] at h ⊢
  split at h
  · next e =>
    subst e
    rw [upd_get] at h
    split at h
    · exact hf _ i hi h
    · exact h
  · exact h

theorem leaveOwnQueue (i : Slot) (s : State) : ActionKeeps s (Machine.leaveOwnQueue i s) := by
  unfold Machine.leaveOwnQueue
  split
  · exact refl s
  · exact modLane _ _ _ s (fun _ _ _ h => (List.mem_filter.1 h).1)

/-- R132: a PARKED slot becomes REQUESTED at the tail of its queue. -/
theorem requestSlot {i : Slot} (base : Tick) {s : State} (hi : s.slots[i.val].state = .parked) :
    ActionKeeps s (Machine.requestSlot i base s) := by
  unfold Machine.requestSlot
  simp only
  split
  · exact modParked _ hi
  · next l _ =>
    have hlane := modLane s.slots[i.val].card.bayIx l (fun q => { q with queue := q.queue ++ [i] }) s
      (fun q k hk h => (List.mem_append.1 h).resolve_right (fun h => by
        obtain rfl := List.mem_singleton.1 h
        exact hk hi))
    exact hlane.trans
      (modParked (fun r => { r with state := .requested, deadline := s.slots[i.val].card.deadline base }) hi)

theorem closeCard {i : Slot} (st : Status) (d : BitVec 16) (r : BitVec 64) (t : Tick) {s : State}
    (hi : s.slots[i.val].state = .parked) : ActionKeeps s (Machine.closeCard i st d r t s) := by
  have hend (x : State) : ActionKeeps x (writeEnd i st d t r x) :=
    ((((store _ _ x).trans (store _ _ _)).trans (store _ _ _)).trans (store _ _ _)).trans (store _ _ _)
  have hslots (x : State) : (writeEnd i st d t r x).slots = x.slots := by
    simp only [writeEnd, writeCardState, State.store_slots]
  unfold Machine.closeCard
  simp only
  split
  · exact (hend s).trans (modParked _ (by rw [hslots, hi]))
  · exact ((store _ _ s).trans (hend _)).trans (modParked _ (by rw [hslots, State.store_slots, hi]))

theorem releaseSlot (i : Slot) (s : State) : ActionKeeps s (Machine.releaseSlot i s) := by
  unfold Machine.releaseSlot
  split
  · next hp =>
    have hi : s.slots[i.val].state = .parked := of_decide_eq_true hp
    split
    · exact (((leaveOwnQueue i s).trans (closeCard _ _ _ _ (by rw [leaveOwnQueue_slots, hi]))).trans (offer _ _ _ _)).trans
        (raiseBay _ _ _)
    · exact (requestSlot _ hi).trans (store _ _ _)
  · exact refl s

/-! #### Fires -/

/-- R112: the steps of a fire after the first. -/
theorem fire (b : Bay) (p : Program) (stage entry : Nat) (s : State) :
    ActionKeeps (seqFired b stage entry s) (Machine.fire b p stage entry s) := by
  have hold (x : State) : ActionKeeps x (fireHold p b x) := by
    unfold fireHold
    split <;> exact ofEq rfl rfl rfl rfl
  have release (x : State) : ActionKeeps x (fireRelease p x) := by
    unfold fireRelease
    split
    · split
      · exact releaseSlot _ x
      · exact refl x
    · exact refl x
  have stop (k : Bool) (x : State) : ActionKeeps x (fireStopTrace p b k x) := by
    unfold fireStopTrace
    split
    · exact stopTrace b _ k x
    · exact refl x
  have pulse (x : State) : ActionKeeps x (firePulse p b x) := by
    unfold firePulse
    split
    · split
      · exact (ofDrives (.arrive b _ _ _ x)).trans (endLinesIfDone b _)
      · exact refl x
    · exact refl x
  have notice (x : State) : ActionKeeps x (fireNotice p b x) := by
    unfold fireNotice
    split <;> exact ofEq rfl rfl rfl rfl
  unfold Machine.fire
  exact (((((hold _).trans (release _)).trans (offer b _ _ _)).trans (stop _ _)).trans (pulse _)).trans (notice _)

end ActionKeeps

namespace EventKeeps

theorem fire (b : Bay) (p : Program) (stage entry : Nat) (s : State) :
    EventKeeps s (Machine.fire b p stage entry s) :=
  (modSeq b _ s).trans (ActionKeeps.fire b p stage entry s).toEventKeeps

theorem takeOutcome (b : Bay) (p : Program) (stage i : Nat) (e : Entry) (s : State) :
    EventKeeps s (Machine.takeOutcome b p stage i e s) := by
  unfold Machine.takeOutcome
  split
  · exact fire b _ _ _ s
  · exact modSeq b _ s
  · split
    · exact modSeq b _ s
    · exact fire b _ _ _ s

theorem conditionEvent (b : Bay) (ev : Event) (s : State) : EventKeeps s (Machine.conditionEvent b ev s) := by
  unfold Machine.conditionEvent
  simp only
  split
  · split
    · split
      · exact (modSeq b _ s).trans (takeOutcome b _ _ _ _ _)
      · exact modSeq b _ s
    · exact refl s
  · exact refl s

end EventKeeps

/-! ### What an event makes of the sequencers -/

theorem fire_seq (b : Bay) (p : Program) (stage entry : Nat) (s : State) :
    (fire b p stage entry s).seq = (seqFired b stage entry s).seq := (ActionKeeps.fire b p stage entry s).seq

theorem takeOutcome_seq_congr {s x : State} (hs : x.seq = s.seq) (ht : x.time = s.time) (b : Bay) (p : Program)
    (stage i : Nat) (e : Entry) : (takeOutcome b p stage i e x).seq = (takeOutcome b p stage i e s).seq := by
  have hfire : (fire b p stage i x).seq = (fire b p stage i s).seq := by
    simp only [fire_seq, seqFired, State.modSeq_seq, State.now_eq, hs, ht]
  have henter (k : Nat) : (x.modSeq b (Sequencer.enter k x.now)).seq = (s.modSeq b (Sequencer.enter k s.now)).seq := by
    simp only [State.modSeq_seq, State.now_eq, hs, ht]
  unfold takeOutcome
  split
  · exact hfire
  · exact henter 1
  · split
    · exact henter (stage + 1)
    · exact hfire

/-- R101 to R103: an event makes of the sequencers what they and the instant determine. -/
theorem conditionEvent_seq_congr {s x : State} (hs : x.seq = s.seq) (ht : x.time = s.time) (b : Bay) (ev : Event) :
    (conditionEvent b ev x).seq = (conditionEvent b ev s).seq := by
  have hmod (f : Sequencer → Sequencer) : (x.modSeq b f).seq = (s.modSeq b f).seq := by
    simp only [State.modSeq_seq, hs]
  by_cases ha : s.seq[b.val].state = .armed
  · cases hp : s.seq[b.val].program with
    | none => simp only [conditionEvent, hs, ha, hp, if_true]
    | some p =>
      cases hk : s.seq[b.val].stage with
      | none => simp only [conditionEvent, hs, ha, hp, hk, if_true]
      | some stage =>
        cases hf : firstComplete stage ev p.entries (countEvent stage ev p.entries s.seq[b.val].counters) 0 with
        | none => simp only [conditionEvent, hs, ha, hp, hk, hf, if_true, hmod]
        | some e =>
          simp only [conditionEvent, hs, ha, hp, hk, hf, if_true]
          exact takeOutcome_seq_congr (hmod _) ht b _ _ _ _
  · simp only [conditionEvent, hs, if_neg ha]

end Sys2Proof.Machine
end

section
/-! PROOF. Good bytes at the Console Port (R84 to R91): the byte taken, and the patterns that it matches (O22). -/

namespace Sys2Proof.Machine

/-! ### Matches (R91) -/

theorem patternMatches_iff (window pat : List Byte) : patternMatches window pat = true ↔ pat <:+ window := by
  simp only [patternMatches, Bool.and_eq_true, decide_eq_true_eq]
  exact ⟨fun h => List.suffix_iff_eq_drop.2 h.2.symm,
    fun h => ⟨h.length_le, (List.suffix_iff_eq_drop.1 h).symm⟩⟩

theorem matchesFrom_eq_nil {window : List Byte} {pats : List (List Byte)} (h : ∀ pat ∈ pats, ¬ pat <:+ window)
    (k : Nat) : matchesFrom window pats k = [] := by
  induction pats generalizing k with
  | nil => rfl
  | cons pat rest ih =>
    obtain ⟨hpat, hrest⟩ := List.forall_mem_cons.1 h
    rw [matchesFrom, if_neg (mt (patternMatches_iff _ _).1 hpat), ih hrest]

/-- R91: the one pattern that matches. -/
theorem matchesFrom_eq_singleton {window pat : List Byte} {pats : List (List Byte)} {n : Nat} (hn : pats[n]? = some pat)
    (hm : pat <:+ window)
    (ho : ∀ (m : Nat) (other : List Byte), m ≠ n → pats[m]? = some other → ¬ other <:+ window) (k : Nat) :
    matchesFrom window pats k = [k + n] := by
  induction pats generalizing n k with
  | nil => cases hn
  | cons first rest ih =>
    cases n with
    | zero =>
      cases hn
      have hrest : ∀ other ∈ rest, ¬ other <:+ window := fun other h => by
        obtain ⟨m, hm⟩ := List.mem_iff_getElem?.1 h
        exact ho (m + 1) other (Nat.succ_ne_zero m) hm
      rw [matchesFrom, if_pos ((patternMatches_iff _ _).2 hm), matchesFrom_eq_nil hrest]
      rfl
    | succ n =>
      have hfirst : ¬ first <:+ window := ho 0 first (Nat.succ_ne_zero n).symm rfl
      rw [matchesFrom, if_neg (mt (patternMatches_iff _ _).1 hfirst),
        ih hn (fun m other hne => ho (m + 1) other (fun e => hne (Nat.succ.inj e))), Nat.add_assoc, Nat.add_comm 1 n]

/-- R91: no pattern of an ARMED program matches. -/
theorem consoleMatches_eq_nil {s : State} {b : Bay} (h : s.seq[b.val].state ≠ .armed
    ∨ ∀ p pat, s.seq[b.val].program = some p → pat ∈ p.patterns → ¬ pat <:+ s.con[b.val].window) :
    s.consoleMatches b = [] := by
  by_cases ha : s.seq[b.val].state = .armed
  · cases hp : s.seq[b.val].program with
    | none => simp only [State.consoleMatches, ha, hp, if_true]
    | some p =>
      simp only [State.consoleMatches, ha, hp, if_true]
      exact matchesFrom_eq_nil (fun pat => h.resolve_left (fun hn => hn ha) p pat hp) 0
  · simp only [State.consoleMatches, if_neg ha]

theorem consoleMatches_eq_singleton {s : State} {b : Bay} {p : Program} {n : Nat} {pat : List Byte}
    (ha : s.seq[b.val].state = .armed) (hp : s.seq[b.val].program = some p) (hn : p.patterns[n]? = some pat)
    (hm : pat <:+ s.con[b.val].window)
    (ho : ∀ (m : Nat) (other : List Byte), m ≠ n → p.patterns[m]? = some other → ¬ other <:+ s.con[b.val].window) :
    s.consoleMatches b = [n] := by
  simp only [State.consoleMatches, ha, hp, if_true]
  rw [matchesFrom_eq_singleton hn hm ho, Nat.zero_add]

theorem EventKeeps.matchEvents (b : Bay) (s : State) : EventKeeps s (Machine.matchEvents b s) :=
  forEach _ (fun p s => conditionEvent b (.consoleMatch p) s) s

/-! ### The byte taken (R84, R85, R90) -/

/-- R84, R85, R90: a good byte counted, batched and joined to the match window. -/
def byteTaken (b : Bay) (s : State) : State :=
  (batchByte b s.con[b.val].data false s.con[b.val].fall s.con[b.val].stopTime
    (s.modCon b (fun c => { c with rx := .idle, received := c.received + 1#32 }))).modCon b
    (fun c => { c with window := pushWindow c.window c.data })

theorem goodByte_eq (b : Bay) (s : State) : goodByte b s = matchEvents b (byteTaken b s) := rfl

theorem PortInput.byteTaken (b : Bay) (s : State) : PortInput b s (Machine.byteTaken b s) :=
  ((modCon b _ s).trans (batchByte b _ _ _ _ _)).trans (modCon b _ _)

theorem byteTaken_con (b : Bay) (s : State) : (byteTaken b s).con[b.val] = { s.con[b.val] with
    rx := .idle
    received := s.con[b.val].received + 1#32
    window := pushWindow s.con[b.val].window s.con[b.val].data
    batch := (byteTaken b s).con[b.val].batch } := by
  simp only [byteTaken, State.modCon_con, upd_self]
  rw [batchByte_con]
  simp only [State.modCon_con, upd_self]

theorem byteTaken_batched (b : Bay) (s : State) : Batched s (byteTaken b s) b s.con[b.val].data false := by
  have h := batchByte_batched b s.con[b.val].data false
    (s.modCon b (fun c => { c with rx := .idle, received := c.received + 1#32 }))
  simpa only [Batched, byteTaken, batchAfter, stopSample, Console.stopTime, State.modCon_con, State.modCon_str,
    upd_self] using h

/-- Settles O22: the byte taken, and then its matches in order. -/
theorem goodByteIsCountedBatchedAndMatched : Obligations.GoodByteIsCountedBatchedAndMatched := by
  intro s b ha hr hi he
  have hexec : exec (.goodByte b) s = commit s (goodByte b s) := by
    change execGoodByte b s = _
    simp only [execGoodByte, (State.atSample_iff ha hr (hi ▸ he) 9).2 hi, if_true]
  obtain ⟨t, ht, hcommit, hafter⟩ := afterEvents (s := s) (Effects.goodByte b s) rfl
  have hp := PortInput.byteTaken b s
  have hcon := ((EventKeeps.matchEvents b (byteTaken b s)).port b).trans (by rw [byteTaken_con b s])
  have htcon : t.con = (goodByte b s).con := by rw [hcommit, publish_con, signalLine_con]
  rw [← goodByte_eq, ← htcon] at hcon
  have hwindow : t.con[b.val].window = (byteTaken b s).con[b.val].window := by rw [hcon, byteTaken_con b s]
  refine ⟨t, hexec.trans ht, hafter, ?_, ?_, ?_, ?_, ?_, fun hnone => ?_, fun p n pat harmed hprog hpat hm ho => ?_⟩
  · rw [hcon]
  · rw [hcon]
  · rw [hcon]
    rfl
  · rw [hcon]
  · rw [hcon]
  · have hmatch : goodByte b s = byteTaken b s := by
      rw [hwindow, ← hp.seq] at hnone
      rw [goodByte_eq, matchEvents, consoleMatches_eq_nil hnone]
      rfl
    rw [hmatch] at hcommit
    subst hcommit
    simp only [Batched, publish_con, publish_str, signalLine_con, signalLine_str]
    exact ⟨hp.outcome rfl rfl, byteTaken_batched b s, fun c hc => ⟨hp.con c hc, hp.str c hc⟩, hp.publish_unchanged⟩
  · have hmatch : goodByte b s = conditionEvent b (.consoleMatch n) (byteTaken b s) := by
      rw [hwindow] at hm ho
      rw [← hp.seq] at harmed hprog
      rw [goodByte_eq, matchEvents, consoleMatches_eq_singleton harmed hprog hpat hm ho]
      rfl
    refine ⟨byteTaken b s, ?_, hp.eq, byteTaken_batched b s⟩
    rw [hcommit, hmatch]
    exact leaves_blockArea (fun a h => by rw [(Effects.conditionEvent b _ _).area a h, hp.mem])

end Sys2Proof.Machine
end

section
/-! PROOF. Programs on driven lines (R176 to R183): how a program starts, and what the abort of a LINES job takes. -/

namespace Sys2Proof.Machine

/-! ### Starts (R178, R179) -/

/-- R178, R179: the program goes active at once. -/
def goesActive (p : LineProg) (l : DrvLine) : Bool := p.delayTicks = 0 && !l.justRested

theorem goesActive_iff {p : LineProg} (hp : p ≠ .release) (l : DrvLine) : goesActive p l = true ↔ GoesActive p l := by
  have hdelay (n : Nat) : micros n = 0 ↔ n = 0 := by
    simp only [micros]
    omega
  cases p with
  | release => exact absurd rfl hp
  | timed n w => simp [goesActive, GoesActive, LineProg.delayTicks, hdelay]
  | force n => simp [goesActive, GoesActive, LineProg.delayTicks, hdelay]

theorem waitTicks_eq {p : LineProg} (hp : p ≠ .release) :
    (if p.delayTicks = 0 then 1 else p.delayTicks) = waitTicks p := by
  cases p with
  | release => exact absurd rfl hp
  | timed n _ | force n =>
    simp only [LineProg.delayTicks, micros, waitTicks]
    exact if_congr (by omega) rfl rfl

/-- R178: a program that does not go active at once waits. -/
theorem startProgram_waiting {b : Bay} {d : OutLine} {p : LineProg} {o : Owner} {s : State} (hp : p ≠ .release)
    (h : ¬ GoesActive p s.drv[b.val].lines[d.val]) :
    startProgram b d p o s = s.modOutLine b d (waitingLine p o s.time.count) := by
  have hg : (p.delayTicks = 0 && !s.drv[b.val].lines[d.val].justRested) = false :=
    eq_false_of_ne_true (mt (goesActive_iff hp _).1 h)
  simp only [startProgram, hg, Bool.false_eq_true, if_false, waitTicks_eq hp]
  rfl

theorem ownerRecord_eq (d : OutLine) (level : Bool) (o : Owner) (now : Tick) :
    (⟨now, .drive d level (ownerCause o).1 (ownerCause o).2⟩ : Record) = driveRecord d level o now := by
  cases o <;> rfl

/-- Two changes of a line that agree on it, with the same change of the job. -/
theorem upd_line_congr (v : Vector Driver 8) (b : Bay) (d : OutLine) {f g : DrvLine → DrvLine}
    (k : Option LinesJob → Option LinesJob) (h : f v[b.val].lines[d.val] = g v[b.val].lines[d.val]) :
    upd v b (fun x => { lines := upd x.lines d f, job := k x.job })
      = upd v b (fun x => { lines := upd x.lines d g, job := k x.job }) :=
  upd_congr v b (congrArg (fun lines => Driver.mk lines (k v[b.val].job)) (upd_congr v[b.val].lines d h))

theorem countCompleted_eq (b : Bay) (o : Owner) (s : State) :
    countCompleted b o s = s.modDrv b (fun v => { v with job := counted o v.job }) := by
  simp only [countCompleted, counted, LinesJob.owns, decide_eq_true_eq]

theorem goActive_drv {b : Bay} {d : OutLine} {p : LineProg} {o : Owner} {s : State} (hp : p ≠ .release) :
    (goActive b d p o s).drv = upd s.drv b (fun v =>
      { lines := upd v.lines d (activeLine p o s.time.count), job := countedActive p o v.job }) := by
  cases p with
  | release => exact absurd rfl hp
  | timed n w =>
    simp only [goActive, setLevel, offer, State.modStr_drv, State.modOutLine, State.modDrv, upd_upd]
    exact upd_line_congr s.drv b d (fun job => job) rfl
  | force n =>
    simp only [goActive, countCompleted_eq, setLevel, offer, State.modStr_drv, State.modOutLine, State.modDrv, upd_upd]
    exact upd_line_congr s.drv b d (countedActive (.force n) o) rfl

theorem goActive_str (b : Bay) (d : OutLine) (p : LineProg) (o : Owner) (s : State) : (goActive b d p o s).str
    = upd s.str b (fun v => v.offer (driveRecord d (!s.drv[b.val].lines[d.val].rest) o s.time.count)) := by
  rw [← ownerRecord_eq]
  cases p <;> rfl

/-- R178, R179, R182: a program that goes active. -/
theorem startProgram_active {b : Bay} {d : OutLine} {p : LineProg} {o : Owner} {s : State} (hp : p ≠ .release)
    (h : GoesActive p s.drv[b.val].lines[d.val]) : startProgram b d p o s = { s with
      drv := upd s.drv b (fun v =>
        { lines := upd v.lines d (activeLine p o s.time.count), job := countedActive p o v.job })
      str := upd s.str b (fun v => v.offer (driveRecord d (!s.drv[b.val].lines[d.val].rest) o s.time.count)) } := by
  have hg : (p.delayTicks = 0 && !s.drv[b.val].lines[d.val].justRested) = true := (goesActive_iff hp _).2 h
  rw [startProgram, if_pos hg, ← goActive_drv hp, ← goActive_str b d p o s]
  exact (Drives.goActive b d p o s).eq

/-! ### Passes over the lines of a bay (R183) -/

/-- The records of a pass over lines: `r` from each line for which `p` holds, in order. -/
def passRecords (b : Bay) (p : DrvLine → Bool) (r : OutLine → DrvLine → Record) (ds : List OutLine) (s : State) :
    List Record :=
  (ds.filter (fun d => p s.drv[b.val].lines[d.val])).map (fun d => r d s.drv[b.val].lines[d.val])

/-- A pass over the lines `ds` of a bay changes each of them by `g` and offers its records to the bay's stream. -/
structure LinesPass (b : Bay) (g : DrvLine → DrvLine) (p : DrvLine → Bool) (r : OutLine → DrvLine → Record)
    (ds : List OutLine) (s t : State) : Prop extends Drives s t where
  other : ∀ c : Bay, c ≠ b → t.drv[c.val] = s.drv[c.val] ∧ t.str[c.val] = s.str[c.val]
  line : ∀ d : OutLine, t.drv[b.val].lines[d.val]
    = if d ∈ ds then g s.drv[b.val].lines[d.val] else s.drv[b.val].lines[d.val]
  records : t.str[b.val] = (passRecords b p r ds s).foldl (fun v x => v.offer x) s.str[b.val]

namespace LinesPass

variable {b : Bay} {g f : DrvLine → DrvLine} {p : DrvLine → Bool} {r : OutLine → DrvLine → Record} {d : OutLine}
  {ds : List OutLine} {s t u : State}

theorem nil (s : State) : LinesPass b g p r [] s s := ⟨.refl s, fun _ _ => ⟨rfl, rfl⟩, fun _ => rfl, rfl⟩

/-- A line that the pass leaves. -/
theorem same (hg : g s.drv[b.val].lines[d.val] = s.drv[b.val].lines[d.val])
    (hp : p s.drv[b.val].lines[d.val] = false) : LinesPass b g p r [d] s s := by
  refine ⟨.refl s, fun _ _ => ⟨rfl, rfl⟩, fun e => ?_, by simp [passRecords, hp]⟩
  split
  · next h =>
    obtain rfl := List.mem_singleton.1 h
    exact hg.symm
  · rfl

/-- A line changed by a driver's change, as read afterwards. -/
theorem line_of_drv {k : Driver → Option LinesJob} (hdrv : t.drv = upd s.drv b (fun v =>
      { lines := upd v.lines d f, job := k v })) (hf : f s.drv[b.val].lines[d.val] = g s.drv[b.val].lines[d.val])
    (e : OutLine) : t.drv[b.val].lines[e.val]
      = if e ∈ [d] then g s.drv[b.val].lines[e.val] else s.drv[b.val].lines[e.val] := by
  simp only [hdrv, upd_self, upd_get, List.mem_singleton]
  by_cases h : d = e
  · subst h
    rw [if_pos rfl, if_pos rfl, hf]
  · rw [if_neg h, if_neg (Ne.symm h)]

/-- A line changed without a record. -/
theorem quiet {k : Driver → Option LinesJob} (h : Drives s t)
    (hdrv : t.drv = upd s.drv b (fun v => { lines := upd v.lines d f, job := k v })) (hstr : t.str = s.str)
    (hf : f s.drv[b.val].lines[d.val] = g s.drv[b.val].lines[d.val]) (hp : p s.drv[b.val].lines[d.val] = false) :
    LinesPass b g p r [d] s t :=
  ⟨h, fun _ hc => ⟨by rw [hdrv, upd_ne s.drv _ hc.symm], by rw [hstr]⟩, line_of_drv hdrv hf,
    by simp [passRecords, hp, hstr]⟩

/-- A line changed with a record. -/
theorem recorded {k : Driver → Option LinesJob} (h : Drives s t)
    (hdrv : t.drv = upd s.drv b (fun v => { lines := upd v.lines d f, job := k v }))
    (hstr : t.str = upd s.str b (fun v => v.offer (r d s.drv[b.val].lines[d.val])))
    (hf : f s.drv[b.val].lines[d.val] = g s.drv[b.val].lines[d.val]) (hp : p s.drv[b.val].lines[d.val] = true) :
    LinesPass b g p r [d] s t :=
  ⟨h, fun _ hc => ⟨by rw [hdrv, upd_ne s.drv _ hc.symm], by rw [hstr, upd_ne s.str _ hc.symm]⟩, line_of_drv hdrv hf,
    by simp [passRecords, hp, hstr]⟩

theorem line_ne (h : LinesPass b g p r [d] s t) {e : OutLine} (he : e ≠ d) :
    t.drv[b.val].lines[e.val] = s.drv[b.val].lines[e.val] := by
  rw [h.line, if_neg (mt List.mem_singleton.1 he)]

/-- A pass over one line, and then over others. -/
theorem cons (h : LinesPass b g p r [d] s t) (k : LinesPass b g p r ds t u) (hd : d ∉ ds) :
    LinesPass b g p r (d :: ds) s u := by
  have keep (e : OutLine) (he : e ∈ ds) : t.drv[b.val].lines[e.val] = s.drv[b.val].lines[e.val] :=
    h.line_ne (ne_of_mem_of_not_mem he hd)
  refine ⟨h.toDrives.trans k.toDrives,
    fun c hc => ⟨(k.other c hc).1.trans (h.other c hc).1, (k.other c hc).2.trans (h.other c hc).2⟩, fun e => ?_, ?_⟩
  · rw [k.line e]
    by_cases he : e ∈ ds
    · rw [if_pos he, if_pos (List.mem_cons_of_mem d he), keep e he]
    · rw [if_neg he, h.line e]
      simp only [List.mem_cons, he, List.not_mem_nil]
  · have hrest : passRecords b p r ds t = passRecords b p r ds s := by
      unfold passRecords
      rw [List.filter_congr (fun e he => by rw [keep e he])]
      exact List.map_congr_left (fun e he => by rw [keep e (List.mem_filter.1 he).1])
    have happend : passRecords b p r (d :: ds) s = passRecords b p r [d] s ++ passRecords b p r ds s := by
      rw [passRecords, ← List.singleton_append, List.filter_append, List.map_append]
      rfl
    rw [k.records, h.records, hrest, happend, List.foldl_append]

/-- A pass is made of its lines' changes, each from the line as it stood before the pass. -/
theorem forEach {now : Tick} {P : DrvLine → Prop} {op : OutLine → State → State}
    (hop : ∀ d x, x.time.count = now → P x.drv[b.val].lines[d.val] → LinesPass b g p r [d] x (op d x))
    (hn : ds.Nodup) (s : State) (hs : s.time.count = now) (hp : ∀ d ∈ ds, P s.drv[b.val].lines[d.val]) :
    LinesPass b g p r ds s (Machine.forEach ds op s) := by
  induction ds generalizing s with
  | nil => exact nil s
  | cons d rest ih =>
    obtain ⟨hd, hrest⟩ := List.nodup_cons.1 hn
    have h := hop d s hs (hp d List.mem_cons_self)
    refine h.cons (ih hrest (op d s) (by rw [h.eq]; exact hs) (fun e he => ?_)) hd
    rw [h.line_ne (ne_of_mem_of_not_mem he hd)]
    exact hp e (List.mem_cons_of_mem d he)

theorem line_all (h : LinesPass b g p r allOutLines s t) (d : OutLine) :
    t.drv[b.val].lines[d.val] = g s.drv[b.val].lines[d.val] := by
  have hd : d ∈ allOutLines := by
    revert d
    decide
  rw [h.line, if_pos hd]

theorem time (h : LinesPass b g p r ds s t) : t.time = s.time := by rw [h.eq]

/-- A pass without records leaves the stream. -/
theorem records_none (h : LinesPass b g (fun _ => false) r ds s t) : t.str[b.val] = s.str[b.val] := by
  rw [h.records]
  simp [passRecords]

end LinesPass

/-! ### The steps of an abort (R183) -/

/-- R183 step 1 on one line. -/
def cutRunningOn (o : Owner) (l : DrvLine) : DrvLine :=
  if l.running.map Running.owner = some o then
    { l with running := none, level := some l.rest, justRested := decide (l.level ≠ some l.rest) || l.justRested }
  else l

/-- R183 step 1: the line returns to rest, with a DRIVE record. -/
def cutRunningMoves (o : Owner) (l : DrvLine) : Bool :=
  l.running.map Running.owner = some o && l.level ≠ some l.rest

/-- R180: the record of a line that returns to rest as its owner's program or force is taken off it. -/
def restRecord (o : Owner) (now : Tick) (d : OutLine) (l : DrvLine) : Record := driveRecord d l.rest o now

/-- R183 step 2 on one line. -/
def dropBufferedOn (o : Owner) (l : DrvLine) : DrvLine :=
  if l.buffered.map Buffered.owner = some o then { l with buffered := none } else l

/-- R183 step 3 on one line. -/
def dropForceOn (o : Owner) (l : DrvLine) : DrvLine :=
  if l.force = some o then { l with force := none, level := some l.rest, justRested := true } else l

/-- R183 step 4: the buffered program of a line left free. -/
def freeBuffered (l : DrvLine) : Option Buffered := if l.running = none ∧ l.force = none then l.buffered else none

/-- R183 step 4 on one line. -/
def restartOn (now : Tick) (l : DrvLine) : DrvLine :=
  match freeBuffered l with
  | none => l
  | some q =>
    if goesActive q.prog l then activeLine q.prog q.owner now { l with buffered := none }
    else waitingLine q.prog q.owner now { l with buffered := none }

/-- R183 step 4: the program goes active, with a DRIVE record. -/
def restartMoves (l : DrvLine) : Bool := (freeBuffered l).any (fun q => goesActive q.prog l)

/-- R180: the record of a restart, with the cause of the restarted program's owner; `o` where there is none. -/
def restartRecord (o : Owner) (now : Tick) (d : OutLine) (l : DrvLine) : Record :=
  driveRecord d (!l.rest) (((freeBuffered l).map Buffered.owner).getD o) now

theorem cutLine_steps (o : Owner) (l : DrvLine) : dropForceOn o (dropBufferedOn o (cutRunningOn o l)) = cutLine o l := by
  unfold dropForceOn dropBufferedOn cutRunningOn cutLine
  by_cases hr : l.running.map Running.owner = some o <;> by_cases hb : l.buffered.map Buffered.owner = some o <;>
    by_cases hf : l.force = some o <;> simp [hr, hb, hf]

theorem restarts_eq (o : Owner) (l : DrvLine) : restarts o l = freeBuffered (cutLine o l) := rfl

theorem runs_iff (l : DrvLine) (o : Owner) : l.runs o = true ↔ l.running.map Running.owner = some o := by
  cases h : l.running <;> simp [DrvLine.runs, h]

theorem buffers_iff (l : DrvLine) (o : Owner) : l.buffers o = true ↔ l.buffered.map Buffered.owner = some o := by
  cases h : l.buffered <;> simp [DrvLine.buffers, h]

/-- R180: a line changed and then returned to rest. -/
theorem toRest_drv (b : Bay) (d : OutLine) (c : DriveCause × Option Slot) (f : DrvLine → DrvLine) (s : State)
    (hf : ∀ l, (f l).rest = l.rest) : (toRest b d c (s.modOutLine b d f)).drv = upd s.drv b (fun v =>
      { lines := upd v.lines d (fun l => { f l with level := some l.rest, justRested := true }), job := v.job }) := by
  simp only [toRest, setLevel, offer, State.modStr_drv, State.modOutLine, State.modDrv, upd_upd, upd_self, hf]
  exact upd_line_congr s.drv b d (fun job => job) rfl

theorem toRest_str (b : Bay) (d : OutLine) (c : DriveCause × Option Slot) (f : DrvLine → DrvLine) (s : State)
    (hf : ∀ l, (f l).rest = l.rest) : (toRest b d c (s.modOutLine b d f)).str = upd s.str b (fun v =>
      v.offer ⟨s.time.count, .drive d s.drv[b.val].lines[d.val].rest c.1 c.2⟩) := by
  simp only [toRest, setLevel, offer, State.modOutLine, State.modDrv, State.modStr, upd_self, hf]
  rfl

theorem cutRunning_pass (b : Bay) (i : Slot) (accept now : Tick) (d : OutLine) (s : State) (hs : s.time.count = now) :
    LinesPass b (cutRunningOn (.job i accept)) (cutRunningMoves (.job i accept))
      (restRecord (.job i accept) now) [d] s (cutRunning b i (.job i accept) d s) := by
  subst hs
  by_cases hr : s.drv[b.val].lines[d.val].running.map Running.owner = some (.job i accept)
  · have hline : (s.modOutLine b d (fun l => { l with running := none })).drv[b.val].lines[d.val]
        = { s.drv[b.val].lines[d.val] with running := none } := by simp
    rw [cutRunning, if_pos ((runs_iff _ _).2 hr), toRestIfActive, hline]
    by_cases hl : s.drv[b.val].lines[d.val].level = some s.drv[b.val].lines[d.val].rest
    · rw [if_pos hl]
      refine .quiet (f := fun l => { l with running := none }) (.modDrv b _ s) rfl rfl ?_ ?_
      · simp [cutRunningOn, hr, ← hl]
      · simp [cutRunningMoves, hl]
    · rw [if_neg hl]
      refine .recorded ((Drives.modDrv b _ s).trans (.toRest b d _ _)) (toRest_drv b d _ _ s (fun _ => rfl))
        (toRest_str b d _ _ s (fun _ => rfl)) ?_ ?_
      · simp [cutRunningOn, hr, hl]
      · simp [cutRunningMoves, hr, hl]
  · rw [cutRunning, if_neg (mt (runs_iff _ _).1 hr)]
    exact .same (if_neg hr) (by simp [cutRunningMoves, hr])

theorem dropBuffered_pass (b : Bay) (o : Owner) (r : OutLine → DrvLine → Record) (d : OutLine) (s : State) :
    LinesPass b (dropBufferedOn o) (fun _ => false) r [d] s (dropBuffered b o d s) := by
  by_cases hb : s.drv[b.val].lines[d.val].buffered.map Buffered.owner = some o
  · rw [dropBuffered, if_pos ((buffers_iff _ _).2 hb)]
    exact .quiet (f := fun l => { l with buffered := none }) (.modDrv b _ s) rfl rfl (if_pos hb).symm rfl
  · rw [dropBuffered, if_neg (mt (buffers_iff _ _).1 hb)]
    exact .same (if_neg hb) rfl

theorem dropForce_pass (b : Bay) (i : Slot) (accept now : Tick) (d : OutLine) (s : State) (hs : s.time.count = now) :
    LinesPass b (dropForceOn (.job i accept)) (fun l => l.force = some (.job i accept))
      (restRecord (.job i accept) now) [d] s (dropForce b i (.job i accept) d s) := by
  subst hs
  by_cases hf : s.drv[b.val].lines[d.val].force = some (.job i accept)
  · rw [dropForce, if_pos hf, releaseForce]
    exact .recorded ((Drives.modDrv b _ s).trans (.toRest b d _ _)) (toRest_drv b d _ _ s (fun _ => rfl))
      (toRest_str b d _ _ s (fun _ => rfl)) (if_pos hf).symm (decide_eq_true hf)
  · rw [dropForce, if_neg hf]
    exact .same (if_neg hf) (decide_eq_false hf)

theorem restartLine_none {b : Bay} {d : OutLine} {s : State} (h : freeBuffered s.drv[b.val].lines[d.val] = none) :
    restartLine b d s = s := by
  by_cases hf : s.drv[b.val].lines[d.val].running = none ∧ s.drv[b.val].lines[d.val].force = none
  · rw [freeBuffered, if_pos hf] at h
    simp [restartLine, startBuffered, hf.1, hf.2, h]
  · have hbusy : (s.drv[b.val].lines[d.val].running.isNone && s.drv[b.val].lines[d.val].force.isNone) = false :=
      eq_false_of_ne_true (fun k => hf (by simpa using k))
    simp only [restartLine, hbusy, Bool.false_eq_true, if_false]

theorem restartLine_some {b : Bay} {d : OutLine} {s : State} {q : Buffered}
    (h : freeBuffered s.drv[b.val].lines[d.val] = some q) : restartLine b d s
      = startProgram b d q.prog q.owner (s.modOutLine b d (fun l => { l with buffered := none })) := by
  obtain ⟨⟨hr, hf⟩, hq⟩ := (Option.ite_none_right_eq_some).1 h
  simp [restartLine, startBuffered, hr, hf, hq]

/-- R177: the line's buffered program is TIMED or FORCE. -/
def DrvLine.startsNoRelease (l : DrvLine) : Prop := l.buffered.map Buffered.prog ≠ some .release

theorem restartLine_pass (b : Bay) (o : Owner) (now : Tick) (d : OutLine) (s : State) (hs : s.time.count = now)
    (hp : s.drv[b.val].lines[d.val].startsNoRelease) : LinesPass b (restartOn now) restartMoves
      (restartRecord o now) [d] s (restartLine b d s) := by
  subst hs
  cases h : freeBuffered s.drv[b.val].lines[d.val] with
  | none =>
    rw [restartLine_none h]
    exact .same (by simp only [restartOn, h]) (by simp [restartMoves, h])
  | some q =>
    have hq : s.drv[b.val].lines[d.val].buffered = some q := ((Option.ite_none_right_eq_some).1 h).2
    have hrel : q.prog ≠ .release := fun k => hp (by rw [hq, ← k]; rfl)
    have hline : (s.modOutLine b d (fun l => { l with buffered := none })).drv[b.val].lines[d.val]
        = { s.drv[b.val].lines[d.val] with buffered := none } := by simp
    have hgoes : GoesActive q.prog { s.drv[b.val].lines[d.val] with buffered := none }
        ↔ goesActive q.prog s.drv[b.val].lines[d.val] = true := (goesActive_iff hrel s.drv[b.val].lines[d.val]).symm
    rw [restartLine_some h]
    by_cases hg : goesActive q.prog s.drv[b.val].lines[d.val] = true
    · rw [startProgram_active hrel (by rw [hline, hgoes, hg])]
      refine .recorded (f := fun l => activeLine q.prog q.owner s.time.count { l with buffered := none })
        (k := fun v => countedActive q.prog q.owner v.job) ⟨rfl⟩ ?_ ?_ ?_ ?_
      · simp only [State.modOutLine, State.modDrv, upd_upd]
      · simp [restartRecord, h]
      · simp only [restartOn, h, hg, if_true]
      · simp [restartMoves, h, hg]
    · rw [startProgram_waiting hrel (by rw [hline, hgoes]; exact hg)]
      refine .quiet (f := fun l => waitingLine q.prog q.owner s.time.count { l with buffered := none })
        (k := fun v => v.job) ⟨rfl⟩ ?_ rfl ?_ ?_
      · simp only [State.modOutLine, State.modDrv, upd_upd]
      · simp only [restartOn, h, if_neg hg]
      · simp [restartMoves, h, hg]

/-! ### The abort of a LINES job (R183) -/

theorem cutLine_startsNoRelease {l : DrvLine} (o : Owner) (h : l.startsNoRelease) : (cutLine o l).startsNoRelease := by
  have hb : (cutLine o l).buffered = none ∨ (cutLine o l).buffered = l.buffered := ite_eq_or_eq _ none l.buffered
  unfold DrvLine.startsNoRelease
  obtain hb | hb := hb
  · simp [hb]
  · rwa [hb]

/-- R183: the lines once the steps of an abort have been taken. -/
def linesCut (b : Bay) (i : Slot) (o : Owner) (s : State) : State :=
  forEach allOutLines (restartLine b) (forEach allOutLines (dropForce b i o) (forEach allOutLines (dropBuffered b o)
    (forEach allOutLines (cutRunning b i o) s)))

theorem Drives.linesCut (b : Bay) (i : Slot) (o : Owner) (s : State) : Drives s (Machine.linesCut b i o s) := by
  refine (((Drives.forEach _ (fun d s => ?_) s).trans (.forEach _ (fun d s => ?_) _)).trans
    (.forEach _ (fun d s => ?_) _)).trans (.forEach _ (fun d s => ?_) _)
  · unfold cutRunning toRestIfActive
    split
    · split
      · exact modDrv b _ s
      · exact (modDrv b _ s).trans (toRest b d _ _)
    · exact refl s
  · unfold dropBuffered
    split
    · exact modDrv b _ s
    · exact refl s
  · unfold dropForce
    split
    · exact releaseForce b d _ s
    · exact refl s
  · unfold restartLine
    simp only
    split
    · exact startBuffered b d s
    · exact refl s

theorem linesAbort_owned {b : Bay} {i : Slot} {st : Status} {s : State} {j : LinesJob} (hj : s.drv[b.val].job = some j)
    (hi : j.slot = i) : linesAbort b i st s = report i st 0#16 j.result
      ((linesCut b i (.job i j.accept) s).modDrv b (fun v => { v with job := none })) := by
  subst hi
  simp only [linesAbort, hj, if_true]
  rfl

/-- R183: an abort for a job that the driver does not serve. -/
theorem linesAbort_other {b : Bay} {i : Slot} {st : Status} {s : State}
    (h : ∀ j, s.drv[b.val].job = some j → j.slot ≠ i) : linesAbort b i st s = s := by
  cases hj : s.drv[b.val].job with
  | none => simp only [linesAbort, hj]
  | some j => simp only [linesAbort, hj, if_neg (h j hj)]

/-- R183, with notes/assumptions/41.md: the changes of the lines and their records, step by step. -/
theorem linesCut_lines {b : Bay} {i : Slot} {accept : Tick} {s : State}
    (h : ∀ d : OutLine, s.drv[b.val].lines[d.val].startsNoRelease) :
    (∀ c : Bay, c ≠ b → (linesCut b i (.job i accept) s).drv[c.val] = s.drv[c.val]
      ∧ (linesCut b i (.job i accept) s).str[c.val] = s.str[c.val])
    ∧ (∀ d : OutLine, (linesCut b i (.job i accept) s).drv[b.val].lines[d.val]
      = restartOn s.time.count (cutLine (.job i accept) s.drv[b.val].lines[d.val]))
    ∧ (linesCut b i (.job i accept) s).str[b.val]
      = (passRecords b (cutRunningMoves (.job i accept)) (restRecord (.job i accept) s.time.count) allOutLines s
        ++ passRecords b (fun l => l.force = some (.job i accept)) (restRecord (.job i accept) s.time.count) allOutLines s
        ++ passRecords b (fun l => restartMoves (cutLine (.job i accept) l))
          (fun d l => restartRecord (.job i accept) s.time.count d (cutLine (.job i accept) l)) allOutLines s).foldl
        (fun v x => v.offer x) s.str[b.val] := by
  have hn : allOutLines.Nodup := by decide
  have h1 := LinesPass.forEach (P := fun _ => True) (now := s.time.count)
    (fun d x hx _ => cutRunning_pass b i accept _ d x hx) hn s rfl (fun _ _ => trivial)
  have h2 := LinesPass.forEach (P := fun _ => True) (now := s.time.count)
    (fun d x _ _ => dropBuffered_pass b (.job i accept) (restRecord (.job i accept) s.time.count) d x)
    hn _ (by rw [h1.time]) (fun _ _ => trivial)
  have h3 := LinesPass.forEach (P := fun _ => True) (now := s.time.count)
    (fun d x hx _ => dropForce_pass b i accept _ d x hx) hn _ (by rw [h2.time, h1.time]) (fun _ _ => trivial)
  have hline (d : OutLine) := (h3.line_all d).trans (by rw [h2.line_all, h1.line_all, cutLine_steps])
  have h4 := LinesPass.forEach (P := DrvLine.startsNoRelease) (now := s.time.count)
    (fun d x hx => restartLine_pass b (.job i accept) _ d x hx) hn _ (by rw [h3.time, h2.time, h1.time])
    (fun d _ => by
      rw [hline]
      exact cutLine_startsNoRelease _ (h d))
  refine ⟨fun c hc => ?_, fun d => ?_, ?_⟩
  · obtain ⟨d1, r1⟩ := h1.other c hc
    obtain ⟨d2, r2⟩ := h2.other c hc
    obtain ⟨d3, r3⟩ := h3.other c hc
    obtain ⟨d4, r4⟩ := h4.other c hc
    exact ⟨d4.trans (d3.trans (d2.trans d1)), r4.trans (r3.trans (r2.trans r1))⟩
  · exact (h4.line_all d).trans (by rw [hline])
  · have hforce (l : DrvLine) : (dropBufferedOn (.job i accept) (cutRunningOn (.job i accept) l)).force = l.force
        ∧ (dropBufferedOn (.job i accept) (cutRunningOn (.job i accept) l)).rest = l.rest := by
      unfold dropBufferedOn cutRunningOn
      split <;> split <;> exact ⟨rfl, rfl⟩
    rw [linesCut, h4.records, h3.records, h2.records_none, h1.records, ← List.foldl_append, ← List.foldl_append]
    simp only [passRecords, restRecord, hline, h2.line_all, h1.line_all, hforce, List.append_assoc]

theorem restarts_ne_release {o : Owner} {l : DrvLine} {q : Buffered} (hl : l.startsNoRelease)
    (h : restarts o l = some q) : q.prog ≠ .release := by
  have hq : (cutLine o l).buffered = some q := ((Option.ite_none_right_eq_some).1 h).2
  exact fun k => cutLine_startsNoRelease o hl (by rw [hq, ← k]; rfl)

/-- R183 step 4: what a restart makes of a line. -/
theorem restartOn_cutLine {o : Owner} {l : DrvLine} (now : Tick) (hl : l.startsNoRelease) :
    (restarts o l = none → restartOn now (cutLine o l) = cutLine o l)
    ∧ ∀ q : Buffered, restarts o l = some q →
      (GoesActive q.prog (cutLine o l) →
        restartOn now (cutLine o l) = activeLine q.prog q.owner now { cutLine o l with buffered := none })
      ∧ (¬ GoesActive q.prog (cutLine o l) →
        restartOn now (cutLine o l) = waitingLine q.prog q.owner now { cutLine o l with buffered := none }) := by
  refine ⟨fun h => ?_, fun q h => ?_⟩
  · rw [restarts_eq] at h
    simp only [restartOn, h]
  · have hg := goesActive_iff (restarts_ne_release hl h) (cutLine o l)
    rw [restarts_eq] at h
    refine ⟨fun k => ?_, fun k => ?_⟩
    · simp only [restartOn, h, if_pos (hg.2 k)]
    · simp only [restartOn, h, if_neg (mt hg.1 k)]

/-- R183 step 4: the lines whose restart gives a record. -/
theorem restartMoves_iff {o : Owner} {l : DrvLine} (hl : l.startsNoRelease) : restartMoves (cutLine o l) = true
    ↔ ∃ q, restarts o l = some q ∧ GoesActive q.prog (cutLine o l) := by
  rw [restartMoves, Option.any_eq_true, ← restarts_eq]
  exact exists_congr (fun q => and_congr_right (fun h => goesActive_iff (restarts_ne_release hl h) _))

theorem cutRunningMoves_iff (o : Owner) (l : DrvLine) : cutRunningMoves o l = true
    ↔ l.running.map Running.owner = some o ∧ l.level ≠ some l.rest := by
  simp only [cutRunningMoves, Bool.and_eq_true, decide_eq_true_eq]

/-- The lines of a bay for which a condition holds, in ascending order. -/
theorem mem_filter_allOutLines (p : OutLine → Bool) (d : OutLine) : d ∈ allOutLines.filter p ↔ p d = true := by
  have hd : ∀ d, d ∈ allOutLines := by decide
  simp only [List.mem_filter, hd d, true_and]

theorem filter_allOutLines_ascending (p : OutLine → Bool) : (allOutLines.filter p).Pairwise (· < ·) :=
  (show allOutLines.Pairwise (· < ·) by decide).filter p

theorem linesAbortTakesItsLines : LinesAbortTakesItsLines := by
  refine fun s b i st => ⟨fun j o hj hi ho hbuf => ?_, linesAbort_other⟩
  subst ho
  have hdrives := Drives.linesCut b i (.job i j.accept) s
  obtain ⟨hother, hline, hstr⟩ := linesCut_lines (i := i) (accept := j.accept) hbuf
  have hnow : (linesCut b i (.job i j.accept) s).time = s.time := by rw [hdrives.eq]
  have hslots : (linesCut b i (.job i j.accept) s).slots = s.slots := by rw [hdrives.eq]
  have hdrv : (linesAbort b i st s).drv
      = upd (linesCut b i (.job i j.accept) s).drv b (fun v => { v with job := none }) := by
    rw [linesAbort_owned hj hi, report_drv, State.modDrv_drv]
  have hstr' : (linesAbort b i st s).str = (linesCut b i (.job i j.accept) s).str := by
    rw [linesAbort_owned hj hi, report_str, State.modDrv_str]
  refine ⟨_, rfl, ?_, fun c hc => ⟨?_, ?_⟩, ?_, ?_, fun d l hl => ?_, ?_⟩
  · have heq : linesAbort b i st s = { linesCut b i (.job i j.accept) s with
        drv := (linesAbort b i st s).drv
        str := (linesAbort b i st s).str
        slots := (linesAbort b i st s).slots } := by
      rw [linesAbort_owned hj hi]
      generalize linesCut b i (.job i j.accept) s = x
      rfl
    exact heq.trans (by rw [hdrives.eq])
  · rw [hdrv, upd_ne _ _ hc.symm, (hother c hc).1]
  · rw [hstr', (hother c hc).2]
  · rw [linesAbort_owned hj hi, report, State.modSlot_slots, State.now_eq, State.modDrv_slots, State.modDrv_time, hnow,
      hslots]
    rfl
  · rw [hdrv, upd_self]
  · subst hl
    rw [hdrv, upd_self, hline]
    exact restartOn_cutLine s.time.count (hbuf d)
  · refine ⟨allOutLines.filter (fun d => cutRunningMoves (.job i j.accept) s.drv[b.val].lines[d.val]),
      allOutLines.filter (fun d => s.drv[b.val].lines[d.val].force = some (.job i j.accept)),
      allOutLines.filter (fun d => restartMoves (cutLine (.job i j.accept) s.drv[b.val].lines[d.val])), ?_,
      filter_allOutLines_ascending _, filter_allOutLines_ascending _, filter_allOutLines_ascending _,
      fun d => ?_, fun d => ?_, fun d => ?_⟩
    · rw [hstr', hstr]
      rfl
    · rw [mem_filter_allOutLines, cutRunningMoves_iff]
    · rw [mem_filter_allOutLines, decide_eq_true_eq]
    · rw [mem_filter_allOutLines, restartMoves_iff (hbuf d)]

end Sys2Proof.Machine
end

section
/-! PROOF. Deadlines and aborts (R142 to R146): a deadline that expires, and what the owner of a job then does (O37). -/

namespace Sys2Proof.Machine

/-! ### What an owner that is asked changes (R142) -/

/-- What an owner leaves of the Dispatcher, the sequencers and the notices: of the slots it changes reports alone. -/
structure OwnerActs (s t : State) : Prop where
  seq : t.seq = s.seq
  lanes : t.lanes = s.lanes
  disp : t.disp = s.disp
  notices : t.notices = s.notices
  state : ∀ k : Slot, t.slots[k.val].state = s.slots[k.val].state

namespace OwnerActs

theorem ofEq {s t : State} (seq : t.seq = s.seq) (lanes : t.lanes = s.lanes) (disp : t.disp = s.disp)
    (notices : t.notices = s.notices) (slots : t.slots = s.slots) : OwnerActs s t :=
  ⟨seq, lanes, disp, notices, fun _ => by rw [slots]⟩

theorem refl (s : State) : OwnerActs s s := ofEq rfl rfl rfl rfl rfl

theorem trans {s t u : State} (h : OwnerActs s t) (k : OwnerActs t u) : OwnerActs s u :=
  ⟨k.seq.trans h.seq, k.lanes.trans h.lanes, k.disp.trans h.disp, k.notices.trans h.notices,
    fun i => (k.state i).trans (h.state i)⟩

theorem ofDrives {s t : State} (h : Drives s t) : OwnerActs s t :=
  ofEq (by rw [h.eq]) (by rw [h.eq]) (by rw [h.eq]) (by rw [h.eq]) (by rw [h.eq])

theorem modEng (e : EngineId) (f : Engine → Engine) (s : State) : OwnerActs s (s.modEng e f) := ofEq rfl rfl rfl rfl rfl

theorem report (i : Slot) (st : Status) (d : BitVec 16) (r : BitVec 64) (s : State) :
    OwnerActs s (Machine.report i st d r s) := ⟨rfl, rfl, rfl, rfl, fun k => report_state i k st d r s⟩

/-! #### The engines -/

theorem endJob (e : EngineId) (st : Status) (d : BitVec 16) (s : State) : OwnerActs s (Machine.endJob e st d s) := by
  unfold Machine.endJob
  simp only
  split
  · exact refl s
  · exact (show OwnerActs s ((s.modEng e _).modPort _ _) from ofEq rfl rfl rfl rfl rfl).trans (report _ _ _ _ _)

theorem meetCheck (e : EngineId) (s : State) : OwnerActs s (Machine.meetCheck e s) := by
  have hdraw : OwnerActs s { s with checkDraws := s.checkDraws + 1 } := ofEq rfl rfl rfl rfl rfl
  unfold Machine.meetCheck
  simp only
  split
  · split
    · refine (hdraw.trans ?_).trans (modEng e _ _)
      unfold recordCheck
      split
      · exact modEng e _ _
      · exact refl _
    · exact hdraw
  · exact hdraw

theorem abortClocks (e : EngineId) (start : Tick) (s : State) : OwnerActs s (Machine.abortClocks e start s) := by
  unfold Machine.abortClocks
  simp only
  split
  · split
    · exact (modEng e _ s).trans (endJob e _ _ _)
    · exact modEng e _ s
  · exact refl s

theorem scanAbort (e : EngineId) (i : Slot) (st : Status) (s : State) :
    OwnerActs s (Machine.scanAbort e i st s) := by
  have htaken : OwnerActs s (abortTaken e st s) := modEng e _ s
  unfold Machine.scanAbort
  simp only
  split
  · split
    · exact refl s
    · exact refl s
    · exact htaken.trans (endJob e _ _ _)
    · exact htaken.trans (endJob e _ _ _)
    · exact (htaken.trans (meetCheck e _)).trans (endJob e _ _ _)
    · exact (htaken.trans (modEng e _ _)).trans (endJob e _ _ _)
    · split
      · exact (htaken.trans (modEng e _ _)).trans (endJob e _ _ _)
      · exact htaken.trans (endJob e _ _ _)
    · exact htaken
    · exact htaken
    · exact htaken.trans (abortClocks e _ _)
  · exact refl s

/-! #### The ports and the lines -/

theorem modCon (b : Bay) (f : Console → Console) (s : State) : OwnerActs s (s.modCon b f) := ofEq rfl rfl rfl rfl rfl

theorem sendAbort (b : Bay) (i : Slot) (st : Status) (s : State) : OwnerActs s (Machine.sendAbort b i st s) := by
  unfold Machine.sendAbort
  split
  · split
    · split
      · exact modCon b _ s
      · exact (modCon b _ s).trans (report _ _ _ _ _)
    · exact refl s
  · exact refl s

theorem linesAbort (b : Bay) (i : Slot) (st : Status) (s : State) : OwnerActs s (Machine.linesAbort b i st s) := by
  cases hj : s.drv[b.val].job with
  | none =>
    simp only [Machine.linesAbort, hj]
    exact refl s
  | some j =>
    by_cases hi : j.slot = i
    · rw [linesAbort_owned hj hi]
      exact ((ofDrives (.linesCut b i _ s)).trans (ofDrives (.modDrv b _ _))).trans (report _ _ _ _ _)
    · simp only [Machine.linesAbort, hj, if_neg hi]
      exact refl s

theorem askOwner (i : Slot) (st : Status) (s : State) : OwnerActs s (Machine.askOwner i st s) := by
  unfold Machine.askOwner
  simp only
  split
  · split
    · exact scanAbort _ i st s
    · exact refl s
  · exact sendAbort _ i st s
  · exact linesAbort _ i st s
  · exact refl s

/-- R142: the mark set and the deadline dropped besides. -/
theorem abortJob (i : Slot) (st : Status) (s : State) : OwnerActs s (Machine.abortJob i st s) := by
  have hmark (x : State) : OwnerActs x (x.modSlot i (fun r => { r with mark := some st, deadline := none })) := by
    refine ⟨rfl, rfl, rfl, rfl, fun k => ?_⟩
    rw [State.modSlot_slots, upd_get]
    split <;> rfl
  exact (askOwner i st s).trans (hmark _)

end OwnerActs

/-! ### The owners that are asked (R142, R95, R97) -/

theorem ownersAreAsked : OwnersAreAsked := by
  refine fun s i st => ⟨fun hk => ⟨fun e he => ?_, fun he => ?_⟩, fun hk => ?_, fun hk => ?_⟩
  · simp only [askOwner, hk, he]
  · simp only [askOwner, hk, he]
  · simp only [askOwner, hk]
  · simp only [askOwner, hk]

theorem sendAbortsAtItsCharacter : SendAbortsAtItsCharacter := by
  refine fun s b i st => ⟨fun j start hj hi ht => ⟨fun hp => ?_, fun hp => ?_⟩, fun h => ?_⟩
  · simp only [sendAbort, hj, ht, if_pos hi, hp]
  · subst hi
    simp only [sendAbort, hj, ht, if_true, hp]
    rfl
  · unfold sendAbort
    split
    · next j hj ht =>
      obtain h | h := h
      · exact absurd ht h
      · exact if_neg (h j hj)
    · rfl

/-! ### A slot that ends before its dispatch (R140, R141) -/

/-- R133: a slot that has left its queue is not on it. -/
theorem leaveOwnQueue_left {i : Slot} {s : State} {l : Lane} (h : s.slots[i.val].card.lane = some l) :
    i ∉ ((leaveOwnQueue i s).lane s.slots[i.val].card.bayIx l).queue := by
  simp [leaveOwnQueue, h, leaveQueue, State.lane]

/-- R140 step 1: the slot of a card that was not in service. -/
theorem closeCard_slots {i : Slot} {s : State} (st : Status) (d : BitVec 16) (r : BitVec 64) (finish : Tick)
    (h : s.slots[i.val].state ≠ .inService) : (closeCard i st d r finish s).slots = upd s.slots i (fun x => { x with
      state := .done
      status := st
      detail := d
      result := r
      finish := finish
      start := finish
      mark := none
      stopMark := false
      deadline := none
      report := none }) := by
  simp only [closeCard, h, if_false, State.modSlot_slots, writeEnd, writeCardState, writeCardTime, State.store_slots]

/-- R140, R141, R144: a REQUESTED slot ended TIMEOUT, before its JOB_FAIL event. -/
def timedOut (i : Slot) (s : State) : State :=
  offerEnd i (closeCard i .timeout 0#16 0#64 s.now (leaveOwnQueue i s))

/-- R141, R144: the slot of a card that has timed out. -/
theorem timedOut_slot {i : Slot} {s : State} (h : s.slots[i.val].state = .requested) :
    (timedOut i s).slots[i.val] = { s.slots[i.val] with
      state := .done
      status := .timeout
      detail := 0#16
      result := 0#64
      finish := s.time.count
      start := s.time.count
      mark := none
      stopMark := false
      deadline := none
      report := none } := by
  have hne : (leaveOwnQueue i s).slots[i.val].state ≠ .inService := by
    rw [leaveOwnQueue_slots, h]
    exact SlotState.noConfusion
  rw [timedOut, offerEnd, offer, State.modStr_slots, closeCard_slots _ _ _ _ hne, upd_self, leaveOwnQueue_slots]
  rfl

theorem timedOut_effects (i : Slot) (s : State) : Effects s (timedOut i s) :=
  ((Effects.leaveOwnQueue i s).trans (Effects.closeCard i _ _ _ _ _)).trans (Effects.offerEnd i _)

theorem closeCard_lanes (i : Slot) (st : Status) (d : BitVec 16) (r : BitVec 64) (finish : Tick) (s : State) :
    (closeCard i st d r finish s).lanes = s.lanes ∧ (closeCard i st d r finish s).seq = s.seq := by
  unfold closeCard
  simp only
  split <;>
    simp only [State.modSlot_lanes, State.modSlot_seq, writeEnd, writeCardState, writeCardTime, State.store_lanes,
      State.store_seq, and_self]

theorem timedOut_lanes (i : Slot) (s : State) : (timedOut i s).lanes = (leaveOwnQueue i s).lanes := by
  rw [timedOut, offerEnd, offer, State.modStr_lanes, (closeCard_lanes i _ _ _ _ _).1]

theorem timedOut_seq (i : Slot) (s : State) : (timedOut i s).seq = s.seq := by
  rw [timedOut, offerEnd, offer, State.modStr_seq, (closeCard_lanes i _ _ _ _ _).2]
  unfold leaveOwnQueue
  split <;> rfl

/-- R140 steps 4 and 5: a TIMEOUT hands JOB_FAIL, and raises JOB_DONE. -/
theorem endUndispatched_timeout {i : Slot} {s : State} (h : s.slots[i.val].state = .requested) :
    endUndispatched i .timeout 0#16 0#64 s = raiseBay s.slots[i.val].card.bayIx .jobDone
      (conditionEvent s.slots[i.val].card.bayIx (.jobFail i s.slots[i.val].card.kind.toNat .timeout) (timedOut i s)) := by
  have hslot := timedOut_slot h
  have hclosed : endUndispatched i .timeout 0#16 0#64 s
    = raiseBay (timedOut i s).slots[i.val].card.bayIx .jobDone (jobFail i (timedOut i s)) := rfl
  rw [hclosed, jobFail, hslot]
  rfl

theorem timedOut_done {i : Slot} {s : State} (h : s.slots[i.val].state = .requested) :
    (timedOut i s).slots[i.val].state ≠ .parked := by
  rw [timedOut_slot h]
  exact SlotState.noConfusion

theorem endUndispatched_timeout_keeps {i : Slot} {s : State} (h : s.slots[i.val].state = .requested) :
    EventKeeps (timedOut i s) (endUndispatched i .timeout 0#16 0#64 s) := by
  rw [endUndispatched_timeout h]
  exact (EventKeeps.conditionEvent _ _ _).trans (ActionKeeps.raiseBay _ _ _).toEventKeeps

/-- R141, R144: what the JOB_FAIL event leaves of the slot. -/
theorem endUndispatched_timeout_slot {i : Slot} {s : State} (h : s.slots[i.val].state = .requested) :
    ∃ r, (endUndispatched i .timeout 0#16 0#64 s).slots[i.val] = { s.slots[i.val] with
      state := .done
      status := .timeout
      detail := 0#16
      result := 0#64
      finish := s.time.count
      start := s.time.count
      mark := none
      stopMark := false
      deadline := none
      report := r } :=
  ⟨_, ((endUndispatched_timeout_keeps h).slot i (timedOut_done h)).trans (by rw [timedOut_slot h])⟩

theorem endUndispatched_timeout_left {i : Slot} {s : State} {l : Lane} (h : s.slots[i.val].state = .requested)
    (hl : s.slots[i.val].card.lane = some l) :
    i ∉ ((endUndispatched i .timeout 0#16 0#64 s).lane s.slots[i.val].card.bayIx l).queue := by
  intro hm
  have hq := (endUndispatched_timeout_keeps h).queue _ l i (timedOut_done h) hm
  rw [State.lane, timedOut_lanes] at hq
  exact leaveOwnQueue_left hl hq

/-- R140 step 4: the sequencers take the JOB_FAIL event as before the end. -/
theorem endUndispatched_timeout_seq {i : Slot} {s : State} (h : s.slots[i.val].state = .requested) :
    (endUndispatched i .timeout 0#16 0#64 s).seq = (conditionEvent s.slots[i.val].card.bayIx
      (.jobFail i s.slots[i.val].card.kind.toNat .timeout) s).seq := by
  rw [endUndispatched_timeout h, raiseBay_seq,
    conditionEvent_seq_congr (timedOut_seq i s) (timedOut_effects i s).time]

/-! ### Deadlines (R144 to R146) -/

theorem deadline_expires {s : State} {i : Slot} {d : Deadline} (hd : s.slots[i.val].deadline = some d)
    (he : elapsed d.base s.time.count = d.limit) : s.expires i = true := by
  simp [State.expires, State.passed, hd, he]

theorem deadlineExpiry_requested {s : State} {i : Slot} (he : s.expires i = true)
    (hs : s.slots[i.val].state = .requested) :
    exec (.deadlineExpiry i) s = commit s (endUndispatched i .timeout 0#16 0#64 s) := by
  change execDeadlineExpiry i s = _
  simp only [execDeadlineExpiry, he, hs, if_true]

theorem deadlineExpiry_interrupts {s : State} {i : Slot} (he : s.expires i = true)
    (hs : s.slots[i.val].state = .inService) (hi : s.slots[i.val].interruptible = true) :
    exec (.deadlineExpiry i) s = commit s (abortJob i .timeout s) := by
  change execDeadlineExpiry i s = _
  simp only [execDeadlineExpiry, he, hs, hi, if_true]

/-- R146: a SETUP job runs on. -/
theorem deadlineExpiry_setup {s : State} {i : Slot} (he : s.expires i = true)
    (hs : s.slots[i.val].state = .inService) (hi : s.slots[i.val].interruptible = false) :
    exec (.deadlineExpiry i) s = .next s := by
  change execDeadlineExpiry i s = _
  simp only [execDeadlineExpiry, he, hs, hi, if_true, Bool.false_eq_true, if_false]
  exact commit_self s

theorem expiredDeadlinesTimeOut : ExpiredDeadlinesTimeOut := by
  refine fun s i d hd he => ⟨fun hs => ?_, fun hs hi => ?_, deadlineExpiry_setup (deadline_expires hd he)⟩
  · obtain ⟨t, ht, hcommit, hafter⟩ := afterEvents (s := s) (Effects.endUndispatched i .timeout 0#16 0#64 s) rfl
    obtain ⟨r, hslot⟩ := endUndispatched_timeout_slot hs
    refine ⟨t, (deadlineExpiry_requested (deadline_expires hd he) hs).trans ht, hafter, ?_⟩
    subst hcommit
    simp only [publish_slots, signalLine_slots, publish_seq, signalLine_seq, State.lane, publish_lanes,
      signalLine_lanes, hslot, endUndispatched_timeout_seq hs, true_and, and_true]
    exact fun l => endUndispatched_timeout_left hs
  · obtain ⟨t, ht, hcommit, hafter⟩ := afterJobs (s := s) (Wide.abortJob i .timeout s) rfl
    have hacts := OwnerActs.abortJob i .timeout s
    refine ⟨t, (deadlineExpiry_interrupts (deadline_expires hd he) hs hi).trans ht, hafter, ?_⟩
    subst hcommit
    simp only [publish_slots, signalLine_slots, publish_seq, signalLine_seq, publish_lanes, signalLine_lanes,
      publish_disp, signalLine_disp, publish_notices, signalLine_notices]
    exact ⟨leaves_blockArea (Wide.abortJob i .timeout s).area, (hacts.state i).trans hs, hacts.seq, hacts.lanes,
      hacts.disp, hacts.notices, fun k _ => hacts.state k⟩

/-- Settles O37: what expires, and what the owner that is asked does. -/
theorem deadlineExpiryTimesOut : Obligations.DeadlineExpiryTimesOut :=
  ⟨expiredDeadlinesTimeOut, ownersAreAsked, sendAbortsAtItsCharacter, linesAbortTakesItsLines⟩

end Sys2Proof.Machine
end

section
/-! PROOF. Condition events at a Trigger Sequencer (R98, R101 to R111): matching, counting and outcomes (O26), and the
events of CODE_STALL and ELAPSED entries (O27). -/

namespace Sys2Proof.Machine

/-! ### Matching (R101, R104 to R111) -/

/-- R101: an entry matches events of its own kind alone. -/
theorem eventKind_of_matches {c : Condition} {ev : Event} (h : c.matches ev = true) :
    conditionKind c = eventKind ev := by
  unfold Condition.matches at h
  split at h
  case h_10 => cases h
  all_goals rfl

theorem EdgeSel.matches_iff (e : EdgeSel) (rise : Bool) :
    e.matches rise = true ↔ e = .either ∨ e = .rise ∧ rise = true ∨ e = .fall ∧ rise = false := by
  cases e <;> simp [EdgeSel.matches]

theorem RailSel.matches_iff (st : RailSel) (before after : RailWindow) :
    st.matches before after = true ↔ st = .low ∧ after = .low ∨ st = .high ∧ after = .high
      ∨ st = .out ∧ (before = .unknown ∨ before = .inside) ∧ (after = .low ∨ after = .high) := by
  cases st <;> simp [RailSel.matches]

theorem entriesMatchTheirEvents : EntriesMatchTheirEvents := by
  refine ⟨fun c ev h => Bool.eq_false_iff.2 (mt eventKind_of_matches h), ?_, ?_, ?_, ?_, ?_, ?_, ?_, ?_, ?_⟩
  · intro value mask code
    simp only [Condition.matches, decide_eq_true_eq]
  · intro m n
    simp only [Condition.matches, decide_eq_true_eq]
  · intro l e m rise
    simp only [Condition.matches, Bool.and_eq_true, decide_eq_true_eq, EdgeSel.matches_iff]
  · intro l m
    simp only [Condition.matches, decide_eq_true_eq]
  · intro m n
    simp only [Condition.matches, decide_eq_true_eq]
  · intro r st q before after v
    simp only [Condition.matches, Bool.and_eq_true, decide_eq_true_eq, RailSel.matches_iff]
  · intro m n
    simp only [Condition.matches, decide_eq_true_eq]
  · intro i k st
    rfl
  · intro m n
    simp only [Condition.matches, decide_eq_true_eq]

/-! ### Counting (R101) -/

theorem Entry.counts_iff (e : Entry) (k : Nat) (ev : Event) : e.counts k ev = true ↔ Hit k ev e := by
  simp only [Entry.counts, Hit, Bool.and_eq_true, decide_eq_true_eq]

theorem countEvent_length (k : Nat) (ev : Event) (es : List Entry) (cs : List Nat) :
    (countEvent k ev es cs).length = cs.length := by
  induction es generalizing cs with
  | nil => rfl
  | cons e es ih =>
    cases cs with
    | nil => rfl
    | cons c cs => exact congrArg (· + 1) (ih cs)

/-- R101: the counter of an entry after an event. -/
theorem countEvent_getElem? {k : Nat} {ev : Event} {es : List Entry} {cs : List Nat} {j : Nat} {e : Entry} {c : Nat}
    (he : es[j]? = some e) (hc : cs[j]? = some c) :
    (countEvent k ev es cs)[j]? = some (if e.counts k ev then c + 1 else c) := by
  induction es generalizing cs j with
  | nil => cases he
  | cons f es ih =>
    cases cs with
    | nil => cases hc
    | cons d cs =>
      cases j with
      | zero =>
        cases he
        cases hc
        rfl
      | succ j => exact ih he hc

theorem countEvent_counted (k : Nat) (ev : Event) (es : List Entry) (cs : List Nat) :
    Counted k ev es cs (countEvent k ev es cs) := by
  refine ⟨countEvent_length k ev es cs, fun j e c he hc => ⟨fun hit => ?_, fun miss => ?_⟩⟩
  · rw [countEvent_getElem? he hc, if_pos ((e.counts_iff k ev).2 hit)]
  · rw [countEvent_getElem? he hc, if_neg (mt (e.counts_iff k ev).1 miss)]

/-! ### The lowest completed entry (R102, R103) -/

/-- R102: an entry of a counter that an event has brought to the count it needs. -/
def CompletedBy (k : Nat) (ev : Event) (e : Entry) (c : Nat) : Prop := Hit k ev e ∧ e.needed ≤ c

/-- The first entry completed is the lowest-numbered one. -/
theorem completes_cons_of_completed {k : Nat} {ev : Event} {e f : Entry} {c j : Nat} {es : List Entry} {cs : List Nat}
    (h : CompletedBy k ev e c) : Completes k ev (e :: es) (c :: cs) j f ↔ j = 0 ∧ f = e := by
  obtain ⟨hit, done⟩ := h
  constructor
  · rintro ⟨hj, -, -, lowest⟩
    cases j with
    | zero =>
      cases hj
      exact ⟨rfl, rfl⟩
    | succ j => exact absurd (lowest 0 e c (Nat.succ_pos j) rfl rfl hit) (Nat.not_lt.2 done)
  · rintro ⟨rfl, rfl⟩
    exact ⟨rfl, hit, ⟨c, rfl, done⟩, fun _ _ _ hi => absurd hi (Nat.not_lt_zero _)⟩

/-- An entry not completed leaves the lowest-numbered one to those after it. -/
theorem completes_cons_of_not {k : Nat} {ev : Event} {e f : Entry} {c j : Nat} {es : List Entry} {cs : List Nat}
    (h : ¬ CompletedBy k ev e c) :
    Completes k ev (e :: es) (c :: cs) j f ↔ ∃ i, j = i + 1 ∧ Completes k ev es cs i f := by
  constructor
  · rintro ⟨hj, hit, ⟨d, hd, done⟩, lowest⟩
    cases j with
    | zero =>
      cases hj
      cases hd
      exact absurd ⟨hit, done⟩ h
    | succ i => exact ⟨i, rfl, hj, hit, ⟨d, hd, done⟩, fun m g x hm => lowest (m + 1) g x (Nat.succ_lt_succ hm)⟩
  · rintro ⟨i, rfl, hj, hit, done, lowest⟩
    refine ⟨hj, hit, done, fun m g x hm hg hx hh => ?_⟩
    cases m with
    | zero =>
      cases hg
      cases hx
      exact Nat.lt_of_not_le (fun hle => h ⟨hh, hle⟩)
    | succ m => exact lowest m g x (Nat.lt_of_succ_lt_succ hm) hg hx hh

theorem firstComplete_eq_some_iff {k : Nat} {ev : Event} {es : List Entry} {cs : List Nat} {n m : Nat} {f : Entry} :
    firstComplete k ev es cs n = some (m, f) ↔ ∃ j, m = n + j ∧ Completes k ev es cs j f := by
  induction es generalizing cs n with
  | nil => exact ⟨(nomatch ·), fun ⟨_, _, hj, _⟩ => nomatch hj⟩
  | cons e es ih =>
    cases cs with
    | nil => exact ⟨(nomatch ·), fun ⟨_, _, _, _, ⟨_, hc, _⟩, _⟩ => nomatch hc⟩
    | cons c cs =>
      have hcond : (e.counts k ev && decide (e.needed ≤ c)) = true ↔ CompletedBy k ev e c := by
        rw [Bool.and_eq_true, e.counts_iff, decide_eq_true_eq, CompletedBy]
      rw [firstComplete]
      by_cases hc : CompletedBy k ev e c
      · rw [if_pos (hcond.2 hc)]
        simp only [completes_cons_of_completed hc, Option.some.injEq, Prod.mk.injEq]
        exact ⟨fun ⟨hm, hf⟩ => ⟨0, hm.symm, rfl, hf.symm⟩, fun ⟨j, hm, hj, hf⟩ => ⟨by omega, hf.symm⟩⟩
      · rw [if_neg (mt hcond.1 hc), ih]
        simp only [completes_cons_of_not hc]
        exact ⟨fun ⟨j, hm, h⟩ => ⟨j + 1, by omega, j, rfl, h⟩, fun ⟨_, hm, j, hj, h⟩ => ⟨j, by omega, h⟩⟩

theorem firstComplete_of_completes {k : Nat} {ev : Event} {es : List Entry} {cs : List Nat} {j : Nat} {e : Entry}
    (h : Completes k ev es cs j e) : firstComplete k ev es cs 0 = some (j, e) :=
  firstComplete_eq_some_iff.2 ⟨j, (Nat.zero_add j).symm, h⟩

theorem firstComplete_eq_none_of_forall_not {k : Nat} {ev : Event} {es : List Entry} {cs : List Nat}
    (h : ∀ j e, ¬ Completes k ev es cs j e) : firstComplete k ev es cs 0 = none := by
  rw [Option.eq_none_iff_forall_ne_some]
  rintro ⟨m, f⟩ hm
  obtain ⟨j, -, hj⟩ := firstComplete_eq_some_iff.1 hm
  exact h j f hj

/-! ### A condition event (R98, R101 to R103) -/

theorem State.modSeq_modSeq (b : Bay) (f g : Sequencer → Sequencer) (s : State) :
    (s.modSeq b f).modSeq b g = s.modSeq b (fun q => g (f q)) := by
  simp only [State.modSeq, upd_upd]

/-- A stage entered after an event has counted: every counter of the program is 0. -/
theorem enter_after_count (b : Bay) (stage n : Nat) (now : Tick) (s : State) {new : List Nat} (hn : new.length = n) :
    (s.modSeq b (fun q => { q with counters := new })).modSeq b (Sequencer.enter stage now) = s.modSeq b (fun q =>
      { q with stage := some stage, counters := List.replicate n 0, stageEntry := some now }) := by
  simp only [State.modSeq_modSeq, Sequencer.enter, hn]

section
variable {b : Bay} {s : State} {p : Program} {k : Nat} (ev : Event) (ha : s.seq[b.val].state = .armed)
  (hp : s.seq[b.val].program = some p) (hk : s.seq[b.val].stage = some k)
include ha hp hk

/-- R101: an event that completes no entry counts alone. -/
theorem conditionEvent_counting
    (hf : firstComplete k ev p.entries (countEvent k ev p.entries s.seq[b.val].counters) 0 = none) :
    conditionEvent b ev s
      = s.modSeq b (fun q => { q with counters := countEvent k ev p.entries s.seq[b.val].counters }) := by
  simp only [conditionEvent, ha, hp, hk, hf, if_true]

/-- R102, R103: an event that completes an entry counts, and the entry's outcome follows. -/
theorem conditionEvent_completing {j : Nat} {e : Entry}
    (hf : firstComplete k ev p.entries (countEvent k ev p.entries s.seq[b.val].counters) 0 = some (j, e)) :
    conditionEvent b ev s = takeOutcome b p k j e
      (s.modSeq b (fun q => { q with counters := countEvent k ev p.entries s.seq[b.val].counters })) := by
  simp only [conditionEvent, ha, hp, hk, hf, if_true]

end

/-- Settles O26: the events that entries match, what they count, and the outcome of the lowest entry they complete. -/
theorem eventsMatchCountAndTakeTheLowestOutcome : Obligations.EventsMatchCountAndTakeTheLowestOutcome := by
  refine ⟨entriesMatchTheirEvents, fun s b ev => ⟨conditionEvent_of_not_armed, fun p k ha hp hk hl => ?_⟩⟩
  have hn : (countEvent k ev p.entries s.seq[b.val].counters).length = p.entries.length :=
    (countEvent_length ..).trans hl
  refine ⟨_, countEvent_counted k ev p.entries s.seq[b.val].counters,
    fun h => conditionEvent_counting ev ha hp hk (firstComplete_eq_none_of_forall_not h), fun j e h => ?_⟩
  have heq := conditionEvent_completing ev ha hp hk (firstComplete_of_completes h)
  refine ⟨fun ⟨ho, hlt⟩ => ?_, fun ho => ?_, fun ho => ?_⟩
  · rw [heq, takeOutcome, ho]
    simp only [if_pos hlt]
    exact enter_after_count b (k + 1) _ _ s hn
  · rw [heq, takeOutcome, ho]
    exact enter_after_count b 1 _ _ s hn
  · obtain ho | ⟨ho, hle⟩ := ho
    · rw [heq, takeOutcome, ho]
    · rw [heq, takeOutcome, ho]
      simp only [if_neg (Nat.not_lt.2 hle)]

end Sys2Proof.Machine
end

section
/-! PROOF. The events of CODE_STALL and ELAPSED entries (R105, R111): at which instants they fall, and that they are
taken then (O27). -/

namespace Sys2Proof.Machine

/-! ### The budgets and times of a program (R105, R111) -/

theorem Entry.stallBudget_eq_some (e : Entry) (n : Nat) : e.stallBudget = some n ↔ e.cond = .codeStall n := by
  unfold Entry.stallBudget
  split
  · next m h => rw [h, Option.some.injEq, Condition.codeStall.injEq]
  · next h => exact ⟨(nomatch ·), fun he => absurd he (h n)⟩

theorem Entry.elapsedTime_eq_some (k : Nat) (e : Entry) (n : Nat) :
    e.elapsedTime k = some n ↔ e.stage = k ∧ e.cond = .elapsed n := by
  unfold Entry.elapsedTime
  split
  · next m h =>
    rw [h, Condition.elapsed.injEq]
    split
    · next hk => exact ⟨fun he => ⟨hk, Option.some.inj he⟩, fun he => congrArg some he.2⟩
    · next hk => exact ⟨(nomatch ·), fun he => absurd he.1 hk⟩
  · next h => exact ⟨(nomatch ·), fun he => absurd he.2 (h n)⟩

theorem State.passed_iff (s : State) (start : Tick) (ticks : Nat) :
    s.passed start ticks = true ↔ elapsed start s.time.count = ticks := decide_eq_true_iff

theorem State.reached_iff (s : State) (start : Tick) (ticks : Nat) :
    s.reached start ticks = true ↔ ticks ≤ elapsed start s.time.count := decide_eq_true_iff

/-! ### What is due (R105, R111) -/

/-- R105: the event of a budget falls at this instant. -/
theorem State.stallFalls_iff (s : State) (b : Bay) (start : Tick) (n : Nat) :
    s.stallFalls s.seq[b.val] start n = true ↔ BudgetFalls s b start n := by
  simp only [State.stallFalls, BudgetFalls, Bool.and_eq_true, Bool.or_eq_true, decide_eq_true_eq, State.passed_iff,
    State.reached_iff, micros]
  rfl

/-- The budgets of a program that fall at this instant. -/
theorem mem_fallingBudgets {s : State} {b : Bay} {p : Program} {start : Tick} {n : Nat} :
    n ∈ (p.entries.filterMap Entry.stallBudget).filter (s.stallFalls s.seq[b.val] start)
      ↔ (∃ e ∈ p.entries, e.cond = .codeStall n) ∧ BudgetFalls s b start n := by
  simp only [List.mem_filter, List.mem_filterMap, Entry.stallBudget_eq_some, State.stallFalls_iff]

/-- The times of a stage that its age reaches at this instant. -/
theorem mem_elapsedTimes {s : State} {p : Program} {k : Nat} {start : Tick} {n : Nat} :
    n ∈ (p.entries.filterMap (Entry.elapsedTime k)).filter (fun n => s.passed start (micros n))
      ↔ (∃ e ∈ p.entries, e.stage = k ∧ e.cond = .elapsed n) ∧ elapsed start s.time.count = n * 100 := by
  simp only [List.mem_filter, List.mem_filterMap, Entry.elapsedTime_eq_some, State.passed_iff, micros]

theorem least_eq_none_of_forall_notMem {xs : List Nat} (h : ∀ n, n ∉ xs) : least xs = none := by
  rw [List.eq_nil_iff_forall_not_mem.2 h, least]

section
variable {s : State} {b : Bay} {p : Program} {start : Tick} (ha : s.seq[b.val].state = .armed)
  (hp : s.seq[b.val].program = some p)
include ha hp

theorem stallDue_of_budgetDue {n : Nat} (ht : s.seq[b.val].stallStart = some start) (h : BudgetDue s b p start n) :
    s.stallDue b = some n := by
  obtain ⟨falls, mem, minimal⟩ := h
  refine (stallDue_eq_some s b p start n ha hp ht).2 ⟨mem_fallingBudgets.2 ⟨mem, falls⟩, fun m hm => ?_⟩
  obtain ⟨hmem, hfalls⟩ := mem_fallingBudgets.1 hm
  exact minimal m hfalls hmem

theorem stallDue_eq_none (ht : s.seq[b.val].stallStart = some start)
    (h : ∀ m, (∃ e ∈ p.entries, e.cond = .codeStall m) → ¬ BudgetFalls s b start m) : s.stallDue b = none := by
  simp only [State.stallDue, ha, hp, ht, if_true]
  exact least_eq_none_of_forall_notMem (fun m hm => h m (mem_fallingBudgets.1 hm).1 (mem_fallingBudgets.1 hm).2)

variable {k : Nat} (hk : s.seq[b.val].stage = some k) (ht : s.seq[b.val].stageEntry = some start)
include hk ht

/-- R111: the one time that a stage's age reaches at this instant. -/
theorem elapsedDue_of_reached {n : Nat} (h : elapsed start s.time.count = n * 100)
    (hn : ∃ e ∈ p.entries, e.stage = k ∧ e.cond = .elapsed n) : s.elapsedDue b = some n := by
  simp only [State.elapsedDue, ha, hp, hk, ht, if_true]
  refine (least_eq_some _ n).2 ⟨mem_elapsedTimes.2 ⟨hn, h⟩, fun m hm => ?_⟩
  have hm' := (mem_elapsedTimes.1 hm).2
  omega

theorem elapsedDue_eq_none
    (h : ∀ m, (∃ e ∈ p.entries, e.stage = k ∧ e.cond = .elapsed m) → elapsed start s.time.count ≠ m * 100) :
    s.elapsedDue b = none := by
  simp only [State.elapsedDue, ha, hp, hk, ht, if_true]
  exact least_eq_none_of_forall_notMem (fun m hm => h m (mem_elapsedTimes.1 hm).1 (mem_elapsedTimes.1 hm).2)

end

/-- R98, R105: without an ARMED program and a stall period no budget is due. -/
theorem stallDue_idle {s : State} {b : Bay} (h : s.seq[b.val].state ≠ .armed ∨ s.seq[b.val].program = none
    ∨ s.seq[b.val].stallStart = none) : s.stallDue b = none := by
  by_cases ha : s.seq[b.val].state = .armed
  · obtain h | h | h := h
    · exact absurd ha h
    · simp only [State.stallDue, h, ite_self]
    · cases hp : s.seq[b.val].program <;> simp only [State.stallDue, hp, h, ite_self]
  · simp only [State.stallDue, if_neg ha]

/-- R98, R111: without an ARMED program in a stage no time is due. -/
theorem elapsedDue_idle {s : State} {b : Bay} (h : s.seq[b.val].state ≠ .armed ∨ s.seq[b.val].program = none
    ∨ s.seq[b.val].stage = none ∨ s.seq[b.val].stageEntry = none) : s.elapsedDue b = none := by
  unfold State.elapsedDue
  simp only
  split
  · next ha =>
    split
    · next hp hk ht =>
      rw [hp, hk, ht] at h
      simp [ha] at h
    · rfl
  · rfl

/-! ### The commands (R105, R111) -/

theorem BayInputs.modSeq (b : Bay) (f : Sequencer → Sequencer) (s : State) : BayInputs b s (s.modSeq b f) :=
  ⟨rfl, fun _ _ => rfl, fun _ _ => rfl, fun _ hc => upd_ne s.seq f hc.symm, fun _ _ => rfl⟩

theorem codeStallEvent_none {s : State} {b : Bay} (h : s.active b = false ∨ s.stallDue b = none) :
    exec (.codeStallEvent b) s = .next s := by
  change execCodeStallEvent b s = _
  obtain h | h := h
  · rw [execCodeStallEvent, h, if_neg Bool.false_ne_true, commit_self]
  · simp only [execCodeStallEvent, h, ite_self, commit_self]

theorem elapsedEvent_none {s : State} {b : Bay} (h : s.active b = false ∨ s.elapsedDue b = none) :
    exec (.elapsedEvent b) s = .next s := by
  change execElapsedEvent b s = _
  obtain h | h := h
  · rw [execElapsedEvent, h, if_neg Bool.false_ne_true, commit_self]
  · simp only [execElapsedEvent, h, ite_self, commit_self]

theorem codeStallEvent_takes {s : State} {b : Bay} {n : Nat} (ha : s.active b = true) (h : s.stallDue b = some n) :
    ∃ t, exec (.codeStallEvent b) s = .next t
      ∧ TakesEvent b (.codeStall n) s (s.modSeq b (fun q => { q with stallGiven := n })) t := by
  change ∃ t, execCodeStallEvent b s = .next t ∧ _
  simp only [execCodeStallEvent, ha, h, if_true]
  exact (BayInputs.modSeq b _ s).takesEvent _

theorem elapsedEvent_takes {s : State} {b : Bay} {n : Nat} (ha : s.active b = true) (h : s.elapsedDue b = some n) :
    ∃ t, exec (.elapsedEvent b) s = .next t ∧ TakesEvent b (.elapsed n) s s t := by
  change ∃ t, execElapsedEvent b s = .next t ∧ _
  simp only [execElapsedEvent, ha, h, if_true]
  exact (BayInputs.refl b s).takesEvent _

/-- Settles O27: the budget or the time that is due gives its event, and nothing else does. -/
theorem timedConditionsGiveTheirEvents : Obligations.TimedConditionsGiveTheirEvents := by
  refine fun s b => ⟨fun h => ⟨?_, ?_⟩, fun p start n hact ha hp => ⟨fun ht => ⟨fun hd => ?_, fun hn => ?_⟩,
    fun ht => ?_, fun k hk ht => ⟨fun he hm => ?_, fun hn => ?_⟩, fun h => ?_⟩⟩
  · exact codeStallEvent_none (h.imp_right (fun h => stallDue_idle (h.imp_right .inl)))
  · exact elapsedEvent_none (h.imp_right (fun h => elapsedDue_idle (h.imp_right .inl)))
  · exact codeStallEvent_takes hact (stallDue_of_budgetDue ha hp ht hd)
  · exact codeStallEvent_none (.inr (stallDue_eq_none ha hp ht hn))
  · exact codeStallEvent_none (.inr (stallDue_idle (.inr (.inr ht))))
  · exact elapsedEvent_takes hact (elapsedDue_of_reached ha hp hk ht he hm)
  · exact elapsedEvent_none (.inr (elapsedDue_eq_none ha hp hk ht hn))
  · exact elapsedEvent_none (.inr (elapsedDue_idle (.inr (.inr h))))

end Sys2Proof.Machine
end

section
/-! PROOF. Trigger program images (R99, R100, R120, 12.6): an image is read as a program exactly when it holds the
program and the program passes its checks (O28). -/

namespace Sys2Proof.Machine

/-! ### The codes of an entry (12.6) -/

theorem edgeSelOf_eq_some (n : Nat) (e : EdgeSel) :
    edgeSelOf n = some e ↔ n = (match e with | .rise => 1 | .fall => 2 | .either => 3) := by
  constructor
  · intro h
    unfold edgeSelOf at h
    split at h <;> cases h <;> rfl
  · rintro rfl
    cases e <;> rfl

theorem railSelOf_eq_some (n : Nat) (st : RailSel) :
    railSelOf n = some st ↔ n = (match st with | .low => 1 | .high => 2 | .out => 3) := by
  constructor
  · intro h
    unfold railSelOf at h
    split at h <;> cases h <;> rfl
  · rintro rfl
    cases st <;> rfl

theorem entryOutcomeOf_eq_some (n : Nat) (o : EntryOutcome) :
    entryOutcomeOf n = some o ↔ n = (match o with | .next => 1 | .fire => 2 | .restart => 3) := by
  constructor
  · intro h
    unfold entryOutcomeOf at h
    split at h <;> cases h <;> rfl
  · rintro rfl
    cases o <;> rfl

theorem conditionKind_bounds (c : Condition) : 1 ≤ conditionKind c ∧ conditionKind c ≤ 9 := by
  cases c <;> simp [conditionKind]

/-! ### The condition of an entry (R120 PARAMETER) -/

/-- 12.6: the parameter bytes of an entry at an address hold a condition. -/
def ParametersAt (m : Memory) (a : Nat) : Condition → Prop
  | .code value mask => m.field (a + 4) 2 = value.toNat ∧ m.field (a + 6) 2 = mask.toNat
  | .codeStall n => m.field (a + 4) 4 = n
  | .line l edge => (m.read (a + 4)).toNat = l
    ∧ (m.read (a + 5)).toNat = (match edge with | .rise => 1 | .fall => 2 | .either => 3)
  | .glitch l => (m.read (a + 4)).toNat = l
  | .consoleMatch n => (m.read (a + 4)).toNat = n
  | .rail r st => (m.read (a + 4)).toNat = r
    ∧ (m.read (a + 5)).toNat = (match st with | .low => 1 | .high => 2 | .out => 3)
  | .settle n => (m.read (a + 4)).toNat = n
  | .jobFail => True
  | .elapsed n => m.field (a + 4) 4 = n

/-- R120 PARAMETER: the parameters of a condition are in range, with a number of patterns. -/
def Condition.InRange (patterns : Nat) : Condition → Prop
  | .code _ _ => True
  | .codeStall n => 1 ≤ n ∧ n ≤ 16777215
  | .line l _ => l ≤ 5
  | .glitch l => l ≤ 5
  | .consoleMatch n => n < patterns
  | .rail r _ => r ≤ 2
  | .settle n => 1 ≤ n ∧ n ≤ 8
  | .jobFail => True
  | .elapsed n => 1 ≤ n ∧ n ≤ 16777215

theorem Memory.field_lt (m : Memory) (a n : Nat) : m.field a n < 256 ^ n := by
  unfold Memory.field
  induction n generalizing a with
  | zero => exact Nat.one_pos
  | succ n ih =>
    have hv := (m.read a).isLt
    have hr := ih (a + 1)
    simp only [Memory.readBytes, leNat, Nat.pow_succ]
    omega

/-- A number in a field is held by the word of the field's width. -/
theorem eq_ofNat_iff {w n : Nat} (h : n < 2 ^ w) (v : BitVec w) : v = BitVec.ofNat w n ↔ n = v.toNat := by
  constructor
  · rintro rfl
    rw [BitVec.toNat_ofNat, Nat.mod_eq_of_lt h]
  · rintro rfl
    rw [BitVec.ofNat_toNat, BitVec.setWidth_eq]

/-- A value kept under a condition. -/
theorem ite_some_eq_some {α : Type} {p : Prop} [Decidable p] {x y : α} :
    (if p then some x else none) = some y ↔ p ∧ x = y := by
  split <;> simp_all

theorem between_iff {lo hi n : Nat} : (decide (lo ≤ n) && decide (n ≤ hi)) = true ↔ lo ≤ n ∧ n ≤ hi := by
  rw [Bool.and_eq_true, decide_eq_true_eq, decide_eq_true_eq]

theorem conditionAt_eq_some (m : Memory) (a kind patterns : Nat) (c : Condition) :
    conditionAt m a kind patterns = some c ↔
      kind = conditionKind c ∧ ParametersAt m a c ∧ c.InRange patterns := by
  have word (i : Nat) (v : BitVec 16) : v = BitVec.ofNat 16 (m.field i 2) ↔ m.field i 2 = v.toNat :=
    eq_ofNat_iff (m.field_lt i 2) v
  constructor
  · intro h
    unfold conditionAt at h
    simp only at h
    split at h
    · cases h
      exact ⟨rfl, ⟨(word _ _).1 rfl, (word _ _).1 rfl⟩, trivial⟩
    · obtain ⟨hr, rfl⟩ := ite_some_eq_some.1 h
      exact ⟨rfl, rfl, between_iff.1 hr⟩
    · split at h
      · next hr =>
        obtain ⟨e, he, rfl⟩ := Option.map_eq_some_iff.1 h
        exact ⟨rfl, ⟨rfl, (edgeSelOf_eq_some _ e).1 he⟩, Nat.le_of_lt_succ hr⟩
      · cases h
    · obtain ⟨hr, rfl⟩ := ite_some_eq_some.1 h
      exact ⟨rfl, rfl, Nat.le_of_lt_succ hr⟩
    · obtain ⟨hr, rfl⟩ := ite_some_eq_some.1 h
      exact ⟨rfl, rfl, hr⟩
    · split at h
      · next hr =>
        obtain ⟨st, hst, rfl⟩ := Option.map_eq_some_iff.1 h
        exact ⟨rfl, ⟨rfl, (railSelOf_eq_some _ st).1 hst⟩, Nat.le_of_lt_succ hr⟩
      · cases h
    · obtain ⟨hr, rfl⟩ := ite_some_eq_some.1 h
      exact ⟨rfl, rfl, between_iff.1 hr⟩
    · cases h
      exact ⟨rfl, trivial, trivial⟩
    · obtain ⟨hr, rfl⟩ := ite_some_eq_some.1 h
      exact ⟨rfl, rfl, between_iff.1 hr⟩
    · cases h
  · rintro ⟨rfl, hp, hr⟩
    cases c with
    | code value mask =>
      exact congrArg some (congrArg₂ Condition.code ((word _ _).2 hp.1).symm ((word _ _).2 hp.2).symm)
    | codeStall n =>
      obtain rfl := hp
      exact if_pos (between_iff.2 hr)
    | line l edge =>
      obtain ⟨rfl, he⟩ := hp
      simp only [conditionAt, conditionKind, if_pos (Nat.lt_succ_of_le hr), (edgeSelOf_eq_some _ edge).2 he, Option.map]
    | glitch l =>
      obtain rfl := hp
      exact if_pos (Nat.lt_succ_of_le hr)
    | consoleMatch n =>
      obtain rfl := hp
      exact if_pos hr
    | rail r st =>
      obtain ⟨rfl, hst⟩ := hp
      simp only [conditionAt, conditionKind, if_pos (Nat.lt_succ_of_le hr), (railSelOf_eq_some _ st).2 hst, Option.map]
    | settle n =>
      obtain rfl := hp
      exact if_pos (between_iff.2 hr)
    | jobFail => rfl
    | elapsed n =>
      obtain rfl := hp
      exact if_pos (between_iff.2 hr)

/-! ### Entries (R120) -/

/-- 12.6: an entry is its four bytes and its parameters. -/
theorem entryAt_iff (m : Memory) (a : Nat) (e : Entry) : EntryAt m a e ↔
    (m.read a).toNat = e.stage ∧ (m.read (a + 2)).toNat = e.needed ∧ entryOutcomeOf (m.read (a + 3)).toNat = some e.outcome
      ∧ (m.read (a + 1)).toNat = conditionKind e.cond ∧ ParametersAt m a e.cond := by
  have kind (n : Nat) (hn : n < 256) : m.read (a + 1) = BitVec.ofNat 8 n ↔ (m.read (a + 1)).toNat = n := by
    rw [← BitVec.toNat_inj, BitVec.toNat_ofNat, Nat.mod_eq_of_lt hn]
  rw [entryOutcomeOf_eq_some]
  unfold EntryAt
  refine and_congr_right (fun _ => and_congr_right (fun _ => and_congr_right (fun _ => ?_)))
  cases e.cond with
  | code value mask => exact and_congr_left' (kind 1 (by decide))
  | codeStall n => exact and_congr_left' (kind 2 (by decide))
  | line l edge => exact and_congr_left' (kind 3 (by decide))
  | glitch l => exact and_congr_left' (kind 4 (by decide))
  | consoleMatch n => exact and_congr_left' (kind 5 (by decide))
  | rail r st => exact and_congr_left' (kind 6 (by decide))
  | settle n => exact and_congr_left' (kind 7 (by decide))
  | jobFail => exact (kind 8 (by decide)).trans (and_iff_left trivial).symm
  | elapsed n => exact and_congr_left' (kind 9 (by decide))

/-- R120 STAGE, COUNT, PARAMETER: an entry is in range, with a number of patterns. -/
def Entry.InRange (patterns : Nat) (e : Entry) : Prop :=
  1 ≤ e.stage ∧ e.stage ≤ 4 ∧ 1 ≤ e.needed ∧ (conditionKind e.cond = 9 → e.needed = 1) ∧ e.cond.InRange patterns

theorem readEntry_eq_ok (m : Memory) (a patterns : Nat) (e : Entry) :
    readEntry m a patterns = .ok e ↔ EntryAt m a e ∧ e.InRange patterns := by
  rw [entryAt_iff]
  constructor
  · intro h
    unfold readEntry at h
    simp only at h
    split at h
    · cases h
    split at h
    · cases h
    split at h
    · cases h
    next hstage hcount =>
    split at h
    · cases h
    next o ho =>
    split at h
    · cases h
    next c hc =>
    cases h
    obtain ⟨hk, hp, hr⟩ := (conditionAt_eq_some ..).1 hc
    simp only [Bool.or_eq_true, Bool.and_eq_true, decide_eq_true_eq, not_or, not_and] at hstage hcount
    refine ⟨⟨rfl, rfl, ho, hk, hp⟩, Nat.one_le_iff_ne_zero.2 hstage.1, Nat.not_lt.1 hstage.2,
      Nat.one_le_iff_ne_zero.2 hcount.1, fun h9 => ?_, hr⟩
    exact Decidable.not_not.1 (hcount.2 (hk.trans h9))
  · rintro ⟨⟨hs, hn, ho, hk, hp⟩, hs1, hs4, hn1, h9, hr⟩
    obtain ⟨hk1, hk9⟩ := conditionKind_bounds e.cond
    have hc := (conditionAt_eq_some m a _ patterns e.cond).2 ⟨rfl, hp, hr⟩
    simp only [readEntry, hs, hn, ho, hk, hc]
    rw [if_neg (by simp; omega), if_neg (by simp; omega), if_neg]
    simp only [Bool.or_eq_true, Bool.and_eq_true, decide_eq_true_eq, not_or, not_and, Decidable.not_not]
    exact ⟨by omega, h9⟩

/-! ### Lists of an image -/

/-- A list read item by item from an index on holds what each item's place gives. -/
theorem readList_eq_ok {ε α : Type} {g : Nat → Nat → Except ε (List α)} {at' : Nat → α → Prop}
    (nil : ∀ i, g 0 i = .ok [])
    (cons : ∀ n i xs, g (n + 1) i = .ok xs ↔ ∃ x rest, xs = x :: rest ∧ at' i x ∧ g n (i + 1) = .ok rest)
    (n i : Nat) (xs : List α) :
    g n i = .ok xs ↔ xs.length = n ∧ ∀ (j : Nat) (x : α), xs[j]? = some x → at' (i + j) x := by
  induction n generalizing i xs with
  | zero =>
    rw [nil, Except.ok.injEq]
    constructor
    · rintro rfl
      exact ⟨rfl, fun j x h => by cases h⟩
    · rintro ⟨h, -⟩
      exact (List.length_eq_zero_iff.1 h).symm
  | succ n ih =>
    rw [cons]
    constructor
    · rintro ⟨x, rest, rfl, hx, hr⟩
      obtain ⟨hl, hrest⟩ := (ih (i + 1) rest).1 hr
      refine ⟨congrArg (· + 1) hl, fun j y hy => ?_⟩
      cases j with
      | zero =>
        cases hy
        exact hx
      | succ j =>
        rw [Nat.add_comm j 1, ← Nat.add_assoc]
        exact hrest j y hy
    · rintro ⟨hl, h⟩
      cases xs with
      | nil => cases hl
      | cons x rest =>
        refine ⟨x, rest, rfl, h 0 x rfl, (ih (i + 1) rest).2 ⟨Nat.succ.inj hl, fun j y hy => ?_⟩⟩
        rw [Nat.add_assoc, Nat.add_comm 1 j]
        exact h (j + 1) y hy

theorem readEntries_eq_ok (m : Memory) (image patterns n : Nat) (es : List Entry) :
    readEntries m image patterns n 0 = .ok es ↔ es.length = n
      ∧ ∀ (j : Nat) (e : Entry), es[j]? = some e → EntryAt m (image + 0x10 + 16 * j) e ∧ e.InRange patterns := by
  have h := readList_eq_ok (g := readEntries m image patterns)
    (at' := fun i e => EntryAt m (image + 0x10 + 16 * i) e ∧ e.InRange patterns) (fun _ => rfl) (fun n i xs => ?_) n 0 es
  · simpa only [Nat.zero_add] using h
  · simp only [← readEntry_eq_ok, readEntries]
    cases readEntry m (image + 0x10 + 16 * i) patterns with
    | error r => simp
    | ok e => cases readEntries m image patterns n (i + 1) <;> simp [eq_comm]

/-- 12.6: the pattern at an address of an image. -/
def PatternAt (m : Memory) (a : Nat) (pat : List Byte) : Prop :=
  (m.read a).toNat = pat.length ∧ m.readBytes (a + 1) pat.length = pat

theorem readPatterns_eq_ok (m : Memory) (image n : Nat) (ps : List (List Byte)) :
    readPatterns m image n 0 = .ok ps ↔ ps.length = n ∧ ∀ (j : Nat) (pat : List Byte), ps[j]? = some pat →
      PatternAt m (image + 0x90 + 20 * j) pat ∧ 1 ≤ pat.length ∧ pat.length ≤ 16 := by
  have h := readList_eq_ok (g := readPatterns m image)
    (at' := fun i pat => PatternAt m (image + 0x90 + 20 * i) pat ∧ 1 ≤ pat.length ∧ pat.length ≤ 16)
    (fun _ => rfl) (fun n i xs => ?_) n 0 ps
  · simpa only [Nat.zero_add] using h
  · have hpat (pat : List Byte) (hp : PatternAt m (image + 0x90 + 20 * i) pat) :
        pat = m.readBytes (image + 0x90 + 20 * i + 1) (m.read (image + 0x90 + 20 * i)).toNat := by
      rw [hp.1, hp.2]
    have hread : PatternAt m (image + 0x90 + 20 * i)
        (m.readBytes (image + 0x90 + 20 * i + 1) (m.read (image + 0x90 + 20 * i)).toNat) := by
      simp only [PatternAt, Memory.length_readBytes, and_self]
    simp only [readPatterns]
    split
    · next hlen =>
      simp only [Bool.or_eq_true, decide_eq_true_eq] at hlen
      refine ⟨(nomatch ·), fun ⟨pat, rest, _, ⟨hp, h1, h16⟩, _⟩ => ?_⟩
      rw [← hp.1] at h1 h16
      omega
    · next hlen =>
      simp only [Bool.or_eq_true, decide_eq_true_eq] at hlen
      cases readPatterns m image n (i + 1) with
      | error x => simp
      | ok rest =>
        simp only [Except.ok.injEq]
        constructor
        · rintro rfl
          exact ⟨_, _, rfl, ⟨hread, by rw [← hread.1]; omega, by rw [← hread.1]; omega⟩, rfl⟩
        · rintro ⟨pat, _, rfl, ⟨hp, -⟩, rfl⟩
          rw [← hpat pat hp]

/-- 12.6: the form, the delay and the width of an entry are those of its program. -/
theorem readLineEntry_prog_eq_some (m : Memory) (a : Nat) (q : LineProg) :
    (readLineEntry m a).prog = some q ↔ PresetAt m a q := by
  have form (n : Nat) (hn : n < 256) : (m.read (a + 1)).toNat = n ↔ m.read (a + 1) = BitVec.ofNat 8 n := by
    rw [← BitVec.toNat_inj, BitVec.toNat_ofNat, Nat.mod_eq_of_lt hn]
  simp only [readLineEntry, form 1 (by decide), form 2 (by decide)]
  by_cases h1 : m.read (a + 1) = 1#8
  · by_cases hw : m.field (a + 5) 3 = 0
    · cases q <;> simp [PresetAt, h1, hw]
      omega
    · cases q <;> simp [PresetAt, h1, hw]
      rintro - rfl
      exact hw
  · by_cases h2 : m.read (a + 1) = 2#8
    · cases q <;> simp [PresetAt, h2]
    · cases q <;> simp [PresetAt, h1, h2]

theorem readPresets_eq_ok (m : Memory) (image n : Nat) (qs : List LineProg) :
    readPresets m image n 0 = .ok qs ↔ qs.length = n
      ∧ ∀ (j : Nat) (q : LineProg), qs[j]? = some q → PresetAt m (image + 0xE0 + 8 * j) q := by
  have h := readList_eq_ok (g := readPresets m image) (at' := fun i q => PresetAt m (image + 0xE0 + 8 * i) q)
    (fun _ => rfl) (fun n i xs => ?_) n 0 qs
  · simpa only [Nat.zero_add] using h
  · simp only [← readLineEntry_prog_eq_some, readPresets]
    cases (readLineEntry m (image + 0xE0 + 8 * i)).prog with
    | none => simp
    | some q => cases readPresets m image n (i + 1) <;> simp [eq_comm]

end Sys2Proof.Machine
end

section
/-! PROOF. The end of an ARM read (R119 to R121, R123): what passes the checks is loaded whole, and nothing else is
(O28). -/

namespace Sys2Proof.Machine

/-! ### Checks of the whole image (R120) -/

theorem namesStage_iff (es : List Entry) (k : Nat) : namesStage es k = true ↔ ∃ e ∈ es, e.stage = k := by
  simp only [namesStage, List.any_eq_true, decide_eq_true_eq]

/-- R120 REACH: every NEXT of a stage up to 3 leads to a stage that an entry names. -/
theorem firstUnreached_eq_none (all es : List Entry) (i : Nat) : firstUnreached all es i = none ↔
    ∀ e ∈ es, e.outcome = .next → e.stage ≤ 3 → ∃ f ∈ all, f.stage = e.stage + 1 := by
  induction es generalizing i with
  | nil => exact ⟨fun _ _ h => absurd h List.not_mem_nil, fun _ => rfl⟩
  | cons e es ih =>
    rw [firstUnreached, List.forall_mem_cons, ← ih (i + 1), ← namesStage_iff]
    split
    · next h =>
      simp only [Bool.and_eq_true, decide_eq_true_eq, Bool.not_eq_true'] at h
      obtain ⟨⟨ho, hs⟩, hn⟩ := h
      exact ⟨(nomatch ·), fun ⟨hr, _⟩ => absurd (hr ho hs) (Bool.eq_false_iff.1 hn)⟩
    · next h =>
      simp only [Bool.and_eq_true, decide_eq_true_eq, Bool.not_eq_true', not_and, Bool.not_eq_false] at h
      exact ⟨fun hr => ⟨fun ho hs => h ⟨ho, hs⟩, hr⟩, And.right⟩

theorem actionsValid_iff (actions : Byte) (preset line slot presets : Nat) :
    actionsValid actions preset line slot presets = true ↔ actions.toNat < 32
      ∧ (actions.getLsbD 3 = true → preset < presets ∧ line < 4) ∧ (actions.getLsbD 4 = true → slot < 64) := by
  simp only [actionsValid, actPulse, actRelease, Bool.and_eq_true, Bool.or_eq_true, Bool.not_eq_true', decide_eq_true_eq,
    and_assoc]
  cases actions.getLsbD 3 <;> cases actions.getLsbD 4 <;> simp

/-- R120: the read of a program, check by check. -/
theorem readProgram_eq_ok (m : Memory) (a : Nat) (p : Program) : readProgram m a = .ok p ↔
    (1 ≤ (m.read a).toNat ∧ (m.read a).toNat ≤ 8 ∧ (m.read (a + 1)).toNat ≤ 4 ∧ (m.read (a + 2)).toNat ≤ 2)
    ∧ readEntries m a (m.read (a + 1)).toNat (m.read a).toNat 0 = .ok p.entries
    ∧ namesStage p.entries 1 = true ∧ firstUnreached p.entries p.entries 0 = none
    ∧ readPatterns m a (m.read (a + 1)).toNat 0 = .ok p.patterns
    ∧ readPresets m a (m.read (a + 2)).toNat 0 = .ok p.presets
    ∧ actionsValid (m.read (a + 3)) (m.read (a + 4)).toNat (m.read (a + 5)).toNat (m.read (a + 6)).toNat
        (m.read (a + 2)).toNat = true
    ∧ p = ⟨p.entries, p.patterns, p.presets, m.read (a + 3), (m.read (a + 4)).toNat, (m.read (a + 5)).toNat,
        (m.read (a + 6)).toNat, m.field (a + 8) 2⟩ := by
  constructor
  · intro h
    unfold readProgram at h
    simp only at h
    split at h
    · cases h
    next hsize =>
    split at h
    · cases h
    next es hes =>
    split at h
    · cases h
    next hstage =>
    split at h
    · cases h
    next hreach =>
    split at h
    · cases h
    next ps hps =>
    split at h
    · cases h
    next qs hqs =>
    split at h
    · next hact =>
      cases h
      simp only [Bool.or_eq_true, decide_eq_true_eq, not_or] at hsize
      obtain ⟨⟨⟨hn, hn8⟩, hp4⟩, hq2⟩ := hsize
      exact ⟨⟨by omega, by omega, by omega, by omega⟩, hes, by simpa using hstage, hreach, hps, hqs, hact, rfl⟩
    · cases h
  · rintro ⟨⟨h1, h8, h4, h2⟩, hes, hstage, hreach, hps, hqs, hact, hp⟩
    have hsize : ¬ (decide ((m.read a).toNat = 0) || decide (8 < (m.read a).toNat) || decide (4 < (m.read (a + 1)).toNat)
        || decide (2 < (m.read (a + 2)).toNat)) = true := by
      simp only [Bool.or_eq_true, decide_eq_true_eq]
      omega
    simp only [readProgram, if_neg hsize, hes, hstage, Bool.not_true, Bool.false_eq_true, if_false, hreach, hps, hqs, hact,
      if_true]
    rw [hp]

/-- R120: the checks of one entry that do not speak of another. -/
theorem Entry.inRange_iff (patterns : Nat) (e : Entry) : e.InRange patterns ↔
    1 ≤ e.stage ∧ e.stage ≤ 4 ∧ 1 ≤ e.needed
    ∧ (∀ n, e.cond = .elapsed n → e.needed = 1 ∧ 1 ≤ n ∧ n ≤ 16777215)
    ∧ (∀ n, e.cond = .codeStall n → 1 ≤ n ∧ n ≤ 16777215)
    ∧ (∀ l edge, e.cond = .line l edge → l ≤ 5)
    ∧ (∀ l, e.cond = .glitch l → l ≤ 5)
    ∧ (∀ n, e.cond = .consoleMatch n → n < patterns)
    ∧ (∀ r st, e.cond = .rail r st → r ≤ 2)
    ∧ (∀ n, e.cond = .settle n → 1 ≤ n ∧ n ≤ 8) := by
  unfold Entry.InRange
  refine and_congr_right (fun _ => and_congr_right (fun _ => and_congr_right (fun _ => ?_)))
  cases e.cond <;> simp [conditionKind, Condition.InRange]

theorem forall_mem_iff_getElem? {α : Type} (xs : List α) (q : α → Prop) :
    (∀ x ∈ xs, q x) ↔ ∀ (j : Nat) (x : α), xs[j]? = some x → q x := by
  simp only [List.mem_iff_getElem?, forall_exists_index]
  exact forall_comm

/-- R120: the checks of a program, entry by entry and then as a whole. -/
theorem passesChecks_iff (p : Program) : PassesChecks p ↔
    (1 ≤ p.entries.length ∧ p.entries.length ≤ 8 ∧ p.patterns.length ≤ 4 ∧ p.presets.length ≤ 2)
    ∧ (∃ e ∈ p.entries, e.stage = 1)
    ∧ (∀ e ∈ p.entries, e.InRange p.patterns.length ∧ e.needed ≤ 255)
    ∧ (∀ e ∈ p.entries, e.outcome = .next → e.stage ≤ 3 → ∃ f ∈ p.entries, f.stage = e.stage + 1)
    ∧ (∀ pat ∈ p.patterns, 1 ≤ pat.length ∧ pat.length ≤ 16)
    ∧ p.actions.toNat < 32
    ∧ (p.actions.getLsbD 3 = true → p.pulsePreset < p.presets.length ∧ p.pulseLine < 4)
    ∧ (p.actions.getLsbD 4 = true → p.releaseSlot < 64) := by
  simp only [PassesChecks, Entry.inRange_iff]
  constructor
  · rintro ⟨h1, h8, h4, h2, hone, hes, hrest⟩
    refine ⟨⟨h1, h8, h4, h2⟩, hone, fun e he => ?_, fun e he => ?_, hrest⟩
    · obtain ⟨hs, hs4, hn, hn255, hel, hst, hl, hg, hc, hr, hm, -⟩ := hes e he
      exact ⟨⟨hs, hs4, hn, hel, hst, hl, hg, hc, hr, hm⟩, hn255⟩
    · obtain ⟨-, -, -, -, -, -, -, -, -, -, -, hnext⟩ := hes e he
      exact hnext
  · rintro ⟨⟨h1, h8, h4, h2⟩, hone, hes, hnext, hrest⟩
    refine ⟨h1, h8, h4, h2, hone, fun e he => ?_, hrest⟩
    obtain ⟨⟨hs, hs4, hn, hel, hst, hl, hg, hc, hr, hm⟩, hn255⟩ := hes e he
    exact ⟨hs, hs4, hn, hn255, hel, hst, hl, hg, hc, hr, hm, hnext e he⟩

theorem loadedProgramsPassTheirChecks : LoadedProgramsPassTheirChecks := by
  intro m a p
  rw [readProgram_eq_ok, readEntries_eq_ok, namesStage_iff, firstUnreached_eq_none, readPatterns_eq_ok, readPresets_eq_ok,
    actionsValid_iff, passesChecks_iff]
  simp only [forall_mem_iff_getElem?]
  constructor
  · rintro ⟨hsize, ⟨hne, hes⟩, hone, hnext, ⟨hnp, hps⟩, ⟨hnq, hqs⟩, ⟨h32, hpulse, hrel⟩, hp⟩
    obtain ⟨entries, patterns, presets, actions, preset, line, slot, post⟩ := p
    simp only [Program.mk.injEq, true_and] at hp
    obtain ⟨rfl, rfl, rfl, rfl, rfl⟩ := hp
    simp only at hne hnp hnq hes hps hqs ⊢
    rw [← hne, ← hnp, ← hnq] at hsize
    rw [← hnq] at hpulse
    refine ⟨⟨hne.symm, hnp.symm, hnq.symm, rfl, rfl, rfl, rfl, rfl, fun j e he => (hes j e he).1,
      fun j pat hj => (hps j pat hj).1, hqs⟩, hsize, hone, fun j e he => ?_, hnext, fun j pat hj => (hps j pat hj).2,
      h32, hpulse, hrel⟩
    obtain ⟨hat, hr⟩ := hes j e he
    have hneeded : (m.read (a + 0x10 + 16 * j + 2)).toNat = e.needed := hat.2.1
    exact ⟨hnp ▸ hr, by omega⟩
  · rintro ⟨⟨hne, hnp, hnq, hact, hpre, hline, hslot, hpost, hes, hps, hqs⟩, hsize, hone, hin, hnext, hlen, h32, hpulse,
      hrel⟩
    rw [hne, hnp, hnq, hact, hpre, hline, hslot, hpost]
    exact ⟨hsize, ⟨rfl, fun j e he => ⟨hes j e he, (hin j e he).1⟩⟩, hone, hnext,
      ⟨rfl, fun j pat hj => ⟨hps j pat hj, hlen j pat hj⟩⟩, ⟨rfl, hqs⟩, ⟨h32, hpulse, hrel⟩, rfl⟩

/-! ### The end of the read (R119 to R121, R123) -/

/-- R124: a read in progress shows nothing. -/
theorem publishedFields_modSeq_reading (b : Bay) (r : Option ImageRead) (s : State) :
    publishedFields (s.modSeq b (fun q => { q with reading := r })) = publishedFields s := by
  refine publishedFields_congr rfl (fun c => ?_) (fun _ => rfl)
  by_cases hc : b = c
  · subst hc
    simp only [bayFields, validByte, railFields, State.modSeq_seq, upd_self, State.modSeq_mon, State.modSeq_code,
      State.modSeq_rail, State.modSeq_con, State.modSeq_drv, State.modSeq_port]
  · exact bayFields_congr rfl rfl rfl rfl (upd_ne s.seq _ hc) rfl rfl

theorem BayInputs.offerStall (b : Bay) (t : Tick) (s : State) : BayInputs b s (Machine.offerStall b t s) := by
  unfold Machine.offerStall
  split
  · exact (BayInputs.modCode b _ s).trans (BayInputs.modSeq b _ _)
  · exact BayInputs.refl b s

theorem mirrorFields_report (i : Slot) (st : Status) (d : BitVec 16) (r : BitVec 64) (s : State) :
    mirrorFields (report i st d r s) = mirrorFields s := by
  simp only [mirrorFields, State.countSlots_congr (fun k => report_state i k st d r s)]
  rfl

/-- A report after changes of a bay's inputs but its stream writes that bay's status entry. -/
theorem BayInputs.leaves_report {b : Bay} {s x : State} (h : BayInputs b s x) (hstr : x.str = s.str) (i : Slot)
    (st : Status) (d : BitVec 16) (r : BitVec 64) :
    ∃ t, commit s (report i st d r x) = .next t
      ∧ Leaves s t (x.modSlot i (fun v => { v with report := some ⟨st, d, r, s.time.count⟩ })) (inBayEntry b) := by
  have hr : report i st d r x = x.modSlot i (fun v => { v with report := some ⟨st, d, r, s.time.count⟩ }) := by
    rw [report, State.now_eq, h.time]
  have hm : Machine.mirrorFields (signalLine s (report i st d r x)) = Machine.mirrorFields s :=
    (mirrorFields_report i st d r x).trans h.mirrorFields
  rw [← hr]
  refine ⟨_, rfl, rfl,
    Machine.publish_unchanged (fun a _ => ?_) (fun a _ => ?_) (fun c a ha hc => ?_) (fun c _ _ _ => ?_)⟩
  · exact congrArg (fun m => Memory.read m a) h.mem
  · rw [hm, diffFields_self]
    exact fun f hf => by cases hf
  · have hne : c ≠ b := fun e => ha (e ▸ hc)
    exact bayFields_congr (h.mon c hne) (h.code c hne) h.rail h.con (h.seq c hne) h.drv h.port
  · exact streamFields_congr (congrArg (fun v => v[c.val]) hstr)

theorem offerStall_str (b : Bay) (t : Tick) (s : State) : (offerStall b t s).str = s.str := by
  rw [offerStall_eq]

/-- R121: a program loaded: ARMED in stage 1 with every counter 0. -/
def programLoaded (b : Bay) (p : Program) (s : State) : State :=
  s.modSeq b (fun q =>
    { q with
      reading := none
      state := .armed
      program := some p
      stage := some 1
      counters := List.replicate p.entries.length 0
      stageEntry := some s.time.count })

theorem armProgram_eq (b : Bay) (p : Program) (s : State) :
    armProgram b p (s.modSeq b (fun q => { q with reading := none }))
      = offerStall b s.time.count (programLoaded b p s) := by
  simp only [armProgram, programLoaded, State.modSeq_modSeq, State.now_eq, State.modSeq_time]

theorem armReadEnd_exec {s : State} {b : Bay} {i : Slot} {early : List Host.Cell}
    (h : s.seq[b.val].reading = some ⟨i, early⟩) :
    exec (.armReadEnd b) s = commit s (armReadEnd b ⟨i, early⟩ s) := by
  change execArmReadEnd b s = _
  simp only [execArmReadEnd, h]

/-- R140: a read that loads nothing ends with a report. -/
theorem commit_readEnded (b : Bay) (i : Slot) (st : Status) (d : BitVec 16) (r : BitVec 64) (s : State) :
    commit s (report i st d r (s.modSeq b (fun q => { q with reading := none })))
      = .next ((s.modSeq b (fun q => { q with reading := none })).modSlot i (fun v =>
          { v with report := some ⟨st, d, r, s.time.count⟩ })) :=
  commit_quiet rfl ((publishedFields_report _ _ _ _ _).trans (publishedFields_modSeq_reading b none s))

theorem armReadEndLoadsAValidProgram : ArmReadEndLoadsAValidProgram := by
  rintro s b i m early hr rfl
  rw [armReadEnd_exec hr]
  refine ⟨fun hm => ?_, fun r x hm he => ?_, fun p hm hp => ?_⟩
  · simp only [armReadEnd, hm, if_true]
    exact commit_readEnded b i _ _ _ s
  · simp only [armReadEnd, hm, Bool.false_eq_true, if_false, State.imageRead, he]
    exact commit_readEnded b i _ _ _ s
  · simp only [armReadEnd, hm, Bool.false_eq_true, if_false, State.imageRead, hp, armProgram_eq]
    exact ((BayInputs.modSeq b _ s).trans (.offerStall b s.time.count _)).leaves_report
      (offerStall_str b s.time.count (programLoaded b p s)) i .ok 0#16 0#64

/-- Settles O28: the end of the read by its checks, and what the checks are. -/
theorem armLoadsOnlyCheckedPrograms : Obligations.ArmLoadsOnlyCheckedPrograms :=
  ⟨armReadEndLoadsAValidProgram, loadedProgramsPassTheirChecks⟩

end Sys2Proof.Machine
end

section
/-! PROOF. The operations that leave the sequencers, the engines and the driven lines as they are: records and pages,
slots and cards, and the Console Ports. -/

namespace Sys2Proof.Machine

/-- The sequencers, the engines and the driven lines stay. -/
structure ProgramsSame (s t : State) : Prop where
  seq : t.seq = s.seq
  eng : t.eng = s.eng
  drv : t.drv = s.drv

namespace ProgramsSame

theorem refl (s : State) : ProgramsSame s s := ⟨rfl, rfl, rfl⟩

theorem trans {s t u : State} (h : ProgramsSame s t) (k : ProgramsSame t u) : ProgramsSame s u :=
  ⟨k.seq.trans h.seq, k.eng.trans h.eng, k.drv.trans h.drv⟩

theorem forEach {α : Type} (xs : List α) {f : α → State → State} (h : ∀ x s, ProgramsSame s (f x s)) (s : State) :
    ProgramsSame s (Machine.forEach xs f s) := by
  induction xs generalizing s with
  | nil => exact refl s
  | cons x rest ih => exact (h x s).trans (ih (f x s))

theorem modStr (b : Bay) (f : Stream → Stream) (s : State) : ProgramsSame s (s.modStr b f) := ⟨rfl, rfl, rfl⟩

theorem modCon (b : Bay) (f : Console → Console) (s : State) : ProgramsSame s (s.modCon b f) := ⟨rfl, rfl, rfl⟩

theorem modCode (b : Bay) (f : CodeRx → CodeRx) (s : State) : ProgramsSame s (s.modCode b f) := ⟨rfl, rfl, rfl⟩

theorem modPort (b : Bay) (f : ScanPort → ScanPort) (s : State) : ProgramsSame s (s.modPort b f) := ⟨rfl, rfl, rfl⟩

theorem modSlot (i : Slot) (f : SlotRec → SlotRec) (s : State) : ProgramsSame s (s.modSlot i f) := ⟨rfl, rfl, rfl⟩

theorem modLane (b : Bay) (l : Lane) (f : LaneQ → LaneQ) (s : State) : ProgramsSame s (s.modLane b l f) :=
  ⟨rfl, rfl, rfl⟩

theorem store (a : Nat) (bytes : List Byte) (s : State) : ProgramsSame s (s.store a bytes) := ⟨rfl, rfl, rfl⟩

theorem report (i : Slot) (st : Status) (d : BitVec 16) (r : BitVec 64) (s : State) :
    ProgramsSame s (Machine.report i st d r s) := ⟨rfl, rfl, rfl⟩

theorem offer (b : Bay) (body : RecordBody) (t : Tick) (s : State) : ProgramsSame s (Machine.offer b body t s) :=
  ⟨rfl, rfl, rfl⟩

theorem offerAll (body : RecordBody) (t : Tick) (s : State) : ProgramsSame s (Machine.offerAll body t s) :=
  forEach allBays (fun b s => offer b body t s) s

/-! ### Records and pages (chapter 2) -/

theorem setPage (p : Page) (st : PageState) (s : State) : ProgramsSame s (Machine.setPage p st s) := ⟨rfl, rfl, rfl⟩

theorem raiseBay (b : Bay) (f : BayFactor) (s : State) : ProgramsSame s (Machine.raiseBay b f s) := ⟨rfl, rfl, rfl⟩

theorem raiseFixture (f : FixtureFactor) (s : State) : ProgramsSame s (Machine.raiseFixture f s) := ⟨rfl, rfl, rfl⟩

theorem rewrite (fs : List Field) (s : State) : ProgramsSame s (Machine.rewrite fs s) :=
  ⟨rewrite_seq fs s, rewrite_eng fs s, rewrite_drv fs s⟩

theorem deliver (b : Bay) (u : PageUse) (s : State) : ProgramsSame s (Machine.deliver b u s) :=
  (((store _ _ s).trans (setPage _ _ _)).trans (modStr b _ _)).trans (raiseBay b _ _)

theorem retain (b : Bay) (u : PageUse) (s : State) : ProgramsSame s (Machine.retain b u s) :=
  ((setPage _ _ s).trans (store _ _ _)).trans (modStr b _ _)

theorem deliverAll (b : Bay) (us : List PageUse) (s : State) : ProgramsSame s (Machine.deliverAll b us s) :=
  forEach us (fun u s => deliver b u s) s

theorem closeBatch (b : Bay) (brk : Bool) (s : State) : ProgramsSame s (Machine.closeBatch b brk s) := by
  unfold Machine.closeBatch
  split <;> exact ⟨rfl, rfl, rfl⟩

theorem toDraining (b : Bay) (s : State) : ProgramsSame s (Machine.toDraining b s) :=
  (closeBatch b false s).trans (modStr b _ _)

theorem endPage (b : Bay) (s : State) : ProgramsSame s (Machine.endPage b s) := by
  unfold Machine.endPage
  split
  · exact refl s
  · split
    · exact (retain b _ s).trans (modStr b _ _)
    · exact (deliver b _ s).trans (modStr b _ _)

theorem allocate (b : Bay) (p : Page) (rest : List Page) (base : Tick) (s : State) :
    ProgramsSame s (Machine.allocate b p rest base s) := by
  unfold Machine.allocate
  simp only
  split <;> exact ⟨rfl, rfl, rfl⟩

theorem obtainPage {b : Bay} {base : Tick} {s t : State} (h : Machine.obtainPage b base s = some t) :
    ProgramsSame s t := by
  have recycled (u : PageUse) (older : List PageUse) : ProgramsSame s (recycle b u older base s) := ⟨rfl, rfl, rfl⟩
  unfold Machine.obtainPage at h
  simp only at h
  split at h
  · split at h
    · cases h
      exact allocate b _ _ base s
    · split at h
      · cases h
        exact allocate b _ _ base s
      · cases h
        exact recycled _ _
    · cases h
      exact recycled _ _
    · cases h
  · split at h
    · cases h
      exact allocate b _ _ base s
    · cases h

theorem writeSlot (b : Bay) (body : RecordBody) (late : Bool) (delta : Nat) (s : State) :
    ProgramsSame s (Machine.writeSlot b body late delta s) := by
  unfold Machine.writeSlot
  split <;> exact ⟨rfl, rfl, rfl⟩

theorem endIfFull (b : Bay) (s : State) : ProgramsSame s (Machine.endIfFull b s) := by
  unfold Machine.endIfFull
  split
  · exact endPage b s
  · exact refl s

theorem writeData (b : Bay) (body : RecordBody) (late : Bool) (delta : Nat) (clamped : Tick) (s : State) :
    ProgramsSame s (Machine.writeData b body late delta clamped s) :=
  ((writeSlot b body late delta s).trans (modStr b _ _)).trans (endIfFull b _)

theorem writeLoss (b : Bay) (s : State) : ProgramsSame s (Machine.writeLoss b s) := by
  unfold Machine.writeLoss
  split
  · exact refl s
  · exact ((writeSlot b _ _ _ s).trans (modStr b _ _)).trans (endIfFull b _)

theorem placeRecord (tries : Nat) (b : Bay) (r : Record) (s : State) :
    ProgramsSame s (Machine.placeRecord tries b r s) := by
  induction tries generalizing s with
  | zero => exact refl s
  | succ n ih =>
    unfold Machine.placeRecord
    simp only
    split
    · exact modStr b _ s
    · next s1 h1 =>
      have hpage : ProgramsSame s s1 := by
        split at h1
        · exact obtainPage h1
        · cases h1
          exact refl s
      have hloss := hpage.trans (writeLoss b s1)
      split
      · exact hloss.trans (ih _)
      · split
        · exact hloss.trans (writeData b _ _ _ _ _)
        · split
          · split
            · exact hloss.trans ((writeSlot b _ _ _ _).trans (writeData b _ _ _ _ _))
            · exact hloss.trans ((endPage b _).trans (ih _))
          · exact hloss.trans (writeData b _ _ _ _ _)

theorem afterTake (b : Bay) (m : Bool) (s : State) : ProgramsSame s (Machine.afterTake b m s) := by
  unfold Machine.afterTake
  simp only
  split
  · split
    · split
      · exact (modStr b _ s).trans (toDraining b _)
      · exact modStr b _ s
    · exact modStr b _ s
  · split
    · split
      · exact (modStr b _ s).trans (toDraining b _)
      · exact modStr b _ s
    · exact refl s

theorem serveRecord (b : Bay) (s : State) : ProgramsSame s (Machine.serveRecord b s) := by
  have taken (rest : List Record) : ProgramsSame s (takeHead b rest s) := ⟨rfl, rfl, rfl⟩
  unfold Machine.serveRecord
  split
  · exact refl s
  · exact ((taken _).trans (placeRecord 3 b _ _)).trans (afterTake b _ _)

theorem serveFlush (b : Bay) (s : State) : ProgramsSame s (Machine.serveFlush b s) := by
  have taken : ProgramsSame s (takeFlush b s) := ⟨rfl, rfl, rfl⟩
  unfold Machine.serveFlush
  split
  · exact refl s
  · simp only
    split
    · split
      · exact (taken.trans ((deliver b _ _).trans (modStr b _ _))).trans (report _ _ _ _ _)
      · exact taken.trans (report _ _ _ _ _)
    · exact taken.trans (report _ _ _ _ _)

theorem drainLoss (b : Bay) (s : State) : ProgramsSame s (Machine.drainLoss b s) := by
  have served : ProgramsSame s (served b s) := ⟨rfl, rfl, rfl⟩
  unfold Machine.drainLoss
  split
  · exact served.trans (writeSlot b _ _ _ _)
  · exact served

theorem serveDrain (b : Bay) (s : State) : ProgramsSame s (Machine.serveDrain b s) := by
  unfold Machine.serveDrain
  simp only
  split
  · exact ((drainLoss b s).trans (deliverAll b _ _)).trans (modStr b _ _)
  · exact (((drainLoss b s).trans (deliverAll b _ _)).trans (modStr b _ _)).trans (report _ _ _ _ _)

theorem stopTrace (b : Bay) (p : Nat) (taken : Bool) (s : State) : ProgramsSame s (Machine.stopTrace b p taken s) := by
  have deliver (x : State) : ProgramsSame x
      ((Machine.deliverAll b s.str[b.val].retained x).modStr b (fun t => { t with retained := [] })) :=
    (deliverAll b _ x).trans (modStr b _ _)
  unfold Machine.stopTrace
  simp only
  split
  · split <;> split
    · exact ((modStr b _ s).trans (deliver _)).trans (toDraining b _)
    · exact (modStr b _ s).trans (toDraining b _)
    · exact (modStr b _ s).trans (deliver _)
    · exact modStr b _ s
  · exact refl s

theorem traceBegin (b : Bay) (i : Slot) (s : State) : ProgramsSame s (Machine.traceBegin b i s) := by
  unfold Machine.traceBegin
  simp only
  split
  · unfold traceOpen
    simp only
    split <;> exact ⟨rfl, rfl, rfl⟩
  · split
    · unfold traceClose
      simp only
      split
      · exact (toDraining b s).trans (modStr b _ _)
      · split <;> exact ⟨rfl, rfl, rfl⟩
    · unfold traceFlush
      simp only
      split
      · split <;> exact ⟨rfl, rfl, rfl⟩
      · exact report _ _ _ _ s

theorem stopStream (b : Bay) (s : State) : ProgramsSame s (Machine.stopStream b s) := by
  unfold Machine.stopStream
  simp only
  split
  · exact toDraining b s
  · split
    · exact modStr b _ s
    · exact refl s

/-! ### Slots and cards (chapter 7) -/

theorem leaveOwnQueue (i : Slot) (s : State) : ProgramsSame s (Machine.leaveOwnQueue i s) := by
  unfold Machine.leaveOwnQueue
  split <;> exact ⟨rfl, rfl, rfl⟩

theorem requestSlot (i : Slot) (base : Tick) (s : State) : ProgramsSame s (Machine.requestSlot i base s) := by
  unfold Machine.requestSlot
  simp only
  split <;> exact ⟨rfl, rfl, rfl⟩

theorem closeCard (i : Slot) (st : Status) (d : BitVec 16) (r : BitVec 64) (t : Tick) (s : State) :
    ProgramsSame s (Machine.closeCard i st d r t s) := by
  have ended (x : State) : ProgramsSame x (writeEnd i st d t r x) :=
    ((((store _ _ x).trans (store _ _ _)).trans (store _ _ _)).trans (store _ _ _)).trans (store _ _ _)
  unfold Machine.closeCard
  simp only
  split
  · exact (ended s).trans (modSlot i _ _)
  · exact ((store _ _ s).trans (ended _)).trans (modSlot i _ _)

theorem offerEnd (i : Slot) (s : State) : ProgramsSame s (Machine.offerEnd i s) := offer _ _ _ s

theorem endStopped (i : Slot) (s : State) : ProgramsSame s (Machine.endStopped i s) :=
  (((leaveOwnQueue i s).trans (closeCard i _ _ _ _ _)).trans (offerEnd i _)).trans (raiseBay _ _ _)

theorem releaseSlot (i : Slot) (s : State) : ProgramsSame s (Machine.releaseSlot i s) := by
  unfold Machine.releaseSlot
  split
  · split
    · exact endStopped i s
    · exact (requestSlot i _ s).trans (store _ _ _)
  · exact refl s

theorem writeStart (i : Slot) (t : Tick) (s : State) : ProgramsSame s (Machine.writeStart i t s) :=
  (store _ _ s).trans (store _ _ _)

theorem writeAcceptance (i : Slot) (st : SlotState) (t : Tick) (s : State) :
    ProgramsSame s (Machine.writeAcceptance i st t s) :=
  ((((((store _ _ s).trans (store _ _ _)).trans (store _ _ _)).trans (store _ _ _)).trans (store _ _ _)).trans
    (store _ _ _)).trans (store _ _ _)

theorem clearHold (s : State) : ProgramsSame s (Machine.clearHold s) := ⟨rfl, rfl, rfl⟩

theorem leaveService (i : Slot) (s : State) : ProgramsSame s (Machine.leaveService i s) := by
  unfold Machine.leaveService
  simp only
  split <;> exact ⟨rfl, rfl, rfl⟩

/-! ### Console ports (chapter 5) -/

theorem batchByte (b : Bay) (x : Byte) (err : Bool) (fall stop : Tick) (s : State) :
    ProgramsSame s (Machine.batchByte b x err fall stop s) := by
  unfold Machine.batchByte
  split
  · simp only
    split
    · exact (modCon b _ s).trans (closeBatch b false _)
    · exact modCon b _ s
  · exact refl s

theorem byteTaken (b : Bay) (s : State) : ProgramsSame s (Machine.byteTaken b s) :=
  ((modCon b _ s).trans (batchByte b _ _ _ _ _)).trans (modCon b _ _)

theorem framingByte (b : Bay) (x : Byte) (s : State) : ProgramsSame s (Machine.framingByte b x s) :=
  (batchByte b x _ _ _ s).trans (modCon b _ _)

theorem breakRecord (b : Bay) (s : State) : ProgramsSame s (Machine.breakRecord b s) := by
  unfold Machine.breakRecord
  split
  · exact closeBatch b true s
  · exact offer b _ _ s

theorem sendBegin (b : Bay) (i : Slot) (s : State) : ProgramsSame s (Machine.sendBegin b i s) := by
  unfold Machine.sendBegin
  simp only
  split <;> exact ⟨rfl, rfl, rfl⟩

theorem charEnd (b : Bay) (j : TxJob) (s : State) : ProgramsSame s (Machine.charEnd b j s) := by
  unfold Machine.charEnd
  simp only
  split
  · exact ⟨rfl, rfl, rfl⟩
  · split
    · split <;> exact ⟨rfl, rfl, rfl⟩
    · exact ⟨rfl, rfl, rfl⟩

theorem sendAbort (b : Bay) (i : Slot) (st : Status) (s : State) : ProgramsSame s (Machine.sendAbort b i st s) := by
  unfold Machine.sendAbort
  split
  · split
    · split <;> exact ⟨rfl, rfl, rfl⟩
    · exact refl s
  · exact refl s

theorem sendPowerLoss (b : Bay) (i : Slot) (s : State) : ProgramsSame s (Machine.sendPowerLoss b i s) := by
  unfold Machine.sendPowerLoss
  split
  · split
    · split <;> exact ⟨rfl, rfl, rfl⟩
    · exact refl s
  · exact refl s

/-! ### The code lane (R58 to R65) -/

theorem afterFrame (b : Bay) (cond : CodeCond) (s : State) : ProgramsSame s (Machine.afterFrame b cond s) := by
  cases cond <;> exact modCode b _ s

theorem codeError (b : Bay) (cause : CodeErrCause) (detail : Nat) (s : State) :
    ProgramsSame s (Machine.codeError b cause detail s) := ⟨rfl, rfl, rfl⟩

end ProgramsSame

end Sys2Proof.Machine
end

section
/-! PROOF. A sequencer in range of its program (R98, R100, R102), an engine on checked steps (R160, R161) and a line
without a RELEASE_FORCE (R177), over the changes that the operations make of one of them. -/

namespace Sys2Proof.Machine

/-! ### A sequencer (R98, R100, R102) -/

/-- R102: an entry that an event has not completed, of an event that completes none, is below its needed count. -/
theorem lt_needed_of_firstComplete_eq_none {k : Nat} {ev : Event} {es : List Entry} {cs : List Nat} {n j : Nat}
    {e : Entry} {c : Nat} (h : firstComplete k ev es cs n = none) (he : es[j]? = some e) (hc : cs[j]? = some c)
    (hit : e.counts k ev = true) : c < e.needed := by
  induction es generalizing cs n j with
  | nil => cases he
  | cons f es ih =>
    cases cs with
    | nil => cases hc
    | cons d cs =>
      rw [firstComplete] at h
      split at h
      · cases h
      · next hn =>
        cases j with
        | zero =>
          cases he
          cases hc
          simpa [hit] using hn
        | succ j => exact ih h he hc

/-- R100: a program that has been read passes its checks. -/
theorem Program.Ok.of_read {m : Memory} {a : Nat} {p : Program} (h : readProgram m a = .ok p) : p.Ok := by
  obtain ⟨-, -, hin, -⟩ := (passesChecks_iff p).1 ((loadedProgramsPassTheirChecks m a p).1 h).2
  intro e he
  obtain ⟨⟨h1, h4, hn, -⟩, -⟩ := hin e he
  exact ⟨h1, h4, hn⟩

namespace Sequencer.Ok

/-- The invariant reads the state, the program, the stage and the counters alone. -/
theorem congr {q r : Sequencer} (h : q.Ok) (state : r.state = q.state := by rfl)
    (program : r.program = q.program := by rfl) (stage : r.stage = q.stage := by rfl)
    (counters : r.counters = q.counters := by rfl) : r.Ok :=
  ⟨by rw [program]; exact h.program, by rw [state, program, stage, counters]; exact h.disarmed,
    by rw [state, program, stage, counters]; exact h.armed⟩

theorem disarm (q : Sequencer) : q.disarm.Ok where
  program p h := by cases h
  disarmed _ := ⟨rfl, rfl, rfl⟩
  armed h := by cases h

/-- R112: a FIRED sequencer keeps its program. -/
theorem fired {q r : Sequencer} (h : q.Ok) (program : r.program = q.program) (state : r.state = .fired) : r.Ok where
  program p hp := h.program p (program ▸ hp)
  disarmed hd := by cases state.symm.trans hd
  armed ha := by cases state.symm.trans ha

/-- R102, R121: a stage of 1 to 4 entered with every counter 0. -/
theorem entered {q : Sequencer} {p : Program} {k : Nat} (hok : p.Ok) (h1 : 1 ≤ k) (h4 : k ≤ 4) (ha : q.state = .armed)
    (hp : q.program = some p) (hk : q.stage = some k) (hc : q.counters = List.replicate p.entries.length 0) : q.Ok where
  program p' hp' := Option.some.inj (hp.symm.trans hp') ▸ hok
  disarmed hd := by cases ha.symm.trans hd
  armed _ := by
    refine ⟨p, k, hp, hk, h1, h4, by rw [hc, List.length_replicate], fun j e c he hj => ?_⟩
    obtain ⟨-, -, hn⟩ := hok e (List.mem_of_getElem? he)
    rw [hc] at hj
    obtain rfl := List.eq_of_mem_replicate (List.mem_of_getElem? hj)
    exact hn

/-- R102: an event that completes no entry leaves every counter below its needed count. -/
theorem counting {q : Sequencer} {p : Program} {k : Nat} {ev : Event} (h : q.Ok) (ha : q.state = .armed)
    (hp : q.program = some p) (hf : firstComplete k ev p.entries (countEvent k ev p.entries q.counters) 0 = none) :
    Sequencer.Ok { q with counters := countEvent k ev p.entries q.counters } where
  program := h.program
  disarmed hd := by cases ha.symm.trans hd
  armed _ := by
    obtain ⟨p', k', hp', hk', h1, h4, hl, hlt⟩ := h.armed ha
    obtain rfl := Option.some.inj (hp.symm.trans hp')
    refine ⟨p, k', hp, hk', h1, h4, (countEvent_length ..).trans hl, fun j e c he hj => ?_⟩
    cases hd : q.counters[j]? with
    | none =>
      have hj' := (List.getElem?_eq_some_iff.1 hj).1
      rw [countEvent_length] at hj'
      exact absurd hj' (Nat.not_lt.2 (List.getElem?_eq_none_iff.1 hd))
    | some d =>
      cases hit : e.counts k ev with
      | true => exact lt_needed_of_firstComplete_eq_none hf he hj hit
      | false =>
        have hsame : c = d := by
          rw [countEvent_getElem? he hd, hit] at hj
          exact (Option.some.inj hj).symm
        rw [hsame]
        exact hlt j e d he hd

end Sequencer.Ok

/-! ### An engine (R160, R161) -/

/-- R160: the steps after a checked step that is no END have passed their checks. -/
theorem firstBadStep_tail {x : ScanEntry} {rest : List ScanEntry} {i : Nat} (h : firstBadStep (x :: rest) i = none)
    (hx : x.stepKind ≠ some .endList) : firstBadStep rest (i + 1) = none := by
  rwa [firstBadStep, checkStep_of_firstBadStep h, if_neg hx] at h

/-- The work a step begins with is neither a list's read, nor an entry path, nor a result write. -/
theorem ScanEntry.firstWork_ne (x : ScanEntry) (now : Tick) :
    x.firstWork now ≠ .loading ∧ (∀ t n, x.firstWork now ≠ .entryPath t n) ∧ x.firstWork now ≠ .writeResult := by
  unfold ScanEntry.firstWork
  split <;> simp

namespace Engine.Checked

variable {g g' : Engine}

/-- The invariant reads the step list, the index and the work alone. -/
theorem congr (h : g.Checked) (index : g'.index = g.index := by rfl) (steps : g'.steps = g.steps := by rfl)
    (work : g'.work = g.work := by rfl) : g'.Checked := by
  obtain ⟨before, entry, rest, write⟩ := h
  simp only [Engine.step] at write
  exact ⟨by rwa [index, work], by rwa [steps, work], by rwa [index, steps, work],
    by rwa [Engine.step, index, steps, work]⟩

/-- R173: the end of a job reported. -/
theorem reported (h : g.Checked) (index : g'.index = g.index := by rfl) (steps : g'.steps = g.steps := by rfl)
    (work : g'.work = .reported := by rfl) : g'.Checked where
  before hw := by simp [work] at hw
  entry t n hw := by simp [work] at hw
  rest i x hi hx := by
    rw [index] at hi
    rw [steps] at hx ⊢
    exact ⟨(h.rest i x hi hx).1, fun _ => .inr work⟩
  write hw := by simp [work] at hw

/-- R154: a job handed to an engine: its list is to be read, and no step is in hand. -/
theorem begun (index : g.index = none) (work : g.work = .loading) : g.Checked where
  before _ := index
  entry t n hw := by simp [work] at hw
  rest i x hi := by simp [index] at hi
  write hw := by simp [work] at hw

/-- R158: the entry path of a checked list. -/
theorem entering (index : g.index = none) (ok : firstBadStep g.steps 0 = none) (work : g.work ≠ .writeResult) :
    g.Checked where
  before _ := index
  entry _ _ _ := ok
  rest i x hi := by simp [index] at hi
  write hw := absurd hw work

/-- R160: a step begins from which on the steps have passed their checks. -/
theorem stepBegun {i : Nat} {x : ScanEntry} {now : Tick} (ok : firstBadStep (g.steps.drop i) i = none)
    (hx : g.steps[i]? = some x) (index : g.index = some i) (work : g.work = x.firstWork now) : g.Checked := by
  obtain ⟨hload, hentry, hwrite⟩ := x.firstWork_ne now
  refine ⟨fun hw => ?_, fun t n hw => ?_, fun j y hj hy => ?_, fun hw => ?_⟩
  · rw [work] at hw
    obtain hw | ⟨t, n, hw⟩ := hw
    · exact absurd hw hload
    · exact absurd hw (hentry t n)
  · rw [work] at hw
    exact absurd hw (hentry t n)
  · obtain rfl := Option.some.inj (index.symm.trans hj)
    obtain rfl := Option.some.inj (hx.symm.trans hy)
    exact ⟨ok, fun hend => .inl (by rw [work, ScanEntry.firstWork, hend])⟩
  · rw [work] at hw
    exact absurd hw hwrite

theorem step_eq_some {x : ScanEntry} : g.step = some x ↔ ∃ i, g.index = some i ∧ g.steps[i]? = some x :=
  Option.bind_eq_some_iff

/-- R167: a step whose work is not that of an END is no END. -/
theorem not_end (h : g.Checked) {x : ScanEntry} (hx : g.step = some x) (hend : g.work ≠ .endStep)
    (hrep : g.work ≠ .reported) : x.stepKind ≠ some .endList := by
  obtain ⟨i, hi, hs⟩ := step_eq_some.1 hx
  exact fun hk => ((h.rest i x hi hs).2 hk).elim hend hrep

/-- R160: the steps after the one in hand, which is no END, have passed their checks. -/
theorem next_ok (h : g.Checked) {x : ScanEntry} (hx : g.step = some x) (hk : x.stepKind ≠ some .endList) :
    firstBadStep (g.steps.drop (g.index.getD 0 + 1)) (g.index.getD 0 + 1) = none := by
  obtain ⟨i, hi, hs⟩ := step_eq_some.1 hx
  have hok := (h.rest i x hi hs).1
  rw [List.drop_eq_getElem?_toList_append, hs] at hok
  rw [hi]
  exact firstBadStep_tail hok hk

/-- R163, R164: the work on a step in hand that is no END goes on. -/
theorem working (h : g.Checked) {x : ScanEntry} (hx : g.step = some x) (hk : x.stepKind ≠ some .endList)
    (index : g'.index = g.index) (steps : g'.steps = g.steps) (load : g'.work ≠ .loading)
    (path : ∀ t n, g'.work ≠ .entryPath t n)
    (write : g'.work = .writeResult → x.stores = true ∧ (x.stepKind = some .ir ∨ x.stepKind = some .dr)) :
    g'.Checked where
  before hw := hw.elim (fun hw => absurd hw load) (fun ⟨t, n, hw⟩ => absurd hw (path t n))
  entry t n hw := absurd hw (path t n)
  rest i y hi hy := by
    rw [index] at hi
    rw [steps] at hy ⊢
    obtain rfl : x = y := Option.some.inj (hx.symm.trans (step_eq_some.2 ⟨i, hi, hy⟩))
    exact ⟨(h.rest i x hi hy).1, fun hend => absurd hend hk⟩
  write hw := ⟨x, by rw [Engine.step, index, steps]; exact hx, write hw⟩

end Engine.Checked

/-! ### A driven line (R177) -/

namespace DrvLine.Ok

variable {l l' : DrvLine}

/-- The invariant reads the running and the buffered program alone. -/
theorem congr (h : l.Ok) (running : l'.running = l.running := by rfl) (buffered : l'.buffered = l.buffered := by rfl) :
    l'.Ok := by
  unfold DrvLine.Ok
  rw [running, buffered]
  exact h

/-- A line whose running program ends, with or without the buffered one. -/
theorem stopped (h : l.Ok) (running : l'.running = none := by rfl)
    (buffered : l'.buffered = l.buffered ∨ l'.buffered = none := by exact .inl rfl) : l'.Ok := by
  refine ⟨fun q hq => ?_, fun r hr => by simp [running] at hr⟩
  obtain hb | hb := buffered
  · exact h.1 q (hb ▸ hq)
  · simp [hb] at hq

theorem unbuffered (h : l.Ok) (running : l'.running = l.running := by rfl) (buffered : l'.buffered = none := by rfl) :
    l'.Ok := ⟨fun q hq => by simp [buffered] at hq, fun r hr => h.2 r (running ▸ hr)⟩

/-- A TIMED or FORCE program runs on the line. -/
theorem runs (h : l.Ok) {r : Running} (running : l'.running = some r) (hr : r.prog ≠ .release)
    (buffered : l'.buffered = l.buffered := by rfl) : l'.Ok :=
  ⟨fun q hq => h.1 q (buffered ▸ hq), fun _ hr' => Option.some.inj (running.symm.trans hr') ▸ hr⟩

/-- A TIMED or FORCE program joins the line's buffer. -/
theorem buffers (h : l.Ok) {q : Buffered} (buffered : l'.buffered = some q) (hq : q.prog ≠ .release)
    (running : l'.running = l.running := by rfl) : l'.Ok :=
  ⟨fun _ hq' => Option.some.inj (buffered.symm.trans hq') ▸ hq, fun r hr => h.2 r (running ▸ hr)⟩

end DrvLine.Ok

end Sys2Proof.Machine
end

section
/-! PROOF. Sequencers in range of their programs, engines on checked steps and lines without a RELEASE_FORCE, over the
operations that commands share (R98, R100, R102, R160, R161, R177). -/

namespace Sys2Proof.Machine

/-- R98, R100, R102, R160, R161, R177: the invariants of the sequencers, the engines and the driven lines. -/
structure State.ProgramsOk (s : State) : Prop where
  seq : s.SeqOk
  steps : s.EnginesChecked
  drivers : s.DriversOk

namespace State.ProgramsOk

variable {s t : State}

theorem same (h : s.ProgramsOk) (k : ProgramsSame s t) : t.ProgramsOk :=
  ⟨by rw [State.SeqOk, k.seq]; exact h.seq, by rw [State.EnginesChecked, k.eng]; exact h.steps,
    by rw [State.DriversOk, k.drv]; exact h.drivers⟩

theorem forEach {α : Type} (xs : List α) {f : α → State → State}
    (hf : ∀ (x : α) (s : State), s.ProgramsOk → (f x s).ProgramsOk) (h : s.ProgramsOk) :
    (Machine.forEach xs f s).ProgramsOk := by
  induction xs generalizing s with
  | nil => exact h
  | cons x rest ih => exact ih (hf x s h)

theorem modSeq {b : Bay} {f : Sequencer → Sequencer} (h : s.ProgramsOk)
    (hf : s.seq[b.val].Ok → (f s.seq[b.val]).Ok) : (s.modSeq b f).ProgramsOk := by
  refine ⟨fun c => ?_, h.steps, h.drivers⟩
  rw [State.modSeq_seq, upd_get]
  split
  · next hc => exact hc ▸ hf (h.seq b)
  · exact h.seq c

theorem modEng {e : EngineId} {f : Engine → Engine} (h : s.ProgramsOk)
    (hf : s.eng[e.val].Checked → (f s.eng[e.val]).Checked) : (s.modEng e f).ProgramsOk := by
  refine ⟨h.seq, fun c => ?_, h.drivers⟩
  rw [State.modEng_eng, upd_get]
  split
  · next hc => exact hc ▸ hf (h.steps e)
  · exact h.steps c

theorem modOutLine {b : Bay} {d : OutLine} {f : DrvLine → DrvLine} (h : s.ProgramsOk)
    (hf : s.drv[b.val].lines[d.val].Ok → (f s.drv[b.val].lines[d.val]).Ok) : (s.modOutLine b d f).ProgramsOk := by
  refine ⟨h.seq, h.steps, fun c e => ?_⟩
  rw [State.modOutLine_drv, upd_get]
  split
  · next hc =>
    subst hc
    rw [upd_get]
    split
    · next he => exact he ▸ hf (h.drivers b d)
    · exact h.drivers b e
  · exact h.drivers c e

/-- R182: the job of a driver changed. -/
theorem modJob (h : s.ProgramsOk) (b : Bay) (f : Option LinesJob → Option LinesJob) :
    (s.modDrv b (fun v => { v with job := f v.job })).ProgramsOk := by
  refine ⟨h.seq, h.steps, fun c e => ?_⟩
  rw [State.modDrv_drv, upd_get]
  split <;> exact h.drivers c e

/-! ### Line drivers (chapter 9) -/

theorem setLevel (h : s.ProgramsOk) (b : Bay) (d : OutLine) (level : Bool) (c : DriveCause × Option Slot) :
    (Machine.setLevel b d level c s).ProgramsOk := (h.modOutLine (fun l => l.congr)).same (.offer b _ _ _)

theorem toRest (h : s.ProgramsOk) (b : Bay) (d : OutLine) (c : DriveCause × Option Slot) :
    (Machine.toRest b d c s).ProgramsOk := (h.setLevel b d _ c).modOutLine (fun l => l.congr)

theorem toRestIfActive (h : s.ProgramsOk) (b : Bay) (d : OutLine) (c : DriveCause × Option Slot) :
    (Machine.toRestIfActive b d c s).ProgramsOk := by
  unfold Machine.toRestIfActive
  split
  · exact h
  · exact h.toRest b d c

theorem endLinesIfDone (h : s.ProgramsOk) (b : Bay) : (Machine.endLinesIfDone b s).ProgramsOk := by
  unfold Machine.endLinesIfDone
  split
  · exact h
  · split
    · exact (h.modJob b (fun _ => none)).same (.report _ _ _ _ _)
    · exact h

theorem countCompleted (h : s.ProgramsOk) (b : Bay) (o : Owner) : (Machine.countCompleted b o s).ProgramsOk :=
  h.modJob b _

theorem countSuperseded (h : s.ProgramsOk) (b : Bay) (o : Owner) : (Machine.countSuperseded b o s).ProgramsOk :=
  h.modJob b _

theorem goActive (h : s.ProgramsOk) (b : Bay) (d : OutLine) (p : LineProg) (o : Owner) :
    (Machine.goActive b d p o s).ProgramsOk := by
  have hlevel := h.setLevel b d s.drv[b.val].lines[d.val].activeLevel (ownerCause o)
  cases p with
  | timed delay width => exact hlevel.modOutLine (fun l => l.runs rfl LineProg.noConfusion)
  | force delay => exact (hlevel.modOutLine (fun l => l.stopped)).countCompleted b o
  | release => exact hlevel

theorem startProgram (h : s.ProgramsOk) (b : Bay) (d : OutLine) {p : LineProg} (o : Owner) (hp : p ≠ .release) :
    (Machine.startProgram b d p o s).ProgramsOk := by
  unfold Machine.startProgram
  split
  · exact h.goActive b d p o
  · exact h.modOutLine (fun l => l.runs rfl hp)

theorem startBuffered (h : s.ProgramsOk) (b : Bay) (d : OutLine) : (Machine.startBuffered b d s).ProgramsOk := by
  unfold Machine.startBuffered
  split
  · exact h
  · next q hq =>
    have hp : q.prog ≠ .release := (h.drivers b d).1 q hq
    exact (h.modOutLine (fun l => l.unbuffered)).startProgram b d _ hp

theorem releaseForce (h : s.ProgramsOk) (b : Bay) (d : OutLine) (c : DriveCause × Option Slot) :
    (Machine.releaseForce b d c s).ProgramsOk := (h.modOutLine (fun l => l.congr)).toRest b d c

/-- R177: a TIMED or FORCE program that arrives starts or joins the buffer, and a RELEASE_FORCE does neither. -/
theorem arrive (h : s.ProgramsOk) (b : Bay) (d : OutLine) (p : LineProg) (o : Owner) :
    (Machine.arrive b d p o s).ProgramsOk := by
  unfold Machine.arrive
  split
  · exact h
  · simp only
    split
    · split
      · exact ((h.releaseForce b d _).countCompleted b o).startBuffered b d
      · exact h.countCompleted b o
    · next hp =>
      split
      · exact h.startProgram b d o hp
      · split
        · exact h.modOutLine (fun l => l.buffers rfl hp)
        · exact (h.modOutLine (fun l => l.buffers rfl hp)).countSuperseded b _

theorem cutRunning (h : s.ProgramsOk) (b : Bay) (i : Slot) (o : Owner) (d : OutLine) :
    (Machine.cutRunning b i o d s).ProgramsOk := by
  unfold Machine.cutRunning
  split
  · exact (h.modOutLine (fun l => l.stopped)).toRestIfActive b d _
  · exact h

theorem dropBuffered (h : s.ProgramsOk) (b : Bay) (o : Owner) (d : OutLine) :
    (Machine.dropBuffered b o d s).ProgramsOk := by
  unfold Machine.dropBuffered
  split
  · exact h.modOutLine (fun l => l.unbuffered)
  · exact h

theorem dropForce (h : s.ProgramsOk) (b : Bay) (i : Slot) (o : Owner) (d : OutLine) :
    (Machine.dropForce b i o d s).ProgramsOk := by
  unfold Machine.dropForce
  split
  · exact h.releaseForce b d _
  · exact h

theorem restartLine (h : s.ProgramsOk) (b : Bay) (d : OutLine) : (Machine.restartLine b d s).ProgramsOk := by
  unfold Machine.restartLine
  simp only
  split
  · exact h.startBuffered b d
  · exact h

theorem linesAbort (h : s.ProgramsOk) (b : Bay) (i : Slot) (st : Status) : (Machine.linesAbort b i st s).ProgramsOk := by
  unfold Machine.linesAbort
  split
  · exact h
  · next j _ =>
    split
    · have hcut := h.forEach allOutLines (fun d _ k => k.cutRunning b i (.job j.slot j.accept) d)
      have hdrop := hcut.forEach allOutLines (fun d _ k => k.dropBuffered b (.job j.slot j.accept) d)
      have hforce := hdrop.forEach allOutLines (fun d _ k => k.dropForce b i (.job j.slot j.accept) d)
      have hstart := hforce.forEach allOutLines (fun d _ k => k.restartLine b d)
      exact (hstart.modJob b (fun _ => none)).same (.report _ _ _ _ _)
    · exact h

theorem standDown (h : s.ProgramsOk) (b : Bay) : (Machine.standDown b s).ProgramsOk :=
  h.forEach allOutLines (fun d _ k => (k.modOutLine (fun l => l.stopped rfl (.inr rfl))).toRestIfActive b d _)

theorem delayEnd (h : s.ProgramsOk) (b : Bay) (d : OutLine) : (Machine.delayEnd b d s).ProgramsOk := by
  unfold Machine.delayEnd
  split
  · split
    · exact (h.goActive b d _ _).endLinesIfDone b
    · exact h
  · exact h

theorem widthEnd (h : s.ProgramsOk) (b : Bay) (d : OutLine) : (Machine.widthEnd b d s).ProgramsOk := by
  unfold Machine.widthEnd
  split
  · split
    · exact ((((h.modOutLine (fun l => l.stopped)).toRest b d _).countCompleted b _).startBuffered b d).endLinesIfDone b
    · exact h
  · exact h

theorem linesBegin (h : s.ProgramsOk) (b : Bay) (i : Slot) : (Machine.linesBegin b i s).ProgramsOk := by
  have issued (entries : List LineEntry) : (issueLines b i entries s).ProgramsOk := by
    have hissue := (h.modJob b (fun _ => some ⟨i, s.slots[i.val].accept, entries.length, 0, 0⟩)).forEach entries
      (f := issueLine b (.job i s.slots[i.val].accept)) (fun x s k => by
        unfold issueLine
        split
        · exact k.arrive b _ _ _
        · exact k)
    unfold issueLines
    simp only
    split
    · unfold detachLines
      split
      · exact hissue
      · exact (hissue.modJob b (fun _ => none)).same (.report _ _ _ _ _)
    · exact hissue.endLinesIfDone b
  unfold Machine.linesBegin
  simp only
  split
  · exact h.same (.report _ _ _ _ _)
  · split
    · exact h.same (.report _ _ _ _ _)
    · exact issued _

/-! ### Condition events (chapter 6) -/

/-- R112: a fire keeps its program; its PULSE arrives at a line. -/
theorem fire {b : Bay} {stage entry : Nat} (h : (seqFired b stage entry s).ProgramsOk) (p : Program) :
    (Machine.fire b p stage entry s).ProgramsOk := by
  have hold (x : State) : ProgramsSame x (fireHold p b x) := by
    unfold fireHold
    split <;> exact ⟨rfl, rfl, rfl⟩
  have release (x : State) : ProgramsSame x (fireRelease p x) := by
    unfold fireRelease
    split
    · split
      · exact .releaseSlot _ x
      · exact .refl x
    · exact .refl x
  have stop (k : Bool) (x : State) : ProgramsSame x (fireStopTrace p b k x) := by
    unfold fireStopTrace
    split
    · exact .stopTrace b _ k x
    · exact .refl x
  have pulse {x : State} (hx : x.ProgramsOk) : (firePulse p b x).ProgramsOk := by
    unfold firePulse
    split
    · split
      · exact (hx.arrive b _ _ _).endLinesIfDone b
      · exact hx
    · exact hx
  have notice (x : State) : ProgramsSame x (fireNotice p b x) := by
    unfold fireNotice
    split <;> exact ⟨rfl, rfl, rfl⟩
  exact (pulse (h.same ((((hold _).trans (release _)).trans (.offer b _ _ _)).trans (stop _ _)))).same (notice _)

/-- R101 to R103: an event counts below the needed counts, or enters a stage of 1 to 4, or fires. -/
theorem conditionEvent (h : s.ProgramsOk) (b : Bay) (ev : Event) : (Machine.conditionEvent b ev s).ProgramsOk := by
  by_cases ha : s.seq[b.val].state = .armed
  · obtain ⟨p, k, hp, hk, h1, h4, hl, -⟩ := (h.seq b).armed ha
    have hok := (h.seq b).program p hp
    cases hf : firstComplete k ev p.entries (countEvent k ev p.entries s.seq[b.val].counters) 0 with
    | none =>
      rw [conditionEvent_counting ev ha hp hk hf]
      exact h.modSeq (fun q => q.counting ha hp hf)
    | some x =>
      obtain ⟨j, e⟩ := x
      rw [conditionEvent_completing ev ha hp hk hf]
      have hn := (countEvent_length k ev p.entries s.seq[b.val].counters).trans hl
      have entered (stage : Nat) (hs1 : 1 ≤ stage) (hs4 : stage ≤ 4) : State.ProgramsOk
          ((s.modSeq b (fun q => { q with counters := countEvent k ev p.entries s.seq[b.val].counters })).modSeq b
            (Sequencer.enter stage s.time.count)) := by
        rw [enter_after_count b stage _ _ s hn]
        exact h.modSeq (fun _ => .entered hok hs1 hs4 ha hp rfl rfl)
      have fired : (Machine.fire b p k j
          (s.modSeq b (fun q => { q with counters := countEvent k ev p.entries s.seq[b.val].counters }))).ProgramsOk := by
        refine fire ?_ p
        rw [seqFired, State.modSeq_modSeq]
        exact h.modSeq (fun q => q.fired rfl rfl)
      unfold takeOutcome
      split
      · exact fired
      · exact entered 1 (by omega) (by omega)
      · split
        · exact entered (k + 1) (by omega) (by omega)
        · exact fired
  · rwa [conditionEvent_of_not_armed ha]

end State.ProgramsOk

end Sys2Proof.Machine
end

section
/-! PROOF. The same invariants over the operations of the sequencers, the scan engines, the Dispatcher and the bay
inputs. -/

namespace Sys2Proof.Machine

namespace State.ProgramsOk

variable {s : State}

/-! ### The sequencers and the ends of jobs (R67, R105, R121, R140) -/

theorem stallEvent (h : s.ProgramsOk) (b : Bay) (n : Nat) : (Machine.stallEvent b n s).ProgramsOk :=
  (h.modSeq (fun q => q.congr)).conditionEvent b _

theorem matchEvents (h : s.ProgramsOk) (b : Bay) : (Machine.matchEvents b s).ProgramsOk :=
  h.forEach _ (fun _ _ k => k.conditionEvent b _)

theorem goodByte (h : s.ProgramsOk) (b : Bay) : (Machine.goodByte b s).ProgramsOk :=
  (h.same (.byteTaken b s)).matchEvents b

theorem offerStall (h : s.ProgramsOk) (b : Bay) (t : Tick) : (Machine.offerStall b t s).ProgramsOk := by
  unfold Machine.offerStall
  split
  · refine (h.same (.modCode b _ s)).modSeq (fun q => ?_)
    split
    · exact q
    · exact q.congr
  · exact h

theorem armProgram (h : s.ProgramsOk) (b : Bay) {p : Program} (hp : p.Ok) : (Machine.armProgram b p s).ProgramsOk :=
  (h.modSeq (fun _ => .entered hp (Nat.le_refl 1) (by decide) rfl rfl rfl rfl)).offerStall b _

/-- R119 to R121: only a program that passes its checks is loaded. -/
theorem armReadEnd (h : s.ProgramsOk) (b : Bay) (r : ImageRead) : (Machine.armReadEnd b r s).ProgramsOk := by
  have hread : (s.modSeq b (fun q => { q with reading := none })).ProgramsOk := h.modSeq (fun q => q.congr)
  unfold Machine.armReadEnd
  simp only
  split
  · exact hread.same (.report _ _ _ _ _)
  · split
    · next hp => exact (hread.armProgram b (.of_read hp)).same (.report _ _ _ _ _)
    · exact hread.same (.report _ _ _ _ _)

theorem disarm (h : s.ProgramsOk) (b : Bay) : (s.modSeq b Sequencer.disarm).ProgramsOk := h.modSeq (fun _ => .disarm _)

theorem armBegin (h : s.ProgramsOk) (b : Bay) (i : Slot) : (Machine.armBegin b i s).ProgramsOk := by
  unfold Machine.armBegin
  simp only
  split
  · exact (h.disarm b).same (.report _ _ _ _ _)
  · split
    · exact h.modSeq (fun q => q.congr)
    · exact h.same (.report _ _ _ _ _)

theorem jobFail (h : s.ProgramsOk) (i : Slot) : (Machine.jobFail i s).ProgramsOk := by
  unfold Machine.jobFail
  simp only
  split
  · exact h.conditionEvent _ _
  · exact h

theorem endSteps (h : s.ProgramsOk) (i : Slot) : (Machine.endSteps i s).ProgramsOk :=
  ((h.same (.offerEnd i s)).jobFail i).same (.raiseBay _ _ _)

theorem endUndispatched (h : s.ProgramsOk) (i : Slot) (st : Status) (d : BitVec 16) (r : BitVec 64) :
    (Machine.endUndispatched i st d r s).ProgramsOk :=
  (h.same ((ProgramsSame.leaveOwnQueue i s).trans (.closeCard i _ _ _ _ _))).endSteps i

/-! ### Scan engines (chapter 8) -/

/-- A change of an engine beside its list, its index and its work. -/
theorem modEngAside (h : s.ProgramsOk) (e : EngineId) {f : Engine → Engine}
    (hf : ∀ g, (f g).index = g.index ∧ (f g).steps = g.steps ∧ (f g).work = g.work := by
      exact fun _ => ⟨rfl, rfl, rfl⟩) : (s.modEng e f).ProgramsOk :=
  h.modEng (fun g => g.congr (hf _).1 (hf _).2.1 (hf _).2.2)

theorem endJob (h : s.ProgramsOk) (e : EngineId) (st : Status) (d : BitVec 16) :
    (Machine.endJob e st d s).ProgramsOk := by
  unfold Machine.endJob
  simp only
  split
  · exact h
  · exact (h.modEng (fun g => g.reported)).same ((ProgramsSame.modPort _ _ _).trans (.report _ _ _ _ _))

theorem countStep (h : s.ProgramsOk) (e : EngineId) : (Machine.countStep e s).ProgramsOk := h.modEngAside e

theorem trackIdle (h : s.ProgramsOk) (e : EngineId) : (Machine.trackIdle e s).ProgramsOk := h.modEngAside e

theorem untrack (h : s.ProgramsOk) (e : EngineId) : (Machine.untrack e s).ProgramsOk := h.modEngAside e

theorem cutNow (h : s.ProgramsOk) (e : EngineId) : (Machine.cutNow e s).ProgramsOk := (h.untrack e).endJob e _ _

theorem recordCheck (h : s.ProgramsOk) (e : EngineId) (x : ScanEntry) : (Machine.recordCheck e x s).ProgramsOk := by
  unfold Machine.recordCheck
  split
  · exact h.modEngAside e
  · exact h

theorem beginStep (h : s.ProgramsOk) (e : EngineId) (i : Nat)
    (ok : firstBadStep (s.eng[e.val].steps.drop i) i = none) : (Machine.beginStep e i s).ProgramsOk := by
  unfold Machine.beginStep
  split
  · exact h.endJob e _ _
  · next x hx => exact h.modEng (fun _ => .stepBegun ok hx rfl rfl)

/-- 8.4: after a step in hand that is no END, the next begins or the job ends. -/
theorem stepDone (h : s.ProgramsOk) (e : EngineId) {x : ScanEntry} (hx : s.eng[e.val].step = some x)
    (hend : s.eng[e.val].work ≠ .endStep) (hrep : s.eng[e.val].work ≠ .reported) :
    (Machine.stepDone e s).ProgramsOk := by
  have hcheck := h.steps e
  unfold Machine.stepDone
  simp only
  split
  · exact (h.countStep e).endJob e _ _
  · refine (h.countStep e).beginStep e _ ?_
    simpa [Machine.countStep] using hcheck.next_ok hx (hcheck.not_end hx hend hrep)

theorem entryDone (h : s.ProgramsOk) (e : EngineId) (ok : firstBadStep s.eng[e.val].steps 0 = none) :
    (Machine.entryDone e s).ProgramsOk := by
  unfold Machine.entryDone
  simp only
  split
  · exact (h.trackIdle e).endJob e _ _
  · exact (h.trackIdle e).beginStep e 0 (by simpa [Machine.trackIdle] using ok)

theorem enterEntry (h : s.ProgramsOk) (e : EngineId) (b : Bay) (ok : firstBadStep s.eng[e.val].steps 0 = none)
    (index : s.eng[e.val].index = none) : (Machine.enterEntry e b s).ProgramsOk := by
  unfold Machine.enterEntry
  simp only
  split
  · exact h.entryDone e ok
  · exact h.modEng (fun _ => .entering index ok (fun hw => nomatch hw))

/-- R160: a list is run only when its check has found no bad step. -/
theorem loadingEnd (h : s.ProgramsOk) (e : EngineId) (b : Bay) (i : Slot) (hw : s.eng[e.val].work = .loading) :
    (Machine.loadingEnd e b i s).ProgramsOk := by
  have index := (h.steps e).before (.inl hw)
  have hsteps (steps : List ScanEntry) : (s.modEng e (fun g => { g with steps := steps })).ProgramsOk :=
    h.modEng (fun _ => .begun index hw)
  unfold Machine.loadingEnd
  simp only
  split
  · exact (hsteps _).endJob e _ _
  · next ok => exact (hsteps _).enterEntry e b (by simpa using ok) (by simpa using index)

theorem scanBegin (h : s.ProgramsOk) (e : EngineId) (b : Bay) (i : Slot) : (Machine.scanBegin e b i s).ProgramsOk := by
  have hbegun : (s.modEng e (fun _ =>
      { Engine.reset with state := .running, phase := .loading, attached := some (b, i), work := .loading })).ProgramsOk :=
    h.modEng (fun _ => .begun rfl rfl)
  unfold Machine.scanBegin
  simp only
  split
  · exact hbegun
  · exact hbegun.endJob e _ _

theorem checkStep (h : s.ProgramsOk) (e : EngineId) {x : ScanEntry} (hx : s.eng[e.val].step = some x)
    (hw : s.eng[e.val].work = .check) : (Machine.checkStep e x s).ProgramsOk := by
  unfold Machine.checkStep
  split
  · exact ((h.recordCheck e x).countStep e).endJob e _ _
  · have hsame : (Machine.recordCheck e x s).eng[e.val].step = s.eng[e.val].step
        ∧ (Machine.recordCheck e x s).eng[e.val].work = s.eng[e.val].work := by
      unfold Machine.recordCheck noteMismatch
      split <;> simp [Engine.step]
    exact (h.recordCheck e x).stepDone e (hsame.1.trans hx) (by simp [hsame.2, hw]) (by simp [hsame.2, hw])

theorem meetCheck (h : s.ProgramsOk) (e : EngineId) : (Machine.meetCheck e s).ProgramsOk := by
  have hdrawn : State.ProgramsOk { s with checkDraws := s.checkDraws + 1 } := h.same ⟨rfl, rfl, rfl⟩
  unfold Machine.meetCheck
  simp only
  split
  · split
    · exact (hdrawn.recordCheck e _).countStep e
    · exact hdrawn
  · exact hdrawn

theorem abortClocks (h : s.ProgramsOk) (e : EngineId) (start : Tick) : (Machine.abortClocks e start s).ProgramsOk := by
  unfold Machine.abortClocks
  simp only
  split
  · split
    · exact (h.countStep e).endJob e _ _
    · exact h.modEngAside e
  · exact h

theorem scanAbort (h : s.ProgramsOk) (e : EngineId) (i : Slot) (st : Status) :
    (Machine.scanAbort e i st s).ProgramsOk := by
  have htaken : (abortTaken e st s).ProgramsOk := h.modEngAside e
  unfold Machine.scanAbort
  simp only
  split
  · split
    · exact h
    · exact h
    · exact htaken.endJob e _ _
    · exact htaken.endJob e _ _
    · exact (htaken.meetCheck e).endJob e _ _
    · exact (htaken.countStep e).endJob e _ _
    · split
      · exact (htaken.countStep e).endJob e _ _
      · exact htaken.endJob e _ _
    · exact htaken
    · exact htaken
    · exact htaken.abortClocks e _
  · exact h

theorem cutClocks (h : s.ProgramsOk) (e : EngineId) (start : Tick) : (Machine.cutClocks e start s).ProgramsOk := by
  unfold Machine.cutClocks
  simp only
  split
  · exact (h.modEngAside e).modEngAside e
  · exact (h.modEngAside e).cutNow e

theorem finishClocks (h : s.ProgramsOk) (e : EngineId) : (Machine.finishClocks e s).ProgramsOk := by
  unfold Machine.finishClocks
  split
  · exact (h.countStep e).cutNow e
  · exact h.untrack e

theorem scanPowerLoss (h : s.ProgramsOk) (e : EngineId) (i : Slot) : (Machine.scanPowerLoss e i s).ProgramsOk := by
  have hlost : (s.modEng e (fun g => { g with powerLost := true })).ProgramsOk := h.modEngAside e
  unfold Machine.scanPowerLoss
  simp only
  split
  · split
    · exact h
    · exact h
    · exact hlost.cutNow e
    · exact hlost.cutNow e
    · exact (hlost.meetCheck e).cutNow e
    · exact (hlost.countStep e).cutNow e
    · split
      · exact (hlost.countStep e).cutNow e
      · exact hlost.cutNow e
    · exact hlost.untrack e
    · split
      · exact hlost.cutNow e
      · exact hlost.cutClocks e _
    · split
      · exact hlost.finishClocks e
      · exact hlost.cutClocks e _
  · exact h

theorem tapEdge (h : s.ProgramsOk) (b : Bay) (rise : Bool) : (Machine.tapEdge b rise s).ProgramsOk := by
  unfold Machine.tapEdge
  split
  · exact (h.modEngAside _).same (.modPort _ _ _)
  · exact h.same (.modPort _ _ _)

/-- R119, R160: a write that meets reads in progress leaves their early bytes alone. -/
theorem overwrite (h : s.ProgramsOk) (a : Nat) (bytes : List Byte) : (s.overwrite a bytes).ProgramsOk := by
  refine ⟨fun b => ?_, fun e => ?_, fun b d => ?_⟩
  · rw [State.overwrite, State.store_seq, (State.keepEarly_seq a _ s b).1]
    exact (h.seq b).congr
  · rw [State.overwrite, State.store_eng, State.keepEarly_eng a _ s e]
    exact (h.steps e).congr
  · rw [State.overwrite, State.store_drv, State.keepEarly_eq]
    exact h.drivers b d

/-! ### The Dispatcher (chapter 7) -/

theorem handOver (h : s.ProgramsOk) (b : Bay) (i : Slot) (e : Option EngineId) :
    (Machine.handOver b i e s).ProgramsOk := by
  unfold Machine.handOver
  split
  · split
    · exact h.scanBegin _ b i
    · exact h
  · exact h.same (.sendBegin b i s)
  · exact h.linesBegin b i
  · exact h.armBegin b i
  · exact h.same (.traceBegin b i s)
  · exact h

theorem dispatchSlot (h : s.ProgramsOk) (b : Bay) (l : Lane) (i : Slot) (e : Option EngineId) :
    (Machine.dispatchSlot b l i e s).ProgramsOk := by
  have hserved : ProgramsSame s (beginService b l i s) :=
    ((ProgramsSame.modLane b l _ s).trans (.modSlot i _ _)).trans (.writeStart i _ _)
  exact (h.same (hserved.trans (.offer b _ _ _))).handOver b i e

theorem askOwner (h : s.ProgramsOk) (i : Slot) (st : Status) : (Machine.askOwner i st s).ProgramsOk := by
  unfold Machine.askOwner
  simp only
  split
  · split
    · exact h.scanAbort _ i st
    · exact h
  · exact h.same (.sendAbort _ i st s)
  · exact h.linesAbort _ i st
  · exact h

theorem abortJob (h : s.ProgramsOk) (i : Slot) (st : Status) : (Machine.abortJob i st s).ProgramsOk :=
  (h.askOwner i st).same (.modSlot i _ _)

theorem cancelTarget (h : s.ProgramsOk) (i : Slot) : (Machine.cancelTarget i s).ProgramsOk := by
  unfold Machine.cancelTarget
  simp only
  split
  · exact h.endUndispatched i _ _ _
  · exact h.endUndispatched i _ _ _
  · split
    · exact h.abortJob i _
    · exact h
  · exact h
  · exact h

theorem carryOutCancel (h : s.ProgramsOk) (i : Slot) (c : Card) : (Machine.carryOutCancel i c s).ProgramsOk := by
  unfold Machine.carryOutCancel
  split
  · split
    · exact (h.cancelTarget _).endUndispatched i _ _ _
    · exact h
  · exact (h.forEach _ (fun j _ k => k.cancelTarget j)).endUndispatched i _ _ _

theorem acceptCard (h : s.ProgramsOk) (i : Slot) (c : Card) (park : Bool) :
    (Machine.acceptCard i c park s).ProgramsOk := by
  unfold Machine.acceptCard
  split
  · exact (h.same (.store _ _ s)).carryOutCancel i c
  · split
    · exact h.same ((ProgramsSame.modSlot i _ s).trans (.writeAcceptance i _ _ _))
    · exact h.same ((ProgramsSame.requestSlot i _ s).trans (.writeAcceptance i _ _ _))

theorem takePost (h : s.ProgramsOk) (i : Slot) (park : Bool) : (Machine.takePost i park s).ProgramsOk := by
  have hcopied : (copyCard i (readCard s.mem i) s).ProgramsOk := h.same (.modSlot i _ s)
  unfold Machine.takePost
  simp only
  split
  · exact hcopied.same ((ProgramsSame.closeCard i _ _ _ _ _).trans (.raiseFixture _ _))
  · exact hcopied.endUndispatched i _ _ _
  · exact hcopied.acceptCard i _ park

theorem dispatcherStop (h : s.ProgramsOk) : (Machine.dispatcherStop s).ProgramsOk := by
  have waiting (i : Slot) (x : State) (hx : x.ProgramsOk) : (stopWaiting i x).ProgramsOk := by
    unfold stopWaiting
    split
    · exact hx.same (.endStopped i x)
    · exact hx
  have service (i : Slot) (x : State) (hx : x.ProgramsOk) : (stopService i x).ProgramsOk := by
    unfold stopService
    simp only
    split
    · exact hx.abortJob i _
    · exact hx
  have setup (i : Slot) (x : State) (hx : x.ProgramsOk) : (stopSetup i x).ProgramsOk := by
    unfold stopSetup
    simp only
    split
    · exact hx.same (.modSlot i _ x)
    · exact hx
  exact (((h.forEach allSlots waiting).forEach allSlots service).forEach allSlots setup).same (.clearHold _)

theorem freeEngine (h : s.ProgramsOk) (i : Slot) : (Machine.freeEngine i s).ProgramsOk := by
  have rotated (b : Bay) : (rotate b s).ProgramsOk := h.same ⟨rfl, rfl, rfl⟩
  unfold Machine.freeEngine
  simp only
  split
  · split
    · exact (rotated _).modEng (fun _ => .reset)
    · exact rotated _
  · exact h

/-! ### The bay inputs (chapter 3) -/

theorem modMon (h : s.ProgramsOk) (b : Bay) (f : Monitor → Monitor) : (s.modMon b f).ProgramsOk :=
  h.same ⟨rfl, rfl, rfl⟩

theorem modInLine (h : s.ProgramsOk) (b : Bay) (l : InLine) (f : MonLine → MonLine) : (s.modInLine b l f).ProgramsOk :=
  h.modMon b _

theorem raiseSettle (h : s.ProgramsOk) (b : Bay) (base : Tick) (m : Nat) : (Machine.raiseSettle b base m s).ProgramsOk :=
  ((h.modMon b _).same (.offer b _ _ _)).conditionEvent b _

theorem powerLossReport (h : s.ProgramsOk) (b : Bay) : (Machine.powerLossReport b s).ProgramsOk := by
  unfold Machine.powerLossReport
  split
  · exact h
  · split
    · split
      · exact h.scanPowerLoss _ _
      · exact h
    · exact h.same (.sendPowerLoss b _ s)
    · exact h

theorem lineEffect (h : s.ProgramsOk) (b : Bay) (l : InLine) (rise : Bool) (raw : Tick) :
    (Machine.lineEffect b l rise raw s).ProgramsOk := by
  unfold Machine.lineEffect
  split
  · exact ((h.modMon b _).tapEdge b true).forEach _ (fun m _ k => k.raiseSettle b raw m)
  · exact (((h.modMon b _).tapEdge b false).powerLossReport b).same (.raiseBay _ _ _)
  · exact h.offerStall b raw
  · exact h.same (.raiseBay _ _ _)
  · exact h

theorem qualify (h : s.ProgramsOk) (b : Bay) (l : InLine) (raw : Tick) (level : Bool) :
    (Machine.qualify b l raw level s).ProgramsOk :=
  (((h.modInLine b l _).same (.offer b _ _ _)).conditionEvent b _).lineEffect b l level raw

theorem rawChange (h : s.ProgramsOk) (b : Bay) (l : InLine) : (Machine.rawChange b l s).ProgramsOk := by
  unfold Machine.rawChange
  simp only
  split
  · exact ((h.modInLine b l _).same (.offer b _ _ _)).conditionEvent b _
  · split
    · exact h.qualify b l _ _
    · exact h.modInLine b l _

theorem codeArrival (h : s.ProgramsOk) (b : Bay) : (Machine.codeArrival b s).ProgramsOk :=
  (((h.same (.modCode b _ s)).offerStall b _).same (.offer b _ _ _)).conditionEvent b _

theorem endConversion (h : s.ProgramsOk) (b : Bay) (r : RailId) (code : BitVec 12) :
    (Machine.endConversion b r code s).ProgramsOk := by
  have hrail (f : Rail → Rail) : (s.modRail b r f).ProgramsOk := h.same ⟨rfl, rfl, rfl⟩
  unfold Machine.endConversion
  simp only
  split
  · exact (((hrail _).same (.offer b _ _ _)).conditionEvent b _).same (.rewrite _ _)
  · exact (hrail _).same (.rewrite _ _)

end State.ProgramsOk

end Sys2Proof.Machine
end

section
/-! PROOF. Every command, and so every step, keeps the sequencers in range of their programs, the engines on checked
steps and the lines without a RELEASE_FORCE (O57). -/

namespace Sys2Proof.Machine

/-! ### Commands that leave the sequencers, the engines and the lines -/

theorem ProgramsSame.ite {s u : State} (p : Prop) [Decidable p] (h : ProgramsSame s u) :
    ProgramsSame s (if p then u else s) := by
  split
  · exact h
  · exact .refl s

theorem ProgramsSame.modTime (f : TimeBase → TimeBase) (s : State) : ProgramsSame s (s.modTime f) := ⟨rfl, rfl, rfl⟩

theorem ProgramsSame.setOutcome (o : CmdOutcome) (s : State) : ProgramsSame s (Machine.setOutcome o s) :=
  ⟨rfl, rfl, rfl⟩

theorem ProgramsSame.switchSource (src : Source) (cause : SourceCause) (s : State) :
    ProgramsSame s (Machine.switchSource src cause s) :=
  ((ProgramsSame.modTime _ s).trans (.offerAll _ _ _)).trans (.raiseFixture _ _)

/-! #### The Time Base -/

theorem qualificationRunStart_programsSame : Leads ProgramsSame .qualificationRunStart := fun s => by
  refine ⟨_, rfl, ?_⟩
  split
  · exact .modTime _ s
  · exact .refl s

theorem referenceRisingEdge_programsSame : Leads ProgramsSame .referenceRisingEdge := fun s => by
  refine ⟨_, rfl, ?_⟩
  split
  · exact .ite _ (.modTime _ s)
  · exact .refl s

theorem referenceMilestoneRaise_programsSame : Leads ProgramsSame .referenceMilestoneRaise := fun s => by
  refine ⟨_, rfl, ?_⟩
  split
  · exact .ite _ (.modTime _ s)
  · exact .refl s

theorem referenceLoss_programsSame : Leads ProgramsSame .referenceLoss := fun s => by
  refine ⟨_, rfl, ?_⟩
  split
  · exact .ite _ ((ProgramsSame.modTime _ s).trans (.ite _ (.switchSource _ _ _)))
  · exact .refl s

theorem selectBench_programsSame : Leads ProgramsSame .selectBench := fun s => by
  refine ⟨_, rfl, ?_⟩
  split
  · exact (ProgramsSame.ite _ (.switchSource _ _ s)).trans (.setOutcome _ _)
  · exact .setOutcome _ s

theorem selectInternal_programsSame : Leads ProgramsSame .selectInternal := fun s =>
  ⟨_, rfl, (ProgramsSame.ite _ (.switchSource _ _ s)).trans (.setOutcome _ _)⟩

theorem syncCapture_programsSame : Leads ProgramsSame .syncCapture := fun s => by
  refine ⟨_, rfl, ?_⟩
  split
  · exact .ite _ (((ProgramsSame.modTime _ s).trans (.offerAll _ _ _)).trans (.rewrite _ _))
  · exact .refl s

theorem syncQualifiedFall_programsSame : Leads ProgramsSame .syncQualifiedFall := fun s => by
  refine ⟨_, rfl, ?_⟩
  split
  · exact .ite _ (.modTime _ s)
  · exact .refl s

/-! #### Trace streams and the page pool -/

theorem writeRecord_programsSame : Leads ProgramsSame .writeRecord := fun s => by
  refine ⟨_, rfl, ?_⟩
  split
  · exact .serveRecord _ s
  · exact .refl s

theorem flushClose_programsSame : Leads ProgramsSame .flushClose := fun s => by
  refine ⟨_, rfl, ?_⟩
  split
  · exact .serveFlush _ s
  · exact .refl s

theorem drainEnd_programsSame : Leads ProgramsSame .drainEnd := fun s => by
  refine ⟨_, rfl, ?_⟩
  split
  · exact .serveDrain _ s
  · exact .refl s

theorem tLastLapse_programsSame (b : Bay) : Leads ProgramsSame (.tLastLapse b) := fun s => by
  refine ⟨_, rfl, ?_⟩
  split
  · exact .ite _ (.modStr b _ s)
  · exact .refl s

theorem release_programsSame (value : Word) : Leads ProgramsSame (.release value) := fun s => by
  have freed (p : Page) : ProgramsSame s (freePage p s) := (ProgramsSame.setPage p .free s).trans ⟨rfl, rfl, rfl⟩
  refine ⟨_, rfl, ?_⟩
  split
  · split
    · exact freed _
    · exact .raiseFixture _ s
  · exact .raiseFixture _ s

/-! #### The code lane -/

theorem codeClkEdge_programsSame (b : Bay) (edge : ClkEdge) (dat : Bool) :
    Leads ProgramsSame (.codeClkEdge b edge dat) := fun s => by
  refine ⟨_, rfl, .ite _ ?_⟩
  split
  · exact .refl s
  · exact .modCode b _ s
  · exact .modCode b _ s

theorem codeErr_programsSame (b : Bay) (cond : CodeCond) : Leads ProgramsSame (.codeErr b cond) := fun s => by
  refine ⟨_, rfl, .ite _ ?_⟩
  split
  · exact .refl s
  · exact (ProgramsSame.codeError b _ _ s).trans (.afterFrame b cond _)
  · split
    · exact .refl s
    · exact (ProgramsSame.codeError b _ _ s).trans (.afterFrame b cond _)

theorem codeFrameStall_programsSame (b : Bay) : Leads ProgramsSame (.codeFrameStall b) := fun s =>
  ⟨_, rfl, .ite _ ((ProgramsSame.codeError b _ _ s).trans (.modCode b _ _))⟩

theorem stallReferenceLapse_programsSame (b : Bay) : Leads ProgramsSame (.stallReferenceLapse b) := fun s => by
  refine ⟨_, rfl, ?_⟩
  split
  · exact .ite _ (.modCode b _ s)
  · exact .refl s

/-! #### The Console Port -/

theorem framingError_programsSame (b : Bay) : Leads ProgramsSame (.framingError b) := fun s => by
  refine ⟨_, rfl, ?_⟩
  split
  · exact .framingByte b _ s
  · exact .ite _ (.framingByte b _ s)

theorem breakSettled_programsSame (b : Bay) : Leads ProgramsSame (.breakSettled b) := fun s =>
  ⟨_, rfl, .ite _ ((ProgramsSame.breakRecord b s).trans (.modCon b _ _))⟩

theorem batchIdleClose_programsSame (b : Bay) : Leads ProgramsSame (.batchIdleClose b) := fun s => by
  refine ⟨_, rfl, ?_⟩
  split
  · exact .ite _ (.closeBatch b false s)
  · exact .refl s

theorem characterEnd_programsSame (b : Bay) : Leads ProgramsSame (.characterEnd b) := fun s => by
  refine ⟨_, rfl, ?_⟩
  split
  · split
    · exact .ite _ (.charEnd b _ s)
    · exact .refl s
  · exact .refl s

theorem gapEnd_programsSame (b : Bay) : Leads ProgramsSame (.gapEnd b) := fun s => by
  refine ⟨_, rfl, ?_⟩
  split
  · split
    · exact .ite _ (.modCon b _ s)
    · exact .refl s
  · exact .refl s

/-! #### Control, the Notice Unit and the link -/

theorem start_programsSame : Leads ProgramsSame .start := fun s => by
  refine ⟨_, rfl, ?_⟩
  split
  · exact ⟨rfl, rfl, rfl⟩
  · exact .setOutcome _ s

theorem profileReadEnd_programsSame : Leads ProgramsSame .profileReadEnd := fun s => by
  have refused (e : ProfileError) (i : Nat) : ProgramsSame s (refuseStart e i s) :=
    ProgramsSame.trans (t := s.modCtl _) ⟨rfl, rfl, rfl⟩ (.rewrite _ _)
  refine ⟨_, rfl, .ite _ ?_⟩
  split
  · exact refused _ _
  · exact ⟨rfl, rfl, rfl⟩

theorem unknownCommand_programsSame (code : Word) : Leads ProgramsSame (.unknownCommand code) := fun s => by
  refine ⟨_, rfl, ?_⟩
  split
  · exact .refl s
  · exact .setOutcome _ s

theorem linkDown_programsSame (cause : LinkDownCause) : Leads ProgramsSame (.linkDown cause) := fun s => by
  refine ⟨_, rfl, ?_⟩
  cases cause <;> exact ⟨rfl, rfl, rfl⟩

theorem noticeRead_programsSame (lanes : BitVec 4) : Leads ProgramsSame (.noticeRead lanes) := fun s => by
  refine ⟨_, rfl, ?_⟩
  unfold takeNotice
  split <;> exact ⟨rfl, rfl, rfl⟩

theorem registerWriteIgnored_programsSame (offset : Nat) (lanes : BitVec 4) (value : Word) :
    Leads ProgramsSame (.registerWriteIgnored offset lanes value) := fun s => ⟨s, (commit_self s).symm, .refl s⟩

/-! ### Commands that keep the invariants -/

/-- The invariants of the sequencers, the engines and the driven lines go from one state to another. -/
def ProgramsKept (s u : State) : Prop := s.ProgramsOk → u.ProgramsOk

theorem State.ProgramsOk.ite {s u : State} (h : s.ProgramsOk) (p : Prop) [Decidable p] (k : p → u.ProgramsOk) :
    (if p then u else s).ProgramsOk := by
  split
  · next hp => exact k hp
  · exact h

theorem lineRawChange_programsKept (b : Bay) (l : InLine) : Leads ProgramsKept (.lineRawChange b l) := fun s => by
  refine ⟨_, rfl, fun h => ?_⟩
  split
  · exact (h.modInLine b l _).rawChange b l
  · exact h.modInLine b l _

theorem lineQualify_programsKept (b : Bay) (l : InLine) : Leads ProgramsKept (.lineQualify b l) := fun s => by
  refine ⟨_, rfl, fun h => ?_⟩
  split
  · exact h.ite _ (fun _ => h.qualify b l _ _)
  · exact h

theorem settleMilestoneRaise_programsKept (b : Bay) : Leads ProgramsKept (.settleMilestoneRaise b) := fun s => by
  refine ⟨_, rfl, fun h => ?_⟩
  split
  · exact h.ite _ (fun _ => h.raiseSettle b _ _)
  · exact h

theorem codeArrival_programsKept (b : Bay) (cond : CodeCond) : Leads ProgramsKept (.codeArrival b cond) := fun _ =>
  ⟨_, rfl, fun h => h.ite _ (fun _ => (h.codeArrival b).same (.afterFrame b cond _))⟩

theorem conversion_programsKept (code : BitVec 12) : Leads ProgramsKept (.conversion code) := fun s => by
  refine ⟨_, rfl, fun h => ?_⟩
  split
  · exact h.ite _ (fun _ => (h.endConversion _ _ code).same ⟨rfl, rfl, rfl⟩)
  · exact h

theorem codeStallEvent_programsKept (b : Bay) : Leads ProgramsKept (.codeStallEvent b) := fun s => by
  refine ⟨_, rfl, fun h => h.ite _ (fun _ => ?_)⟩
  split
  · exact h.stallEvent b _
  · exact h

theorem elapsedEvent_programsKept (b : Bay) : Leads ProgramsKept (.elapsedEvent b) := fun s => by
  refine ⟨_, rfl, fun h => h.ite _ (fun _ => ?_)⟩
  split
  · exact h.conditionEvent b _
  · exact h

theorem armReadEnd_programsKept (b : Bay) : Leads ProgramsKept (.armReadEnd b) := fun s => by
  refine ⟨_, rfl, fun h => ?_⟩
  split
  · exact h.armReadEnd b _
  · exact h

/-! #### The Dispatcher -/

theorem post_programsKept (value : Word) : Leads ProgramsKept (.post value) := fun s => by
  refine ⟨_, rfl, fun h => ?_⟩
  split
  · split
    · exact h.takePost _ _
    · exact h.same (.raiseFixture _ s)
  · exact h.same (.raiseFixture _ s)

theorem dispatch_programsKept (b : Bay) (l : Lane) : Leads ProgramsKept (.dispatch b l) := fun s => by
  refine ⟨_, rfl, fun h => ?_⟩
  split
  · exact h
  · split
    · split
      · exact h.dispatchSlot b l _ _
      · exact h
    · exact h.dispatchSlot b l _ none

theorem jobEnd_programsKept (i : Slot) : Leads ProgramsKept (.jobEnd i) := fun s => by
  refine ⟨_, rfl, fun h => ?_⟩
  split
  · exact h.ite _ (fun _ =>
      ((h.same ((ProgramsSame.closeCard i _ _ _ _ s).trans (.leaveService i _))).endSteps i).freeEngine i)
  · exact h

theorem deadlineExpiry_programsKept (i : Slot) : Leads ProgramsKept (.deadlineExpiry i) := fun s => by
  refine ⟨_, rfl, fun h => h.ite _ (fun _ => ?_)⟩
  split
  · exact h.endUndispatched i _ _ _
  · exact h.ite _ (fun _ => h.abortJob i _)
  · exact h

/-! #### The scan engines -/

/-- R162, R163, R165: the clocks of a step that have ended are of a step in hand of the kind. -/
theorem State.clocksEnd_inv {s : State} {e : EngineId} {k : StepKind} (h : s.clocksEnd e k = true) :
    (∃ start, s.eng[e.val].work = .clocks start) ∧ ∃ x, s.eng[e.val].step = some x ∧ x.stepKind = some k := by
  unfold State.clocksEnd at h
  simp only at h
  split at h
  · next start hw =>
    simp only [Bool.and_eq_true, Option.any_eq_true, decide_eq_true_eq] at h
    obtain ⟨⟨⟨x, hx, hk⟩, -⟩, -⟩ := h
    exact ⟨⟨start, hw⟩, x, hx, hk⟩
  · cases h

theorem trackIdle_step (e : EngineId) (s : State) : (trackIdle e s).eng[e.val].step = s.eng[e.val].step
    ∧ (trackIdle e s).eng[e.val].work = s.eng[e.val].work := by
  simp [trackIdle, Engine.step]

/-- R162, R165: a step whose clocks have ended is done, with the TAP in Run-Test/Idle. -/
theorem State.ProgramsOk.clocksDone {s : State} (h : s.ProgramsOk) {e : EngineId} {k : StepKind}
    (hc : s.clocksEnd e k = true) : (Machine.stepDone e (Machine.trackIdle e s)).ProgramsOk := by
  obtain ⟨⟨start, hw⟩, x, hx, -⟩ := State.clocksEnd_inv hc
  obtain ⟨hstep, hwork⟩ := trackIdle_step e s
  exact (h.trackIdle e).stepDone e (hstep.trans hx) (by simp [hwork, hw]) (by simp [hwork, hw])

/-- R163, R164: a shift that stores waits for its result write, and another is done. -/
theorem State.ProgramsOk.shiftDone {s : State} (h : s.ProgramsOk) {e : EngineId} {k : StepKind} {x : ScanEntry}
    (tdo : Nat) (hc : s.clocksEnd e k = true) (hk : k = .ir ∨ k = .dr) (hx : s.eng[e.val].step = some x) :
    (Machine.shiftDone e x tdo s).ProgramsOk := by
  obtain ⟨⟨start, hw⟩, y, hy, hky⟩ := State.clocksEnd_inv hc
  obtain rfl := Option.some.inj (hx.symm.trans hy)
  have hcounted : (s.modEng e (fun g => { g with tdoBits := g.tdoBits + x.n })).ProgramsOk := h.modEngAside e
  obtain ⟨hstep, hwork⟩ := trackIdle_step e (s.modEng e (fun g => { g with tdoBits := g.tdoBits + x.n }))
  rw [State.modEng_eng, upd_self] at hstep hwork
  have hx' := hstep.trans hx
  have hend : x.stepKind ≠ some .endList := by
    rw [hky]
    obtain rfl | rfl := hk <;> simp
  unfold Machine.shiftDone
  simp only
  split
  · next hs =>
    exact (hcounted.trackIdle e).modEng (fun g => g.working hx' hend rfl rfl (fun hl => nomatch hl)
      (fun _ _ hl => nomatch hl)
      (fun _ => ⟨hs, hk.imp (fun hi => hky.trans (congrArg some hi)) (fun hd => hky.trans (congrArg some hd))⟩))
  · exact (hcounted.trackIdle e).stepDone e hx' (by simp [hwork, hw]) (by simp [hwork, hw])

theorem loadingEnd_programsKept (e : EngineId) : Leads ProgramsKept (.loadingEnd e) := fun s => by
  refine ⟨_, rfl, fun h => ?_⟩
  split
  · next hw _ => exact h.loadingEnd e _ _ hw
  · exact h

theorem entryPathEnd_programsKept (e : EngineId) : Leads ProgramsKept (.entryPathEnd e) := fun s => by
  refine ⟨_, rfl, fun h => ?_⟩
  split
  · next hw => exact h.ite _ (fun _ => h.entryDone e ((h.steps e).entry _ _ hw))
  · exact h

theorem tdiRegionRead_programsKept (e : EngineId) : Leads ProgramsKept (.tdiRegionRead e) := fun s => by
  refine ⟨_, rfl, fun h => ?_⟩
  split
  · next x hw hx =>
    refine h.modEng (fun g => g.working hx (g.not_end hx (by simp [hw]) (by simp [hw])) rfl rfl ?_ ?_ ?_) <;> simp
  · exact h

theorem resetTap_programsKept (e : EngineId) : Leads ProgramsKept (.resetTap e) := fun _ =>
  ⟨_, rfl, fun h => h.ite _ (fun hc => h.clocksDone hc)⟩

theorem shiftEnd_programsKept (e : EngineId) (tdo : Nat) : Leads ProgramsKept (.shiftEnd e tdo) := fun s => by
  refine ⟨_, rfl, fun h => ?_⟩
  split
  · next x hx =>
    refine h.ite _ (fun hc => ?_)
    obtain hc | hc := Bool.or_eq_true_iff.1 hc
    · exact h.shiftDone tdo hc (.inl rfl) hx
    · exact h.shiftDone tdo hc (.inr rfl) hx
  · exact h

theorem resultWrite_programsKept (e : EngineId) : Leads ProgramsKept (.resultWrite e) := fun s => by
  refine ⟨_, rfl, fun h => ?_⟩
  split
  · next f hf =>
    unfold Engine.resultField at hf
    split at hf
    · next x hw hx =>
      have heng : (s.overwrite f.1 f.2).eng[e.val] = { s.eng[e.val] with
          early := (s.overwrite f.1 f.2).eng[e.val].early } := s.keepEarly_eng f.1 f.2.length e
      exact (h.overwrite f.1 f.2).stepDone e (x := x) (by rw [heng]; exact hx) (by rw [heng]; simp [hw])
        (by rw [heng]; simp [hw])
    · cases hf
  · exact h

theorem idleStepEnd_programsKept (e : EngineId) : Leads ProgramsKept (.idleStepEnd e) := fun _ =>
  ⟨_, rfl, fun h => h.ite _ (fun hc => h.clocksDone (Bool.and_eq_true_iff.1 hc).1)⟩

theorem abortedIdleClockEnd_programsKept (e : EngineId) : Leads ProgramsKept (.abortedIdleClockEnd e) := fun s => by
  refine ⟨_, rfl, fun h => ?_⟩
  split
  · exact h.ite _ (fun _ => h.endJob e _ _)
  · exact h

theorem scanDelayEnd_programsKept (e : EngineId) : Leads ProgramsKept (.scanDelayEnd e) := fun s => by
  refine ⟨_, rfl, fun h => ?_⟩
  split
  · next start hw =>
    refine h.ite _ (fun hd => ?_)
    obtain ⟨x, hx, -⟩ := (Option.any_eq_true _ _).1 hd
    exact h.stepDone e hx (by simp [hw]) (by simp [hw])
  · exact h

theorem check_programsKept (e : EngineId) : Leads ProgramsKept (.check e) := fun s => by
  refine ⟨_, rfl, fun h => ?_⟩
  split
  · next hw hx => exact h.checkStep e hx hw
  · exact h

theorem endStep_programsKept (e : EngineId) : Leads ProgramsKept (.endStep e) := fun s => by
  refine ⟨_, rfl, fun h => ?_⟩
  split
  · exact (h.countStep e).endJob e _ _
  · exact h

theorem scanPowerLossStop_programsKept (e : EngineId) : Leads ProgramsKept (.scanPowerLossStop e) := fun s => by
  refine ⟨_, rfl, fun h => ?_⟩
  split
  · exact h.ite _ (fun _ => h.cutNow e)
  · exact h.ite _ (fun _ => h.cutNow e)
  · exact h

/-! #### STOP and the return to IDLE -/

theorem stop_programsKept : Leads ProgramsKept .stop := fun s => by
  refine ⟨_, rfl, fun h => ?_⟩
  split
  · have hstopping : (enterStopping s).ProgramsOk := h.same ⟨rfl, rfl, rfl⟩
    have hdisarmed := hstopping.forEach s.enabledBays (f := disarmBay) (fun b _ k => k.disarm b)
    have hdown := hdisarmed.dispatcherStop.forEach s.enabledBays (fun b _ k => k.standDown b)
    exact hdown.forEach s.enabledBays (fun b x k => k.same (.stopStream b x))
  · exact h.same (.setOutcome _ s)

theorem returnToIdle_programsKept : Leads ProgramsKept .returnToIdle := fun s => by
  refine ⟨_, rfl, fun h => h.ite _ (fun _ => ⟨h.seq, h.steps, fun b d => ?_⟩)⟩
  simpa [idleBlocks] using (h.drivers b d).congr

/-- Every command but the resets and the start instant keeps the invariants. -/
theorem exec_programsKept (c : Instr) (h : keepsRun c = true) (hs : c ≠ .startInstant) : Leads ProgramsKept c := by
  have same {c : Instr} (h : Leads ProgramsSame c) : Leads ProgramsKept c := h.imp (fun h k => k.same h)
  match c with
  | .powerOnReset => cases h
  | .linkReset _ => cases h
  | .restart => cases h
  | .startInstant => exact absurd rfl hs
  | .qualificationRunStart => exact same qualificationRunStart_programsSame
  | .referenceMilestoneRaise => exact same referenceMilestoneRaise_programsSame
  | .referenceLoss => exact same referenceLoss_programsSame
  | .referenceRisingEdge => exact same referenceRisingEdge_programsSame
  | .selectBench => exact same selectBench_programsSame
  | .selectInternal => exact same selectInternal_programsSame
  | .syncRawChange => exact same (fun s => ⟨_, rfl, .modTime _ s⟩)
  | .syncCapture => exact same syncCapture_programsSame
  | .syncQualifiedFall => exact same syncQualifiedFall_programsSame
  | .timeHighRead _ => exact same (fun _ => ⟨_, rfl, rfl, rfl, rfl⟩)
  | .timeLowRead _ => exact same (fun _ => ⟨_, rfl, rfl, rfl, rfl⟩)
  | .writeRecord => exact same writeRecord_programsSame
  | .flushClose => exact same flushClose_programsSame
  | .drainEnd => exact same drainEnd_programsSame
  | .tLastLapse b => exact same (tLastLapse_programsSame b)
  | .release value => exact same (release_programsSame value)
  | .lineRawChange b l => exact lineRawChange_programsKept b l
  | .lineQualify b l => exact lineQualify_programsKept b l
  | .settleMilestoneRaise b => exact settleMilestoneRaise_programsKept b
  | .codeArrival b cond => exact codeArrival_programsKept b cond
  | .codeErr b cond => exact same (codeErr_programsSame b cond)
  | .codeFrameStall b => exact same (codeFrameStall_programsSame b)
  | .stallReferenceLapse b => exact same (stallReferenceLapse_programsSame b)
  | .codeStartCondition b => exact same (fun s => ⟨_, rfl, .ite _ (.modCode b _ s)⟩)
  | .codeClkEdge b edge dat => exact same (codeClkEdge_programsSame b edge dat)
  | .conversion code => exact conversion_programsKept code
  | .falseStart b => exact same (fun s => ⟨_, rfl, .ite _ (.modCon b _ s)⟩)
  | .goodByte b => exact fun _ => ⟨_, rfl, fun h => h.ite _ (fun _ => h.goodByte b)⟩
  | .framingError b => exact same (framingError_programsSame b)
  | .breakSettled b => exact same (breakSettled_programsSame b)
  | .batchIdleClose b => exact same (batchIdleClose_programsSame b)
  | .conRxFall b => exact same (fun s => ⟨_, rfl, .ite _ (.modCon b _ s)⟩)
  | .bitSample b _ => exact same (fun s => ⟨_, rfl, .ite _ (.modCon b _ s)⟩)
  | .breakCandidate b => exact same (fun s => ⟨_, rfl, .ite _ (.modCon b _ s)⟩)
  | .breakHoldRise b => exact same (fun s => ⟨_, rfl, .ite _ (.modCon b _ s)⟩)
  | .characterEnd b => exact same (characterEnd_programsSame b)
  | .gapEnd b => exact same (gapEnd_programsSame b)
  | .codeStallEvent b => exact codeStallEvent_programsKept b
  | .elapsedEvent b => exact elapsedEvent_programsKept b
  | .armReadEnd b => exact armReadEnd_programsKept b
  | .post value => exact post_programsKept value
  | .bayhold _ => exact same (fun _ => ⟨_, rfl, rfl, rfl, rfl⟩)
  | .dispatch b lane => exact dispatch_programsKept b lane
  | .jobEnd i => exact jobEnd_programsKept i
  | .deadlineExpiry i => exact deadlineExpiry_programsKept i
  | .loadingEnd e => exact loadingEnd_programsKept e
  | .entryPathEnd e => exact entryPathEnd_programsKept e
  | .tdiRegionRead e => exact tdiRegionRead_programsKept e
  | .resetTap e => exact resetTap_programsKept e
  | .shiftEnd e tdo => exact shiftEnd_programsKept e tdo
  | .resultWrite e => exact resultWrite_programsKept e
  | .idleStepEnd e => exact idleStepEnd_programsKept e
  | .abortedIdleClockEnd e => exact abortedIdleClockEnd_programsKept e
  | .scanDelayEnd e => exact scanDelayEnd_programsKept e
  | .check e => exact check_programsKept e
  | .endStep e => exact endStep_programsKept e
  | .scanPowerLossStop e => exact scanPowerLossStop_programsKept e
  | .lineDelayEnd b d => exact fun _ => ⟨_, rfl, fun h => h.delayEnd b d⟩
  | .widthEnd b d => exact fun _ => ⟨_, rfl, fun h => h.widthEnd b d⟩
  | .start => exact same start_programsSame
  | .profileReadEnd => exact same profileReadEnd_programsSame
  | .stop => exact stop_programsKept
  | .returnToIdle => exact returnToIdle_programsKept
  | .unknownCommand code => exact same (unknownCommand_programsSame code)
  | .noticeRead lanes => exact same (noticeRead_programsSame lanes)
  | .registerWriteIgnored offset lanes value => exact same (registerWriteIgnored_programsSame offset lanes value)
  | .linkDown cause => exact same (linkDown_programsSame cause)

/-! ### Resets, the start instant and a step -/

/-- R98, R154, R175: blocks at their reset values meet the invariants. -/
theorem programsOk_of_reset {s : State} (seq : ∀ b : Bay, s.seq[b.val] = Sequencer.reset)
    (eng : ∀ e : EngineId, s.eng[e.val] = Engine.reset)
    (drv : ∀ (b : Bay) (d : OutLine), s.drv[b.val].lines[d.val].running = none
      ∧ s.drv[b.val].lines[d.val].buffered = none) : s.ProgramsOk := by
  refine ⟨fun b => ?_, fun e => ?_, fun b d => ⟨fun q hq => ?_, fun r hr => ?_⟩⟩
  · rw [seq]
    exact .reset
  · rw [eng]
    exact .reset
  · rw [(drv b d).2] at hq
    cases hq
  · rw [(drv b d).1] at hr
    cases hr

theorem reset_programsOk : State.reset.ProgramsOk :=
  programsOk_of_reset reset_seq reset_eng (fun b d => by rw [reset_drv, reset_outLine]; exact ⟨rfl, rfl⟩)

theorem resetBlocks_programsOk (s : State) : (resetBlocks s).ProgramsOk := reset_programsOk.same ⟨rfl, rfl, rfl⟩

/-- R98, R154, R175: the start instant sets the sequencers, the engines and the lines to their START values. -/
theorem startBlocks_programsOk (p : ProfileCopy) (s : State) : (startBlocks p s).ProgramsOk :=
  programsOk_of_reset (fun b => by simp [startBlocks]) (fun e => by simp [startBlocks])
    (fun b d => by simp [startBlocks, Driver.started, DrvLine.reset])

theorem startInstant_programsOk {s t : State} (h : s.ProgramsOk) (ht : exec .startInstant s = .next t) :
    t.ProgramsOk := by
  change execStartInstant s = .next t at ht
  unfold execStartInstant at ht
  split at ht
  · split at ht
    · next p _ =>
      cases ht
      exact (startBlocks_programsOk p s).same ⟨by simp, by simp, by simp⟩
    · cases ht
      exact h
  · cases ht
    exact h

/-- Every command keeps the invariants of the sequencers, the engines and the driven lines. -/
theorem exec_programsOk (c : Instr) {s t : State} (h : s.ProgramsOk) (ht : exec c s = .next t) : t.ProgramsOk := by
  by_cases hk : keepsRun c = true
  · by_cases hs : c = .startInstant
    · subst hs
      exact startInstant_programsOk h ht
    · obtain ⟨u, hu, hkept⟩ := exec_programsKept c hk hs s
      rw [hu] at ht
      cases ht
      exact (hkept h).same ⟨by simp, by simp, by simp⟩
  · cases c with
    | powerOnReset =>
      cases ht
      exact (resetBlocks_programsOk s).same ⟨rfl, rfl, rfl⟩
    | linkReset cause =>
      change execLinkReset cause s = .next t at ht
      unfold execLinkReset at ht
      split at ht
      · cases ht
        exact reset_programsOk.same ⟨rfl, rfl, rfl⟩
      · cases ht
        exact h
    | restart =>
      cases ht
      exact reset_programsOk.same ⟨rfl, rfl, rfl⟩
    | _ => exact absurd rfl hk

theorem tick_programsOk {s : State} (h : s.ProgramsOk) : (tick s).ProgramsOk :=
  ⟨h.seq, h.steps, fun b d => by simpa [tick] using (h.drivers b d).congr⟩

/-- Settles O57, from what each command keeps; a tick moves the count and the returns to rest alone. -/
theorem everyStepKeepsProgramsAndStepLists : Obligations.EveryStepKeepsProgramsAndStepLists := by
  rintro s t ⟨hseq, hsteps, hdrv⟩ ht
  have kept : t.ProgramsOk := by
    unfold step at ht
    split at ht
    · cases ht
      exact tick_programsOk ⟨hseq, hsteps, hdrv⟩
    · next c rest _ => exact exec_programsOk c (s := { s with pending := rest }) ⟨hseq, hsteps, hdrv⟩ ht
  exact ⟨kept.seq, kept.steps, kept.drivers⟩

end Sys2Proof.Machine
end

section
/-! PROOF. START, the end of the profile's read, and the accesses without another effect (R189 to R192). -/

namespace Sys2Proof.Machine

/-- R199: a change of Control that keeps the device state, the run number, the enabled bays and the clamps changes the
bytes of the outcome, the profile error and its index alone, and those where they change. -/
theorem mirrorSame_modCtl {s : State} {f : Control → Control} {a : Nat} (device : (f s.ctl).device = s.ctl.device)
    (run : (f s.ctl).runNumber = s.ctl.runNumber) (enabled : (f s.ctl).enabled = s.ctl.enabled)
    (clamps : (f s.ctl).clampCount = s.ctl.clampCount) (first : (f s.ctl).firstClamp = s.ctl.firstClamp)
    (outcome : (f s.ctl).outcome = s.ctl.outcome ∨ a ≠ 0x001001)
    (error : (f s.ctl).profileError = s.ctl.profileError ∨ a ≠ 0x001002)
    (index : (f s.ctl).errorIndex = s.ctl.errorIndex ∨ a ≠ 0x001003) : MirrorSame s (s.modCtl f) a := by
  have ho := outcome.imp_right (show a ≠ 0x001001 → a < 0x001001 ∨ 0x001001 + 1 ≤ a by omega)
  have he := error.imp_right (show a ≠ 0x001002 → a < 0x001002 ∨ 0x001002 + 1 ≤ a by omega)
  have hi := index.imp_right (show a ≠ 0x001003 → a < 0x001003 ∨ 0x001003 + 1 ≤ a by omega)
  simp only [MirrorSame, mirrorFields, refusalFields, syncFields, freeField, engineFields, pendingField, State.countSlots,
    mirrorAddr, fld, leBytes_length, State.modCtl, device, run, enabled, clamps, first, List.cons_append, List.nil_append,
    List.zip_cons_cons, List.forall_mem_cons, true_or, true_and]
  refine ⟨ho.imp_left (fun h => by rw [h]), he.imp_left (fun h => by rw [h]), hi.imp_left (fun h => by rw [h]), ?_⟩
  simp

/-- A command that changes Control alone. -/
theorem commit_modCtl {s : State} {f : Control → Control} {p : Nat → Prop}
    (h : ∀ a, ¬ p a → MirrorSame s (s.modCtl f) a) :
    ∃ t, commit s (s.modCtl f) = .next t ∧ t = { s with ctl := f s.ctl, mem := t.mem } ∧ Unchanged p s t := by
  have hq : signalLine s (s.modCtl f) = s.modCtl f := by simp [signalLine, State.modCtl]
  exact ⟨publish s (s.modCtl f), by rw [commit_eq, hq], rfl, publish_unchanged_mirror rfl h (fun _ => rfl) (fun _ => rfl)⟩

/-- R192: the three fields that a refused START writes, as bytes. -/
theorem refuseStart_reads {s : State} (h : s.mem.wf) (e : ProfileError) (n : Nat) :
    (publish s (refuseStart e n s)).mem.read 0x001001 = 3#8
    ∧ (publish s (refuseStart e n s)).mem.read 0x001002 = BitVec.ofNat 8 (profileErrorCode e)
    ∧ (publish s (refuseStart e n s)).mem.read 0x001003 = BitVec.ofNat 8 n := by
  have hr := fun f => publish_rewrite_reads (old := s) (new := s.modCtl (fun c =>
    { c with startSeq := .none, outcome := .refused, profileError := e, errorIndex := n })) h
    (refusalFields_published _) (f := f)
  change ∀ f, f ∈ _ → (publish s (refuseStart e n s)).mem.readBytes _ _ = _ at hr
  generalize (publish s (refuseStart e n s)).mem = m at hr
  simpa [refusalFields, fld, leBytes, mirrorAddr, Memory.readBytes, outcomeCode] using hr

/-- R192: a refused START writes the outcome, the error and the index in the mirror. -/
theorem refuseStart_unchanged (e : ProfileError) (n : Nat) (s : State) :
    Unchanged (fun a => a = 0x001001 ∨ a = 0x001002 ∨ a = 0x001003) s (publish s (refuseStart e n s)) := by
  refine publish_unchanged (fun a ha => ?_) (fun a ha => ?_) (fun _ _ _ _ => rfl) (fun _ _ _ _ => rfl)
  · rw [refuseStart, rewrite_mem, Memory.read_writeFields_other]
    · rfl
    · simp only [refusalFields, List.forall_mem_cons, fld, leBytes_length, mirrorAddr, List.not_mem_nil, false_imp_iff,
        implies_true, and_true]
      omega
  · rw [refuseStart, mirrorFields_rewrite]
    exact (mirrorSame_modCtl rfl rfl rfl rfl rfl (.inr (by omega)) (.inr (by omega)) (.inr (by omega))).outside

theorem start_eq (s : State) : exec .start s = commit s (if s.ctl.device = .idle && s.ctl.startSeq = .none then
      s.modCtl (fun c => { c with startSeq := .reading, outcome := .pending, earlyBytes := [] })
    else setOutcome .refused s) := rfl

theorem profileReadEnd_refused {s : State} {x : ProfileError} {n : Nat} (hr : s.ctl.startSeq = .reading)
    (hc : profileCheck s.profileRead = some (x, n)) :
    exec .profileReadEnd s = .next (publish s (refuseStart x n s)) := by
  have hq : signalLine s (refuseStart x n s) = refuseStart x n s := by
    simp [signalLine, refuseStart, rewrite, State.modCtl]
  change execProfileReadEnd s = _
  rw [execProfileReadEnd, if_pos hr, hc]
  exact (commit_eq _ _).trans (congrArg (fun u => Host.Outcome.next (publish s u)) hq)

theorem profileReadEnd_accepted {s : State} (hr : s.ctl.startSeq = .reading)
    (hc : profileCheck s.profileRead = none) :
    exec .profileReadEnd s = commit s (s.modCtl (fun c =>
      { c with
        startSeq := .initialising
        copy := some (readProfile s.profileRead)
        profileError := .none
        errorIndex := 0 })) := by
  change execProfileReadEnd s = _
  rw [execProfileReadEnd, if_pos hr, hc]

theorem startSequenceReadsAndChecks : StartSequenceReadsAndChecks := by
  refine fun s => ⟨fun hd hs => ?_, fun h => ?_, fun hr => ⟨fun x n hc => ?_, fun hc => ?_⟩⟩
  · rw [start_eq, if_pos (by simp [hd, hs])]
    exact commit_modCtl (fun a ha => mirrorSame_modCtl rfl rfl rfl rfl rfl (.inr ha) (.inl rfl) (.inl rfl))
  · rw [start_eq, if_neg (by simpa [imp_iff_not_or] using h)]
    exact commit_setOutcome .refused s
  · refine ⟨_, profileReadEnd_refused hr hc, ?_, fun hw => ?_, refuseStart_unchanged x n s⟩
    · rfl
    · obtain ⟨ho, he, hi⟩ := refuseStart_reads hw x n
      exact ⟨ho, hi, he.trans (by cases x <;> rfl)⟩
  · rw [profileReadEnd_accepted hr hc]
    exact commit_modCtl (fun a ha => mirrorSame_modCtl rfl rfl rfl rfl rfl (.inl rfl) (.inr (by omega)) (.inr (by omega)))

theorem knownCommand_eq_false {code : Word} (h : code = 0#32 ∨ 6 ≤ code.toNat) : knownCommand code = false := by
  obtain rfl | h := h
  · rfl
  · simp [knownCommand, show ¬ code.toNat ≤ 5 by omega]

theorem inertAccesses : InertAccesses := by
  refine fun s => ⟨fun code hc => ?_, fun _ _ _ _ => rfl, commit_quiet rfl rfl, commit_quiet rfl rfl⟩
  change ∃ t, commit s (if knownCommand code then s else setOutcome .refused s) = .next t ∧ _
  rw [knownCommand_eq_false hc]
  exact commit_setOutcome .refused s

end Sys2Proof.Machine
end

section
/-! PROOF. Host writes that meet a read in progress (R119, R160, R192): a byte already read keeps what it was, and every
other byte takes the write unless its reading came first. -/

namespace Sys2Proof.Machine

/-! ### A read over written memory -/

/-- A byte of consecutive writes that lies in card memory reads as it was written. -/
theorem Memory.read_writeBytes_getElem {m : Memory} (h : m.wf) (a i : Nat) (bytes : List Byte) {v : Byte}
    (hv : bytes[i]? = some v) (hi : a + i < cardMemorySize) : (m.writeBytes a bytes).read (a + i) = v := by
  induction bytes generalizing m a i with
  | nil => cases hv
  | cons w rest ih =>
    cases i with
    | zero =>
      obtain rfl : w = v := Option.some.inj hv
      rw [Memory.writeBytes, Memory.read_writeBytes_other _ _ _ _ (.inl (by omega)), Memory.read_write h]
      exact if_pos ⟨rfl, hi⟩
    | succ i =>
      have := ih (Memory.wf_write h a w) (a + 1) i hv (by omega)
      rwa [show a + 1 + i = a + (i + 1) by omega] at this

/-- R186: there is no byte at or above 16 MiB, and it reads as 0. -/
theorem Memory.read_above {m : Memory} (h : m.wf) {x : Nat} (hx : cardMemorySize ≤ x) : m.read x = 0#8 := by
  have hall : ∀ c ∈ m, c.1 < cardMemorySize := fun c hc => (h.2 c hc).2
  clear h
  induction m with
  | nil => rfl
  | cons c rest ih =>
    obtain ⟨y, v⟩ := c
    have hy := hall (y, v) (List.mem_cons_self ..)
    simp only [Memory.read]
    rw [if_neg (by simp at hy; omega)]
    exact ih (fun c hc => hall c (List.mem_cons_of_mem _ hc))

theorem Memory.wf_asRead {m : Memory} (h : m.wf) (early : List Host.Cell) : (m.asRead early).wf := by
  induction early generalizing m with
  | nil => exact h
  | cons c rest ih => exact ih (Memory.wf_write h c.1 c.2)

/-- The last byte known to have been read at an address. -/
def earlyByte (early : List Host.Cell) (x : Nat) : Option Byte :=
  (early.reverse.find? (fun c => c.1 = x)).map Prod.snd

/-- A byte of a read: the one known to have been read there, and else the one of card memory. -/
theorem Memory.read_asRead {m : Memory} (h : m.wf) (early : List Host.Cell) {x : Nat} (hx : x < cardMemorySize) :
    (m.asRead early).read x = (earlyByte early x).getD (m.read x) := (Memory.read_writeCells h early x hx).2

theorem earlyByte_isSome {early : List Host.Cell} {x : Nat} : (earlyByte early x).isSome ↔ x ∈ early.map Prod.fst := by
  simp [earlyByte, List.mem_map]

/-- Cells taken at addresses not yet read do not hide a byte known to have been read. -/
theorem earlyByte_append (early taken : List Host.Cell) (x : Nat) :
    earlyByte (early ++ taken) x = (earlyByte taken x).or (earlyByte early x) := by
  simp [earlyByte, List.find?_append, Option.map_or]

/-! ### The bytes a read takes before a write -/

/-- R119, R160, R192: a read that knew `early` to have been read takes, before a write to `[a, a + n)`, some bytes that
the write covers and that it had not read, as they stand. -/
def TakesEarly (m : Memory) (a n : Nat) (early early' : List Host.Cell) : Prop :=
  ∃ taken, early' = early ++ taken
    ∧ ∀ c ∈ taken, (a ≤ c.1 ∧ c.1 < a + n) ∧ c.1 ∉ early.map Prod.fst ∧ c.2 = m.read c.1

theorem TakesEarly.refl (m : Memory) (a n : Nat) (early : List Host.Cell) : TakesEarly m a n early early :=
  ⟨[], (List.append_nil _).symm, fun _ h => nomatch h⟩

theorem State.readEarly_takesEarly (s : State) (reader base length : Nat) (early : List Host.Cell) (a n : Nat) :
    TakesEarly s.mem a n early (s.readEarly reader base length early a n) := by
  refine ⟨_, rfl, fun c hc => ?_⟩
  obtain ⟨i, hi, rfl⟩ := List.mem_map.1 hc
  simp only [List.mem_filter, List.mem_range, Bool.and_eq_true, List.all_eq_true, decide_eq_true_eq] at hi
  obtain ⟨hn, ⟨-, hnew⟩, -⟩ := hi
  refine ⟨by simp only; omega, fun hm => ?_, rfl⟩
  obtain ⟨c, hc, he⟩ := List.mem_map.1 hm
  exact hnew c hc he

/-- A byte taken before the write is one that the write covers, as it stood. -/
theorem TakesEarly.earlyByte_cases {m : Memory} {a n : Nat} {early early' : List Host.Cell}
    (h : TakesEarly m a n early early') (x : Nat) :
    earlyByte early' x = earlyByte early x
    ∨ (a ≤ x ∧ x < a + n) ∧ earlyByte early x = none ∧ earlyByte early' x = some (m.read x) := by
  obtain ⟨taken, rfl, ht⟩ := h
  rw [earlyByte_append]
  cases hx : earlyByte taken x with
  | none => exact .inl rfl
  | some v =>
    obtain ⟨c, hc, rfl⟩ := Option.map_eq_some_iff.1 hx
    have hcx : c.1 = x := by simpa using List.find?_some hc
    obtain ⟨hin, hnew, hv⟩ := ht c (List.mem_reverse.1 (List.mem_of_find?_eq_some hc))
    rw [hcx] at hin hnew hv
    refine .inr ⟨hin, ?_, by rw [hv]; rfl⟩
    rw [← Option.not_isSome_iff_eq_none, earlyByte_isSome]
    exact hnew

/-- What a read sees after a write, from the bytes that it took before. -/
theorem TakesEarly.writeReaches {m : Memory} (h : m.wf) {a : Nat} {bytes : List Byte} {early early' : List Host.Cell}
    (ht : TakesEarly m a bytes.length early early') (base length : Nat) :
    WriteReaches (m.asRead early) ((m.writeBytes a bytes).asRead early') early a bytes base length := by
  intro x _ _
  have hw := Memory.wf_writeBytes h a bytes
  by_cases hx : x < cardMemorySize
  swap
  · have same : ((m.writeBytes a bytes).asRead early').read x = (m.asRead early).read x := by
      rw [Memory.read_above (Memory.wf_asRead h _) (by omega), Memory.read_above (Memory.wf_asRead hw _) (by omega)]
    exact ⟨fun _ => same, fun _ _ _ _ => ⟨.inr same, fun _ => same⟩⟩
  rw [Memory.read_asRead h _ hx, Memory.read_asRead hw _ hx]
  obtain he | ⟨hin, hnone, htaken⟩ := ht.earlyByte_cases x
  · rw [he]
    refine ⟨fun hout => by rw [Memory.read_writeBytes_other _ _ _ _ hout], fun i v hi hv => ?_⟩
    subst hi
    rw [Memory.read_writeBytes_getElem h a i bytes hv hx]
    cases hb : earlyByte early (a + i) with
    | none => exact ⟨.inl rfl, fun hk => absurd (earlyByte_isSome.2 hk) (by simp [hb])⟩
    | some w => exact ⟨.inr rfl, fun _ => rfl⟩
  · rw [hnone, htaken]
    exact ⟨fun hout => by omega, fun _ _ _ _ => ⟨.inr rfl, fun _ => rfl⟩⟩

/-! ### What each read keeps -/

theorem State.keepEarly_profile (a n : Nat) (s : State) :
    TakesEarly s.mem a n s.ctl.earlyBytes (s.keepEarly a n).ctl.earlyBytes := by
  unfold State.keepEarly
  split
  · simp only [State.keepProfile]
    split
    · exact s.readEarly_takesEarly ..
    · exact .refl ..
  · exact .refl ..

theorem State.keepEarly_image (a n : Nat) (s : State) (b : Bay) {r r' : ImageRead} (hr : s.seq[b.val].reading = some r)
    (hr' : (s.keepEarly a n).seq[b.val].reading = some r') : TakesEarly s.mem a n r.early r'.early := by
  unfold State.keepEarly at hr'
  split at hr'
  · simp only [Vector.getElem_ofFn, State.keepImage, hr, Option.map_some, Option.some.injEq] at hr'
    subst hr'
    exact s.readEarly_takesEarly ..
  · rw [hr] at hr'
    cases hr'
    exact .refl ..

theorem State.keepEarly_list (a n : Nat) (s : State) (e : EngineId) :
    TakesEarly s.mem a n s.eng[e.val].early (s.keepEarly a n).eng[e.val].early := by
  unfold State.keepEarly
  split
  · simp only [Vector.getElem_ofFn, State.keepList]
    split
    · exact s.readEarly_takesEarly ..
    · exact .refl ..
  · exact .refl ..

/-! ### A host write -/

theorem State.hostWrite_eq (a : Nat) (bytes : List Byte) (s : State) :
    s.hostWrite a bytes = { s.keepEarly a bytes.length with mem := s.mem.writeBytes a bytes } := by
  simp [State.hostWrite, State.overwrite, State.store]

theorem readInProgress_eq_false {s : State} (hp : s.ctl.startSeq ≠ .reading)
    (hi : ∀ b : Bay, s.seq[b.val].reading = none) (hl : ∀ e : EngineId, s.eng[e.val].work ≠ .loading) : s.readInProgress = false := by
  have h0 := hl 0
  have h1 := hl 1
  simp only [Fin.val_zero, Fin.val_one] at h0 h1
  simp [State.readInProgress, hp, hi, h0, h1]

theorem hostWritesReachBytesNotYetRead : HostWritesReachBytesNotYetRead := by
  intro s a bytes
  have heq := s.hostWrite_eq a bytes
  refine ⟨fun h => by rw [State.profileRead, h]; rfl, fun r h => by rw [State.imageRead, h]; rfl,
    fun e h => by rw [State.listRead, h]; rfl, fun hp hi hl => ?_, _, rfl, ?_, fun b => ?_, fun e => ?_,
    fun hw => ⟨?_, ?_, ?_⟩⟩
  · rw [heq, State.keepEarly_idle _ _ _ (readInProgress_eq_false hp hi hl)]
  · rw [heq]
    rw [State.keepEarly_eq]
  · rw [heq]
    exact s.keepEarly_seq a bytes.length b
  · rw [heq]
    exact State.keepEarly_eng a bytes.length s e
  · rw [heq]
    exact (s.keepEarly_profile a bytes.length).writeReaches hw 0 0x1000
  · intro b r r' hr hr'
    rw [heq] at hr' ⊢
    exact (s.keepEarly_image a bytes.length b hr hr').writeReaches hw _ _
  · intro e b i _ _
    rw [heq]
    exact (s.keepEarly_list a bytes.length e).writeReaches hw _ _

end Sys2Proof.Machine
end

section
/-! PROOF. The profile: its four checks in order, and the ranges of what an accepted one gives (12.2, R192, R193). -/

namespace Sys2Proof.Machine

/-! ### The checks (R192) -/

theorem signatureOk_iff (m : Memory) :
    signatureOk m = true ↔ m.readBytes 0 4 = [0x4B#8, 0x42#8, 0x38#8, 0x50#8] ∧ m.field 4 2 = 1 := by
  simp [signatureOk]

theorem readProfile_mask (m : Memory) : (readProfile m).mask = m.read 6 := rfl

theorem readProfile_bays (m : Memory) (b : Bay) : (readProfile m).bays[b.val] = readBayProfile m b.val :=
  Vector.getElem_ofFn ..

theorem readProfile_rails (m : Memory) (i : Fin 24) : (readProfile m).rails[i.val] = readRailProfile m i.val :=
  Vector.getElem_ofFn ..

/-- R192 check 3: an enabled bay has a resolution shift above 15. -/
abbrev ShiftBad (m : Memory) (b : Nat) : Prop :=
  (m.read 6).getLsbD b = true ∧ 15 < (m.read (0x10 + 32 * b)).toNat

/-- R192 check 4: a rail input of an enabled bay has its low limit not below its high limit. -/
abbrev WindowBad (m : Memory) (i : Nat) : Prop :=
  (m.read 6).getLsbD (i / 3) = true ∧ m.field (0x110 + 8 * i + 4) 2 ≤ m.field (0x110 + 8 * i + 2) 2

theorem firstBadShift_eq_find (m : Memory) : firstBadShift (readProfile m)
    = Fin.find? (fun b : Bay => ShiftBad m b.val) := by
  rw [Fin.find?_eq_find?_finRange]
  simp only [firstBadShift, readProfile_bays, Bool.decide_and, Bool.decide_eq_true]
  rfl

theorem firstBadShift_eq_some {m : Memory} {b : Bay} :
    firstBadShift (readProfile m) = some b ↔ ShiftBad m b.val ∧ ∀ c : Bay, c < b → ¬ ShiftBad m c.val := by
  rw [firstBadShift_eq_find, Fin.find?_eq_some_iff]
  simp only [decide_eq_true_eq, decide_eq_false_iff_not]

theorem firstBadShift_eq_none {m : Memory} :
    firstBadShift (readProfile m) = none ↔ ∀ b : Bay, ¬ ShiftBad m b.val := by
  rw [firstBadShift_eq_find, Fin.find?_eq_none_iff]
  simp only [decide_eq_false_iff_not]

theorem firstBadWindow_eq_find (m : Memory) : firstBadWindow (readProfile m)
    = Fin.find? (fun i : Fin 24 => WindowBad m i.val) := by
  rw [Fin.find?_eq_find?_finRange]
  simp only [firstBadWindow, readProfile_rails, Bool.decide_and, Bool.decide_eq_true]
  rfl

theorem firstBadWindow_eq_some {m : Memory} {i : Fin 24} :
    firstBadWindow (readProfile m) = some i ↔ WindowBad m i.val ∧ ∀ j : Fin 24, j < i → ¬ WindowBad m j.val := by
  rw [firstBadWindow_eq_find, Fin.find?_eq_some_iff]
  simp only [decide_eq_true_eq, decide_eq_false_iff_not]

theorem firstBadWindow_eq_none {m : Memory} :
    firstBadWindow (readProfile m) = none ↔ ∀ i : Fin 24, ¬ WindowBad m i.val := by
  rw [firstBadWindow_eq_find, Fin.find?_eq_none_iff]
  simp only [decide_eq_false_iff_not]

theorem profileCheck_unsigned {m : Memory} (h : signatureOk m = false) : profileCheck m = some (.badSignature, 0) := by
  simp [profileCheck, h]

theorem profileCheck_noBays {m : Memory} (h : signatureOk m = true) (hm : m.read 6 = 0#8) :
    profileCheck m = some (.noBays, 0) := by
  simp [profileCheck, h, readProfile_mask, hm]

theorem profileCheck_shift {m : Memory} (h : signatureOk m = true) (hm : m.read 6 ≠ 0#8) {b : Bay}
    (hb : firstBadShift (readProfile m) = some b) : profileCheck m = some (.shiftRange, b.val) := by
  simp [profileCheck, h, readProfile_mask, hm, hb]

theorem profileCheck_window {m : Memory} (h : signatureOk m = true) (hm : m.read 6 ≠ 0#8)
    (hb : firstBadShift (readProfile m) = none) {i : Fin 24} (hi : firstBadWindow (readProfile m) = some i) :
    profileCheck m = some (.railWindow, i.val) := by
  simp [profileCheck, h, readProfile_mask, hm, hb, hi]

/-- R192: a profile has no error exactly when it meets the four checks. -/
theorem profileCheck_eq_none {m : Memory} : profileCheck m = none ↔ signatureOk m = true ∧ m.read 6 ≠ 0#8
    ∧ firstBadShift (readProfile m) = none ∧ firstBadWindow (readProfile m) = none := by
  refine ⟨fun h => ?_, fun ⟨hs, hm, hb, hw⟩ => by simp [profileCheck, hs, readProfile_mask, hm, hb, hw]⟩
  have hs : signatureOk m = true := by
    by_contra hs
    exact nomatch (profileCheck_unsigned (Bool.eq_false_iff.2 hs)).symm.trans h
  have hm : m.read 6 ≠ 0#8 := fun hm => nomatch (profileCheck_noBays hs hm).symm.trans h
  have hb : firstBadShift (readProfile m) = none :=
    Option.eq_none_iff_forall_ne_some.2 (fun b hb => nomatch (profileCheck_shift hs hm hb).symm.trans h)
  have hw : firstBadWindow (readProfile m) = none :=
    Option.eq_none_iff_forall_ne_some.2 (fun i hi => nomatch (profileCheck_window hs hm hb hi).symm.trans h)
  exact ⟨hs, hm, hb, hw⟩

theorem profileChecksInOrder : ProfileChecksInOrder := by
  intro m signed badShift badWindow hsigned hshift hwindow
  have hs := hsigned.trans (signatureOk_iff m).symm
  have hbs : ∀ b, badShift b ↔ ShiftBad m b := hshift
  have hbw : ∀ i, badWindow i ↔ WindowBad m i := hwindow
  refine ⟨fun h => profileCheck_unsigned (Bool.eq_false_iff.2 (mt hs.2 h)),
    fun h hm => profileCheck_noBays (hs.1 h) hm, fun h hm => ⟨fun b hb hbad hleast => ?_, fun hnone => ?_⟩⟩
  · exact profileCheck_shift (b := ⟨b, hb⟩) (hs.1 h) hm
      (firstBadShift_eq_some.2 ⟨(hbs b).1 hbad, fun c hc => mt (hbs c).2 (hleast c hc)⟩)
  · have hshifts := firstBadShift_eq_none.2 (fun b : Bay => mt (hbs b).2 (hnone b b.isLt))
    refine ⟨fun i hi hbad hleast => ?_, fun hwindows => ?_⟩
    · exact profileCheck_window (i := ⟨i, hi⟩) (hs.1 h) hm hshifts
        (firstBadWindow_eq_some.2 ⟨(hbw i).1 hbad, fun j hj => mt (hbw j).2 (hleast j hj)⟩)
    · exact profileCheck_eq_none.2 ⟨hs.1 h, hm, hshifts,
        firstBadWindow_eq_none.2 (fun i => mt (hbw i).2 (hwindows i i.isLt))⟩

/-! ### The ranges (R193) -/

theorem clampTo_range {lo hi : Nat} (h : lo ≤ hi) (v : Nat) : lo ≤ clampTo lo hi v ∧ clampTo lo hi v ≤ hi := by
  unfold clampTo
  split
  · omega
  · split <;> omega

theorem readBayProfile_range (m : Memory) (b : Nat) :
    (1 ≤ (readBayProfile m b).level ∧ (readBayProfile m b).level ≤ 6)
    ∧ (16 ≤ (readBayProfile m b).divisor ∧ (readBayProfile m b).divisor ≤ 65535)
    ∧ (4 ≤ (readBayProfile m b).tck ∧ (readBayProfile m b).tck ≤ 4096)
    ∧ ∀ l : InLine, (readBayProfile m b).qualMicros[l.val] ≤ 10000 := by
  refine ⟨clampTo_range (by omega) _, clampTo_range (by omega) _, clampTo_range (by omega) _, fun l => ?_⟩
  simp only [readBayProfile, Vector.getElem_ofFn]
  exact (clampTo_range (by omega) _).2

theorem readRailProfile_fullScale_range (m : Memory) (i : Nat) :
    1000 ≤ (readRailProfile m i).fullScale ∧ (readRailProfile m i).fullScale ≤ 20000 := clampTo_range (by omega) _

/-- R193: a rail whose window holds keeps a hysteresis of at most half of it. -/
theorem readRailProfile_hyst_le {m : Memory} {i : Nat} (h : (readRailProfile m i).low < (readRailProfile m i).high) :
    (readRailProfile m i).hyst ≤ ((readRailProfile m i).high - (readRailProfile m i).low) / 2 := by
  have hm : maxHyst (readRailProfile m i).low (readRailProfile m i).high
      = ((readRailProfile m i).high - (readRailProfile m i).low) / 2 := if_pos h
  exact hm ▸ (clampTo_range (Nat.zero_le _) _).2

/-! ### The first clamped field (R193) -/

/-- R193, 12.2: every field that can be clamped stands in the profile area. -/
theorem clampTable_offset_lt (m : Memory) : ∀ p ∈ clampTable m, p.1 < profileSize := by
  simp only [clampTable, outside, bayBlock, railBlock, profileSize, List.forall_mem_append, List.forall_mem_flatMap,
    List.forall_mem_map, List.forall_mem_cons, List.mem_range]
  refine ⟨⟨⟨⟨⟨⟨⟨fun b hb i hi => ?_, fun b hb => ?_⟩, fun b hb => ?_⟩, fun i hi => ?_⟩, fun i hi => ?_⟩, fun b hb => ?_⟩,
    by decide, by decide, by simp⟩, fun b hb i hi => ?_⟩ <;> omega

theorem clampedOffsets_lt (m : Memory) : ∀ x ∈ clampedOffsets m, x < 0xFFFF := by
  intro x hx
  simp only [clampedOffsets, List.mem_filterMap, Option.ite_none_right_eq_some, Option.some.injEq] at hx
  obtain ⟨p, hp, -, rfl⟩ := hx
  exact (clampTable_offset_lt m p hp).trans (by decide)

/-- R193: the first clamped field is 0xFFFF exactly when no field is clamped. -/
theorem firstClampOf_eq_iff {xs : List Nat} (h : ∀ x ∈ xs, x < 0xFFFF) : firstClampOf xs = 0xFFFF ↔ xs = [] := by
  cases xs with
  | nil => simp [firstClampOf]
  | cons x rest =>
    have hx := h x (List.mem_cons_self ..)
    have hmin := (foldl_min_le rest x).1
    have hlt : firstClampOf (x :: rest) < 0xFFFF := by
      simp only [firstClampOf]
      split
      · exact hx
      · split <;> omega
    exact ⟨fun he => absurd he (Nat.ne_of_lt hlt), fun he => nomatch he⟩

theorem acceptedProfilesAreInRange : AcceptedProfilesAreInRange := by
  intro m h
  obtain ⟨hs, hm, hshift, hwindow⟩ := profileCheck_eq_none.1 h
  obtain ⟨hbytes, hversion⟩ := (signatureOk_iff m).1 hs
  refine ⟨hbytes, hversion, hm, rfl, (clampTo_range (Nat.zero_le 2047) _).2, fun b => ?_, fun i => ?_, ?_⟩
  · rw [readProfile_bays]
    obtain ⟨⟨hl, hl'⟩, ⟨hd, hd'⟩, ⟨ht, ht'⟩, hq⟩ := readBayProfile_range m b.val
    refine ⟨fun hon => ?_, hl, hl', hd, hd', ht, ht', hq⟩
    exact Nat.le_of_not_lt (fun hk => firstBadShift_eq_none.1 hshift b ⟨hon, hk⟩)
  · rw [readProfile_rails]
    obtain ⟨hf, hf'⟩ := readRailProfile_fullScale_range m i.val
    refine ⟨hf, hf', fun hon => ?_⟩
    have hlow : (readRailProfile m i.val).low < (readRailProfile m i.val).high :=
      Nat.lt_of_not_le (fun hk => firstBadWindow_eq_none.1 hwindow i ⟨hon, hk⟩)
    exact ⟨hlow, readRailProfile_hyst_le hlow⟩
  · exact List.length_eq_zero_iff.trans (firstClampOf_eq_iff (clampedOffsets_lt m)).symm

/-- Settles O47. -/
theorem controlTakesItsCommands : Obligations.ControlTakesItsCommands :=
  ⟨startSequenceReadsAndChecks, hostWritesReachBytesNotYetRead, profileChecksInOrder, inertAccesses,
    acceptedProfilesAreInRange⟩

end Sys2Proof.Machine
end

section
/-! PROOF. The operations that leave the queues, the slots' states and cards, the engines' attachments and the rotation
order as they are: records and pages, the bay blocks, the scan engines and the owners of jobs. -/

namespace Sys2Proof.Machine

/-! ### Records and pages (chapter 2) -/

/-- A state that differs from another in the streams, the pages, the ports, the notices and memory alone. -/
structure Recorded (s t : State) : Prop where
  eq : t = { s with str := t.str, pool := t.pool, con := t.con, notices := t.notices, mem := t.mem }

namespace Recorded

theorem refl (s : State) : Recorded s s := ⟨rfl⟩

theorem trans {s t u : State} (h : Recorded s t) (k : Recorded t u) : Recorded s u := ⟨k.eq.trans (by rw [h.eq])⟩

theorem forEach {α : Type} (xs : List α) {f : α → State → State} (h : ∀ x s, Recorded s (f x s)) (s : State) :
    Recorded s (Machine.forEach xs f s) := by
  induction xs generalizing s with
  | nil => exact refl s
  | cons x rest ih => exact (h x s).trans (ih (f x s))

theorem modStr (b : Bay) (f : Stream → Stream) (s : State) : Recorded s (s.modStr b f) := ⟨rfl⟩

theorem modCon (b : Bay) (f : Console → Console) (s : State) : Recorded s (s.modCon b f) := ⟨rfl⟩

theorem store (a : Nat) (bytes : List Byte) (s : State) : Recorded s (s.store a bytes) := ⟨rfl⟩

theorem setPage (p : Page) (st : PageState) (s : State) : Recorded s (Machine.setPage p st s) := ⟨rfl⟩

theorem raiseBay (b : Bay) (f : BayFactor) (s : State) : Recorded s (Machine.raiseBay b f s) := ⟨rfl⟩

theorem raiseFixture (f : FixtureFactor) (s : State) : Recorded s (Machine.raiseFixture f s) := ⟨rfl⟩

theorem offer (b : Bay) (body : RecordBody) (t : Tick) (s : State) : Recorded s (Machine.offer b body t s) := ⟨rfl⟩

theorem offerAll (body : RecordBody) (t : Tick) (s : State) : Recorded s (Machine.offerAll body t s) :=
  forEach allBays (fun b s => offer b body t s) s

theorem closeBatch (b : Bay) (brk : Bool) (s : State) : Recorded s (Machine.closeBatch b brk s) := by
  unfold Machine.closeBatch
  split <;> exact ⟨rfl⟩

theorem toDraining (b : Bay) (s : State) : Recorded s (Machine.toDraining b s) :=
  (closeBatch b false s).trans (modStr b _ _)

theorem deliver (b : Bay) (u : PageUse) (s : State) : Recorded s (Machine.deliver b u s) :=
  (((store _ _ s).trans (setPage _ _ _)).trans (modStr b _ _)).trans (raiseBay b _ _)

theorem retain (b : Bay) (u : PageUse) (s : State) : Recorded s (Machine.retain b u s) :=
  ((setPage _ _ s).trans (store _ _ _)).trans (modStr b _ _)

theorem deliverAll (b : Bay) (us : List PageUse) (s : State) : Recorded s (Machine.deliverAll b us s) :=
  forEach us (fun u s => deliver b u s) s

theorem endPage (b : Bay) (s : State) : Recorded s (Machine.endPage b s) := by
  unfold Machine.endPage
  split
  · exact refl s
  · split
    · exact (retain b _ s).trans (modStr b _ _)
    · exact (deliver b _ s).trans (modStr b _ _)

theorem allocate (b : Bay) (p : Page) (rest : List Page) (base : Tick) (s : State) :
    Recorded s (Machine.allocate b p rest base s) := by
  unfold Machine.allocate
  simp only
  split <;> exact ⟨rfl⟩

theorem obtainPage {b : Bay} {base : Tick} {s t : State} (h : Machine.obtainPage b base s = some t) :
    Recorded s t := by
  have recycled (u : PageUse) (older : List PageUse) : Recorded s (recycle b u older base s) := ⟨rfl⟩
  unfold Machine.obtainPage at h
  simp only at h
  split at h
  · split at h
    · cases h
      exact allocate b _ _ base s
    · split at h
      · cases h
        exact allocate b _ _ base s
      · cases h
        exact recycled _ _
    · cases h
      exact recycled _ _
    · cases h
  · split at h
    · cases h
      exact allocate b _ _ base s
    · cases h

theorem writeSlot (b : Bay) (body : RecordBody) (late : Bool) (delta : Nat) (s : State) :
    Recorded s (Machine.writeSlot b body late delta s) := by
  unfold Machine.writeSlot
  split <;> exact ⟨rfl⟩

theorem endIfFull (b : Bay) (s : State) : Recorded s (Machine.endIfFull b s) := by
  unfold Machine.endIfFull
  split
  · exact endPage b s
  · exact refl s

theorem writeData (b : Bay) (body : RecordBody) (late : Bool) (delta : Nat) (clamped : Tick) (s : State) :
    Recorded s (Machine.writeData b body late delta clamped s) :=
  ((writeSlot b body late delta s).trans (modStr b _ _)).trans (endIfFull b _)

theorem writeLoss (b : Bay) (s : State) : Recorded s (Machine.writeLoss b s) := by
  unfold Machine.writeLoss
  split
  · exact refl s
  · exact ((writeSlot b _ _ _ s).trans (modStr b _ _)).trans (endIfFull b _)

theorem placeRecord (tries : Nat) (b : Bay) (r : Record) (s : State) :
    Recorded s (Machine.placeRecord tries b r s) := by
  induction tries generalizing s with
  | zero => exact refl s
  | succ n ih =>
    unfold Machine.placeRecord
    simp only
    split
    · exact modStr b _ s
    · next s1 h1 =>
      have hpage : Recorded s s1 := by
        split at h1
        · exact obtainPage h1
        · cases h1
          exact refl s
      have hloss := hpage.trans (writeLoss b s1)
      split
      · exact hloss.trans (ih _)
      · split
        · exact hloss.trans (writeData b _ _ _ _ _)
        · split
          · split
            · exact hloss.trans ((writeSlot b _ _ _ _).trans (writeData b _ _ _ _ _))
            · exact hloss.trans ((endPage b _).trans (ih _))
          · exact hloss.trans (writeData b _ _ _ _ _)

theorem afterTake (b : Bay) (m : Bool) (s : State) : Recorded s (Machine.afterTake b m s) := by
  unfold Machine.afterTake
  simp only
  split
  · split
    · split
      · exact (modStr b _ s).trans (toDraining b _)
      · exact modStr b _ s
    · exact modStr b _ s
  · split
    · split
      · exact (modStr b _ s).trans (toDraining b _)
      · exact modStr b _ s
    · exact refl s

theorem serveRecord (b : Bay) (s : State) : Recorded s (Machine.serveRecord b s) := by
  have taken (rest : List Record) : Recorded s (takeHead b rest s) := ⟨rfl⟩
  unfold Machine.serveRecord
  split
  · exact refl s
  · exact ((taken _).trans (placeRecord 3 b _ _)).trans (afterTake b _ _)

theorem drainLoss (b : Bay) (s : State) : Recorded s (Machine.drainLoss b s) := by
  have served : Recorded s (served b s) := ⟨rfl⟩
  unfold Machine.drainLoss
  split
  · exact served.trans (writeSlot b _ _ _ _)
  · exact served

theorem stopTrace (b : Bay) (p : Nat) (taken : Bool) (s : State) : Recorded s (Machine.stopTrace b p taken s) := by
  have deliver (x : State) : Recorded x
      ((Machine.deliverAll b s.str[b.val].retained x).modStr b (fun t => { t with retained := [] })) :=
    (deliverAll b _ x).trans (modStr b _ _)
  unfold Machine.stopTrace
  simp only
  split
  · split <;> split
    · exact ((modStr b _ s).trans (deliver _)).trans (toDraining b _)
    · exact (modStr b _ s).trans (toDraining b _)
    · exact (modStr b _ s).trans (deliver _)
    · exact modStr b _ s
  · exact refl s

theorem stopStream (b : Bay) (s : State) : Recorded s (Machine.stopStream b s) := by
  unfold Machine.stopStream
  simp only
  split
  · exact toDraining b s
  · split
    · exact modStr b _ s
    · exact refl s

/-! ### Received bytes (R84 to R87) -/

theorem batchByte (b : Bay) (x : Byte) (err : Bool) (fall stop : Tick) (s : State) :
    Recorded s (Machine.batchByte b x err fall stop s) := by
  unfold Machine.batchByte
  split
  · simp only
    split
    · exact (modCon b _ s).trans (closeBatch b false _)
    · exact modCon b _ s
  · exact refl s

theorem framingByte (b : Bay) (x : Byte) (s : State) : Recorded s (Machine.framingByte b x s) :=
  (batchByte b x _ _ _ s).trans (modCon b _ _)

theorem byteTaken (b : Bay) (s : State) : Recorded s (Machine.byteTaken b s) :=
  ((modCon b _ s).trans (batchByte b _ _ _ _ _)).trans (modCon b _ _)

theorem breakRecord (b : Bay) (s : State) : Recorded s (Machine.breakRecord b s) := by
  unfold Machine.breakRecord
  split
  · exact closeBatch b true s
  · exact offer b _ _ s

end Recorded

/-! ### The tables of the Dispatcher -/

/-- The queues and the in-service map, the state and the card of every slot, what each engine serves and the rotation
order stay. -/
structure TablesSame (s t : State) : Prop where
  lanes : t.lanes = s.lanes
  slot : ∀ i : Slot, t.slots[i.val].state = s.slots[i.val].state ∧ t.slots[i.val].card = s.slots[i.val].card
  eng : ∀ e : EngineId, t.eng[e.val].attached = s.eng[e.val].attached
    ∧ (t.eng[e.val].state = .idle ↔ s.eng[e.val].state = .idle)
  rotation : t.disp.rotation = s.disp.rotation

namespace TablesSame

theorem ofEq {s t : State} (lanes : t.lanes = s.lanes) (slots : t.slots = s.slots) (eng : t.eng = s.eng)
    (rotation : t.disp.rotation = s.disp.rotation) : TablesSame s t :=
  ⟨lanes, fun _ => by rw [slots]; exact ⟨rfl, rfl⟩, fun _ => by rw [eng]; exact ⟨rfl, Iff.rfl⟩, rotation⟩

theorem refl (s : State) : TablesSame s s := ofEq rfl rfl rfl rfl

theorem trans {s t u : State} (h : TablesSame s t) (k : TablesSame t u) : TablesSame s u where
  lanes := k.lanes.trans h.lanes
  slot i := ⟨(k.slot i).1.trans (h.slot i).1, (k.slot i).2.trans (h.slot i).2⟩
  eng e := ⟨(k.eng e).1.trans (h.eng e).1, (k.eng e).2.trans (h.eng e).2⟩
  rotation := k.rotation.trans h.rotation

theorem forEach {α : Type} (xs : List α) {f : α → State → State} (h : ∀ x s, TablesSame s (f x s)) (s : State) :
    TablesSame s (Machine.forEach xs f s) := by
  induction xs generalizing s with
  | nil => exact refl s
  | cons x rest ih => exact (h x s).trans (ih (f x s))

theorem ite {s u : State} (p : Prop) [Decidable p] (h : p → TablesSame s u) : TablesSame s (if p then u else s) := by
  split
  · next hp => exact h hp
  · exact refl s

theorem ofRecorded {s t : State} (h : Recorded s t) : TablesSame s t :=
  ofEq (by rw [h.eq]) (by rw [h.eq]) (by rw [h.eq]) (by rw [h.eq])

theorem ofDrives {s t : State} (h : Drives s t) : TablesSame s t :=
  ofEq (by rw [h.eq]) (by rw [h.eq]) (by rw [h.eq]) (by rw [h.eq])

theorem modTime (f : TimeBase → TimeBase) (s : State) : TablesSame s (s.modTime f) := ofEq rfl rfl rfl rfl

theorem modCtl (f : Control → Control) (s : State) : TablesSame s (s.modCtl f) := ofEq rfl rfl rfl rfl

theorem modMon (b : Bay) (f : Monitor → Monitor) (s : State) : TablesSame s (s.modMon b f) := ofEq rfl rfl rfl rfl

theorem modInLine (b : Bay) (l : InLine) (f : MonLine → MonLine) (s : State) : TablesSame s (s.modInLine b l f) :=
  modMon b _ s

theorem modCode (b : Bay) (f : CodeRx → CodeRx) (s : State) : TablesSame s (s.modCode b f) := ofEq rfl rfl rfl rfl

theorem modRail (b : Bay) (r : RailId) (f : Rail → Rail) (s : State) : TablesSame s (s.modRail b r f) :=
  ofEq rfl rfl rfl rfl

theorem modCon (b : Bay) (f : Console → Console) (s : State) : TablesSame s (s.modCon b f) := ofEq rfl rfl rfl rfl

theorem modSeq (b : Bay) (f : Sequencer → Sequencer) (s : State) : TablesSame s (s.modSeq b f) := ofEq rfl rfl rfl rfl

theorem modDrv (b : Bay) (f : Driver → Driver) (s : State) : TablesSame s (s.modDrv b f) := ofEq rfl rfl rfl rfl

theorem modStr (b : Bay) (f : Stream → Stream) (s : State) : TablesSame s (s.modStr b f) := ofEq rfl rfl rfl rfl

theorem modPort (b : Bay) (f : ScanPort → ScanPort) (s : State) : TablesSame s (s.modPort b f) := ofEq rfl rfl rfl rfl

theorem store (a : Nat) (bytes : List Byte) (s : State) : TablesSame s (s.store a bytes) := ofEq rfl rfl rfl rfl

theorem offer (b : Bay) (body : RecordBody) (t : Tick) (s : State) : TablesSame s (Machine.offer b body t s) :=
  modStr b _ s

theorem raiseBay (b : Bay) (f : BayFactor) (s : State) : TablesSame s (Machine.raiseBay b f s) := ofEq rfl rfl rfl rfl

theorem raiseFixture (f : FixtureFactor) (s : State) : TablesSame s (Machine.raiseFixture f s) := ofEq rfl rfl rfl rfl

theorem rewrite (fs : List Field) (s : State) : TablesSame s (Machine.rewrite fs s) :=
  ofEq (by simp) (by simp) (by simp) (by simp)

/-- A slot changed beside its state and its card. -/
theorem modSlot (i : Slot) (f : SlotRec → SlotRec) (s : State)
    (hf : ∀ r, (f r).state = r.state ∧ (f r).card = r.card := by exact fun _ => ⟨rfl, rfl⟩) :
    TablesSame s (s.modSlot i f) := by
  refine ⟨rfl, fun k => ?_, fun _ => ⟨rfl, Iff.rfl⟩, rfl⟩
  rw [State.modSlot_slots, upd_get]
  split
  · exact hf _
  · exact ⟨rfl, rfl⟩

theorem report (i : Slot) (st : Status) (d : BitVec 16) (r : BitVec 64) (s : State) :
    TablesSame s (Machine.report i st d r s) := modSlot i _ s

/-- An engine changed beside its attachment, IDLE exactly when it was. -/
theorem modEng (e : EngineId) (f : Engine → Engine) (s : State)
    (hf : (f s.eng[e.val]).attached = s.eng[e.val].attached
      ∧ ((f s.eng[e.val]).state = .idle ↔ s.eng[e.val].state = .idle) := by exact ⟨rfl, Iff.rfl⟩) :
    TablesSame s (s.modEng e f) := by
  refine ⟨rfl, fun _ => ⟨rfl, rfl⟩, fun k => ?_, rfl⟩
  rw [State.modEng_eng, upd_get]
  split
  · next h => exact h ▸ hf
  · exact ⟨rfl, Iff.rfl⟩

/-! ### The sequencers, the streams and the ports -/

theorem offerStall (b : Bay) (t : Tick) (s : State) : TablesSame s (Machine.offerStall b t s) := by
  rw [offerStall_eq]
  exact ofEq rfl rfl rfl rfl

theorem armReadEnd (b : Bay) (r : ImageRead) (s : State) : TablesSame s (Machine.armReadEnd b r s) := by
  unfold Machine.armReadEnd
  simp only
  split
  · exact (modSeq b _ s).trans (report _ _ _ _ _)
  · split
    · exact (((modSeq b _ s).trans (modSeq b _ _)).trans (offerStall b _ _)).trans (report _ _ _ _ _)
    · exact (modSeq b _ s).trans (report _ _ _ _ _)

theorem armBegin (b : Bay) (i : Slot) (s : State) : TablesSame s (Machine.armBegin b i s) := by
  unfold Machine.armBegin
  simp only
  split
  · exact (modSeq b _ s).trans (report _ _ _ _ _)
  · split
    · exact modSeq b _ s
    · exact report _ _ _ _ s

theorem serveFlush (b : Bay) (s : State) : TablesSame s (Machine.serveFlush b s) := by
  have taken : Recorded s (takeFlush b s) := ⟨rfl⟩
  unfold Machine.serveFlush
  split
  · exact refl s
  · simp only
    split
    · split
      · exact (ofRecorded (taken.trans ((Recorded.deliver b _ _).trans (.modStr b _ _)))).trans (report _ _ _ _ _)
      · exact (ofRecorded taken).trans (report _ _ _ _ _)
    · exact (ofRecorded taken).trans (report _ _ _ _ _)

theorem serveDrain (b : Bay) (s : State) : TablesSame s (Machine.serveDrain b s) := by
  have drained (us : List PageUse) : Recorded s (deliverAll b us (drainLoss b s)) :=
    (Recorded.drainLoss b s).trans (.deliverAll b us _)
  unfold Machine.serveDrain
  simp only
  split
  · exact ofRecorded ((drained _).trans (.modStr b _ _))
  · exact (ofRecorded ((drained _).trans (.modStr b _ _))).trans (report _ _ _ _ _)

theorem traceBegin (b : Bay) (i : Slot) (s : State) : TablesSame s (Machine.traceBegin b i s) := by
  unfold Machine.traceBegin
  simp only
  split
  · unfold traceOpen
    simp only
    split
    · exact (modStr b _ s).trans (report _ _ _ _ _)
    · exact report _ _ _ _ s
  · split
    · unfold traceClose
      simp only
      split
      · exact ofRecorded ((Recorded.toDraining b s).trans (.modStr b _ _))
      · split
        · exact modStr b _ s
        · exact report _ _ _ _ s
    · unfold traceFlush
      simp only
      split
      · split
        · exact modStr b _ s
        · exact report _ _ _ _ s
      · exact report _ _ _ _ s

theorem endSend (b : Bay) (j : TxJob) (st : Status) (s : State) : TablesSame s (Machine.endSend b j st s) :=
  (modCon b _ s).trans (report _ _ _ _ _)

theorem sendBegin (b : Bay) (i : Slot) (s : State) : TablesSame s (Machine.sendBegin b i s) := by
  unfold Machine.sendBegin
  simp only
  split
  · exact modCon b _ s
  · exact report _ _ _ _ s

theorem charEnd (b : Bay) (j : TxJob) (s : State) : TablesSame s (Machine.charEnd b j s) := by
  unfold Machine.charEnd
  simp only
  split
  · exact endSend b _ _ s
  · split
    · split <;> exact modCon b _ s
    · exact endSend b _ _ s

theorem sendAbort (b : Bay) (i : Slot) (st : Status) (s : State) : TablesSame s (Machine.sendAbort b i st s) := by
  unfold Machine.sendAbort
  split
  · refine ite _ (fun _ => ?_)
    split
    · exact modCon b _ s
    · exact endSend b _ _ s
  · exact refl s

theorem sendPowerLoss (b : Bay) (i : Slot) (s : State) : TablesSame s (Machine.sendPowerLoss b i s) := by
  unfold Machine.sendPowerLoss
  split
  · refine ite _ (fun _ => ?_)
    split
    · exact endSend b _ _ s
    · exact endSend b _ _ s
    · exact refl s
  · exact refl s

/-! ### Driven lines -/

theorem endLinesIfDone (b : Bay) (s : State) : TablesSame s (Machine.endLinesIfDone b s) := by
  unfold Machine.endLinesIfDone
  split
  · exact refl s
  · exact ite _ (fun _ => (modDrv b _ s).trans (report _ _ _ _ _))

theorem detachLines (b : Bay) (s : State) : TablesSame s (Machine.detachLines b s) := by
  unfold Machine.detachLines
  split
  · exact refl s
  · exact (modDrv b _ s).trans (report _ _ _ _ _)

theorem linesBegin (b : Bay) (i : Slot) (s : State) : TablesSame s (Machine.linesBegin b i s) := by
  have issued (o : Owner) (xs : List LineEntry) (x : State) : TablesSame x (Machine.forEach xs (issueLine b o) x) := by
    refine forEach xs (fun e y => ?_) x
    unfold issueLine
    split
    · exact ofDrives (.arrive b _ _ _ y)
    · exact refl y
  unfold Machine.linesBegin
  simp only
  split
  · exact report _ _ _ _ s
  · split
    · exact report _ _ _ _ s
    · unfold issueLines
      simp only
      split
      · exact ((modDrv b _ s).trans (issued _ _ _)).trans (detachLines b _)
      · exact ((modDrv b _ s).trans (issued _ _ _)).trans (endLinesIfDone b _)

theorem linesAbort (b : Bay) (i : Slot) (st : Status) (s : State) : TablesSame s (Machine.linesAbort b i st s) := by
  by_cases h : ∃ j, s.drv[b.val].job = some j ∧ j.slot = i
  · obtain ⟨j, hj, hi⟩ := h
    rw [linesAbort_owned hj hi]
    exact ((ofDrives (.linesCut b i _ s)).trans (modDrv b _ _)).trans (report _ _ _ _ _)
  · rw [linesAbort_other (fun j hj hi => h ⟨j, hj, hi⟩)]
    exact refl s

theorem standDown (b : Bay) (s : State) : TablesSame s (Machine.standDown b s) := by
  refine forEach _ (fun d x => ?_) s
  unfold standDownLine toRestIfActive
  split
  · exact modDrv b _ x
  · exact (modDrv b _ x).trans (ofDrives (.toRest b d _ _))

theorem delayEnd (b : Bay) (d : OutLine) (s : State) : TablesSame s (Machine.delayEnd b d s) := by
  unfold Machine.delayEnd
  split
  · exact ite _ (fun _ => (ofDrives (.goActive b d _ _ s)).trans (endLinesIfDone b _))
  · exact refl s

theorem widthEnd (b : Bay) (d : OutLine) (s : State) : TablesSame s (Machine.widthEnd b d s) := by
  unfold Machine.widthEnd
  split
  · exact ite _ (fun _ => (((modDrv b _ s).trans (ofDrives (.toRest b d _ _))).trans (modDrv b _ _)).trans
      ((ofDrives (.startBuffered b d _)).trans (endLinesIfDone b _)))
  · exact refl s

/-! ### Scan engines (chapter 8) -/

theorem endJob (e : EngineId) (st : Status) (d : BitVec 16) (s : State) : TablesSame s (Machine.endJob e st d s) := by
  unfold Machine.endJob
  simp only
  split
  · exact refl s
  · exact ((modEng e _ s).trans (modPort _ _ _)).trans (report _ _ _ _ _)

theorem beginStep (e : EngineId) (i : Nat) (s : State) : TablesSame s (Machine.beginStep e i s) := by
  unfold Machine.beginStep
  split
  · exact endJob e _ _ s
  · exact modEng e _ s

theorem countStep (e : EngineId) (s : State) : TablesSame s (Machine.countStep e s) := modEng e _ s

theorem trackIdle (e : EngineId) (s : State) : TablesSame s (Machine.trackIdle e s) := modEng e _ s

theorem stepDone (e : EngineId) (s : State) : TablesSame s (Machine.stepDone e s) := by
  unfold Machine.stepDone
  simp only
  split
  · exact (countStep e s).trans (endJob e _ _ _)
  · exact (countStep e s).trans (beginStep e _ _)

theorem entryDone (e : EngineId) (s : State) : TablesSame s (Machine.entryDone e s) := by
  unfold Machine.entryDone
  simp only
  split
  · exact (trackIdle e s).trans (endJob e _ _ _)
  · exact (trackIdle e s).trans (beginStep e _ _)

theorem enterEntry (e : EngineId) (b : Bay) (s : State) : TablesSame s (Machine.enterEntry e b s) := by
  unfold Machine.enterEntry
  simp only
  split
  · exact entryDone e s
  · exact modEng e _ s

theorem loadingEnd (e : EngineId) (b : Bay) (i : Slot) (s : State) : TablesSame s (Machine.loadingEnd e b i s) := by
  unfold Machine.loadingEnd
  simp only
  split
  · exact (modEng e _ s).trans (endJob e _ _ _)
  · exact (modEng e _ s).trans (enterEntry e b _)

theorem shiftDone (e : EngineId) (x : ScanEntry) (tdo : Nat) (s : State) :
    TablesSame s (Machine.shiftDone e x tdo s) := by
  unfold Machine.shiftDone
  simp only
  split
  · exact ((modEng e _ s).trans (trackIdle e _)).trans (modEng e _ _)
  · exact ((modEng e _ s).trans (trackIdle e _)).trans (stepDone e _)

theorem recordCheck (e : EngineId) (x : ScanEntry) (s : State) : TablesSame s (Machine.recordCheck e x s) := by
  unfold Machine.recordCheck
  split
  · exact modEng e _ s
  · exact refl s

theorem checkStep (e : EngineId) (x : ScanEntry) (s : State) : TablesSame s (Machine.checkStep e x s) := by
  unfold Machine.checkStep
  split
  · exact ((recordCheck e x s).trans (countStep e _)).trans (endJob e _ _ _)
  · exact (recordCheck e x s).trans (stepDone e _)

theorem meetCheck (e : EngineId) (s : State) : TablesSame s (Machine.meetCheck e s) := by
  have drawn : TablesSame s { s with checkDraws := s.checkDraws + 1 } := ofEq rfl rfl rfl rfl
  unfold Machine.meetCheck
  simp only
  split
  · split
    · exact (drawn.trans (recordCheck e _ _)).trans (countStep e _)
    · exact drawn
  · exact drawn

theorem abortClocks (e : EngineId) (start : Tick) (s : State) : TablesSame s (Machine.abortClocks e start s) := by
  unfold Machine.abortClocks
  simp only
  refine ite _ (fun _ => ?_)
  split
  · exact (countStep e s).trans (endJob e _ _ _)
  · exact modEng e _ s

/-- R168: an abort makes a RUNNING engine ABORTING, which is not IDLE either. -/
theorem abortTaken {e : EngineId} (st : Status) {s : State} (h : s.eng[e.val].state = .running) :
    TablesSame s (Machine.abortTaken e st s) := modEng e _ s ⟨rfl, by simp [h]⟩

theorem scanAbort (e : EngineId) (i : Slot) (st : Status) (s : State) : TablesSame s (Machine.scanAbort e i st s) := by
  refine ite _ (fun h => ?_)
  simp only [Bool.and_eq_true, decide_eq_true_eq] at h
  have taken := abortTaken st h.1.1
  split
  · exact refl s
  · exact refl s
  · exact taken.trans (endJob e _ _ _)
  · exact taken.trans (endJob e _ _ _)
  · exact (taken.trans (meetCheck e _)).trans (endJob e _ _ _)
  · exact (taken.trans (countStep e _)).trans (endJob e _ _ _)
  · split
    · exact (taken.trans (countStep e _)).trans (endJob e _ _ _)
    · exact taken.trans (endJob e _ _ _)
  · exact taken
  · exact taken
  · exact taken.trans (abortClocks e _ _)

theorem untrack (e : EngineId) (s : State) : TablesSame s (Machine.untrack e s) := modEng e _ s

theorem cutNow (e : EngineId) (s : State) : TablesSame s (Machine.cutNow e s) :=
  (untrack e s).trans (endJob e _ _ _)

theorem cutClocks (e : EngineId) (start : Tick) (s : State) : TablesSame s (Machine.cutClocks e start s) := by
  unfold Machine.cutClocks
  simp only
  split
  · exact (modEng e _ s).trans (modEng e _ _)
  · exact (modEng e _ s).trans (cutNow e _)

theorem finishClocks (e : EngineId) (s : State) : TablesSame s (Machine.finishClocks e s) := by
  unfold Machine.finishClocks
  split
  · exact (countStep e s).trans (cutNow e _)
  · exact untrack e s

theorem scanPowerLoss (e : EngineId) (i : Slot) (s : State) : TablesSame s (Machine.scanPowerLoss e i s) := by
  have lost : TablesSame s (s.modEng e (fun g => { g with powerLost := true })) := modEng e _ s
  refine ite _ (fun _ => ?_)
  split
  · exact refl s
  · exact refl s
  · exact lost.trans (cutNow e _)
  · exact lost.trans (cutNow e _)
  · exact (lost.trans (meetCheck e _)).trans (cutNow e _)
  · exact (lost.trans (countStep e _)).trans (cutNow e _)
  · split
    · exact (lost.trans (countStep e _)).trans (cutNow e _)
    · exact lost.trans (cutNow e _)
  · exact lost.trans (untrack e _)
  · split
    · exact lost.trans (cutNow e _)
    · exact lost.trans (cutClocks e _ _)
  · split
    · exact lost.trans (finishClocks e _)
    · exact lost.trans (cutClocks e _ _)

theorem tapEdge (b : Bay) (rise : Bool) (s : State) : TablesSame s (Machine.tapEdge b rise s) := by
  unfold Machine.tapEdge
  split
  · exact (modEng _ _ s).trans (modPort _ _ _)
  · exact modPort _ _ s

/-- R119, R160: a write that meets reads in progress leaves the engines at their jobs. -/
theorem overwrite (a : Nat) (bytes : List Byte) (s : State) : TablesSame s (s.overwrite a bytes) := by
  refine TablesSame.trans (t := s.keepEarly a bytes.length) ⟨?_, fun i => ?_, fun e => ?_, ?_⟩ (store a bytes _)
  · rw [State.keepEarly_eq]
  · rw [State.keepEarly_eq]
    exact ⟨rfl, rfl⟩
  · rw [State.keepEarly_eng]
    exact ⟨rfl, Iff.rfl⟩
  · rw [State.keepEarly_eq]

/-! ### Owners and reports of a power loss (R54, R142) -/

theorem askOwner (i : Slot) (st : Status) (s : State) : TablesSame s (Machine.askOwner i st s) := by
  unfold Machine.askOwner
  simp only
  split
  · split
    · exact scanAbort _ i st s
    · exact refl s
  · exact sendAbort _ i st s
  · exact linesAbort _ i st s
  · exact refl s

theorem abortJob (i : Slot) (st : Status) (s : State) : TablesSame s (Machine.abortJob i st s) :=
  (askOwner i st s).trans (modSlot i _ _)

theorem powerLossReport (b : Bay) (s : State) : TablesSame s (Machine.powerLossReport b s) := by
  unfold Machine.powerLossReport
  split
  · exact refl s
  · split
    · split
      · exact scanPowerLoss _ _ s
      · exact refl s
    · exact sendPowerLoss b _ s
    · exact refl s

end TablesSame

end Sys2Proof.Machine
end

section
/-! PROOF. The queues and the in-service map over slots that wait, are released and end, and over condition events
(R126, R131 to R133, R140, R141). -/

namespace Sys2Proof.Machine

/-! ### Lanes and slots -/

theorem State.modLane_lane (b c : Bay) (l k : Lane) (f : LaneQ → LaneQ) (s : State) :
    (s.modLane b l f).lane c k = if c = b ∧ k = l then f (s.lane b l) else s.lane c k := by
  simp only [State.lane, State.modLane_lanes, upd_get]
  by_cases hc : c = b
  · subst hc
    by_cases hk : k = l
    · subst hk
      simp
    · have hne : laneIx l ≠ laneIx k := fun h => hk (laneIx_inj h).symm
      simp [upd_get, hk, hne]
  · simp [hc, Ne.symm hc]

/-- R133: the state of a slot that is on no queue and not in the in-service map. -/
def SlotState.Unlisted (st : SlotState) : Prop := st ≠ .requested ∧ st ≠ .inService

theorem State.lane_congr {s t : State} (h : t.lanes = s.lanes) (b : Bay) (l : Lane) : t.lane b l = s.lane b l := by
  simp only [State.lane, h]

/-- R133: a slot that leaves its queue leaves every lane's in-service entry. -/
theorem leaveOwnQueue_service (i : Slot) (s : State) (b : Bay) (l : Lane) :
    ((leaveOwnQueue i s).lane b l).service = (s.lane b l).service := (JobsKept.leaveOwnQueue i s).service b l

theorem leaveOwnQueue_disp (i : Slot) (s : State) : (leaveOwnQueue i s).disp = s.disp := by
  unfold leaveOwnQueue
  split <;> rfl

theorem closeCard_disp (i : Slot) (st : Status) (d : BitVec 16) (r : BitVec 64) (finish : Tick) (s : State) :
    (closeCard i st d r finish s).disp = s.disp := by
  unfold closeCard
  simp only
  split <;> simp only [State.modSlot_disp, writeEnd, writeCardState, writeCardTime, State.store_disp]

theorem State.modSlot_ne {i k : Slot} (f : SlotRec → SlotRec) (s : State) (h : k ≠ i) :
    (s.modSlot i f).slots[k.val] = s.slots[k.val] := upd_ne s.slots f h.symm

namespace State.QueuesOk

variable {s t : State}

theorem congr (h : s.QueuesOk) (lanes : t.lanes = s.lanes) (slot : ∀ i : Slot,
    t.slots[i.val].state = s.slots[i.val].state ∧ t.slots[i.val].card = s.slots[i.val].card) : t.QueuesOk where
  once b l := by
    rw [State.lane_congr lanes]
    exact h.once b l
  queued b l i := by
    rw [State.lane_congr lanes, (slot i).1, (slot i).2]
    exact h.queued b l i
  serving b l i := by
    rw [State.lane_congr lanes, (slot i).1, (slot i).2]
    exact h.serving b l i
  laned i := by
    rw [(slot i).1, (slot i).2]
    exact h.laned i

theorem not_queued (h : s.QueuesOk) {i : Slot} (hi : s.slots[i.val].state ≠ .requested) (b : Bay) (l : Lane) :
    i ∉ (s.lane b l).queue := fun hm => hi ((h.queued b l i).1 hm).1

theorem not_serving (h : s.QueuesOk) {i : Slot} (hi : s.slots[i.val].state ≠ .inService) (b : Bay) (l : Lane) :
    (s.lane b l).service ≠ some i := fun hm => hi ((h.serving b l i).1 hm).1

/-- R133: a slot that leaves its own queue is on none. -/
theorem leaveOwnQueue_queue (h : s.QueuesOk) (i : Slot) (b : Bay) (l : Lane) :
    ((leaveOwnQueue i s).lane b l).queue = (s.lane b l).queue.filter (fun x => x ≠ i) := by
  have other (hl : ¬ (s.slots[i.val].card.bayIx = b ∧ s.slots[i.val].card.lane = some l)) :
      (s.lane b l).queue.filter (fun x => x ≠ i) = (s.lane b l).queue := by
    refine List.filter_eq_self.2 (fun x hx => decide_eq_true ?_)
    rintro rfl
    exact hl ((h.queued b l x).1 hx).2
  unfold leaveOwnQueue
  split
  · next hn =>
    rw [other (by simp [hn])]
  · next k hk =>
    rw [leaveQueue, State.modLane_lane]
    split
    · next hb =>
      obtain ⟨rfl, rfl⟩ := hb
      rfl
    · next hb =>
      rw [other (fun ⟨hb', hk'⟩ => hb ⟨hb'.symm, (Option.some.inj (hk.symm.trans hk')).symm⟩)]

/-- R140, R141: a slot that is DONE has left its queue and the in-service map. -/
theorem ended (h : s.QueuesOk) {i : Slot} (done : t.slots[i.val].state = .done)
    (other : ∀ k : Slot, k ≠ i → t.slots[k.val] = s.slots[k.val])
    (queue : ∀ b l, (t.lane b l).queue = (s.lane b l).queue.filter (fun x => x ≠ i))
    (service : ∀ b l k, (t.lane b l).service = some k ↔ (s.lane b l).service = some k ∧ k ≠ i) : t.QueuesOk where
  once b l := by
    rw [queue]
    exact (h.once b l).filter _
  queued b l k := by
    rw [queue, List.mem_filter, decide_eq_true_eq]
    by_cases hk : k = i
    · subst hk
      simp [done]
    · rw [other k hk, h.queued b l k]
      exact and_iff_left hk
  serving b l k := by
    rw [service]
    by_cases hk : k = i
    · subst hk
      simp [done]
    · rw [other k hk, h.serving b l k]
      exact and_iff_left hk
  laned k := by
    by_cases hk : k = i
    · subst hk
      simp [done]
    · rw [other k hk]
      exact h.laned k

/-- R141: a slot that has not been dispatched ends. -/
theorem endedWaiting (h : s.QueuesOk) {i : Slot} (hi : s.slots[i.val].state ≠ .inService) (st : Status)
    (d : BitVec 16) (r : BitVec 64) (finish : Tick) : (closeCard i st d r finish (leaveOwnQueue i s)).QueuesOk := by
  have hslots := closeCard_slots (s := leaveOwnQueue i s) st d r finish (by rwa [leaveOwnQueue_slots])
  have hlane := State.lane_congr (closeCard_lanes i st d r finish (leaveOwnQueue i s)).1
  refine h.ended (i := i) (by rw [hslots, upd_self]) (fun k hk => ?_) (fun b l => ?_) (fun b l k => ?_)
  · rw [hslots, upd_ne _ _ hk.symm, leaveOwnQueue_slots]
  · rw [hlane, h.leaveOwnQueue_queue]
  · rw [hlane, leaveOwnQueue_service]
    refine (and_iff_left_of_imp ?_).symm
    rintro hk rfl
    exact h.not_serving hi b l hk

/-- A slot on no queue and not in the in-service map changed, so that it joins none. -/
theorem modUnlisted (h : s.QueuesOk) {i : Slot} {f : SlotRec → SlotRec} (before : s.slots[i.val].state.Unlisted)
    (after : (f s.slots[i.val]).state.Unlisted)
    (laned : (f s.slots[i.val]).state = .parked → (f s.slots[i.val]).card.lane.isSome = true) :
    (s.modSlot i f).QueuesOk where
  once b l := h.once b l
  queued b l k := by
    by_cases hk : k = i
    · subst hk
      simp only [State.modSlot_slots, upd_self]
      exact iff_of_false (h.not_queued before.1 b l) (fun hs => after.1 hs.1)
    · rw [State.modSlot_ne f s hk]
      exact h.queued b l k
  serving b l k := by
    by_cases hk : k = i
    · subst hk
      simp only [State.modSlot_slots, upd_self]
      exact iff_of_false (h.not_serving before.2 b l) (fun hs => after.2 hs.1)
    · rw [State.modSlot_ne f s hk]
      exact h.serving b l k
  laned k := by
    by_cases hk : k = i
    · subst hk
      simp only [State.modSlot_slots, upd_self]
      exact fun hs => laned (hs.resolve_right (fun hs => hs.elim after.1 after.2))
    · rw [State.modSlot_ne f s hk]
      exact h.laned k

/-- R131 to R133: a slot becomes REQUESTED at the tail of the queue of its bay and lane. -/
theorem requested (h : s.QueuesOk) {i : Slot} (base : Tick) (before : s.slots[i.val].state.Unlisted)
    (laned : s.slots[i.val].card.lane.isSome = true) : (requestSlot i base s).QueuesOk := by
  obtain ⟨l, hl⟩ := Option.isSome_iff_exists.1 laned
  have hslots : (requestSlot i base s).slots = upd s.slots i (fun r =>
      { r with state := .requested, deadline := s.slots[i.val].card.deadline base }) := by
    simp only [requestSlot, hl, State.modLane_slots, State.modSlot_slots]
  have hlane (b : Bay) (m : Lane) : (requestSlot i base s).lane b m
      = if b = s.slots[i.val].card.bayIx ∧ m = l then
          { s.lane s.slots[i.val].card.bayIx l with queue := (s.lane s.slots[i.val].card.bayIx l).queue ++ [i] }
        else s.lane b m := by
    simp only [requestSlot, hl, State.modLane_lane]
    rfl
  refine ⟨fun b m => ?_, fun b m k => ?_, fun b m k => ?_, fun k => ?_⟩
  · rw [hlane]
    split
    · refine List.nodup_append.2 ⟨h.once _ _, List.nodup_singleton i, fun x hx y hy => ?_⟩
      obtain rfl := List.mem_singleton.1 hy
      exact ne_of_mem_of_not_mem hx (h.not_queued before.1 _ _)
    · exact h.once b m
  · by_cases hk : k = i
    · subst hk
      rw [hlane, hslots, upd_self]
      split
      · next hb =>
        obtain ⟨rfl, rfl⟩ := hb
        simp [hl]
      · next hb =>
        refine iff_of_false (h.not_queued before.1 b m) (fun ⟨_, hb', hm⟩ => hb ⟨hb'.symm, ?_⟩)
        exact (Option.some.inj (hl.symm.trans hm)).symm
    · rw [hlane, hslots, upd_ne _ _ (Ne.symm hk)]
      split
      · next hb =>
        obtain ⟨rfl, rfl⟩ := hb
        rw [List.mem_append, List.mem_singleton, or_iff_left hk]
        exact h.queued _ _ k
      · exact h.queued b m k
  · have hservice : ((requestSlot i base s).lane b m).service = (s.lane b m).service :=
      (JobsKept.requestSlot i base s).service b m
    rw [hservice, hslots]
    by_cases hk : k = i
    · subst hk
      rw [upd_self]
      exact iff_of_false (h.not_serving before.2 b m) (fun hs => by cases hs.1)
    · rw [upd_ne _ _ (Ne.symm hk)]
      exact h.serving b m k
  · by_cases hk : k = i
    · subst hk
      rw [hslots, upd_self]
      exact fun _ => laned
    · rw [hslots, upd_ne _ _ (Ne.symm hk)]
      exact h.laned k

end State.QueuesOk

/-! ### What waits, is released and ends -/

/-- The in-service map, the cards, what each engine serves and the rotation order stay, and the queues and the slot
states stay true to each other. -/
structure QueuesKept (s t : State) : Prop where
  queues : s.QueuesOk → t.QueuesOk
  service : ∀ b l, (t.lane b l).service = (s.lane b l).service
  card : ∀ i : Slot, t.slots[i.val].card = s.slots[i.val].card
  eng : ∀ e : EngineId, t.eng[e.val].attached = s.eng[e.val].attached
    ∧ (t.eng[e.val].state = .idle ↔ s.eng[e.val].state = .idle)
  rotation : t.disp.rotation = s.disp.rotation

theorem TablesSame.kept {s t : State} (h : TablesSame s t) : QueuesKept s t :=
  ⟨fun q => q.congr h.lanes h.slot, fun b l => by rw [State.lane_congr h.lanes], fun i => (h.slot i).2, h.eng,
    h.rotation⟩

namespace QueuesKept

theorem refl (s : State) : QueuesKept s s := (TablesSame.refl s).kept

theorem trans {s t u : State} (h : QueuesKept s t) (k : QueuesKept t u) : QueuesKept s u where
  queues q := k.queues (h.queues q)
  service b l := (k.service b l).trans (h.service b l)
  card i := (k.card i).trans (h.card i)
  eng e := ⟨(k.eng e).1.trans (h.eng e).1, (k.eng e).2.trans (h.eng e).2⟩
  rotation := k.rotation.trans h.rotation

theorem forEach {α : Type} (xs : List α) {f : α → State → State} (h : ∀ x s, QueuesKept s (f x s)) (s : State) :
    QueuesKept s (Machine.forEach xs f s) := by
  induction xs generalizing s with
  | nil => exact refl s
  | cons x rest ih => exact (h x s).trans (ih (f x s))

theorem ite {s u : State} (p : Prop) [Decidable p] (h : p → QueuesKept s u) : QueuesKept s (if p then u else s) := by
  split
  · next hp => exact h hp
  · exact refl s

/-- From what keeps the jobs in service and their cards. -/
theorem ofJobs {s t : State} (queues : s.QueuesOk → t.QueuesOk) (jobs : JobsKept s t) (eng : t.eng = s.eng)
    (rotation : t.disp.rotation = s.disp.rotation) : QueuesKept s t :=
  ⟨queues, jobs.service, jobs.card, fun _ => by rw [eng]; exact ⟨rfl, Iff.rfl⟩, rotation⟩

/-- R126: a slot that was not in service is not taken into service. -/
theorem unserved {s t : State} (h : QueuesKept s t) (q : s.QueuesOk) {i : Slot}
    (hi : s.slots[i.val].state ≠ .inService) : t.slots[i.val].state ≠ .inService := by
  intro ht
  obtain ⟨l, hl⟩ := Option.isSome_iff_exists.1 ((h.queues q).laned i (.inr (.inr ht)))
  have hserving := ((h.queues q).serving t.slots[i.val].card.bayIx l i).2 ⟨ht, rfl, hl⟩
  exact q.not_serving hi _ l ((h.service _ l).symm.trans hserving)

/-- R141: a slot that has not been dispatched ends. -/
theorem endedWaiting {i : Slot} {s : State} (hi : s.slots[i.val].state ≠ .inService) (st : Status) (d : BitVec 16)
    (r : BitVec 64) (finish : Tick) : QueuesKept s (closeCard i st d r finish (leaveOwnQueue i s)) :=
  ofJobs (fun q => q.endedWaiting hi st d r finish) ((JobsKept.leaveOwnQueue i s).trans (.closeCard i st d r finish _))
    ((Effects.leaveOwnQueue i s).trans (.closeCard i st d r finish _)).eng
    (by rw [closeCard_disp, leaveOwnQueue_disp])

theorem endStopped {i : Slot} {s : State} (hi : s.slots[i.val].state ≠ .inService) :
    QueuesKept s (Machine.endStopped i s) :=
  (endedWaiting hi _ _ _ _).trans ((TablesSame.offer _ _ _ _).trans (.raiseBay _ _ _)).kept

/-- R131, R132: a slot becomes REQUESTED. -/
theorem requestSlot {i : Slot} {s : State} (base : Tick) (before : s.slots[i.val].state.Unlisted)
    (laned : s.QueuesOk → s.slots[i.val].card.lane.isSome = true) : QueuesKept s (Machine.requestSlot i base s) := by
  refine ofJobs (fun q => q.requested base before (laned q)) (.requestSlot i base s)
    (Effects.requestSlot i base s).eng ?_
  unfold Machine.requestSlot
  simp only
  split <;> rfl

/-- R132: a release finds a PARKED slot, which is in no queue yet and has a lane. -/
theorem releaseSlot (i : Slot) (s : State) : QueuesKept s (Machine.releaseSlot i s) := by
  unfold Machine.releaseSlot
  refine ite _ (fun hp => ?_)
  have hi : s.slots[i.val].state = .parked := of_decide_eq_true hp
  split
  · exact endStopped (by simp [hi])
  · exact (requestSlot _ (by simp [SlotState.Unlisted, hi]) (fun q => q.laned i (.inl hi))).trans
      (TablesSame.store _ _ _).kept

/-! ### Condition events (chapter 6) -/

theorem fire (b : Bay) (p : Program) (stage entry : Nat) (s : State) :
    QueuesKept s (Machine.fire b p stage entry s) := by
  have hold (x : State) : TablesSame x (fireHold p b x) := by
    unfold fireHold
    split <;> exact .ofEq rfl rfl rfl rfl
  have release (x : State) : QueuesKept x (fireRelease p x) := by
    unfold fireRelease
    split
    · split
      · exact releaseSlot _ x
      · exact refl x
    · exact refl x
  have stop (k : Bool) (x : State) : TablesSame x (fireStopTrace p b k x) :=
    .ite _ (fun _ => .ofRecorded (.stopTrace b _ k x))
  have pulse (x : State) : TablesSame x (firePulse p b x) := by
    unfold firePulse
    split
    · split
      · exact (TablesSame.ofDrives (.arrive b _ _ _ x)).trans (.endLinesIfDone b _)
      · exact .refl x
    · exact .refl x
  have notice (x : State) : TablesSame x (fireNotice p b x) := .ite _ (fun _ => .raiseBay b _ x)
  unfold Machine.fire
  exact (((TablesSame.modSeq b _ s).trans (hold _)).kept.trans (release _)).trans
    ((((TablesSame.offer b _ _ _).trans (stop _ _)).trans (pulse _)).trans (notice _)).kept

theorem takeOutcome (b : Bay) (p : Program) (stage i : Nat) (e : Entry) (s : State) :
    QueuesKept s (Machine.takeOutcome b p stage i e s) := by
  unfold Machine.takeOutcome
  split
  · exact fire b _ _ _ s
  · exact (TablesSame.modSeq b _ s).kept
  · split
    · exact (TablesSame.modSeq b _ s).kept
    · exact fire b _ _ _ s

theorem conditionEvent (b : Bay) (ev : Event) (s : State) : QueuesKept s (Machine.conditionEvent b ev s) := by
  unfold Machine.conditionEvent
  simp only
  split
  · split
    · split
      · exact (TablesSame.modSeq b _ s).kept.trans (takeOutcome b _ _ _ _ _)
      · exact (TablesSame.modSeq b _ s).kept
    · exact refl s
  · exact refl s

/-! ### Ends and bay inputs -/

theorem endSteps (i : Slot) (s : State) : QueuesKept s (Machine.endSteps i s) := by
  have failed (x : State) : QueuesKept x (jobFail i x) := ite _ (fun _ => conditionEvent _ _ x)
  exact ((TablesSame.offer _ _ _ s).kept.trans (failed _)).trans (TablesSame.raiseBay _ _ _).kept

theorem endUndispatched {i : Slot} {s : State} (hi : s.slots[i.val].state ≠ .inService) (st : Status) (d : BitVec 16)
    (r : BitVec 64) : QueuesKept s (Machine.endUndispatched i st d r s) :=
  (endedWaiting hi st d r _).trans (endSteps i _)

theorem raiseSettle (b : Bay) (base : Tick) (m : Nat) (s : State) : QueuesKept s (Machine.raiseSettle b base m s) :=
  ((TablesSame.modMon b _ s).trans (.offer b _ _ _)).kept.trans (conditionEvent b _ _)

theorem lineEffect (b : Bay) (l : InLine) (rise : Bool) (raw : Tick) (s : State) :
    QueuesKept s (Machine.lineEffect b l rise raw s) := by
  unfold Machine.lineEffect
  split
  · exact ((TablesSame.modMon b _ s).trans (.tapEdge b true _)).kept.trans
      (forEach _ (fun m x => raiseSettle b raw m x) _)
  · exact (((TablesSame.modMon b _ s).trans (.tapEdge b false _)).trans
      ((TablesSame.powerLossReport b _).trans (.raiseBay _ _ _))).kept
  · exact (TablesSame.offerStall b raw s).kept
  · exact (TablesSame.raiseBay _ _ s).kept
  · exact refl s

theorem qualify (b : Bay) (l : InLine) (raw : Tick) (level : Bool) (s : State) :
    QueuesKept s (Machine.qualify b l raw level s) :=
  (((TablesSame.modInLine b l _ s).trans (.offer b _ _ _)).kept.trans (conditionEvent b _ _)).trans
    (lineEffect b l level raw _)

theorem rawChange (b : Bay) (l : InLine) (s : State) : QueuesKept s (Machine.rawChange b l s) := by
  unfold Machine.rawChange
  simp only
  split
  · exact ((TablesSame.modInLine b l _ s).trans (.offer b _ _ _)).kept.trans (conditionEvent b _ _)
  · split
    · exact qualify b l _ _ s
    · exact (TablesSame.modInLine b l _ s).kept

theorem codeArrival (b : Bay) (s : State) : QueuesKept s (Machine.codeArrival b s) :=
  (((TablesSame.modCode b _ s).trans (.offerStall b _ _)).trans (.offer b _ _ _)).kept.trans (conditionEvent b _ _)

theorem endConversion (b : Bay) (r : RailId) (code : BitVec 12) (s : State) :
    QueuesKept s (Machine.endConversion b r code s) := by
  unfold Machine.endConversion
  simp only
  split
  · exact (((TablesSame.modRail b r _ s).trans (.offer b _ _ _)).kept.trans (conditionEvent b _ _)).trans
      (TablesSame.rewrite _ _).kept
  · exact ((TablesSame.modRail b r _ s).trans (.rewrite _ _)).kept

theorem goodByte (b : Bay) (s : State) : QueuesKept s (Machine.goodByte b s) :=
  (TablesSame.ofRecorded (.byteTaken b s)).kept.trans (forEach _ (fun p x => conditionEvent b (.consoleMatch p) x) _)

end QueuesKept

end Sys2Proof.Machine
end

section
/-! PROOF. The queues, the engines and the rotation order over a POST, a dispatch and an end (R128 to R140, R147). -/

namespace Sys2Proof.Machine

/-! ### The invariant -/

/-- R126, R133, R138, R154, R155: the queues, the engines and the rotation order are true to the slots. -/
structure State.TablesOk (s : State) : Prop where
  queues : s.QueuesOk
  engines : s.EnginesOk
  rotation : s.RotationOk

/-- R154, R155: engines with the attachments they had serve the same jobs. -/
theorem QueuesKept.engines {s t : State} (h : QueuesKept s t) (g : s.EnginesOk) : t.EnginesOk where
  idle e := by
    rw [(h.eng e).1, (h.eng e).2]
    exact g.idle e
  serves e b i ha := by
    rw [(h.eng e).1] at ha
    rw [h.service, h.card]
    exact g.serves e b i ha
  apart e f b i j he hf := by
    rw [(h.eng e).1] at he
    rw [(h.eng f).1] at hf
    exact g.apart e f b i j he hf

theorem QueuesKept.tables {s t : State} (h : QueuesKept s t) (k : s.TablesOk) : t.TablesOk where
  queues := h.queues k.queues
  engines := h.engines k.engines
  rotation := by
    rw [State.RotationOk, h.rotation]
    exact k.rotation

theorem TablesSame.tables {s t : State} (h : TablesSame s t) (k : s.TablesOk) : t.TablesOk := h.kept.tables k

/-- R154: the job of an engine is IN_SERVICE. -/
theorem State.TablesOk.attached {s : State} (h : s.TablesOk) {e : EngineId} {b : Bay} {i : Slot}
    (ha : s.eng[e.val].attached = some (b, i)) : s.slots[i.val].state = .inService :=
  ((h.queues.serving b .access i).1 (h.engines.serves e b i ha).1).1

/-- A slot on no queue and not in the in-service map takes another card or state, so that it joins none. -/
theorem State.TablesOk.modUnlisted {s : State} (h : s.TablesOk) {i : Slot} {f : SlotRec → SlotRec}
    (before : s.slots[i.val].state.Unlisted) (after : (f s.slots[i.val]).state.Unlisted)
    (laned : (f s.slots[i.val]).state = .parked → (f s.slots[i.val]).card.lane.isSome = true) :
    (s.modSlot i f).TablesOk := by
  refine ⟨h.queues.modUnlisted before after laned, ⟨h.engines.idle, fun e b k ha => ?_, h.engines.apart⟩, h.rotation⟩
  have hk : k ≠ i := by
    rintro rfl
    exact before.2 (h.attached ha)
  rw [State.modSlot_ne f s hk]
  exact h.engines.serves e b k ha

/-! ### POST (R128 to R131, R147, R148) -/

theorem Recorded.writeAcceptance (i : Slot) (st : SlotState) (t : Tick) (s : State) :
    Recorded s (Machine.writeAcceptance i st t s) :=
  (((((((store _ _ s).trans (store _ _ _)).trans (store _ _ _)).trans (store _ _ _)).trans (store _ _ _)).trans
    (store _ _ _))).trans (store _ _ _)

theorem QueuesKept.cancelTarget (i : Slot) (s : State) : QueuesKept s (Machine.cancelTarget i s) := by
  unfold Machine.cancelTarget
  simp only
  split
  · next hi => exact endUndispatched (by simp [hi]) _ _ _
  · next hi => exact endUndispatched (by simp [hi]) _ _ _
  · exact ite _ (fun _ => (TablesSame.abortJob i _ s).kept)
  · exact refl s
  · exact refl s

/-- R129: a card that passes intake names an enabled bay and is of a known kind. -/
theorem intake_accepted {enabled : BitVec 8} {i : Slot} {c : Card} (h : intake enabled i c = .accepted) :
    c.jobKind.isSome = true ∧ enabled.getLsbD c.bay.toNat = true := by
  unfold intake at h
  split at h
  · cases h
  · split at h
    · cases h
    · next hk =>
      split at h
      · cases h
      · split at h
        · cases h
        · split at h
          · next he => exact ⟨Option.isSome_iff_ne_none.2 hk, he⟩
          · cases h

/-- 7.3: every job kind but CANCEL has a lane. -/
theorem Card.lane_isSome {c : Card} (hk : c.jobKind.isSome = true) (hc : c.jobKind ≠ some .cancel) :
    c.lane.isSome = true := by
  obtain ⟨k, hk⟩ := Option.isSome_iff_exists.1 hk
  cases k with
  | cancel => exact absurd hk hc
  | _ => simp [Card.lane, hk, laneOf]

theorem copyCard_self (i : Slot) (c : Card) (s : State) : (copyCard i c s).slots[i.val]
    = { SlotRec.reset with state := s.slots[i.val].state, card := c, accept := s.now } := by
  rw [copyCard, State.modSlot_slots, upd_self]

namespace State.TablesOk

variable {s : State}

/-- R147, R148: the CANCEL's own slot is not in service, and so it ends as one that was not dispatched. -/
theorem carryOutCancel (h : s.TablesOk) {own : Slot} (ho : s.slots[own.val].state ≠ .inService) (c : Card) :
    (Machine.carryOutCancel own c s).TablesOk := by
  have ended {t : State} (k : QueuesKept s t) (st : Status) (d : BitVec 16) (r : BitVec 64) :
      (endUndispatched own st d r t).TablesOk :=
    (QueuesKept.endUndispatched (k.unserved h.queues ho) st d r).tables (k.tables h)
  unfold Machine.carryOutCancel
  split
  · split
    · exact ended (.cancelTarget _ s) _ _ _
    · exact h
  · exact ended (.forEach _ (fun i x => .cancelTarget i x) s) _ _ _

/-- R131: an accepted card is PARKED, REQUESTED or a CANCEL carried out. -/
theorem acceptCard (h : s.TablesOk) {i : Slot} (hi : s.slots[i.val].state.Unlisted) (c : Card)
    (hc : s.slots[i.val].card = c) (hk : c.jobKind.isSome = true) (park : Bool) :
    (Machine.acceptCard i c park s).TablesOk := by
  have written (st : SlotState) (t : Tick) (x : State) : TablesSame x (writeAcceptance i st t x) :=
    .ofRecorded (.writeAcceptance i st t x)
  unfold Machine.acceptCard
  split
  · exact ((TablesSame.store _ _ s).tables h).carryOutCancel hi.2 c
  · next hn =>
    have hl : s.slots[i.val].card.lane.isSome = true := hc ▸ Card.lane_isSome hk hn
    split
    · exact (written _ _ _).tables (h.modUnlisted hi (by simp [SlotState.Unlisted]) (fun _ => hl))
    · exact (written _ _ _).tables ((QueuesKept.requestSlot s.now hi (fun _ => hl)).tables h)

/-- R128: the POST of a slot that is FREE or DONE. -/
theorem takePost (h : s.TablesOk) {i : Slot} (hp : s.takesPost i = true) (park : Bool) :
    (Machine.takePost i park s).TablesOk := by
  have hstate : s.slots[i.val].state = .free ∨ s.slots[i.val].state = .done := by
    simpa [State.takesPost] using (Bool.and_eq_true_iff.1 hp).2
  have unlisted : s.slots[i.val].state.Unlisted ∧ s.slots[i.val].state ≠ .parked := by
    obtain hs | hs := hstate <;> simp [SlotState.Unlisted, hs]
  obtain ⟨hu, hparked⟩ := unlisted
  have copied : (copyCard i (readCard s.mem i) s).TablesOk := h.modUnlisted hu hu (fun hs => absurd hs hparked)
  have hself := copyCard_self i (readCard s.mem i) s
  have hu' : (copyCard i (readCard s.mem i) s).slots[i.val].state.Unlisted := by rwa [hself]
  unfold Machine.takePost
  simp only
  split
  · obtain ⟨f, hf, hdone⟩ : ∃ f : SlotRec → SlotRec,
        (closeCard i .badCard (detailOf .bayRange 0) 0#64 s.now (copyCard i (readCard s.mem i) s)).slots
          = upd (copyCard i (readCard s.mem i) s).slots i f ∧ ∀ r, (f r).state = .done :=
      ⟨_, closeCard_slots _ _ _ _ hu'.2, fun _ => rfl⟩
    have marked : ((copyCard i (readCard s.mem i) s).modSlot i f).TablesOk :=
      copied.modUnlisted hu' (by simp [hdone, SlotState.Unlisted]) (by simp [hdone])
    refine (TablesSame.raiseFixture _ _).tables (TablesSame.tables ?_ marked)
    exact .ofEq (closeCard_lanes ..).1 hf (Effects.closeCard i _ _ _ _ _).eng
      (congrArg Dispatcher.rotation (closeCard_disp ..))
  · exact (QueuesKept.endUndispatched hu'.2 _ _ _).tables copied
  · next ha => exact copied.acceptCard hu' _ (by rw [hself]) (intake_accepted ha).1 park

end State.TablesOk

end Sys2Proof.Machine
end

section
/-! PROOF. The queues, the engines and the rotation order over a dispatch and over an end that the Dispatcher takes
(R135 to R140). -/

namespace Sys2Proof.Machine

/-! ### Dispatch (R135, R137, R139) -/

/-- R135, conditions 1 to 4. -/
theorem State.readyHead_some {s : State} {b : Bay} {l : Lane} {i : Slot} : s.readyHead b l = some i ↔
    (∃ rest, (s.lane b l).queue = i :: rest) ∧ s.ctl.device = .running ∧ (s.lane b l).service = none
      ∧ (l = .setup ∨ s.held b = false) ∧ s.slots[i.val].card.gate.toNat ≤ s.mon[b.val].milestone := by
  unfold State.readyHead
  split
  · next hq =>
    simp [hq]
  · next j rest hq =>
    simp only [hq, Option.ite_none_right_eq_some, Option.some.injEq, List.cons.injEq, Bool.and_eq_true,
      Bool.or_eq_true, decide_eq_true_eq, Option.isNone_iff_eq_none, Bool.not_eq_true']
    constructor
    · rintro ⟨⟨⟨⟨hd, hs⟩, hl⟩, hg⟩, rfl⟩
      exact ⟨⟨rest, rfl, rfl⟩, hd, hs, hl, hg⟩
    · rintro ⟨⟨_, rfl, -⟩, hd, hs, hl, hg⟩
      exact ⟨⟨⟨⟨hd, hs⟩, hl⟩, hg⟩, rfl⟩

/-- 7.3: a SCAN runs in the ACCESS lane. -/
theorem Card.lane_of_scan {c : Card} (h : c.jobKind = some .scan) : c.lane = some .access := by
  simp [Card.lane, h, laneOf]

theorem beginService_lane (b c : Bay) (l k : Lane) (i : Slot) (s : State) : (beginService b l i s).lane c k
    = if c = b ∧ k = l then { s.lane b l with queue := (s.lane b l).queue.tail, service := some i }
      else s.lane c k := by
  have h : (beginService b l i s).lanes
      = (s.modLane b l (fun q => { q with queue := q.queue.tail, service := some i })).lanes := rfl
  rw [State.lane_congr h, State.modLane_lane]

theorem beginService_self (b : Bay) (l : Lane) (i : Slot) (s : State) : (beginService b l i s).slots[i.val]
    = { s.slots[i.val] with
        state := .inService
        start := s.now
        deadline := if l = .setup then none else s.slots[i.val].deadline } := by
  simp only [beginService, writeStart, writeCardState, writeCardTime, State.store_slots, State.modSlot_slots, upd_self,
    State.modLane_slots]

theorem beginService_ne {i k : Slot} (b : Bay) (l : Lane) (s : State) (h : k ≠ i) :
    (beginService b l i s).slots[k.val] = s.slots[k.val] := by
  simp only [beginService, writeStart, writeCardState, writeCardTime, State.store_slots]
  exact State.modSlot_ne _ _ h

theorem beginService_eng (b : Bay) (l : Lane) (i : Slot) (s : State) : (beginService b l i s).eng = s.eng := by
  simp only [beginService, writeStart, writeCardState, writeCardTime, State.store_eng, State.modSlot_eng,
    State.modLane_eng]

/-- R139 step 1: the head of a lane that serves no job is its job in service. -/
theorem State.QueuesOk.beginService {s : State} (h : s.QueuesOk) {b : Bay} {l : Lane} {i : Slot} {rest : List Slot}
    (hq : (s.lane b l).queue = i :: rest) (hs : (s.lane b l).service = none) :
    (Machine.beginService b l i s).QueuesOk := by
  obtain ⟨hstate, hbay, hlane⟩ := (h.queued b l i).1 (hq ▸ List.mem_cons_self)
  have own (c : Bay) (m : Lane) : (s.slots[i.val].card.bayIx = c ∧ s.slots[i.val].card.lane = some m)
      ↔ c = b ∧ m = l := by
    rw [hbay, hlane]
    simp [eq_comm]
  refine ⟨fun c m => ?_, fun c m k => ?_, fun c m k => ?_, fun k => ?_⟩
  · rw [beginService_lane]
    split
    · exact (h.once b l).sublist (List.tail_sublist _)
    · exact h.once c m
  · rw [beginService_lane]
    by_cases hk : k = i
    · subst hk
      rw [beginService_self]
      refine iff_of_false ?_ (by simp)
      split
      · rw [hq]
        exact (List.nodup_cons.1 (hq ▸ h.once b l)).1
      · next hne =>
        exact fun hm => hne ((own c m).1 ((h.queued c m k).1 hm).2)
    · rw [beginService_ne b l s hk, ← h.queued c m k]
      split
      · next he =>
        obtain ⟨rfl, rfl⟩ := he
        simp [hq, hk]
      · rfl
  · rw [beginService_lane]
    by_cases hk : k = i
    · subst hk
      rw [beginService_self]
      simp only [true_and]
      rw [own]
      split
      · next he => simp [he]
      · next he => exact iff_of_false (h.not_serving (by simp [hstate]) c m) he
    · rw [beginService_ne b l s hk, ← h.serving c m k]
      split
      · next he =>
        obtain ⟨rfl, rfl⟩ := he
        simp [hs, Ne.symm hk]
      · rfl
  · by_cases hk : k = i
    · subst hk
      rw [beginService_self]
      simp [hlane]
    · rw [beginService_ne b l s hk]
      exact h.laned k

/-- R139 step 1: no engine serves a lane without a job in service, and so none serves another job after it. -/
theorem State.TablesOk.beginService {s : State} (h : s.TablesOk) {b : Bay} {l : Lane} {i : Slot}
    (hi : s.readyHead b l = some i) : (Machine.beginService b l i s).TablesOk := by
  obtain ⟨⟨rest, hq⟩, -, hs, -, -⟩ := State.readyHead_some.1 hi
  refine ⟨h.queues.beginService hq hs, ⟨h.engines.idle, fun e c k ha => ?_, h.engines.apart⟩, h.rotation⟩
  obtain ⟨hserve, hscan⟩ := h.engines.serves e c k ha
  have hne : ¬ (c = b ∧ Lane.access = l) := by
    rintro ⟨rfl, rfl⟩
    rw [hs] at hserve
    cases hserve
  have hk : k ≠ i := by
    rintro rfl
    have hwait := ((h.queues.queued b l k).1 (hq ▸ List.mem_cons_self)).1
    have hserved := h.attached ha
    rw [hwait] at hserved
    cases hserved
  rw [beginService_lane, if_neg hne, beginService_ne b l s hk]
  exact ⟨hserve, hscan⟩

/-- R137, R154: an IDLE engine is attached to the job in service of a bay that no engine serves. -/
theorem State.EnginesOk.attach {s : State} (h : s.EnginesOk) {e : EngineId} {b : Bay} {i : Slot} {g : Engine}
    (hs : (s.lane b .access).service = some i) (hk : s.slots[i.val].card.jobKind = some .scan)
    (free : ∀ (f : EngineId) (j : Slot), s.eng[f.val].attached ≠ some (b, j)) (ha : g.attached = some (b, i))
    (hg : g.state ≠ .idle) : (s.modEng e (fun _ => g)).EnginesOk := by
  have at_e : (s.modEng e (fun _ => g)).eng[e.val] = g := by rw [State.modEng_eng, upd_self]
  have at_ne {f : EngineId} (hf : f ≠ e) : (s.modEng e (fun _ => g)).eng[f.val] = s.eng[f.val] :=
    upd_ne s.eng _ (Ne.symm hf)
  refine ⟨fun f => ?_, fun f c k hf => ?_, fun f f' c k k' hf hf' => ?_⟩
  · by_cases he : f = e
    · subst he
      rw [at_e, ha]
      simp [hg]
    · rw [at_ne he]
      exact h.idle f
  · by_cases he : f = e
    · subst he
      rw [at_e, ha] at hf
      cases hf
      exact ⟨hs, hk⟩
    · rw [at_ne he] at hf
      exact h.serves f c k hf
  · have bay_of_e {k : Slot} (hf : g.attached = some (c, k)) : c = b := by
      rw [ha] at hf
      cases hf
      rfl
    by_cases he : f = e <;> by_cases he' : f' = e
    · rw [he, he']
    · subst he
      rw [at_e] at hf
      rw [at_ne he'] at hf'
      exact absurd (bay_of_e hf ▸ hf') (free f' k')
    · subst he'
      rw [at_e] at hf'
      rw [at_ne he] at hf
      exact absurd (bay_of_e hf' ▸ hf) (free f k)
    · rw [at_ne he] at hf
      rw [at_ne he'] at hf'
      exact h.apart f f' c k k' hf hf'

/-- R154, R160: a SCAN job in service begins at an engine, its bay served by none. -/
theorem State.TablesOk.scanBegin {s : State} (h : s.TablesOk) (e : EngineId) {b : Bay} {i : Slot}
    (hs : (s.lane b .access).service = some i) (hk : s.slots[i.val].card.jobKind = some .scan)
    (free : ∀ (f : EngineId) (j : Slot), s.eng[f.val].attached ≠ some (b, j)) :
    (Machine.scanBegin e b i s).TablesOk := by
  have tables (g : Engine) (ha : g.attached = some (b, i)) (hg : g.state ≠ .idle) :
      (s.modEng e (fun _ => g)).TablesOk :=
    ⟨h.queues.congr rfl (fun _ => ⟨rfl, rfl⟩), h.engines.attach hs hk free ha hg, h.rotation⟩
  unfold Machine.scanBegin
  simp only
  split
  · exact tables _ rfl (by simp)
  · exact (TablesSame.endJob e _ _ _).tables (tables _ rfl (by simp))

/-- R139: the dispatch of a ready head. -/
theorem State.TablesOk.dispatchSlot {s : State} (h : s.TablesOk) {b : Bay} {l : Lane} {i : Slot}
    (hi : s.readyHead b l = some i) (e : Option EngineId) : (Machine.dispatchSlot b l i e s).TablesOk := by
  obtain ⟨⟨rest, hq⟩, -, hs, -, -⟩ := State.readyHead_some.1 hi
  have hb : TablesSame (Machine.beginService b l i s) (offerStart b i (Machine.beginService b l i s)) := .offer _ _ _ _
  have ho : (offerStart b i (Machine.beginService b l i s)).TablesOk := hb.tables (h.beginService hi)
  have hcard : (offerStart b i (Machine.beginService b l i s)).slots[i.val].card = s.slots[i.val].card :=
    (hb.slot i).2.trans (by rw [beginService_self])
  have hlane : (offerStart b i (Machine.beginService b l i s)).lanes = (Machine.beginService b l i s).lanes := hb.lanes
  have heng (f : EngineId) :
      (offerStart b i (Machine.beginService b l i s)).eng[f.val].attached = s.eng[f.val].attached :=
    (hb.eng f).1.trans (by rw [beginService_eng])
  unfold Machine.dispatchSlot
  generalize offerStart b i (Machine.beginService b l i s) = o at *
  unfold handOver
  split
  · next hk =>
    split
    · next x =>
      obtain rfl : l = .access := by
        have hqueued := ((h.queues.queued b l i).1 (hq ▸ List.mem_cons_self)).2.2
        rw [Card.lane_of_scan (hcard ▸ hk)] at hqueued
        exact (Option.some.inj hqueued).symm
      refine ho.scanBegin x (by rw [State.lane_congr hlane, beginService_lane, if_pos ⟨rfl, rfl⟩]) hk (fun f j ha => ?_)
      rw [heng] at ha
      have hserve := (h.engines.serves f b j ha).1
      rw [hs] at hserve
      cases hserve
    · exact ho
  · exact (TablesSame.sendBegin b i o).tables ho
  · exact (TablesSame.linesBegin b i o).tables ho
  · exact (TablesSame.armBegin b i o).tables ho
  · exact (TablesSame.traceBegin b i o).tables ho
  · exact ho

/-! ### Ends that the Dispatcher takes (R138, R140) -/

/-- R140 step 1: a slot in service that ends keeps its start time. -/
theorem closeCard_slots_served {i : Slot} {s : State} (st : Status) (d : BitVec 16) (r : BitVec 64) (finish : Tick)
    (h : s.slots[i.val].state = .inService) : (closeCard i st d r finish s).slots = upd s.slots i (fun x => { x with
      state := .done
      status := st
      detail := d
      result := r
      finish := finish
      mark := none
      stopMark := false
      deadline := none
      report := none }) := by
  simp only [closeCard, h, if_true, State.modSlot_slots, writeEnd, writeCardState, writeCardTime, State.store_slots]

/-- R140 step 2: the lane of the slot's card has no job in service. -/
theorem leaveService_lane {i : Slot} {l : Lane} {s : State} (h : s.slots[i.val].card.lane = some l) (b : Bay)
    (k : Lane) : (leaveService i s).lane b k = if b = s.slots[i.val].card.bayIx ∧ k = l then
      { s.lane s.slots[i.val].card.bayIx l with service := none } else s.lane b k := by
  simp only [leaveService, h, State.modLane_lane]

theorem leaveService_aside (i : Slot) (s : State) : (leaveService i s).slots = s.slots ∧ (leaveService i s).eng = s.eng
    ∧ (leaveService i s).disp = s.disp := by
  unfold leaveService
  simp only
  split <;> exact ⟨rfl, rfl, rfl⟩

/-- R138: a bay that moves to the end leaves all eight bays in the rotation order, each once. -/
theorem State.RotationOk.rotate {s : State} (h : s.RotationOk) (b : Bay) : (Machine.rotate b s).RotationOk := by
  refine ⟨List.nodup_append.2 ⟨h.1.filter _, List.nodup_singleton b, fun x hx y hy => ?_⟩, fun c => ?_⟩
  · obtain rfl := List.mem_singleton.1 hy
    exact of_decide_eq_true (List.mem_filter.1 hx).2
  · by_cases hc : c = b
    · exact List.mem_append_right _ (List.mem_singleton.2 hc)
    · exact List.mem_append_left _ (List.mem_filter.2 ⟨h.2 c, decide_eq_true hc⟩)

/-- R140 steps 1 and 2: a slot in service is DONE, and no lane serves it. -/
theorem State.QueuesOk.leaveService {s : State} (h : s.QueuesOk) {i : Slot} (hi : s.slots[i.val].state = .inService)
    (st : Status) (d : BitVec 16) (r : BitVec 64) (finish : Tick) :
    (Machine.leaveService i (closeCard i st d r finish s)).QueuesOk := by
  obtain ⟨l, hl⟩ := Option.isSome_iff_exists.1 (h.laned i (.inr (.inr hi)))
  have hslots := (leaveService_aside i (closeCard i st d r finish s)).1
  have hclosed := closeCard_slots_served st d r finish hi
  have hcard : (closeCard i st d r finish s).slots[i.val].card = s.slots[i.val].card := by rw [hclosed, upd_self]
  have hlane (b : Bay) (k : Lane) : (Machine.leaveService i (closeCard i st d r finish s)).lane b k
      = if b = s.slots[i.val].card.bayIx ∧ k = l then { s.lane s.slots[i.val].card.bayIx l with service := none }
        else s.lane b k := by
    have hsame := State.lane_congr (closeCard_lanes i st d r finish s).1
    rw [leaveService_lane (hcard ▸ hl), hcard, hsame, hsame]
  have hown := (h.serving _ l i).2 ⟨hi, rfl, hl⟩
  refine h.ended (i := i) ?_ (fun k hk => ?_) (fun b k => ?_) (fun b k j => ?_)
  · rw [hslots, hclosed, upd_self]
  · rw [hslots, hclosed, upd_ne _ _ hk.symm]
  · have hfilter : (s.lane b k).queue.filter (fun x => x ≠ i) = (s.lane b k).queue := by
      refine List.filter_eq_self.2 (fun x hx => decide_eq_true ?_)
      rintro rfl
      exact h.not_queued (by simp [hi]) b k hx
    rw [hfilter, hlane]
    split
    · next he => rw [he.1, he.2]
    · rfl
  · rw [hlane]
    split
    · next he =>
      rw [he.1, he.2, hown]
      simp [eq_comm]
    · next he =>
      refine (and_iff_left_of_imp ?_).symm
      rintro hj rfl
      obtain ⟨-, hb, hk⟩ := (h.serving b k j).1 hj
      exact he ⟨hb.symm, (Option.some.inj (hl.symm.trans hk)).symm⟩

/-- R140 step 6: the engine that served the SCAN job is IDLE, and the others serve the jobs they did. -/
theorem State.EnginesOk.freed {s t : State} (g : s.EnginesOk) (h : s.QueuesOk) {i : Slot} {l : Lane}
    (hi : s.slots[i.val].state = .inService) (hl : s.slots[i.val].card.lane = some l)
    (service : ∀ b k, (t.lane b k).service = if b = s.slots[i.val].card.bayIx ∧ k = l then none
      else (s.lane b k).service)
    (card : ∀ k : Slot, t.slots[k.val].card = s.slots[k.val].card)
    (eng : ∀ e : EngineId, (t.eng[e.val].attached = none ∧ t.eng[e.val].state = .idle)
      ∨ (t.eng[e.val].attached = s.eng[e.val].attached ∧ (t.eng[e.val].state = .idle ↔ s.eng[e.val].state = .idle)
        ∧ ∀ j, s.slots[i.val].card.jobKind = some .scan →
          s.eng[e.val].attached ≠ some (s.slots[i.val].card.bayIx, j))) :
    t.EnginesOk := by
  have kept {e : EngineId} {b : Bay} {j : Slot} (ha : t.eng[e.val].attached = some (b, j)) :
      s.eng[e.val].attached = some (b, j) ∧ ¬ (b = s.slots[i.val].card.bayIx ∧ Lane.access = l) := by
    obtain ⟨hnone, -⟩ | ⟨hsame, -, hother⟩ := eng e
    · rw [hnone] at ha
      cases ha
    · rw [hsame] at ha
      refine ⟨ha, ?_⟩
      rintro ⟨rfl, rfl⟩
      obtain ⟨hserve, hscan⟩ := g.serves e _ j ha
      obtain rfl := Option.some.inj (((h.serving _ .access i).2 ⟨hi, rfl, hl⟩).symm.trans hserve)
      exact hother i hscan ha
  refine ⟨fun e => ?_, fun e b j ha => ?_, fun e f b j k he hf => g.apart e f b j k (kept he).1 (kept hf).1⟩
  · obtain ⟨hnone, hidle⟩ | ⟨hsame, hiff, -⟩ := eng e
    · simp [hnone, hidle]
    · rw [hsame, hiff]
      exact g.idle e
  · obtain ⟨hs, hne⟩ := kept ha
    rw [service, if_neg hne, card]
    exact g.serves e b j hs

/-- R140: the Dispatcher takes the end of a job in service. -/
theorem State.TablesOk.jobEnd {s : State} (h : s.TablesOk) {i : Slot} (hi : s.slots[i.val].state = .inService)
    (st : Status) (d : BitVec 16) (r : BitVec 64) (finish : Tick) :
    (freeEngine i (endSteps i (leaveService i (closeCard i st d r finish s)))).TablesOk := by
  obtain ⟨l, hl⟩ := Option.isSome_iff_exists.1 (h.queues.laned i (.inr (.inr hi)))
  have hclosed := closeCard_slots_served st d r finish hi
  have hcard (k : Slot) : (closeCard i st d r finish s).slots[k.val].card = s.slots[k.val].card :=
    (JobsKept.closeCard i st d r finish s).card k
  have hleft := leaveService_aside i (closeCard i st d r finish s)
  obtain ⟨hslots, heng, hdisp⟩ := hleft
  have hends := QueuesKept.endSteps i (leaveService i (closeCard i st d r finish s))
  generalize hw : endSteps i (leaveService i (closeCard i st d r finish s)) = w at hends ⊢
  have wcard (k : Slot) : w.slots[k.val].card = s.slots[k.val].card := by rw [hends.card, hslots, hcard]
  have wservice (b : Bay) (k : Lane) : (w.lane b k).service
      = if b = s.slots[i.val].card.bayIx ∧ k = l then none else (s.lane b k).service := by
    rw [hends.service, leaveService_lane (hcard i ▸ hl), hcard,
      State.lane_congr (closeCard_lanes i st d r finish s).1 b k]
    split <;> rfl
  have weng (e : EngineId) : w.eng[e.val].attached = s.eng[e.val].attached
      ∧ (w.eng[e.val].state = .idle ↔ s.eng[e.val].state = .idle) := by
    rw [← (Effects.closeCard i st d r finish s).eng, ← heng]
    exact hends.eng e
  have wrotation : w.RotationOk := by
    rw [State.RotationOk, hends.rotation, hdisp, closeCard_disp]
    exact h.rotation
  have wqueues : w.QueuesOk := hends.queues (h.queues.leaveService hi st d r finish)
  unfold freeEngine
  simp only
  rw [wcard]
  split
  · split
    · next e he =>
      obtain ⟨j, hj⟩ := State.engineOf_attached he
      rw [(weng e).1] at hj
      refine ⟨wqueues.congr rfl (fun _ => ⟨rfl, rfl⟩), h.engines.freed h.queues hi hl wservice wcard (fun f => ?_),
        wrotation.rotate _⟩
      by_cases hf : f = e
      · subst hf
        refine .inl ?_
        rw [State.modEng_eng, upd_self]
        exact ⟨rfl, rfl⟩
      · refine .inr ?_
        rw [State.modEng_eng, upd_ne _ _ (Ne.symm hf)]
        exact ⟨(weng f).1, (weng f).2, fun k _ hk => hf (h.engines.apart f e _ k j hk hj)⟩
    · next he =>
      refine ⟨wqueues.congr rfl (fun _ => ⟨rfl, rfl⟩), h.engines.freed h.queues hi hl wservice wcard (fun f => ?_),
        wrotation.rotate _⟩
      refine .inr ⟨(weng f).1, (weng f).2, fun k _ hk => ?_⟩
      rw [← (weng f).1] at hk
      have hno := List.find?_eq_none.1 he f (by fin_cases f <;> simp)
      simp [hk] at hno
  · next hk =>
    exact ⟨wqueues, h.engines.freed h.queues hi hl wservice wcard (fun f => .inr ⟨(weng f).1, (weng f).2,
      fun _ hs => absurd hs hk⟩), wrotation⟩

end Sys2Proof.Machine
end

section
/-! PROOF. Every command, and so every step, keeps the queues, the in-service map and the engines true to the slots, and
the rotation order whole (O55). -/

namespace Sys2Proof.Machine

/-- The invariants of the Dispatcher's tables and the engines go from one state to another. -/
def TablesKept (s u : State) : Prop := s.TablesOk → u.TablesOk

/-! ### Commands that leave the tables -/

namespace TablesSame

theorem setOutcome (o : CmdOutcome) (s : State) : TablesSame s (Machine.setOutcome o s) := modCtl _ s

theorem switchSource (src : Source) (cause : SourceCause) (s : State) :
    TablesSame s (Machine.switchSource src cause s) :=
  ((modTime _ s).trans (ofRecorded (.offerAll _ _ _))).trans (raiseFixture _ _)

theorem afterFrame (b : Bay) (cond : CodeCond) (s : State) : TablesSame s (Machine.afterFrame b cond s) := by
  cases cond <;> exact modCode b _ s

theorem codeError (b : Bay) (cause : CodeErrCause) (detail : Nat) (s : State) :
    TablesSame s (Machine.codeError b cause detail s) := (offer b _ _ s).trans (modCode b _ _)

end TablesSame

/-! #### The Time Base -/

theorem qualificationRunStart_tablesSame : Leads TablesSame .qualificationRunStart := fun s => by
  refine ⟨_, rfl, ?_⟩
  split
  · exact .modTime _ s
  · exact .refl s

theorem referenceRisingEdge_tablesSame : Leads TablesSame .referenceRisingEdge := fun s => by
  refine ⟨_, rfl, ?_⟩
  split
  · exact .ite _ (fun _ => .modTime _ s)
  · exact .refl s

theorem referenceMilestoneRaise_tablesSame : Leads TablesSame .referenceMilestoneRaise := fun s => by
  refine ⟨_, rfl, ?_⟩
  split
  · exact .ite _ (fun _ => .modTime _ s)
  · exact .refl s

theorem referenceLoss_tablesSame : Leads TablesSame .referenceLoss := fun s => by
  refine ⟨_, rfl, ?_⟩
  split
  · exact .ite _ (fun _ => (TablesSame.modTime _ s).trans (.ite _ (fun _ => .switchSource _ _ _)))
  · exact .refl s

theorem selectBench_tablesSame : Leads TablesSame .selectBench := fun s => by
  refine ⟨_, rfl, ?_⟩
  split
  · exact (TablesSame.ite _ (fun _ => .switchSource _ _ s)).trans (.setOutcome _ _)
  · exact .setOutcome _ s

theorem selectInternal_tablesSame : Leads TablesSame .selectInternal := fun s =>
  ⟨_, rfl, (TablesSame.ite _ (fun _ => .switchSource _ _ s)).trans (.setOutcome _ _)⟩

theorem syncCapture_tablesSame : Leads TablesSame .syncCapture := fun s => by
  refine ⟨_, rfl, ?_⟩
  split
  · exact .ite _ (fun _ => ((TablesSame.modTime _ s).trans (.ofRecorded (.offerAll _ _ _))).trans (.rewrite _ _))
  · exact .refl s

theorem syncQualifiedFall_tablesSame : Leads TablesSame .syncQualifiedFall := fun s => by
  refine ⟨_, rfl, ?_⟩
  split
  · exact .ite _ (fun _ => .modTime _ s)
  · exact .refl s

/-! #### Trace streams and the page pool -/

theorem writeRecord_tablesSame : Leads TablesSame .writeRecord := fun s => by
  refine ⟨_, rfl, ?_⟩
  split
  · exact .ofRecorded (.serveRecord _ s)
  · exact .refl s

theorem flushClose_tablesSame : Leads TablesSame .flushClose := fun s => by
  refine ⟨_, rfl, ?_⟩
  split
  · exact .serveFlush _ s
  · exact .refl s

theorem drainEnd_tablesSame : Leads TablesSame .drainEnd := fun s => by
  refine ⟨_, rfl, ?_⟩
  split
  · exact .serveDrain _ s
  · exact .refl s

theorem tLastLapse_tablesSame (b : Bay) : Leads TablesSame (.tLastLapse b) := fun s => by
  refine ⟨_, rfl, ?_⟩
  split
  · exact .ite _ (fun _ => .modStr b _ s)
  · exact .refl s

theorem release_tablesSame (value : Word) : Leads TablesSame (.release value) := fun s => by
  have freed (p : Page) : Recorded s (freePage p s) := ⟨rfl⟩
  refine ⟨_, rfl, ?_⟩
  split
  · split
    · exact .ofRecorded (freed _)
    · exact .raiseFixture _ s
  · exact .raiseFixture _ s

/-! #### The code lane -/

theorem codeClkEdge_tablesSame (b : Bay) (edge : ClkEdge) (dat : Bool) :
    Leads TablesSame (.codeClkEdge b edge dat) := fun s => by
  refine ⟨_, rfl, .ite _ (fun _ => ?_)⟩
  split
  · exact .refl s
  · exact .modCode b _ s
  · exact .modCode b _ s

theorem codeErr_tablesSame (b : Bay) (cond : CodeCond) : Leads TablesSame (.codeErr b cond) := fun s => by
  refine ⟨_, rfl, .ite _ (fun _ => ?_)⟩
  split
  · exact .refl s
  · exact (TablesSame.codeError b _ _ s).trans (.afterFrame b cond _)
  · split
    · exact .refl s
    · exact (TablesSame.codeError b _ _ s).trans (.afterFrame b cond _)

theorem codeFrameStall_tablesSame (b : Bay) : Leads TablesSame (.codeFrameStall b) := fun s =>
  ⟨_, rfl, .ite _ (fun _ => (TablesSame.codeError b _ _ s).trans (.modCode b _ _))⟩

theorem stallReferenceLapse_tablesSame (b : Bay) : Leads TablesSame (.stallReferenceLapse b) := fun s => by
  refine ⟨_, rfl, ?_⟩
  split
  · exact .ite _ (fun _ => .modCode b _ s)
  · exact .refl s

/-! #### The Console Port -/

theorem framingError_tablesSame (b : Bay) : Leads TablesSame (.framingError b) := fun s => by
  refine ⟨_, rfl, .ofRecorded ?_⟩
  split
  · exact .framingByte b _ s
  · split
    · exact .framingByte b _ s
    · exact .refl s

theorem breakSettled_tablesSame (b : Bay) : Leads TablesSame (.breakSettled b) := fun s =>
  ⟨_, rfl, .ite _ (fun _ => (TablesSame.ofRecorded (.breakRecord b s)).trans (.modCon b _ _))⟩

theorem batchIdleClose_tablesSame (b : Bay) : Leads TablesSame (.batchIdleClose b) := fun s => by
  refine ⟨_, rfl, ?_⟩
  split
  · exact .ite _ (fun _ => .ofRecorded (.closeBatch b false s))
  · exact .refl s

theorem characterEnd_tablesSame (b : Bay) : Leads TablesSame (.characterEnd b) := fun s => by
  refine ⟨_, rfl, ?_⟩
  split
  · split
    · exact .ite _ (fun _ => .charEnd b _ s)
    · exact .refl s
  · exact .refl s

theorem gapEnd_tablesSame (b : Bay) : Leads TablesSame (.gapEnd b) := fun s => by
  refine ⟨_, rfl, ?_⟩
  split
  · split
    · exact .ite _ (fun _ => .modCon b _ s)
    · exact .refl s
  · exact .refl s

/-! #### The sequencers and the scan engines -/

theorem armReadEnd_tablesSame (b : Bay) : Leads TablesSame (.armReadEnd b) := fun s => by
  refine ⟨_, rfl, ?_⟩
  split
  · exact .armReadEnd b _ s
  · exact .refl s

theorem loadingEnd_tablesSame (e : EngineId) : Leads TablesSame (.loadingEnd e) := fun s => by
  refine ⟨_, rfl, ?_⟩
  split
  · exact .loadingEnd e _ _ s
  · exact .refl s

theorem entryPathEnd_tablesSame (e : EngineId) : Leads TablesSame (.entryPathEnd e) := fun s => by
  refine ⟨_, rfl, ?_⟩
  split
  · exact .ite _ (fun _ => .entryDone e s)
  · exact .refl s

theorem tdiRegionRead_tablesSame (e : EngineId) : Leads TablesSame (.tdiRegionRead e) := fun s => by
  refine ⟨_, rfl, ?_⟩
  split
  · exact .modEng e _ s
  · exact .refl s

theorem resetTap_tablesSame (e : EngineId) : Leads TablesSame (.resetTap e) := fun s =>
  ⟨_, rfl, .ite _ (fun _ => (TablesSame.trackIdle e s).trans (.stepDone e _))⟩

theorem shiftEnd_tablesSame (e : EngineId) (tdo : Nat) : Leads TablesSame (.shiftEnd e tdo) := fun s => by
  refine ⟨_, rfl, ?_⟩
  split
  · exact .ite _ (fun _ => .shiftDone e _ _ s)
  · exact .refl s

theorem resultWrite_tablesSame (e : EngineId) : Leads TablesSame (.resultWrite e) := fun s => by
  refine ⟨_, rfl, ?_⟩
  split
  · exact (TablesSame.overwrite _ _ s).trans (.stepDone e _)
  · exact .refl s

theorem idleStepEnd_tablesSame (e : EngineId) : Leads TablesSame (.idleStepEnd e) := fun s =>
  ⟨_, rfl, .ite _ (fun _ => (TablesSame.trackIdle e s).trans (.stepDone e _))⟩

theorem abortedIdleClockEnd_tablesSame (e : EngineId) : Leads TablesSame (.abortedIdleClockEnd e) := fun s => by
  refine ⟨_, rfl, ?_⟩
  split
  · exact .ite _ (fun _ => .endJob e _ _ s)
  · exact .refl s

theorem scanDelayEnd_tablesSame (e : EngineId) : Leads TablesSame (.scanDelayEnd e) := fun s => by
  refine ⟨_, rfl, ?_⟩
  split
  · exact .ite _ (fun _ => .stepDone e s)
  · exact .refl s

theorem check_tablesSame (e : EngineId) : Leads TablesSame (.check e) := fun s => by
  refine ⟨_, rfl, ?_⟩
  split
  · exact .checkStep e _ s
  · exact .refl s

theorem endStep_tablesSame (e : EngineId) : Leads TablesSame (.endStep e) := fun s => by
  refine ⟨_, rfl, ?_⟩
  split
  · exact (TablesSame.countStep e s).trans (.endJob e _ _ _)
  · exact .refl s

theorem scanPowerLossStop_tablesSame (e : EngineId) : Leads TablesSame (.scanPowerLossStop e) := fun s => by
  refine ⟨_, rfl, ?_⟩
  split
  · exact .ite _ (fun _ => .cutNow e s)
  · exact .ite _ (fun _ => .cutNow e s)
  · exact .refl s

/-! #### Control, the Notice Unit and the link -/

theorem start_tablesSame : Leads TablesSame .start := fun s => by
  refine ⟨_, rfl, ?_⟩
  split
  · exact .modCtl _ s
  · exact .setOutcome _ s

theorem profileReadEnd_tablesSame : Leads TablesSame .profileReadEnd := fun s => by
  refine ⟨_, rfl, .ite _ (fun _ => ?_)⟩
  split
  · exact (TablesSame.modCtl _ s).trans (.rewrite _ _)
  · exact .modCtl _ s

theorem unknownCommand_tablesSame (code : Word) : Leads TablesSame (.unknownCommand code) := fun s => by
  refine ⟨_, rfl, ?_⟩
  split
  · exact .refl s
  · exact .setOutcome _ s

theorem linkDown_tablesSame (cause : LinkDownCause) : Leads TablesSame (.linkDown cause) := fun s => by
  refine ⟨_, rfl, ?_⟩
  cases cause <;> exact .ofEq rfl rfl rfl rfl

theorem noticeRead_tablesSame (lanes : BitVec 4) : Leads TablesSame (.noticeRead lanes) := fun s => by
  refine ⟨_, rfl, ?_⟩
  unfold takeNotice
  split <;> exact .ofEq rfl rfl rfl rfl

theorem registerWriteIgnored_tablesSame (offset : Nat) (lanes : BitVec 4) (value : Word) :
    Leads TablesSame (.registerWriteIgnored offset lanes value) := fun s => ⟨s, (commit_self s).symm, .refl s⟩

theorem returnToIdle_tablesSame : Leads TablesSame .returnToIdle := fun _ =>
  ⟨_, rfl, .ite _ (fun _ => .ofEq rfl rfl rfl rfl)⟩

/-! ### Commands with condition events, ends and jobs -/

theorem lineRawChange_queuesKept (b : Bay) (l : InLine) : Leads QueuesKept (.lineRawChange b l) := fun s => by
  refine ⟨_, rfl, ?_⟩
  split
  · exact (TablesSame.modInLine b l _ s).kept.trans (.rawChange b l _)
  · exact (TablesSame.modInLine b l _ s).kept

theorem lineQualify_queuesKept (b : Bay) (l : InLine) : Leads QueuesKept (.lineQualify b l) := fun s => by
  refine ⟨_, rfl, ?_⟩
  split
  · exact .ite _ (fun _ => .qualify b l _ _ s)
  · exact .refl s

theorem settleMilestoneRaise_queuesKept (b : Bay) : Leads QueuesKept (.settleMilestoneRaise b) := fun s => by
  refine ⟨_, rfl, ?_⟩
  split
  · exact .ite _ (fun _ => .raiseSettle b _ _ s)
  · exact .refl s

theorem codeArrival_queuesKept (b : Bay) (cond : CodeCond) : Leads QueuesKept (.codeArrival b cond) := fun s =>
  ⟨_, rfl, .ite _ (fun _ => (QueuesKept.codeArrival b s).trans (TablesSame.afterFrame b cond _).kept)⟩

theorem conversion_queuesKept (code : BitVec 12) : Leads QueuesKept (.conversion code) := fun s => by
  have begun (p : Bay × RailId) (x : State) : TablesSame x (beginConversion p x) := .ofEq rfl rfl rfl rfl
  refine ⟨_, rfl, ?_⟩
  split
  · exact .ite _ (fun _ => (QueuesKept.endConversion _ _ code s).trans (begun _ _).kept)
  · exact .refl s

theorem codeStallEvent_queuesKept (b : Bay) : Leads QueuesKept (.codeStallEvent b) := fun s => by
  refine ⟨_, rfl, .ite _ (fun _ => ?_)⟩
  split
  · exact (TablesSame.modSeq b _ s).kept.trans (.conditionEvent b _ _)
  · exact .refl s

theorem elapsedEvent_queuesKept (b : Bay) : Leads QueuesKept (.elapsedEvent b) := fun s => by
  refine ⟨_, rfl, .ite _ (fun _ => ?_)⟩
  split
  · exact .conditionEvent b _ s
  · exact .refl s

theorem deadlineExpiry_queuesKept (i : Slot) : Leads QueuesKept (.deadlineExpiry i) := fun s => by
  refine ⟨_, rfl, .ite _ (fun _ => ?_)⟩
  split
  · next hi => exact .endUndispatched (by simp [hi]) _ _ _
  · exact .ite _ (fun _ => (TablesSame.abortJob i _ s).kept)
  · exact .refl s

/-- R151: STOP ends what waits, marks what is in service and empties the hold set. -/
theorem QueuesKept.dispatcherStop (s : State) : QueuesKept s (Machine.dispatcherStop s) := by
  have waiting (i : Slot) (x : State) : QueuesKept x (stopWaiting i x) := .ite _ (fun hw => endStopped (by
    intro hi
    simp [hi] at hw))
  have service (i : Slot) (x : State) : TablesSame x (stopService i x) := .ite _ (fun _ => .abortJob i _ x)
  have setup (i : Slot) (x : State) : TablesSame x (stopSetup i x) := .ite _ (fun _ => .modSlot i _ x)
  have cleared (x : State) : TablesSame x (clearHold x) := .ofEq rfl rfl rfl rfl
  exact (forEach allSlots waiting s).trans
    (((TablesSame.forEach allSlots service _).trans (.forEach allSlots setup _)).trans (cleared _)).kept

theorem stop_queuesKept : Leads QueuesKept .stop := fun s => by
  have entered : TablesSame s (enterStopping s) := .ofEq rfl rfl rfl rfl
  refine ⟨_, rfl, ?_⟩
  split
  · exact ((entered.trans (.forEach _ (fun b x => .modSeq b _ x) _)).kept.trans (.dispatcherStop _)).trans
      ((TablesSame.forEach _ (fun b x => .standDown b x) _).trans
        (.forEach _ (fun b x => .ofRecorded (.stopStream b x)) _)).kept
  · exact (TablesSame.setOutcome _ s).kept

theorem post_tablesKept (value : Word) : Leads TablesKept (.post value) := fun s => by
  refine ⟨_, rfl, fun h => ?_⟩
  split
  · split
    · next hp => exact h.takePost hp _
    · exact (TablesSame.raiseFixture _ s).tables h
  · exact (TablesSame.raiseFixture _ s).tables h

theorem dispatch_tablesKept (b : Bay) (l : Lane) : Leads TablesKept (.dispatch b l) := fun s => by
  refine ⟨_, rfl, fun h => ?_⟩
  split
  · exact h
  · next hi =>
    split
    · split
      · exact h.dispatchSlot hi _
      · exact h
    · exact h.dispatchSlot hi none

theorem jobEnd_tablesKept (i : Slot) : Leads TablesKept (.jobEnd i) := fun s => by
  refine ⟨_, rfl, fun h => ?_⟩
  split
  · split
    · next hi => exact h.jobEnd hi _ _ _ _
    · exact h
  · exact h

/-- Every command but the resets and the start instant keeps the invariants. -/
theorem exec_tablesKept (c : Instr) (h : keepsRun c = true) (hs : c ≠ .startInstant) : Leads TablesKept c := by
  have same {c : Instr} (h : Leads TablesSame c) : Leads TablesKept c := h.imp (fun h k => h.tables k)
  have kept {c : Instr} (h : Leads QueuesKept c) : Leads TablesKept c := h.imp (fun h k => h.tables k)
  match c with
  | .powerOnReset => cases h
  | .linkReset _ => cases h
  | .restart => cases h
  | .startInstant => exact absurd rfl hs
  | .qualificationRunStart => exact same qualificationRunStart_tablesSame
  | .referenceMilestoneRaise => exact same referenceMilestoneRaise_tablesSame
  | .referenceLoss => exact same referenceLoss_tablesSame
  | .referenceRisingEdge => exact same referenceRisingEdge_tablesSame
  | .selectBench => exact same selectBench_tablesSame
  | .selectInternal => exact same selectInternal_tablesSame
  | .syncRawChange => exact same (fun s => ⟨_, rfl, .modTime _ s⟩)
  | .syncCapture => exact same syncCapture_tablesSame
  | .syncQualifiedFall => exact same syncQualifiedFall_tablesSame
  | .timeHighRead _ => exact same (fun _ => ⟨_, rfl, .ofEq rfl rfl rfl rfl⟩)
  | .timeLowRead _ => exact same (fun _ => ⟨_, rfl, .ofEq rfl rfl rfl rfl⟩)
  | .writeRecord => exact same writeRecord_tablesSame
  | .flushClose => exact same flushClose_tablesSame
  | .drainEnd => exact same drainEnd_tablesSame
  | .tLastLapse b => exact same (tLastLapse_tablesSame b)
  | .release value => exact same (release_tablesSame value)
  | .lineRawChange b l => exact kept (lineRawChange_queuesKept b l)
  | .lineQualify b l => exact kept (lineQualify_queuesKept b l)
  | .settleMilestoneRaise b => exact kept (settleMilestoneRaise_queuesKept b)
  | .codeArrival b cond => exact kept (codeArrival_queuesKept b cond)
  | .codeErr b cond => exact same (codeErr_tablesSame b cond)
  | .codeFrameStall b => exact same (codeFrameStall_tablesSame b)
  | .stallReferenceLapse b => exact same (stallReferenceLapse_tablesSame b)
  | .codeStartCondition b => exact same (fun s => ⟨_, rfl, .ite _ (fun _ => .modCode b _ s)⟩)
  | .codeClkEdge b edge dat => exact same (codeClkEdge_tablesSame b edge dat)
  | .conversion code => exact kept (conversion_queuesKept code)
  | .falseStart b => exact same (fun s => ⟨_, rfl, .ite _ (fun _ => .modCon b _ s)⟩)
  | .goodByte b => exact kept (fun s => ⟨_, rfl, .ite _ (fun _ => .goodByte b s)⟩)
  | .framingError b => exact same (framingError_tablesSame b)
  | .breakSettled b => exact same (breakSettled_tablesSame b)
  | .batchIdleClose b => exact same (batchIdleClose_tablesSame b)
  | .conRxFall b => exact same (fun s => ⟨_, rfl, .ite _ (fun _ => .modCon b _ s)⟩)
  | .bitSample b _ => exact same (fun s => ⟨_, rfl, .ite _ (fun _ => .modCon b _ s)⟩)
  | .breakCandidate b => exact same (fun s => ⟨_, rfl, .ite _ (fun _ => .modCon b _ s)⟩)
  | .breakHoldRise b => exact same (fun s => ⟨_, rfl, .ite _ (fun _ => .modCon b _ s)⟩)
  | .characterEnd b => exact same (characterEnd_tablesSame b)
  | .gapEnd b => exact same (gapEnd_tablesSame b)
  | .codeStallEvent b => exact kept (codeStallEvent_queuesKept b)
  | .elapsedEvent b => exact kept (elapsedEvent_queuesKept b)
  | .armReadEnd b => exact same (armReadEnd_tablesSame b)
  | .post value => exact post_tablesKept value
  | .bayhold _ => exact same (fun _ => ⟨_, rfl, .ofEq rfl rfl rfl rfl⟩)
  | .dispatch b lane => exact dispatch_tablesKept b lane
  | .jobEnd i => exact jobEnd_tablesKept i
  | .deadlineExpiry i => exact kept (deadlineExpiry_queuesKept i)
  | .loadingEnd e => exact same (loadingEnd_tablesSame e)
  | .entryPathEnd e => exact same (entryPathEnd_tablesSame e)
  | .tdiRegionRead e => exact same (tdiRegionRead_tablesSame e)
  | .resetTap e => exact same (resetTap_tablesSame e)
  | .shiftEnd e tdo => exact same (shiftEnd_tablesSame e tdo)
  | .resultWrite e => exact same (resultWrite_tablesSame e)
  | .idleStepEnd e => exact same (idleStepEnd_tablesSame e)
  | .abortedIdleClockEnd e => exact same (abortedIdleClockEnd_tablesSame e)
  | .scanDelayEnd e => exact same (scanDelayEnd_tablesSame e)
  | .check e => exact same (check_tablesSame e)
  | .endStep e => exact same (endStep_tablesSame e)
  | .scanPowerLossStop e => exact same (scanPowerLossStop_tablesSame e)
  | .lineDelayEnd b d => exact same (fun s => ⟨_, rfl, .delayEnd b d s⟩)
  | .widthEnd b d => exact same (fun s => ⟨_, rfl, .widthEnd b d s⟩)
  | .start => exact same start_tablesSame
  | .profileReadEnd => exact same profileReadEnd_tablesSame
  | .stop => exact kept stop_queuesKept
  | .returnToIdle => exact same returnToIdle_tablesSame
  | .unknownCommand code => exact same (unknownCommand_tablesSame code)
  | .noticeRead lanes => exact same (noticeRead_tablesSame lanes)
  | .registerWriteIgnored offset lanes value => exact same (registerWriteIgnored_tablesSame offset lanes value)
  | .linkDown cause => exact same (linkDown_tablesSame cause)

/-! ### Resets, the start instant and a step -/

theorem State.TablesOk.same {s t : State} (h : s.TablesOk) (lanes : t.lanes = s.lanes) (slots : t.slots = s.slots)
    (eng : t.eng = s.eng) (disp : t.disp = s.disp) : t.TablesOk :=
  (TablesSame.ofEq lanes slots eng (congrArg Dispatcher.rotation disp)).tables h

theorem reset_tablesOk : State.reset.TablesOk := ⟨reset_queues, reset_engines, reset_rotation⟩

theorem resetBlocks_tablesOk (s : State) : (resetBlocks s).TablesOk :=
  reset_tablesOk.same rfl rfl rfl rfl

/-- R126, R133, R137, R154: the start instant sets the slots, the queues, the rotation order and the engines to their
reset values. -/
theorem startBlocks_tablesOk (p : ProfileCopy) (s : State) : (startBlocks p s).TablesOk :=
  TablesSame.tables (s := State.reset) (.ofEq rfl rfl rfl rfl) reset_tablesOk

theorem startInstant_tablesOk {s t : State} (h : s.TablesOk) (ht : exec .startInstant s = .next t) : t.TablesOk := by
  change execStartInstant s = .next t at ht
  unfold execStartInstant at ht
  split at ht
  · split at ht
    · next p _ =>
      cases ht
      exact (startBlocks_tablesOk p s).same (by simp) (by simp) (by simp) (by simp)
    · cases ht
      exact h
  · cases ht
    exact h

/-- Every command keeps the tables of the Dispatcher and the engines. -/
theorem exec_tablesOk (c : Instr) {s t : State} (h : s.TablesOk) (ht : exec c s = .next t) : t.TablesOk := by
  by_cases hk : keepsRun c = true
  · by_cases hs : c = .startInstant
    · subst hs
      exact startInstant_tablesOk h ht
    · obtain ⟨u, hu, hkept⟩ := exec_tablesKept c hk hs s
      rw [hu] at ht
      cases ht
      exact (hkept h).same (by simp) (by simp) (by simp) (by simp)
  · cases c with
    | powerOnReset =>
      cases ht
      exact (resetBlocks_tablesOk s).same rfl rfl rfl rfl
    | linkReset cause =>
      change execLinkReset cause s = .next t at ht
      unfold execLinkReset at ht
      split at ht
      · cases ht
        exact reset_tablesOk.same rfl rfl rfl rfl
      · cases ht
        exact h
    | restart =>
      cases ht
      exact reset_tablesOk.same rfl rfl rfl rfl
    | _ => exact absurd rfl hk

/-- Settles O55, from what each command keeps of the slots, the queues, the attachments and the rotation order. -/
theorem everyStepKeepsTheQueuesAndEngines : Obligations.EveryStepKeepsTheQueuesAndEngines := by
  rintro s t ⟨hqueues, hengines, hrotation⟩ ht
  have hs : s.TablesOk := ⟨hqueues, hengines, hrotation⟩
  have kept : t.TablesOk := by
    unfold step at ht
    split at ht
    · cases ht
      exact hs.same rfl rfl rfl rfl
    · next c rest _ =>
      exact exec_tablesOk c (s := { s with pending := rest }) (hs.same rfl rfl rfl rfl) ht
  exact ⟨kept.queues, kept.engines, kept.rotation⟩

end Sys2Proof.Machine
end

section
/-! PROOF. The intake checks (R129, R130) and a BAYHOLD write (R134): O29, O33. -/

namespace Sys2Proof.Machine

/-! ### Intake (R129, R130) -/

/-- 12.4: the kind codes of the six kinds are 1 to 6. -/
theorem Card.jobKind_none {c : Card} (h : c.kind = 0#8 ∨ 6 < c.kind.toNat) : c.jobKind = none := by
  have hn : c.kind.toNat = 0 ∨ 6 < c.kind.toNat := h.imp_left (fun h0 => by rw [h0]; rfl)
  unfold Card.jobKind jobKindOf
  split
  iterate 6 · omega
  rfl

section
variable {i : Slot} {c : Card} {k : JobKind}

/-- R130, R159, R181: kind parameters in their ranges pass. -/
theorem paramCheck_ok (hk : c.jobKind = some k) (h : ParamsOk i c k) : paramCheck i c = none := by
  cases k with
  | scan => simpa [paramCheck, hk, and_assoc, ParamsOk] using h
  | send => simpa [paramCheck, hk, ParamsOk] using h
  | lines => simpa [paramCheck, hk, and_assoc, ParamsOk] using h
  | arm => simpa [paramCheck, hk, ParamsOk, or_iff_not_imp_left] using h
  | trace =>
    obtain ⟨h0, h1⟩ | h0 | h0 := h
    · simp [paramCheck, hk, h0, h1]
    · simp [paramCheck, hk, h0]
    · simp [paramCheck, hk, h0]
  | cancel =>
    obtain ⟨h0, h1, h2⟩ | h0 := h
    · simp [paramCheck, hk, h0, h1, h2]
    · simp [paramCheck, hk, h0]

/-- R130, R159, R181: kind parameters out of their ranges fail. -/
theorem paramCheck_fails (hk : c.jobKind = some k) (hc : k ≠ .cancel) (h : ¬ ParamsOk i c k) :
    paramCheck i c = some .parameter := by
  cases k with
  | scan => simpa [paramCheck, hk, and_assoc, ParamsOk] using h
  | send => simpa [paramCheck, hk, ParamsOk] using h
  | lines => simpa [paramCheck, hk, and_assoc, ParamsOk] using h
  | arm => simpa [paramCheck, hk, ParamsOk] using h
  | trace =>
    simp only [ParamsOk, not_or, not_and] at h
    obtain ⟨h1, h2, h3⟩ := h
    by_cases h0 : c.param 0 = 1
    · simp [paramCheck, hk, h0, h1 h0]
    · simp [paramCheck, hk, h0, h2, h3]
  | cancel => exact absurd rfl hc

/-- R130: a CANCEL that targets its own slot fails with TARGET, and any other one out of range with PARAMETER. -/
theorem paramCheck_cancel_fails (hk : c.jobKind = some .cancel) (h : ¬ ParamsOk i c .cancel) :
    paramCheck i c = some (if c.param 0 = 1 ∧ c.param 1 = i.val then .target else .parameter) := by
  simp only [ParamsOk, not_or, not_and, not_not] at h
  by_cases h0 : c.param 0 = 1
  · by_cases h1 : c.param 1 = i.val
    · simp [paramCheck, hk, h0, h1]
    · simp [paramCheck, hk, h0, h1, mt (h.1 h0) h1]
  · simp [paramCheck, hk, h0, h.2]

/-- R129: the gate check passes a CANCEL and a gate of at most 8. -/
theorem gate_passes (hk : c.jobKind = some k) (hg : k = .cancel ∨ c.gate.toNat ≤ 8) :
    ¬ (c.jobKind ≠ some .cancel && 8 < c.gate.toNat) = true := by
  simp only [Bool.and_eq_true, decide_eq_true_eq, not_and, not_lt]
  exact fun hn => hg.resolve_left (fun he => hn (he ▸ hk))

/-- R129: a card that fails a parameter check alone. -/
theorem intake_of_paramCheck_some {enabled : BitVec 8} {r : Reason} (hb : c.bay.toNat < 8) (hk : c.jobKind = some k)
    (hg : k = .cancel ∨ c.gate.toNat ≤ 8) (hp : paramCheck i c = some r) :
    intake enabled i c = .failed .badCard (detailOf r 0) := by
  rw [intake, if_neg (not_le.2 hb), if_neg (by simp [hk]), if_neg (gate_passes hk hg)]
  simp only [hp]

/-- R129: the last check, of a card that passes the others. -/
theorem intake_of_paramCheck_none {enabled : BitVec 8} (hb : c.bay.toNat < 8) (hk : c.jobKind = some k)
    (hg : k = .cancel ∨ c.gate.toNat ≤ 8) (hp : paramCheck i c = none) :
    intake enabled i c = if enabled.getLsbD c.bay.toNat = true then .accepted else .failed .bayDisabled 0#16 := by
  rw [intake, if_neg (not_le.2 hb), if_neg (by simp [hk]), if_neg (gate_passes hk hg)]
  simp only [hp]

end

/-- Settles O29, check by check. -/
theorem intakeChecksInOrder : Obligations.IntakeChecksInOrder := by
  intro enabled i c
  refine ⟨fun hb => if_pos hb, fun hb hk => ?_, fun k hb hk => ⟨fun hc hg => ?_, fun hg hp => ?_, fun hg hp => ?_⟩⟩
  · rw [intake, if_neg (not_le.2 hb), if_pos (Card.jobKind_none hk)]
    rfl
  · rw [intake, if_neg (not_le.2 hb), if_neg (by simp [hk]), if_pos (by simp [hk, hc, hg])]
    rfl
  · by_cases hc : k = .cancel
    · subst hc
      rw [intake_of_paramCheck_some hb hk hg (paramCheck_cancel_fails hk hp)]
      by_cases ht : c.param 0 = 1 ∧ c.param 1 = i.val
      · rw [if_pos ht, if_pos ⟨rfl, ht⟩]
        rfl
      · rw [if_neg ht, if_neg (fun h => ht h.2)]
        rfl
    · rw [intake_of_paramCheck_some hb hk hg (paramCheck_fails hk hc hp), if_neg (fun h => hc h.1)]
      rfl
  · exact intake_of_paramCheck_none hb hk hg (paramCheck_ok hk hp)

/-! ### BAYHOLD (R134) -/

/-- Settles O33. -/
theorem bayholdSetsThenClears : Obligations.BayholdSetsThenClears := by
  intro s v
  refine ⟨(s.disp.hold ||| holdSetMask v) &&& ~~~ holdClearMask v, commit_quiet rfl rfl, fun b => ?_⟩
  simp [holdSetMask, holdClearMask, b.isLt, Nat.add_comm]

end Sys2Proof.Machine
end

section
/-! PROOF. The engine grant (R135, R137): O34. -/

namespace Sys2Proof.Machine

/-- Of a list without repetition, the first element with a property is the one that no element with it stands before. -/
theorem find?_eq_some_iff_idxOf {α : Type} [BEq α] [LawfulBEq α] {xs : List α} (hn : xs.Nodup) {p : α → Bool}
    {b : α} (hb : b ∈ xs) : xs.find? p = some b ↔ p b = true ∧ ∀ c, xs.idxOf c < xs.idxOf b → p c = false := by
  rw [List.find?_eq_some_iff_getElem]
  refine and_congr_right (fun _ => ⟨?_,
    fun h => ⟨xs.idxOf b, List.idxOf_lt_length_of_mem hb, List.getElem_idxOf _, ?_⟩⟩)
  · rintro ⟨i, hi, rfl, hfirst⟩ c hc
    rw [hn.idxOf_getElem] at hc
    have hlt := hc.trans hi
    simpa [List.getElem_idxOf] using hfirst (xs.idxOf c) hc
  · intro j hj
    rw [h _ (by rwa [hn.idxOf_getElem])]
    rfl

/-- R135: the head of a lane that meets conditions 1 to 4. -/
theorem readyHead_iff (s : State) (b : Bay) (l : Lane) (i : Slot) : s.readyHead b l = some i ↔ HeadReady s b l i :=
  State.readyHead_some

theorem waitsForEngine_iff (s : State) (b : Bay) : s.waitsForEngine b = true ↔ Waits s b := by
  simp [State.waitsForEngine, Waits, Option.any_eq_true, readyHead_iff]

/-- R137: the winner is the waiting bay that no other waiting bay stands before in the order of the mode. -/
theorem winner_iff {s : State} (hn : s.grantOrder.Nodup) {b : Bay} (hb : b ∈ s.grantOrder) : s.winner = some b ↔
    Waits s b ∧ ∀ c, s.grantOrder.idxOf c < s.grantOrder.idxOf b → ¬ Waits s c := by
  simp only [State.winner, find?_eq_some_iff_idxOf hn hb, ← waitsForEngine_iff, Bool.not_eq_true]

/-- R137: engine 0 is granted before engine 1. -/
theorem idleEngine_iff (s : State) (e : EngineId) : s.idleEngine = some e ↔
    s.eng[e.val].state = .idle ∧ (e = 1 → s.eng[0].state ≠ .idle) := by
  match e with
  | 0 => simp [State.idleEngine]
  | 1 => simp [State.idleEngine, and_comm]

theorem allBays_idxOf : ∀ b : Bay, allBays.idxOf b = b.val := by decide

/-- Settles O34. -/
theorem grantGoesToTheWinner : Obligations.GrantGoesToTheWinner := by
  intro s b e hn hall
  have granted : s.granted b = some e ↔ s.winner = some b ∧ s.idleEngine = some e := by
    simp [State.granted]
  rw [granted, idleEngine_iff]
  cases ha : s.disp.arbitration with
  | fixed =>
    have ho : s.grantOrder = allBays := by rw [State.grantOrder, ha]
    rw [winner_iff (ho ▸ by decide) (ho ▸ mem_allBays b), ho]
    simp only [allBays_idxOf, Fin.lt_def, true_imp_iff, reduceCtorEq, false_imp_iff, and_true]
    tauto
  | rotating =>
    have ho : s.grantOrder = s.disp.rotation := by rw [State.grantOrder, ha]
    rw [winner_iff (ho ▸ hn) (ho ▸ hall b), ho]
    simp only [true_imp_iff, reduceCtorEq, false_imp_iff, true_and]
    tauto

end Sys2Proof.Machine
end

section
/-! PROOF. The card memory of a slot (R127, 12.4), the device mirror over a change of the job table, and an accepted
card (R125, R131, R133, R143): O31. -/

namespace Sys2Proof.Machine

/-! ### Fields of a card in memory (12.4, R127) -/

/-- A number that a field of `n` bytes has been written with. -/
theorem Memory.field_of_written {m : Memory} {a n v : Nat} (h : m.readBytes a n = leBytes n v) :
    m.field a n = v % 256 ^ n := by
  rw [Memory.field, h, leNat_leBytes]

theorem Memory.read_of_written {m : Memory} {a v : Nat} (h : m.readBytes a 1 = leBytes 1 v) :
    m.read a = BitVec.ofNat 8 v := (List.cons.inj h).1

/-- R127, 12.4: the fields of a card that its end writes: the status, the detail, the end time, the result, and last the
state. -/
def endFields (i : Slot) (r : SlotRec) : List Field :=
  [ fld (cardAddr i + 0x41) 1 (statusCode r.status),
    fld (cardAddr i + 0x42) 2 r.detail.toNat,
    fld (cardAddr i + 0x58) 8 r.finish.toNat,
    fld (cardAddr i + 0x60) 8 r.result.toNat,
    fld (cardAddr i + 0x40) 1 (slotCode r.state) ]

/-- R127: the accept time of a card. -/
def acceptField (i : Slot) (r : SlotRec) : Field := fld (cardAddr i + 0x48) 8 r.accept.toNat

/-- R127: the start time of a card. -/
def startField (i : Slot) (r : SlotRec) : Field := fld (cardAddr i + 0x50) 8 r.start.toNat

/-- R127, 12.4: the fields of a card that the device writes. -/
def cardFields (i : Slot) (r : SlotRec) : List Field := acceptField i r :: startField i r :: endFields i r

theorem cardAddr_area (i : Slot) : 0x002000 ≤ cardAddr i ∧ cardAddr i + 128 ≤ 0x004000 := by
  have := i.isLt
  simp only [cardAddr]
  omega

/-- 12.4: two fields of a card share no byte. -/
theorem cardFields_apart {i : Slot} {r : SlotRec} {f g : Field} (hf : f ∈ cardFields i r) (hg : g ∈ cardFields i r) :
    g = f ∨ Apart f.place g.place := by
  have : Std.Symm (fun x y : Field => y = x ∨ Apart x.place y.place) := ⟨fun _ _ h => h.imp Eq.symm Or.symm⟩
  refine List.Pairwise.forall_of_forall (l := cardFields i r) (R := fun x y => y = x ∨ Apart x.place y.place)
    (fun x _ => .inl rfl) ?_ hf hg
  simp [cardFields, acceptField, startField, endFields, fld, leBytes_length, Apart]

/-- The fields of a card that the device writes are within the 40 bytes from its state. -/
theorem cardFields_area {i : Slot} {r : SlotRec} {f : Field} (hf : f ∈ cardFields i r) :
    cardAddr i + 0x40 ≤ f.1 ∧ f.1 + f.2.length ≤ cardAddr i + 0x68 := by
  simp only [cardFields, acceptField, startField, endFields, List.mem_cons, List.not_mem_nil, or_false] at hf
  obtain rfl | rfl | rfl | rfl | rfl | rfl | rfl := hf <;> simp [fld, leBytes_length]

/-- R127: writes of a card's own fields leave every byte outside them. -/
theorem card_unwritten (m : Memory) {i : Slot} {r : SlotRec} {fs : List Field} (hs : fs ⊆ cardFields i r)
    {a : Nat} (ha : ¬ (cardAddr i + 0x40 ≤ a ∧ a < cardAddr i + 0x68)) :
    (fs.foldl Memory.writeField m).read a = m.read a := by
  refine Memory.read_writeFields_other m fs a (fun f hf => ?_)
  have harea := cardFields_area (hs hf)
  omega

section
variable {m : Memory} {i : Slot} {r : SlotRec} {fs : List Field}

/-- 12.4: a field of a card that has been written reads back. -/
theorem card_written (hm : m.wf) (hs : fs ⊆ cardFields i r) {a n v : Nat} (hf : fld a n v ∈ fs) :
    (fs.foldl Memory.writeField m).readBytes a n = leBytes n v := by
  have hread := Memory.readBytes_writeFields_mem hm fs (fld a n v) (fun g hg => cardFields_apart (hs hf) (hs hg)) ?_ hf
  · simpa [fld, leBytes_length] using hread
  · have harea := cardFields_area (hs hf)
    have hcard := cardAddr_area i
    simp only [cardMemorySize]
    omega

theorem card_time_written (hm : m.wf) (hs : fs ⊆ cardFields i r) {a : Nat} {t : Tick} (hf : fld a 8 t.toNat ∈ fs) :
    (fs.foldl Memory.writeField m).field a 8 = t.toNat := by
  rw [Memory.field_of_written (card_written hm hs hf)]
  exact Nat.mod_eq_of_lt (t.isLt.trans (by decide))

/-- 12.4: a card whose end has been written shows it. -/
theorem cardShowsEnd_written (hm : m.wf) (hs : fs ⊆ cardFields i r) (he : endFields i r ⊆ fs) :
    CardShowsEnd (fs.foldl Memory.writeField m) i r := by
  refine ⟨Memory.read_of_written (card_written hm hs (he ?_)), Memory.read_of_written (card_written hm hs (he ?_)), ?_,
    card_time_written hm hs (he ?_), ?_⟩
  · simp [endFields]
  · simp [endFields]
  · rw [Memory.field_of_written (card_written hm hs (he (List.mem_of_getElem? (i := 1) rfl)))]
    exact Nat.mod_eq_of_lt r.detail.isLt
  · simp [endFields]
  · rw [Memory.field_of_written (card_written hm hs (he (List.mem_of_getElem? (i := 3) rfl)))]
    exact Nat.mod_eq_of_lt r.result.isLt

theorem cardShows_written (hm : m.wf) (hs : fs ⊆ cardFields i r) (he : endFields i r ⊆ fs)
    (hstart : startField i r ∈ fs) : CardShows (fs.foldl Memory.writeField m) i r :=
  ⟨cardShowsEnd_written hm hs he, card_time_written hm hs hstart⟩

end

/-- What the bytes of a card show depends on them alone. -/
theorem CardShowsEnd.congr {m n : Memory} {i : Slot} {r : SlotRec} (h : CardShowsEnd m i r)
    (hr : ∀ a, cardAddr i + 0x40 ≤ a → a < cardAddr i + 0x68 → n.read a = m.read a) : CardShowsEnd n i r := by
  have field (o k : Nat) (ho : 0x40 ≤ o ∧ o + k ≤ 0x68) :
      n.field (cardAddr i + o) k = m.field (cardAddr i + o) k :=
    congrArg leNat (Memory.readBytes_congr _ _ (fun b h1 h2 => hr b (by omega) (by omega)))
  obtain ⟨state, status, detail, finish, result⟩ := h
  exact ⟨(hr _ (by omega) (by omega)).trans state, (hr _ (by omega) (by omega)).trans status,
    (field 0x42 2 (by omega)).trans detail, (field 0x58 8 (by omega)).trans finish,
    (field 0x60 8 (by omega)).trans result⟩

theorem CardShows.congr {m n : Memory} {i : Slot} {r : SlotRec} (h : CardShows m i r)
    (hr : ∀ a, cardAddr i + 0x40 ≤ a → a < cardAddr i + 0x68 → n.read a = m.read a) : CardShows n i r :=
  have start : n.field (cardAddr i + 0x50) 8 = m.field (cardAddr i + 0x50) 8 :=
    congrArg leNat (Memory.readBytes_congr _ _ (fun b h1 h2 => hr b (by omega) (by omega)))
  ⟨CardShowsEnd.congr h.1 hr, start.trans h.2⟩

/-- R127: publication writes no card. -/
theorem publish_card (s u : State) (i : Slot) {a : Nat} (h1 : cardAddr i ≤ a) (h2 : a < cardAddr i + 128) :
    (publish s u).mem.read a = u.mem.read a := by
  have := cardAddr_area i
  refine publish_read_other s u a ?_
  simp only [publishedArea]
  omega

/-! ### The device mirror over a change of the job table (12.3, R128) -/

theorem State.countSlots_of_iff {s t : State} {st : SlotState}
    (h : ∀ i : Slot, t.slots[i.val].state = st ↔ s.slots[i.val].state = st) : t.countSlots st = s.countSlots st := by
  have hmap : t.slots.map (fun r => decide (r.state = st)) = s.slots.map (fun r => decide (r.state = st)) :=
    Vector.ext (fun i hi => by simpa using h ⟨i, hi⟩)
  have hcount (x : State) :
      x.countSlots st = (x.slots.map (fun r => decide (r.state = st))).toList.countP (fun k => k) := by
    rw [Vector.toList_map, List.countP_map]
    rfl
  rw [hcount, hcount, hmap]

/-- R127, R128, R201: a command that changes the job table, the notices and the cards alone writes the slot counts, the
pending set and the cards. -/
theorem publish_unchanged_table {s u : State} {p : Nat → Prop} (hu : u = { s with
      slots := u.slots, lanes := u.lanes, notices := u.notices, link := u.link, mem := u.mem })
    (hmem : ∀ a, ¬ p a → u.mem.read a = s.mem.read a)
    (hcount : (∀ a, inSlotCounts a → p a) ∨ ∀ st, st ≠ .free → st ≠ .done → u.countSlots st = s.countSlots st)
    (hpend : (∀ a, inPendingSet a → p a) ∨ u.notices.pend = s.notices.pend) :
    Unchanged p s (publish s (signalLine s u)) := by
  refine publish_unchanged hmem (fun a ha => MirrorSame.outside ?_) (fun b _ _ _ => by rw [hu]; rfl)
    (fun b _ _ _ => by rw [hu]; rfl)
  have count (o : Nat) (st : SlotState) (ho : 0x20 ≤ o ∧ o < 0x23) (hf : st ≠ .free) (hd : st ≠ .done) :
      fld (mirrorAddr + o) 1 (u.countSlots st) = fld (mirrorAddr + o) 1 (s.countSlots st)
        ∨ a < (fld (mirrorAddr + o) 1 (u.countSlots st)).1
        ∨ (fld (mirrorAddr + o) 1 (u.countSlots st)).1 + (fld (mirrorAddr + o) 1 (u.countSlots st)).2.length ≤ a := by
    obtain hcount | hcount := hcount
    · have hout : ¬ inSlotCounts a := fun h => ha (hcount a h)
      simp only [inSlotCounts] at hout
      simp only [fld, leBytes_length, mirrorAddr]
      omega
    · exact .inl (by rw [hcount st hf hd])
  have pending : pendingField u = pendingField s ∨ a < (pendingField u).1
      ∨ (pendingField u).1 + (pendingField u).2.length ≤ a := by
    obtain hpend | hpend := hpend
    · have hout : ¬ inPendingSet a := fun h => ha (hpend a h)
      simp only [inPendingSet] at hout
      simp only [pendingField, mirrorAddr, List.length_map, allGroups, List.length_cons, List.length_nil]
      omega
    · exact .inl (by simp only [pendingField, hpend])
  have hctl : u.ctl = s.ctl := by rw [hu]
  have htime : u.time = s.time := by rw [hu]
  have hpool : u.pool = s.pool := by rw [hu]
  have heng : u.eng = s.eng := by rw [hu]
  have same : MirrorSame s u a := by
    simp only [MirrorSame, mirrorFields, refusalFields, syncFields, freeField, engineFields, hctl, htime, hpool,
      heng, List.cons_append, List.nil_append, List.zip_cons_cons, List.forall_mem_cons, pending, true_or, true_and,
      List.zip_nil_left, List.not_mem_nil, false_imp_iff, implies_true, and_true]
    exact ⟨count _ _ (by omega) (by simp) (by simp), count _ _ (by omega) (by simp) (by simp),
      count _ _ (by omega) (by simp) (by simp)⟩
  exact same

/-! ### An accepted card (R131, R133, R143) -/

theorem writeAcceptance_eq (i : Slot) (st : SlotState) (t : Tick) (s : State) : writeAcceptance i st t s
    = { s with mem := [fld (cardAddr i + 0x41) 1 0, fld (cardAddr i + 0x42) 2 0,
      fld (cardAddr i + 0x48) 8 t.toNat, fld (cardAddr i + 0x50) 8 0, fld (cardAddr i + 0x58) 8 0,
      fld (cardAddr i + 0x60) 8 0, fld (cardAddr i + 0x40) 1 (slotCode st)].foldl Memory.writeField s.mem } := by
  simp only [writeAcceptance, writeCardState, writeCardTime, State.store, List.foldl_cons, List.foldl_nil]
  rfl

/-- R127 Acceptance: the fields of a card just accepted. -/
theorem acceptance_fields {i : Slot} {r : SlotRec} (hs : r.status = .ok) (hd : r.detail = 0#16) (ht : r.start = 0#48)
    (hf : r.finish = 0#48) (hr : r.result = 0#64) (s : State) : ∃ fs : List Field,
      writeAcceptance i r.state r.accept s = { s with mem := fs.foldl Memory.writeField s.mem } ∧ fs ⊆ cardFields i r
      ∧ endFields i r ⊆ fs ∧ startField i r ∈ fs ∧ acceptField i r ∈ fs := by
  refine ⟨_, writeAcceptance_eq i r.state r.accept s, ?_⟩
  simp [cardFields, endFields, startField, acceptField, hs, hd, ht, hf, hr, statusCode]

theorem slotOf_val {n : Nat} {i : Slot} (h : n = i.val) : slotOf n = some i := by
  subst h
  exact dif_pos i.isLt

/-- R128: the POST of a slot that is FREE or DONE, in RUNNING. -/
theorem post_taken {s : State} {v : Word} {i : Slot} (hv : v.toNat % 256 = i.val) (hrun : s.ctl.device = .running)
    (hfree : s.slots[i.val].state = .free ∨ s.slots[i.val].state = .done) :
    exec (.post v) s = commit s (takePost i (v.getLsbD 8) s) := by
  change execPost v s = _
  have htakes : s.takesPost i = true := by simpa [State.takesPost, hrun] using hfree
  simp only [execPost, postSlot, slotOf_val hv, htakes, if_true, postPark]

theorem requestSlot_eq {i : Slot} {l : Lane} {s : State} (base : Tick) (hl : s.slots[i.val].card.lane = some l) :
    requestSlot i base s = (s.modSlot i (fun r => { r with
        state := .requested
        deadline := s.slots[i.val].card.deadline base })).modLane s.slots[i.val].card.bayIx l
      (fun q => { q with queue := q.queue ++ [i] }) := by
  simp only [requestSlot, hl]

/-- R125, R131, R133, R143: the slot record of an accepted card. -/
def acceptedSlot (c : Card) (park : Bool) (now : Tick) : SlotRec :=
  { SlotRec.reset with
    state := if park then .parked else .requested
    card := c
    accept := now
    deadline := if park then none else c.deadline now }

/-- R131, R133, R143: an accepted card becomes PARKED, or REQUESTED at the tail of its queue. -/
theorem takePost_accepted {s : State} {i : Slot} {l : Lane} (park : Bool)
    (ha : intake s.ctl.enabled i (readCard s.mem i) = .accepted) (hl : (readCard s.mem i).lane = some l) :
    ∃ x : State, takePost i park s = writeAcceptance i (acceptedSlot (readCard s.mem i) park s.now).state
        (acceptedSlot (readCard s.mem i) park s.now).accept x
      ∧ x = { s with slots := x.slots, lanes := x.lanes }
      ∧ x.slots = upd s.slots i (fun _ => acceptedSlot (readCard s.mem i) park s.now)
      ∧ ∀ b m, x.lane b m = if ¬ park ∧ b = (readCard s.mem i).bayIx ∧ m = l then
          { s.lane b m with queue := (s.lane b m).queue ++ [i] } else s.lane b m := by
  have hk : (readCard s.mem i).jobKind ≠ some .cancel := by
    intro hk
    simp [Card.lane, hk, laneOf] at hl
  have htake : takePost i park s = acceptCard i (readCard s.mem i) park (copyCard i (readCard s.mem i) s) := by
    simp only [takePost, ha]
  have hcopy := copyCard_self i (readCard s.mem i) s
  rw [htake, acceptCard, if_neg hk]
  cases park with
  | true =>
    refine ⟨_, rfl, rfl, ?_, fun b m => by simp; rfl⟩
    rw [State.modSlot_slots, copyCard, State.modSlot_slots, upd_upd]
    rfl
  | false =>
    rw [if_neg (by simp), requestSlot_eq _ (by rw [hcopy]; exact hl)]
    refine ⟨_, rfl, rfl, ?_, fun b m => ?_⟩
    · rw [State.modLane_slots, State.modSlot_slots, hcopy, copyCard, State.modSlot_slots, upd_upd]
      rfl
    · rw [State.modLane_lane, hcopy]
      simp only [Bool.false_eq_true, not_false_eq_true, true_and]
      split
      · next h =>
        obtain ⟨rfl, rfl⟩ := h
        rfl
      · rfl

/-- Settles O31. -/
theorem acceptedCardWaits : Obligations.AcceptedCardWaits := by
  intro s v i l hv hrun hwf hfree ha hl
  obtain ⟨x, htake, hx, hslots, hlane⟩ := takePost_accepted (v.getLsbD 8) ha hl
  obtain ⟨fs, hmem, hcard, hend, hstart, haccept⟩ := acceptance_fields (i := i)
    (r := acceptedSlot (readCard s.mem i) (v.getLsbD 8) s.now) rfl rfl rfl rfl rfl x
  have hw : takePost i (v.getLsbD 8) s = { s with
      slots := x.slots, lanes := x.lanes, mem := fs.foldl Memory.writeField s.mem } := by
    have hxmem : x.mem = s.mem := by rw [hx]
    rw [htake, hmem, hxmem, hx]
  have hread (a : Nat) (h1 : cardAddr i + 0x40 ≤ a) (h2 : a < cardAddr i + 0x68) :
      (publish s (signalLine s (takePost i (v.getLsbD 8) s))).mem.read a
        = (fs.foldl Memory.writeField s.mem).read a := by
    rw [publish_card s _ i (by omega) (by omega), hw]
    rfl
  have hself : x.slots[i.val] = acceptedSlot (readCard s.mem i) (v.getLsbD 8) s.now := by rw [hslots, upd_self]
  refine ⟨_, (post_taken hv hrun hfree).trans (commit_eq _ _), ?_, ?_, fun b m => ?_, ?_, ?_, ?_⟩
  · rw [hw, signalLine, Link.signal_same]
    rfl
  · rw [publish_slots, signalLine_slots, hw, hslots]
    refine upd_congr _ _ ?_
    simp only [acceptedSlot, Card.deadline]
    cases v.getLsbD 8 <;> simp [State.now, millis]
  · rw [State.lane_congr (publish_lanes _ _), hw]
    exact hlane b m
  · have hslot : (publish s (signalLine s (takePost i (v.getLsbD 8) s))).slots[i.val]
        = acceptedSlot (readCard s.mem i) (v.getLsbD 8) s.now := by
      rw [publish_slots, signalLine_slots, hw, hself]
    rw [hslot]
    exact CardShows.congr (cardShows_written hwf hcard hend hstart) hread
  · refine Eq.trans (congrArg leNat (Memory.readBytes_congr _ _ (fun a h1 h2 => hread a (by omega) (by omega)))) ?_
    exact card_time_written hwf hcard haccept
  · refine publish_unchanged_table (by rw [hw]) (fun a ha => ?_) (.inl fun _ => .inl) (.inr (by rw [hw]))
    rw [hw]
    exact card_unwritten s.mem hcard (fun h => ha (.inr h))

end Sys2Proof.Machine
end

section
/-! PROOF. The Notice Unit: the choice of a NOTICE read, the notice line on the link, and the reads without an effect
(R189, R200 to R203): O52. -/

namespace Sys2Proof.Machine

/-! ### The choice of a factor (R203) -/

theorem mem_allGroups (g : Fin 9) : g ∈ allGroups := by
  fin_cases g <;> decide

/-- R202: the line is asserted exactly when an enabled factor is pending. -/
theorem Notices.asserted_iff (n : Notices) : n.asserted = true ↔ ∃ g, n.ready g ≠ 0#4 := by
  simp [Notices.asserted, mem_allGroups]

/-- R203: a group that comes first among those of a list with a pending enabled factor: of the lowest level, then of the
lowest number. -/
def FirstGroup (n : Notices) (seen : List (Fin 9)) : Option (Fin 9) → Prop
  | none => ∀ h ∈ seen, n.ready h = 0#4
  | some g => g ∈ seen ∧ n.ready g ≠ 0#4 ∧ ∀ h ∈ seen, n.ready h ≠ 0#4 →
    n.levelOf g < n.levelOf h ∨ n.levelOf g = n.levelOf h ∧ g ≤ h

/-- R203: the better of the first group of a list and a group after it is the first group of both. -/
theorem FirstGroup.better {n : Notices} {seen : List (Fin 9)} {best : Option (Fin 9)} {g : Fin 9}
    (h : FirstGroup n seen best) (hg : ∀ x ∈ seen, x < g) : FirstGroup n (seen ++ [g]) (n.better best g) := by
  unfold Notices.better
  split
  · next hr =>
    cases best with
    | none => simpa [FirstGroup, or_imp, forall_and, hr] using h
    | some x =>
      obtain ⟨hx, hready, hfirst⟩ := h
      refine ⟨List.mem_append_left _ hx, hready, fun y hy hny => hfirst y ?_ hny⟩
      obtain hy | hy := List.mem_append.1 hy
      · exact hy
      · obtain rfl := List.mem_singleton.1 hy
        exact absurd hr hny
  · next hr =>
    cases best with
    | none =>
      refine ⟨List.mem_append_right _ (List.mem_singleton_self g), hr, fun y hy hny => ?_⟩
      obtain hy | hy := List.mem_append.1 hy
      · exact absurd (h y hy) hny
      · obtain rfl := List.mem_singleton.1 hy
        exact .inr ⟨rfl, le_rfl⟩
    | some x =>
      obtain ⟨hx, hready, hfirst⟩ := h
      simp only
      split
      · next hlt =>
        refine ⟨List.mem_append_right _ (List.mem_singleton_self g), hr, fun y hy hny => ?_⟩
        obtain hy | hy := List.mem_append.1 hy
        · have := hfirst y hy hny
          omega
        · obtain rfl := List.mem_singleton.1 hy
          exact .inr ⟨rfl, le_rfl⟩
      · next hge =>
        refine ⟨List.mem_append_left _ hx, hready, fun y hy hny => ?_⟩
        obtain hy | hy := List.mem_append.1 hy
        · exact hfirst y hy hny
        · obtain rfl := List.mem_singleton.1 hy
          have := hg x hx
          omega

theorem FirstGroup.foldl {n : Notices} (gs : List (Fin 9)) {seen : List (Fin 9)} {best : Option (Fin 9)}
    (h : FirstGroup n seen best) (hs : (seen ++ gs).Pairwise (· < ·)) :
    FirstGroup n (seen ++ gs) (gs.foldl n.better best) := by
  induction gs generalizing seen best with
  | nil => simpa using h
  | cons g rest ih =>
    have hg : ∀ x ∈ seen, x < g := fun x hx => (List.pairwise_append.1 hs).2.2 x hx g List.mem_cons_self
    have hstep := ih (h.better hg) (by simpa using hs)
    simpa using hstep

theorem firstGroup_allGroups (n : Notices) : FirstGroup n allGroups (allGroups.foldl n.better none) :=
  FirstGroup.foldl allGroups (seen := []) (by simp [FirstGroup]) (by decide)

/-- R203: the lowest factor among the bits of a group. -/
theorem lowestFactor_eq {v : BitVec 4} {f : Fin 4} (hf : v.getLsbD f.val = true)
    (hmin : ∀ k : Fin 4, v.getLsbD k.val = true → f ≤ k) : lowestFactor v = f := by
  unfold lowestFactor
  split
  · next h0 =>
    exact le_antisymm (Fin.zero_le f) (hmin 0 h0)
  · next h0 =>
    have h0' : f ≠ 0 := by
      rintro rfl
      exact h0 hf
    split
    · next h1 =>
      have := hmin 1 h1
      omega
    · next h1 =>
      have h1' : f ≠ 1 := by
        rintro rfl
        exact h1 hf
      split
      · next h2 =>
        have := hmin 2 h2
        omega
      · next h2 =>
        have h2' : f ≠ 2 := by
          rintro rfl
          exact h2 hf
        omega

theorem Notices.choose_none {n : Notices} (h : ∀ g : Fin 9, n.ready g = 0#4) : n.choose = none := by
  have hfirst := firstGroup_allGroups n
  unfold Notices.choose
  cases hb : allGroups.foldl n.better none with
  | none => rfl
  | some g =>
    rw [hb] at hfirst
    exact absurd (h g) hfirst.2.1

/-- R203: the factor of the lowest level, then of the lowest group, then of the lowest number is chosen. -/
theorem Notices.choose_some {n : Notices} {g : Fin 9} {f : Fin 4} (hf : (n.ready g).getLsbD f.val = true)
    (hmin : ∀ (h : Fin 9) (k : Fin 4), (n.ready h).getLsbD k.val = true →
      n.levelOf g < n.levelOf h ∨ n.levelOf g = n.levelOf h ∧ (g < h ∨ g = h ∧ f ≤ k)) : n.choose = some (g, f) := by
  have hg : n.ready g ≠ 0#4 := by
    intro h0
    rw [h0] at hf
    simp at hf
  have hfirst := firstGroup_allGroups n
  unfold Notices.choose
  cases hb : allGroups.foldl n.better none with
  | none =>
    rw [hb] at hfirst
    exact absurd (hfirst g (mem_allGroups g)) hg
  | some x =>
    rw [hb] at hfirst
    obtain ⟨-, hx, hxmin⟩ := hfirst
    obtain ⟨k, hk⟩ : ∃ k : Fin 4, (n.ready x).getLsbD k.val = true := by
      by_contra hno
      refine hx (BitVec.eq_of_getLsbD_eq (fun i hi => ?_))
      simpa using fun ht => hno ⟨⟨i, hi⟩, ht⟩
    have hle := hxmin g (mem_allGroups g) hg
    have hge := hmin x k hk
    obtain rfl : x = g := by omega
    rw [Option.map_some, lowestFactor_eq hf (fun j hj => by simpa using hmin x j hj)]

/-! ### NOTICE (R189, R203) -/

theorem Notices.clear_pend (g h : Fin 9) (f k : Fin 4) (n : Notices) :
    (n.clear g f).pend[h.val].getLsbD k.val = (n.pend[h.val].getLsbD k.val && !(h = g && k = f)) := by
  have bits : ∀ (f k : Fin 4), (factorBit f).getLsbD k.val = decide (k = f) := by decide
  simp only [Notices.clear, upd_get]
  by_cases hg : g = h
  · subst hg
    rw [if_pos rfl, BitVec.getLsbD_and, BitVec.getLsbD_not, bits]
    simp
  · simp [hg, Ne.symm hg]

/-- R201, R203: a command that changes the notices and the link alone writes the pending set. -/
theorem publish_unchanged_notices {s u : State} (hu : u = { s with notices := u.notices, link := u.link }) :
    Unchanged inPendingSet s (publish s (signalLine s u)) := by
  refine publish_unchanged_table (by rw [hu]) (fun _ _ => by rw [hu])
    (.inr fun st _ _ => by rw [hu]; rfl) (.inl fun _ => id)

theorem Link.signal_with_readData (l : Link) (x : List Byte) (before after : Bool) :
    { l with readData := x }.signal before after = { l.signal before after with readData := x } := by
  unfold Link.signal
  by_cases hu : l.up = true
  · rw [if_pos hu]
    exact if_pos hu
  · rw [if_neg hu]
    exact if_neg hu

theorem readTakesTheFirstFactor : ReadTakesTheFirstFactor := by
  intro s lanes
  refine ⟨fun hall => ?_, fun g f hf hmin => ?_⟩
  · change commit s (returnRead lanes (noticeValue s.notices.choose) (takeNotice s)) = _
    rw [takeNotice, Notices.choose_none hall]
    exact commit_quiet rfl rfl
  · have hon : s.notices.asserted = true := by
      refine s.notices.asserted_iff.2 ⟨g, fun h0 => ?_⟩
      rw [h0] at hf
      simp at hf
    have hu : takeNotice s = { s with notices := s.notices.clear g f } := by
      rw [takeNotice, Notices.choose_some hf hmin]
    refine ⟨_, rfl, ?_, fun h k => ?_, ?_, ?_⟩
    · have hlink (x : List Byte) (y : Bool) :
          { s.link with readData := x }.signal s.notices.asserted y = { s.link.signal true y with readData := x } := by
        rw [hon, Link.signal_with_readData]
      rw [hu, Notices.choose_some hf hmin]
      exact congrArg (fun l => { publish s _ with link := l }) (hlink _ _)
    · rw [hu]
      simpa [returnRead] using Notices.clear_pend g h f k s.notices
    · exact Notices.asserted_iff _
    · refine publish_unchanged_notices ?_
      rw [hu]
      rfl

/-! ### The notice line on the link (R202) -/

theorem Link.signal_of_up {l : Link} (hd : l.down = false) (hp : l.perst = false) (before after : Bool) :
    l.signal before after = { l with sent := l.sent ++ lineSignals l.form before after } :=
  if_pos (by rw [Link.up, hd, hp]; rfl)

theorem lineIsSentInItsForm : LineIsSentInItsForm := by
  intro l before after
  refine ⟨?_, fun hd hp => ⟨fun hf => ⟨?_, ?_⟩, fun hf => ⟨?_, ?_⟩⟩⟩
  · rintro (hd | hp | rfl)
    · simp [Link.signal, Link.up, hd]
    · simp [Link.signal, Link.up, hp]
    · exact Link.signal_same l before
  · rw [Link.signal_of_up hd hp, hf, lineSignals]
  · have hnone : lineSignals .message true false = [] := rfl
    rw [Link.signal_of_up hd hp, hf, hnone, List.append_nil]
    simp [← hf]
  · rw [Link.signal_of_up hd hp, hf, lineSignals]
  · rw [Link.signal_of_up hd hp, hf, lineSignals]

/-! ### Reads without an effect (R134, R189) -/

theorem bit_eq_one (x : Bool) : bit x = 1 ↔ x = true := by
  cases x <;> simp [bit]

theorem codes_lt (c : Control) (n : Notices) (x : Source) : deviceCode c.device < 4 ∧ outcomeCode c.outcome < 4
    ∧ profileErrorCode c.profileError < 8 ∧ sourceCode x < 2 ∧ bit n.asserted < 2 := by
  refine ⟨?_, ?_, ?_, ?_, ?_⟩
  · cases c.device <;> decide
  · cases c.outcome <;> decide
  · cases c.profileError <;> decide
  · cases x <;> decide
  · cases n.asserted <;> decide

/-- 12.9: the fields of STATUS fit their places. -/
theorem statusRegister_toNat {s : State} (hm : s.time.milestone ≤ 4) (he : s.ctl.errorIndex < 32) :
    (statusRegister s).toNat = deviceCode s.ctl.device + 4 * outcomeCode s.ctl.outcome
      + 16 * profileErrorCode s.ctl.profileError + 128 * sourceCode s.time.source
      + 256 * s.time.milestone + 2048 * bit s.notices.asserted + 65536 * s.ctl.errorIndex := by
  obtain ⟨hdev, hout, herr, hsrc, hbit⟩ := codes_lt s.ctl s.notices s.time.source
  rw [statusRegister, BitVec.toNat_ofNat]
  omega

theorem plainReadsReturnTheirFields : PlainReadsReturnTheirFields := by
  intro s
  refine ⟨rfl, fun b => ?_, ?_, fun hm he => ?_⟩
  · change (s.disp.hold.setWidth 32).getLsbD b = _
    rw [BitVec.getLsbD_setWidth]
    by_cases hb : b < 8
    · simp [hb, show b < 32 by omega]
    · simp [hb, BitVec.getLsbD_of_ge s.disp.hold b (by omega)]
  · intro a ha
    have hne : a ≠ 0x00 ∧ a ≠ 0x04 ∧ a ≠ 0x14 := by omega
    rw [plainRead, if_neg hne.1, if_neg hne.2.1, if_neg hne.2.2]
  · obtain ⟨hdev, hout, herr, hsrc, hbit⟩ := codes_lt s.ctl s.notices s.time.source
    have hv : (plainRead 0x04 s).toNat = _ := statusRegister_toNat hm he
    refine ⟨?_, ?_, ?_, ?_, by omega, ?_, by omega, by omega, by omega⟩
    · trans deviceCode s.ctl.device
      · omega
      · cases s.ctl.device <;> rfl
    · trans outcomeCode s.ctl.outcome
      · omega
      · cases s.ctl.outcome <;> rfl
    · trans profileErrorCode s.ctl.profileError
      · omega
      · cases s.ctl.profileError <;> rfl
    · trans sourceCode s.time.source
      · omega
      · cases s.time.source <;> rfl
    · rw [← Notices.asserted_iff, ← bit_eq_one]
      omega

/-- Settles O52. -/
theorem noticeReadTakesTheFirstFactor : Obligations.NoticeReadTakesTheFirstFactor :=
  ⟨readTakesTheFirstFactor, lineIsSentInItsForm, plainReadsReturnTheirFields⟩

end Sys2Proof.Machine
end

section
/-! PROOF. The cards in memory over a condition event: only a PARKED slot's card is written, by its release (R112 to
R118, R127, R132). -/

namespace Sys2Proof.Machine

/-! ### The end of a card (R127, R140) -/

/-- R140 step 1, R141: a slot that ends is DONE with its end; one that was not in service has its start time equal to
its end time. -/
theorem closeCard_slot (i : Slot) (st : Status) (d : BitVec 16) (r : BitVec 64) (finish : Tick) (s : State) :
    ∃ y, (closeCard i st d r finish s).slots[i.val] = y ∧ y.state = .done ∧ y.status = st ∧ y.detail = d
      ∧ y.result = r ∧ y.finish = finish ∧ (s.slots[i.val].state ≠ .inService → y.start = finish) := by
  by_cases hs : s.slots[i.val].state = .inService
  · rw [closeCard_slots_served st d r finish hs, upd_self]
    exact ⟨_, rfl, rfl, rfl, rfl, rfl, rfl, fun hn => absurd hs hn⟩
  · rw [closeCard_slots st d r finish hs, upd_self]
    exact ⟨_, rfl, rfl, rfl, rfl, rfl, rfl, fun _ => rfl⟩

/-- R127, R140: the fields of its card that an end writes, those of a slot that was not in service with its start
time. -/
theorem closeCard_fields (i : Slot) (st : Status) (d : BitVec 16) (r : BitVec 64) (finish : Tick) (s : State) :
    ∃ fs : List Field, (closeCard i st d r finish s).mem = fs.foldl Memory.writeField s.mem
      ∧ fs ⊆ cardFields i (closeCard i st d r finish s).slots[i.val]
      ∧ endFields i (closeCard i st d r finish s).slots[i.val] ⊆ fs
      ∧ (s.slots[i.val].state ≠ .inService → startField i (closeCard i st d r finish s).slots[i.val] ∈ fs) := by
  obtain ⟨y, hy, hdone, rfl, rfl, rfl, rfl, hstart⟩ := closeCard_slot i st d r finish s
  rw [hy]
  have written (x : State) :
      (writeEnd i y.status y.detail y.finish y.result x).mem = (endFields i y).foldl Memory.writeField x.mem := by
    simp only [writeEnd, writeCardState, State.store_mem, endFields, hdone, List.foldl_cons, List.foldl_nil]
    rfl
  by_cases hs : s.slots[i.val].state = .inService
  · refine ⟨endFields i y, ?_, fun f hf => List.mem_cons_of_mem _ (List.mem_cons_of_mem _ hf), List.Subset.refl _,
      fun hn => absurd hs hn⟩
    simp only [closeCard, hs, if_true, State.modSlot_mem, written]
  · refine ⟨startField i y :: endFields i y, ?_, fun f hf => List.mem_cons_of_mem _ hf,
      fun f hf => List.mem_cons_of_mem _ hf, fun _ => List.mem_cons_self⟩
    have hfirst : (writeCardTime i 0x50 y.finish.toNat s).mem = s.mem.writeField (startField i y) := by
      rw [startField, hstart hs]
      rfl
    simp only [closeCard, hs, if_false, State.modSlot_mem, written, hfirst, List.foldl_cons]

/-- R127: the end of a slot leaves the cards of the others. -/
theorem closeCard_other {i k : Slot} (st : Status) (d : BitVec 16) (r : BitVec 64) (finish : Tick) (s : State)
    (hk : k ≠ i) {a : Nat} (h1 : cardAddr k ≤ a) (h2 : a < cardAddr k + 128) :
    (closeCard i st d r finish s).mem.read a = s.mem.read a := by
  obtain ⟨fs, hmem, hcard, -, -⟩ := closeCard_fields i st d r finish s
  rw [hmem, card_unwritten s.mem hcard]
  have hne : k.val ≠ i.val := fun h => hk (Fin.ext h)
  simp only [cardAddr] at h1 h2 ⊢
  omega

/-! ### Writes above the job table -/

/-- The job table and the memory below it stay. -/
def LowKept (s t : State) : Prop := ∀ a, a < 0x004000 → t.mem.read a = s.mem.read a

namespace LowKept

theorem refl (s : State) : LowKept s s := fun _ _ => rfl

theorem ofMem {s t : State} (h : t.mem = s.mem) : LowKept s t := fun _ _ => by rw [h]

theorem trans {s t u : State} (h : LowKept s t) (k : LowKept t u) : LowKept s u :=
  fun a ha => (k a ha).trans (h a ha)

theorem store {p : Nat} (hp : 0x004000 ≤ p) (bytes : List Byte) (s : State) : LowKept s (s.store p bytes) :=
  fun _ ha => Memory.read_writeBytes_other _ _ _ _ (.inl (ha.trans_le hp))

/-- R27, R42: a page delivered is written in the trace pages and the page state map. -/
theorem deliver (b : Bay) (u : PageUse) (s : State) : LowKept s (Machine.deliver b u s) := by
  have header (x : State) : LowKept x (writeHeader b u s.str[b.val].recycled s.str[b.val].lostTotal x) :=
    store (by simp only [pageAddr]; omega) _ x
  have page (x : State) : LowKept x (setPage u.page (.closed b) x) := fun a ha =>
    Memory.read_writeBytes_other _ _ _ _ (.inl (by simp only [mapAddr]; omega))
  have hmem : (Machine.deliver b u s).mem = (setPage u.page (.closed b)
      (writeHeader b u s.str[b.val].recycled s.str[b.val].lostTotal s)).mem := by
    simp only [Machine.deliver, raiseBay, State.modStr_mem]
  exact ((header s).trans (page _)).trans (.ofMem hmem)

theorem deliverAll (b : Bay) (us : List PageUse) (s : State) : LowKept s (Machine.deliverAll b us s) := by
  unfold Machine.deliverAll
  induction us generalizing s with
  | nil => exact refl s
  | cons u rest ih =>
    rw [Machine.forEach, List.foldl_cons]
    exact (deliver b u s).trans (ih _)

theorem toDraining (b : Bay) (s : State) : LowKept s (Machine.toDraining b s) := by
  refine .ofMem ?_
  unfold Machine.toDraining closeBatch
  split <;> simp only [State.modStr_mem, State.modCon_mem, offer]

theorem stopTrace (b : Bay) (p : Nat) (taken : Bool) (s : State) : LowKept s (Machine.stopTrace b p taken s) := by
  have mod (f : Stream → Stream) (x : State) : LowKept x (x.modStr b f) := .ofMem rfl
  have deliver (x : State) : LowKept x
      ((Machine.deliverAll b s.str[b.val].retained x).modStr b (fun t => { t with retained := [] })) :=
    (deliverAll b _ x).trans (mod _ _)
  unfold Machine.stopTrace
  simp only
  split
  · split <;> split
    · exact ((mod _ s).trans (deliver _)).trans (toDraining b _)
    · exact (mod _ s).trans (toDraining b _)
    · exact (mod _ s).trans (deliver _)
    · exact mod _ s
  · exact refl s

end LowKept

/-! ### What a condition event keeps of the cards -/

/-- What an event keeps, and the cards in memory of the slots that are not PARKED. -/
structure CardsKept (s t : State) : Prop extends EventKeeps s t where
  mem : ∀ i : Slot, s.slots[i.val].state ≠ .parked → ∀ a, cardAddr i ≤ a → a < cardAddr i + 128 →
    t.mem.read a = s.mem.read a

namespace CardsKept

theorem ofLow {s t : State} (h : EventKeeps s t) (k : LowKept s t) : CardsKept s t :=
  ⟨h, fun i _ a _ h2 => k a (by have := cardAddr_area i; omega)⟩

theorem refl (s : State) : CardsKept s s := ofLow (.refl s) (.refl s)

theorem trans {s t u : State} (h : CardsKept s t) (k : CardsKept t u) : CardsKept s u := by
  refine ⟨h.toEventKeeps.trans k.toEventKeeps, fun i hi a h1 h2 => ?_⟩
  have hi' : t.slots[i.val].state ≠ .parked := by rwa [h.slot i hi]
  exact (k.mem i hi' a h1 h2).trans (h.mem i hi a h1 h2)

/-- A PARKED slot that changes, with its card. -/
theorem ofParked {i : Slot} {s t : State} (h : EventKeeps s t) (hi : s.slots[i.val].state = .parked)
    (mem : ∀ k : Slot, k ≠ i → ∀ a, cardAddr k ≤ a → a < cardAddr k + 128 → t.mem.read a = s.mem.read a) :
    CardsKept s t := by
  refine ⟨h, fun k hk => mem k ?_⟩
  rintro rfl
  exact hk hi

theorem releaseSlot (i : Slot) (s : State) : CardsKept s (Machine.releaseSlot i s) := by
  have keeps := (ActionKeeps.releaseSlot i s).toEventKeeps
  unfold Machine.releaseSlot at keeps ⊢
  split
  · next hp =>
    have hi : s.slots[i.val].state = .parked := of_decide_eq_true hp
    rw [if_pos hp] at keeps
    refine ofParked keeps hi (fun k hk a h1 h2 => ?_)
    split
    · have hleft : (leaveOwnQueue i s).mem = s.mem := by
        unfold leaveOwnQueue
        split <;> rfl
      rw [← hleft, ← closeCard_other .stopped 0#16 0#64 s.now (leaveOwnQueue i s) hk h1 h2]
      simp only [endStopped, raiseBay, offerEnd, offer, State.modStr_mem]
    · have hreq : (requestSlot i s.now s).mem = s.mem := by
        unfold requestSlot
        simp only
        split <;> rfl
      have hne : k.val ≠ i.val := fun h => hk (Fin.ext h)
      rw [← hreq, writeCardState, State.store_mem]
      refine Memory.read_writeBytes_other _ _ _ _ ?_
      simp only [leBytes_length, cardAddr] at h1 h2 ⊢
      omega
  · exact refl s

theorem fire (b : Bay) (p : Program) (stage entry : Nat) (s : State) :
    CardsKept s (Machine.fire b p stage entry s) := by
  have event {x y : State} (h : ActionKeeps x y) (k : LowKept x y) : CardsKept x y := ofLow h.toEventKeeps k
  have hold (x : State) : CardsKept x (fireHold p b x) := by
    unfold fireHold
    split <;> exact event (.ofEq rfl rfl rfl rfl) (.ofMem rfl)
  have release (x : State) : CardsKept x (fireRelease p x) := by
    unfold fireRelease
    split
    · split
      · exact releaseSlot _ x
      · exact refl x
    · exact refl x
  have stop (k : Bool) (x : State) : CardsKept x (fireStopTrace p b k x) := by
    unfold fireStopTrace
    split
    · exact event (.stopTrace b _ k x) (.stopTrace b _ k x)
    · exact refl x
  have pulse (x : State) : CardsKept x (firePulse p b x) := by
    unfold firePulse
    split
    · split
      · have ended (y : State) : LowKept y (endLinesIfDone b y) := by
          refine .ofMem ?_
          unfold endLinesIfDone
          split
          · rfl
          · split <;> rfl
        exact event ((ActionKeeps.ofDrives (.arrive b _ _ _ x)).trans (.endLinesIfDone b _))
          ((LowKept.ofMem (by rw [(Drives.arrive b _ _ _ x).eq])).trans (ended _))
      · exact refl x
    · exact refl x
  have notice (x : State) : CardsKept x (fireNotice p b x) := by
    unfold fireNotice
    split <;> exact event (.ofEq rfl rfl rfl rfl) (.ofMem rfl)
  have fired (x : State) : CardsKept x (seqFired b stage entry x) := ofLow (.modSeq b _ x) (.ofMem rfl)
  have mark (body : RecordBody) (t : Tick) (x : State) : CardsKept x (offer b body t x) :=
    event (.offer b _ _ x) (.ofMem rfl)
  unfold Machine.fire
  exact ((((((fired s).trans (hold _)).trans (release _)).trans (mark _ _ _)).trans (stop _ _)).trans (pulse _)).trans
    (notice _)

theorem takeOutcome (b : Bay) (p : Program) (stage i : Nat) (e : Entry) (s : State) :
    CardsKept s (Machine.takeOutcome b p stage i e s) := by
  have enter (k : Nat) : CardsKept s (s.modSeq b (Sequencer.enter k s.now)) := ofLow (.modSeq b _ s) (.ofMem rfl)
  unfold Machine.takeOutcome
  split
  · exact fire b _ _ _ s
  · exact enter _
  · split
    · exact enter _
    · exact fire b _ _ _ s

theorem conditionEvent (b : Bay) (ev : Event) (s : State) : CardsKept s (Machine.conditionEvent b ev s) := by
  have counted (f : Sequencer → Sequencer) : CardsKept s (s.modSeq b f) := ofLow (.modSeq b _ s) (.ofMem rfl)
  unfold Machine.conditionEvent
  simp only
  split
  · split
    · split
      · exact (counted _).trans (takeOutcome b _ _ _ _ _)
      · exact counted _
    · exact refl s
  · exact refl s

/-- R140 steps 3 to 5. -/
theorem endSteps (i : Slot) (s : State) : CardsKept s (Machine.endSteps i s) := by
  have failed (x : State) : CardsKept x (jobFail i x) := by
    unfold jobFail
    simp only
    split
    · exact conditionEvent _ _ x
    · exact refl x
  have ended : CardsKept s (offerEnd i s) := ofLow (ActionKeeps.offer _ _ _ s).toEventKeeps (.ofMem rfl)
  have raised (x : State) (b : Bay) : CardsKept x (raiseBay b .jobDone x) := ofLow (.ofEq rfl rfl rfl) (.ofMem rfl)
  exact (ended.trans (failed _)).trans (raised _ _)

end CardsKept

end Sys2Proof.Machine
end

section
/-! PROOF. POSTs that are refused or fail intake (R125, R127 to R129, R141): O30. -/

namespace Sys2Proof.Machine

/-! ### Refused POSTs (R128) -/

theorem post_refused {s : State} {v : Word} (h : s.ctl.device ≠ .running ∨ 64 ≤ v.toNat % 256
      ∨ ∃ i : Slot, v.toNat % 256 = i.val ∧ (s.slots[i.val].state = .parked
        ∨ s.slots[i.val].state = .requested ∨ s.slots[i.val].state = .inService)) :
    exec (.post v) s = commit s (raiseFixture .badPost s) := by
  change execPost v s = _
  simp only [execPost, postSlot]
  split
  · next i hi =>
    have hv : v.toNat % 256 = i.val := by
      unfold slotOf at hi
      split at hi
      · cases hi
        rfl
      · cases hi
    have hno : s.takesPost i = false := by
      obtain h | h | ⟨k, hk, h⟩ := h
      · simp [State.takesPost, h]
      · omega
      · obtain rfl : k = i := Fin.ext (hk.symm.trans hv)
        obtain h | h | h := h <;> simp [State.takesPost, h]
    rw [hno, if_neg Bool.false_ne_true]
  · rfl

theorem refusedPostRaisesBadPost : RefusedPostRaisesBadPost := fun _ _ h =>
  ⟨_, (post_refused h).trans (commit_eq _ _), rfl, publish_unchanged_notices rfl⟩

/-! ### Ends of cards that were not in service (R127, R141) -/

theorem closeCard_eq (i : Slot) (st : Status) (d : BitVec 16) (r : BitVec 64) (finish : Tick) (s : State) :
    closeCard i st d r finish s = { s with
      slots := (closeCard i st d r finish s).slots, mem := (closeCard i st d r finish s).mem } := by
  unfold closeCard
  simp only
  split <;> simp only [writeEnd, writeCardState, writeCardTime, State.store, State.modSlot]

theorem State.eq_of_closed {s y z : State} (hy : y = { s with slots := y.slots, lanes := y.lanes })
    (hz : z = { y with slots := z.slots, mem := z.mem }) :
    z = { s with slots := z.slots, lanes := y.lanes, mem := z.mem } := hz.trans (by rw [hy])

theorem leaveOwnQueue_eq (i : Slot) (s : State) :
    leaveOwnQueue i s = { s with lanes := (leaveOwnQueue i s).lanes } := by
  unfold leaveOwnQueue
  split <;> rfl

/-- R127: the card of a slot that has ended shows its end. -/
theorem closeCard_showsEnd {s : State} (hw : s.mem.wf) (i : Slot) (st : Status) (d : BitVec 16) (r : BitVec 64)
    (finish : Tick) : CardShowsEnd (closeCard i st d r finish s).mem i (closeCard i st d r finish s).slots[i.val] := by
  obtain ⟨fs, hmem, hcard, hend, -⟩ := closeCard_fields i st d r finish s
  rw [hmem]
  exact cardShowsEnd_written hw hcard hend

theorem closeCard_shows {s : State} (hw : s.mem.wf) {i : Slot} (hi : s.slots[i.val].state ≠ .inService) (st : Status)
    (d : BitVec 16) (r : BitVec 64) (finish : Tick) :
    CardShows (closeCard i st d r finish s).mem i (closeCard i st d r finish s).slots[i.val] := by
  obtain ⟨fs, hmem, hcard, hend, hstart⟩ := closeCard_fields i st d r finish s
  rw [hmem]
  exact cardShows_written hw hcard hend (hstart hi)

section
variable {old s t : State} {i : Slot}

/-- R127: the card of a slot that is not PARKED stays over an event and a publication. -/
theorem CardsKept.published (h : CardsKept s t) (hi : s.slots[i.val].state ≠ .parked) {a : Nat}
    (h1 : cardAddr i + 0x40 ≤ a) (h2 : a < cardAddr i + 0x68) :
    (publish old (signalLine old t)).mem.read a = s.mem.read a :=
  (publish_card old _ i (by omega) (by omega)).trans (h.mem i hi a (by omega) (by omega))

theorem CardsKept.showsEnd (h : CardsKept s t) (hi : s.slots[i.val].state ≠ .parked)
    (hs : CardShowsEnd s.mem i s.slots[i.val]) :
    CardShowsEnd (publish old (signalLine old t)).mem i t.slots[i.val] := by
  rw [h.slot i hi]
  exact CardShowsEnd.congr hs (fun a => h.published hi)

theorem CardsKept.shows (h : CardsKept s t) (hi : s.slots[i.val].state ≠ .parked)
    (hs : CardShows s.mem i s.slots[i.val]) : CardShows (publish old (signalLine old t)).mem i t.slots[i.val] := by
  rw [h.slot i hi]
  exact CardShows.congr hs (fun a => h.published hi)

end

/-! ### Cards that fail intake (R129, R141) -/

/-- R129: a card fails intake with a failing status. -/
theorem intake_failed {enabled : BitVec 8} {i : Slot} {c : Card} {st : Status} {d : BitVec 16}
    (h : intake enabled i c = .failed st d) : failing st = true := by
  unfold intake at h
  split at h
  · cases h
  · split at h
    · cases h
      rfl
    · split at h
      · cases h
        rfl
      · split at h
        · cases h
          rfl
        · split at h
          · cases h
          · cases h
            rfl

/-- R129, R141: the slot record of a card that fails intake. -/
def failedSlot (c : Card) (now : Tick) (st : Status) (d : BitVec 16) : SlotRec :=
  { SlotRec.reset with
    state := .done
    card := c
    accept := now
    start := now
    finish := now
    status := st
    detail := d }

theorem closeCard_copied {s x : State} {i : Slot} {c : Card} (hx : x.slots = (copyCard i c s).slots)
    (hi : s.slots[i.val].state ≠ .inService) (st : Status) (d : BitVec 16) :
    (closeCard i st d 0#64 s.now x).slots = upd s.slots i (fun _ => failedSlot c s.now st d) := by
  have hne : x.slots[i.val].state ≠ .inService := by
    rw [hx, copyCard_self]
    exact hi
  rw [closeCard_slots _ _ _ _ hne, hx, copyCard, State.modSlot_slots, upd_upd]
  rfl

/-- R141: a card that fails intake, before its JOB_FAIL event. -/
def failedCard (i : Slot) (c : Card) (st : Status) (d : BitVec 16) (s : State) : State :=
  closeCard i st d 0#64 s.now (leaveOwnQueue i (copyCard i c s))

theorem failedCard_eq {s : State} {i : Slot} (hi : s.slots[i.val].state ≠ .inService) (c : Card) (st : Status)
    (d : BitVec 16) : failedCard i c st d s = { s with
      slots := upd s.slots i (fun _ => failedSlot c s.now st d)
      lanes := (leaveOwnQueue i (copyCard i c s)).lanes
      mem := (failedCard i c st d s).mem } := by
  have hslots : (failedCard i c st d s).slots = upd s.slots i (fun _ => failedSlot c s.now st d) :=
    closeCard_copied (leaveOwnQueue_slots i _) hi st d
  have left : leaveOwnQueue i (copyCard i c s) = { s with
      slots := (leaveOwnQueue i (copyCard i c s)).slots, lanes := (leaveOwnQueue i (copyCard i c s)).lanes } := by
    rw [leaveOwnQueue_slots]
    exact leaveOwnQueue_eq i (copyCard i c s)
  rw [← hslots]
  exact State.eq_of_closed left (closeCard_eq i st d 0#64 s.now _)

/-- R129, R141: the steps of a card that fails intake. -/
theorem takePost_failed {s : State} {i : Slot} {st : Status} {d : BitVec 16} (park : Bool)
    (hi : s.slots[i.val].state ≠ .inService)
    (ha : intake s.ctl.enabled i (readCard s.mem i) = .failed st d) :
    takePost i park s = raiseBay (readCard s.mem i).bayIx .jobDone
      (conditionEvent (readCard s.mem i).bayIx (.jobFail i (readCard s.mem i).kind.toNat st)
        (offer (readCard s.mem i).bayIx (.jobEnd i st (readCard s.mem i).tag) s.now
          (failedCard i (readCard s.mem i) st d s))) := by
  have hslot : (failedCard i (readCard s.mem i) st d s).slots[i.val] = failedSlot (readCard s.mem i) s.now st d := by
    rw [failedCard_eq hi, upd_self]
  have hsteps : takePost i park s = endSteps i (failedCard i (readCard s.mem i) st d s) := by
    simp only [takePost, ha]
    rfl
  have hoffer : offerEnd i (failedCard i (readCard s.mem i) st d s) = offer (readCard s.mem i).bayIx
      (.jobEnd i st (readCard s.mem i).tag) s.now (failedCard i (readCard s.mem i) st d s) := by
    rw [offerEnd, hslot]
    rfl
  rw [hsteps, endSteps, hoffer, jobFail, offer, State.modStr_slots, hslot]
  simp only [failedSlot, intake_failed ha, if_true]

/-- R201: a factor of a bay that has been raised is pending. -/
theorem Notices.raise_pend (g : Fin 9) (f : Fin 4) (n : Notices) : (n.raise g f).pend[g.val].getLsbD f.val = true := by
  have bit : ∀ f : Fin 4, (factorBit f).getLsbD f.val = true := by decide
  simp only [Notices.raise, upd_self, BitVec.getLsbD_or, bit, Bool.or_true]

/-- R128, R129: a bay above 7 ends the card and raises BAD_POST. -/
theorem takePost_badBay {s : State} {i : Slot} (park : Bool) (hi : s.slots[i.val].state ≠ .inService)
    (ha : intake s.ctl.enabled i (readCard s.mem i) = .badBay) :
    takePost i park s = raiseFixture .badPost
        (closeCard i .badCard 1#16 0#64 s.now (copyCard i (readCard s.mem i) s))
      ∧ takePost i park s = { s with
        slots := upd s.slots i (fun _ => failedSlot (readCard s.mem i) s.now .badCard 1#16)
        notices := s.notices.raise 0 2
        mem := (closeCard i .badCard 1#16 0#64 s.now (copyCard i (readCard s.mem i) s)).mem } := by
  have htake : takePost i park s = raiseFixture .badPost
      (closeCard i .badCard 1#16 0#64 s.now (copyCard i (readCard s.mem i) s)) := by
    simp only [takePost, ha]
    rfl
  refine ⟨htake, ?_⟩
  have hslots := closeCard_copied (x := copyCard i (readCard s.mem i) s) rfl hi .badCard 1#16
  rw [htake, closeCard_eq, hslots]
  rfl

theorem failedIntake_badBay {s : State} {i : Slot} (park : Bool) (hwf : s.mem.wf)
    (hfree : s.slots[i.val].state = .free ∨ s.slots[i.val].state = .done)
    (hi : s.slots[i.val].state ≠ .inService) (ha : intake s.ctl.enabled i (readCard s.mem i) = .badBay) :
    CardShows (publish s (signalLine s (takePost i park s))).mem i (takePost i park s).slots[i.val]
      ∧ Unchanged (fun a => inPendingSet a ∨ (cardAddr i + 0x40 ≤ a ∧ a < cardAddr i + 0x68)) s
        (publish s (signalLine s (takePost i park s))) := by
  obtain ⟨htake, hu⟩ := takePost_badBay park hi ha
  have hcopied : (copyCard i (readCard s.mem i) s).slots[i.val].state ≠ .inService := by
    rw [copyCard_self]
    exact hi
  have hdone :
      (closeCard i .badCard 1#16 0#64 s.now (copyCard i (readCard s.mem i) s)).slots[i.val].state ≠ .parked := by
    rw [closeCard_copied rfl hi, upd_self]
    exact SlotState.noConfusion
  constructor
  · have raised : CardsKept (closeCard i .badCard 1#16 0#64 s.now (copyCard i (readCard s.mem i) s))
        (takePost i park s) := by
      rw [htake]
      exact .ofLow (.ofEq rfl rfl rfl) (.ofMem rfl)
    exact raised.shows hdone (closeCard_shows (s := copyCard i (readCard s.mem i) s) hwf hcopied _ _ _ _)
  · obtain ⟨fs, hmem, hcard, -, -⟩ := closeCard_fields i .badCard 1#16 0#64 s.now (copyCard i (readCard s.mem i) s)
    refine publish_unchanged_table (by rw [hu]) (fun a h => ?_)
      (.inr fun st hf hd => State.countSlots_of_iff (fun k => ?_))
      (.inl fun _ => .inl)
    · rw [hu, hmem]
      exact card_unwritten s.mem hcard (fun hin => h (.inr hin))
    · rw [hu]
      by_cases hk : k = i
      · subst hk
        rw [upd_self]
        refine iff_of_false (fun h => hd h.symm) (fun h => ?_)
        exact hfree.elim (fun h0 => hf (h.symm.trans h0)) (fun h0 => hd (h.symm.trans h0))
      · rw [upd_ne _ _ (Ne.symm hk)]

/-- R129, R141: what a card that fails intake leaves, its JOB_FAIL event taken. -/
theorem takePost_failed_keeps {s : State} {i : Slot} {st : Status} {d : BitVec 16} (park : Bool)
    (hi : s.slots[i.val].state ≠ .inService) (ha : intake s.ctl.enabled i (readCard s.mem i) = .failed st d) :
    CardsKept (failedCard i (readCard s.mem i) st d s) (takePost i park s) := by
  have offered (b : Bay) (body : RecordBody) (t : Tick) (x : State) : CardsKept x (offer b body t x) :=
    .ofLow (.ofEq rfl rfl rfl) (.ofMem rfl)
  have raised (b : Bay) (x : State) : CardsKept x (raiseBay b .jobDone x) := .ofLow (.ofEq rfl rfl rfl) (.ofMem rfl)
  rw [takePost_failed park hi ha]
  exact ((offered _ _ _ _).trans (.conditionEvent _ _ _)).trans (raised _ _)

theorem failedIntakeEndsTheCard : FailedIntakeEndsTheCard := by
  intro s v i hv hrun hwf hfree
  have hi : s.slots[i.val].state ≠ .inService := by
    obtain h | h := hfree <;> simp [h]
  have hpost := post_taken hv hrun hfree
  refine ⟨fun ha => ?_, fun st d ha => ?_⟩
  · obtain ⟨-, hu⟩ := takePost_badBay (v.getLsbD 8) hi ha
    obtain ⟨hshows, hun⟩ := failedIntake_badBay (v.getLsbD 8) hwf hfree hi ha
    refine ⟨_, hpost.trans (commit_eq _ _), ?_, hshows, hun⟩
    rw [hu]
    rfl
  · have keeps := takePost_failed_keeps (v.getLsbD 8) hi ha
    have heq := failedCard_eq hi (readCard s.mem i) st d
    have hslot : (failedCard i (readCard s.mem i) st d s).slots[i.val] = failedSlot (readCard s.mem i) s.now st d := by
      rw [heq, upd_self]
    have hdone : (failedCard i (readCard s.mem i) st d s).slots[i.val].state ≠ .parked := by
      rw [hslot]
      exact SlotState.noConfusion
    have heffects : Effects s (takePost i (v.getLsbD 8) s) := by
      rw [takePost, ha]
      exact (Effects.modSlot i _ s).trans (.endUndispatched i st d 0#64 _)
    have htake := takePost_failed (v.getLsbD 8) hi ha
    obtain ⟨t, ht, hcommit, hafter⟩ := afterEvents (s := s) heffects rfl
    subst hcommit
    refine ⟨_, hpost.trans ht, hafter, ?_, ?_, ?_, ?_, fun hs => ?_⟩
    · rw [publish_slots, signalLine_slots]
      exact (keeps.slot i hdone).trans (by rw [hslot]; rfl)
    · refine keeps.shows hdone (closeCard_shows ?_ ?_ _ _ _ _)
      · rw [leaveOwnQueue_eq]
        exact hwf
      · rw [leaveOwnQueue_slots, copyCard_self]
        exact hi
    · rw [publish_notices, signalLine_notices, htake]
      exact Notices.raise_pend _ 0 _
    · rw [publish_seq, signalLine_seq, htake, raiseBay_seq]
      refine congrArg (fun q => q[(readCard s.mem i).bayIx.val]) (conditionEvent_seq_congr ?_ ?_ _ _)
      · rw [offer, State.modStr_seq, heq]
      · rw [offer, State.modStr_time, heq]
    · rw [conditionEvent_of_not_armed (by rw [offer, State.modStr_seq, heq]; exact hs)] at htake
      have hu : takePost i (v.getLsbD 8) s = { s with
          slots := upd s.slots i (fun _ => failedSlot (readCard s.mem i) s.now st d)
          lanes := (takePost i (v.getLsbD 8) s).lanes
          str := upd s.str (readCard s.mem i).bayIx
            (fun q => q.offer ⟨s.now, .jobEnd i st (readCard s.mem i).tag⟩)
          notices := (takePost i (v.getLsbD 8) s).notices
          mem := (takePost i (v.getLsbD 8) s).mem } := by
        rw [htake, heq]
        rfl
      rw [hu]
      refine ⟨rfl, fun k hk => ?_, rfl, rfl, rfl, rfl, rfl⟩
      exact upd_ne _ _ hk.symm

/-- Settles O30. -/
theorem postIsRefusedOrEndsAtIntake : Obligations.PostIsRefusedOrEndsAtIntake :=
  ⟨refusedPostRaisesBadPost, failedIntakeEndsTheCard⟩

end Sys2Proof.Machine
end

section
/-! PROOF. The end that the Dispatcher takes at JOB_END (R127, R138, R140, R151): O36. -/

namespace Sys2Proof.Machine

/-! ### The steps of an end (R140) -/

/-- R140 steps 1 and 2: a slot in service is DONE with its end and leaves its lane. -/
def endedCard (i : Slot) (st : Status) (p : Report) (s : State) : State :=
  leaveService i (closeCard i st p.detail p.result p.time s)

/-- R140 step 1: the slot record of a job that has ended. -/
def endedSlot (st : Status) (p : Report) (r : SlotRec) : SlotRec :=
  { r with
    state := .done
    status := st
    detail := p.detail
    result := p.result
    finish := p.time
    mark := none
    stopMark := false
    deadline := none
    report := none }

theorem leaveService_eq (i : Slot) (s : State) : leaveService i s = { s with lanes := (leaveService i s).lanes } := by
  unfold leaveService
  simp only
  split <;> rfl

section
variable {s : State} {i : Slot}

theorem endedCard_eq (hi : s.slots[i.val].state = .inService) (st : Status) (p : Report) :
    endedCard i st p s = { s with
      slots := upd s.slots i (endedSlot st p)
      lanes := (endedCard i st p s).lanes
      mem := (closeCard i st p.detail p.result p.time s).mem } := by
  have hslots : (closeCard i st p.detail p.result p.time s).slots = upd s.slots i (endedSlot st p) :=
    closeCard_slots_served st p.detail p.result p.time hi
  have hclosed := closeCard_eq i st p.detail p.result p.time s
  rw [hslots] at hclosed
  refine (leaveService_eq i _).trans ?_
  rw [← endedCard]
  exact congrArg (fun x : State => { x with lanes := (endedCard i st p s).lanes }) hclosed

theorem endedCard_slot (hi : s.slots[i.val].state = .inService) (st : Status) (p : Report) :
    (endedCard i st p s).slots[i.val] = endedSlot st p s.slots[i.val] := by
  rw [endedCard_eq hi, upd_self]

/-- R140 step 2: the lane of a job that has ended serves none. -/
theorem endedCard_service (st : Status) (p : Report) {l : Lane} (hl : s.slots[i.val].card.lane = some l) :
    ((endedCard i st p s).lane s.slots[i.val].card.bayIx l).service = none := by
  have hcard := (JobsKept.closeCard i st p.detail p.result p.time s).card i
  rw [endedCard, leaveService_lane (hcard ▸ hl), hcard, if_pos ⟨rfl, rfl⟩]

/-- R140 steps 3 to 5, of a job that has ended. -/
theorem endSteps_ended (hi : s.slots[i.val].state = .inService) (st : Status) (p : Report) :
    endSteps i (endedCard i st p s) = raiseBay s.slots[i.val].card.bayIx .jobDone
      (if failing st = true then conditionEvent s.slots[i.val].card.bayIx (.jobFail i s.slots[i.val].card.kind.toNat st)
        (offer s.slots[i.val].card.bayIx (.jobEnd i st s.slots[i.val].card.tag) p.time (endedCard i st p s))
      else offer s.slots[i.val].card.bayIx (.jobEnd i st s.slots[i.val].card.tag) p.time (endedCard i st p s)) := by
  have hslot := endedCard_slot hi st p
  have hoffer : offerEnd i (endedCard i st p s) = offer s.slots[i.val].card.bayIx
      (.jobEnd i st s.slots[i.val].card.tag) p.time (endedCard i st p s) := by
    rw [offerEnd, hslot]
    rfl
  rw [endSteps, hoffer, jobFail, offer, State.modStr_slots, hslot]
  rfl

/-- R140 step 4: the sequencers take the JOB_FAIL event as before the end. -/
theorem endSteps_ended_failing (hi : s.slots[i.val].state = .inService) {st : Status} (p : Report)
    (hf : failing st = true) : (endSteps i (endedCard i st p s)).seq
      = (conditionEvent s.slots[i.val].card.bayIx (.jobFail i s.slots[i.val].card.kind.toNat st) s).seq := by
  rw [endSteps_ended hi, if_pos hf, raiseBay_seq]
  refine conditionEvent_seq_congr ?_ ?_ _ _
  · rw [offer, State.modStr_seq, endedCard_eq hi]
  · rw [offer, State.modStr_time, endedCard_eq hi]

/-- R140: an end that hands no event to an armed sequencer offers its record alone. -/
theorem endSteps_ended_quiet (hi : s.slots[i.val].state = .inService) {st : Status} (p : Report)
    (hq : failing st = false ∨ s.seq[s.slots[i.val].card.bayIx.val].state ≠ .armed) :
    (endSteps i (endedCard i st p s)).seq = s.seq
      ∧ (endSteps i (endedCard i st p s)).str = upd s.str s.slots[i.val].card.bayIx
        (fun q => q.offer ⟨p.time, .jobEnd i st s.slots[i.val].card.tag⟩) := by
  have hsteps : endSteps i (endedCard i st p s) = raiseBay s.slots[i.val].card.bayIx .jobDone
      (offer s.slots[i.val].card.bayIx (.jobEnd i st s.slots[i.val].card.tag) p.time (endedCard i st p s)) := by
    rw [endSteps_ended hi]
    split
    · next hf =>
      have hs := hq.resolve_left (by simp [hf])
      rw [conditionEvent_of_not_armed (by rw [offer, State.modStr_seq, endedCard_eq hi]; exact hs)]
    · rfl
  rw [hsteps, raiseBay_seq, raiseBay_str, offer, State.modStr_seq, State.modStr_str, endedCard_eq hi]
  exact ⟨rfl, rfl⟩

end

/-! ### The engine of a SCAN job (R138, R140 step 6) -/

theorem freeEngine_eq (i : Slot) (s : State) :
    freeEngine i s = { s with disp := (freeEngine i s).disp, eng := (freeEngine i s).eng } := by
  unfold freeEngine
  simp only
  split
  · split <;> rfl
  · rfl

theorem freeEngine_scan {i : Slot} {s : State} (hk : s.slots[i.val].card.jobKind = some .scan) :
    (freeEngine i s).disp.rotation
        = s.disp.rotation.filter (fun c => c ≠ s.slots[i.val].card.bayIx) ++ [s.slots[i.val].card.bayIx]
      ∧ ∀ e, s.engineOf s.slots[i.val].card.bayIx = some e →
        (freeEngine i s).eng = upd s.eng e (fun _ => Engine.reset) := by
  unfold freeEngine
  simp only [hk, if_true]
  split
  · next e he =>
    refine ⟨rfl, fun k hke => ?_⟩
    obtain rfl := Option.some.inj (he.symm.trans hke)
    rfl
  · next he =>
    exact ⟨rfl, fun k hke => by rw [he] at hke; cases hke⟩

theorem freeEngine_other {i : Slot} {s : State} (hk : s.slots[i.val].card.jobKind ≠ some .scan) :
    freeEngine i s = s := by
  simp only [freeEngine, hk, if_false]

/-! ### JOB_END -/

theorem jobEnd_taken {s : State} {i : Slot} {p : Report} (hp : s.slots[i.val].report = some p)
    (hi : s.slots[i.val].state = .inService) : exec (.jobEnd i) s
      = commit s (freeEngine i (endSteps i (endedCard i
          (if s.slots[i.val].stopMark then .stopped else p.status) p s))) := by
  change execJobEnd i s = _
  simp only [execJobEnd, hp, hi, if_true, SlotRec.endStatus, endedCard]

/-- Settles O36. -/
theorem reportedEndIsTaken : Obligations.ReportedEndIsTaken := by
  rintro s i p st hp hi hwf hst
  have hexec := jobEnd_taken hp hi
  rw [← hst] at hexec
  have hclosed : Effects s (endedCard i st p s) := (Effects.closeCard i _ _ _ _ s).trans (.leaveService i _)
  have heffects := hclosed.trans (.endSteps i _)
  have hqueues := QueuesKept.endSteps i (endedCard i st p s)
  have hcards := CardsKept.endSteps i (endedCard i st p s)
  have hslot := endedCard_slot hi st p
  have hdone : (endedCard i st p s).slots[i.val].state ≠ .parked := by
    rw [hslot]
    exact SlotState.noConfusion
  have hraised := endSteps_ended hi st p
  have hfailing := endSteps_ended_failing hi (st := st) p
  have hquiet := endSteps_ended_quiet hi (st := st) p
  generalize endSteps i (endedCard i st p s) = w at *
  have hfree := freeEngine_eq i w
  have hcard : w.slots[i.val].card = s.slots[i.val].card := (hqueues.card i).trans (by rw [hslot]; rfl)
  have hrotation : w.disp.rotation = s.disp.rotation := hqueues.rotation.trans (by rw [endedCard_eq hi])
  obtain ⟨t, ht, hcommit, hafter⟩ := afterJobs (s := s) (heffects.toWide.trans (Wide.freeEngine i w)) rfl
  subst hcommit
  refine ⟨_, hexec.trans ht, hafter, ?_, ?_, ?_, fun l hl => ?_, ?_, fun hq => ?_, fun hf => ?_, fun hk => ?_,
    fun hk => ?_⟩
  · rw [publish_code, signalLine_code, hfree]
    exact heffects.code
  · rw [publish_slots, signalLine_slots, hfree]
    exact (hcards.slot i hdone).trans (by rw [hslot]; rfl)
  · have hkept : CardsKept (endedCard i st p s) (freeEngine i w) := by
      refine hcards.trans ?_
      rw [hfree]
      exact .ofLow (.ofEq rfl rfl rfl) (.ofMem rfl)
    have hshown : CardShowsEnd (endedCard i st p s).mem i (endedCard i st p s).slots[i.val] := by
      rw [endedCard, leaveService_eq]
      exact closeCard_showsEnd hwf i st p.detail p.result p.time
    exact hkept.showsEnd hdone hshown
  · rw [State.lane_congr (publish_lanes _ _), State.lane_congr (signalLine_lanes _ _), hfree]
    exact (hqueues.service _ l).trans (endedCard_service st p hl)
  · rw [publish_notices, signalLine_notices, hfree, hraised]
    exact Notices.raise_pend _ 0 _
  · rw [publish_seq, publish_str, signalLine_seq, signalLine_str, hfree]
    exact hquiet hq
  · rw [publish_seq, signalLine_seq, hfree, hfailing hf]
  · obtain ⟨hlast, hfreed⟩ := freeEngine_scan (s := w) (hcard ▸ hk)
    rw [hcard, hrotation] at hlast
    rw [hcard, State.engineOf_congr (s := s) (t := w) (fun e => by rw [heffects.eng]), heffects.eng] at hfreed
    rw [publish_disp, publish_eng, signalLine_disp, signalLine_eng]
    exact ⟨hlast, hfreed⟩
  · rw [publish_disp, publish_eng, signalLine_disp, signalLine_eng, freeEngine_other (by rwa [hcard])]
    exact ⟨heffects.eng, hrotation⟩

end Sys2Proof.Machine
end

section
/-! PROOF. A dispatch and the hand-over to the job's owner (R127, R135, R139, R146): O35. -/

namespace Sys2Proof.Machine

/-! ### Hand-overs (R139 step 3) -/

/-- What a bay's owner leaves as it takes a job: memory, the Dispatcher and every slot but for its report, the blocks of
the other bays, and the records that wait in the bay's stream. -/
structure HandedOver (b : Bay) (s t : State) : Prop where
  eq : t = { s with
    con := t.con, seq := t.seq, drv := t.drv, str := t.str, slots := t.slots, eng := t.eng, port := t.port }
  slot : ∀ k : Slot, t.slots[k.val] = { s.slots[k.val] with report := t.slots[k.val].report }
  other : ∀ c : Bay, c ≠ b → t.str[c.val] = s.str[c.val] ∧ t.con[c.val] = s.con[c.val]
    ∧ t.drv[c.val] = s.drv[c.val] ∧ t.seq[c.val] = s.seq[c.val]
  queue : s.str[b.val].queue <+: t.str[b.val].queue

namespace HandedOver

variable {b : Bay}

theorem refl (s : State) : HandedOver b s s :=
  ⟨rfl, fun _ => rfl, fun _ _ => ⟨rfl, rfl, rfl, rfl⟩, List.prefix_rfl⟩

theorem trans {s t u : State} (h : HandedOver b s t) (k : HandedOver b t u) : HandedOver b s u where
  eq := k.eq.trans (by rw [h.eq])
  slot i := by rw [k.slot i, h.slot i]
  other c hc := by
    obtain ⟨hstr, hcon, hdrv, hseq⟩ := h.other c hc
    obtain ⟨kstr, kcon, kdrv, kseq⟩ := k.other c hc
    exact ⟨kstr.trans hstr, kcon.trans hcon, kdrv.trans hdrv, kseq.trans hseq⟩
  queue := h.queue.trans k.queue

theorem forEach {α : Type} (xs : List α) {f : α → State → State} (h : ∀ x s, HandedOver b s (f x s)) (s : State) :
    HandedOver b s (Machine.forEach xs f s) := by
  induction xs generalizing s with
  | nil => exact refl s
  | cons x rest ih => exact (h x s).trans (ih (f x s))

theorem modCon (f : Console → Console) (s : State) : HandedOver b s (s.modCon b f) :=
  ⟨rfl, fun _ => rfl, fun _ hc => ⟨rfl, upd_ne s.con f hc.symm, rfl, rfl⟩, List.prefix_rfl⟩

theorem modSeq (f : Sequencer → Sequencer) (s : State) : HandedOver b s (s.modSeq b f) :=
  ⟨rfl, fun _ => rfl, fun _ hc => ⟨rfl, rfl, rfl, upd_ne s.seq f hc.symm⟩, List.prefix_rfl⟩

theorem modDrv (f : Driver → Driver) (s : State) : HandedOver b s (s.modDrv b f) :=
  ⟨rfl, fun _ => rfl, fun _ hc => ⟨rfl, rfl, upd_ne s.drv f hc.symm, rfl⟩, List.prefix_rfl⟩

theorem modStr {f : Stream → Stream} (hf : ∀ t, t.queue <+: (f t).queue) (s : State) :
    HandedOver b s (s.modStr b f) := by
  refine ⟨rfl, fun _ => rfl, fun _ hc => ⟨upd_ne s.str f hc.symm, rfl, rfl, rfl⟩, ?_⟩
  rw [State.modStr_str, upd_self]
  exact hf _

theorem modStr_queue {f : Stream → Stream} (s : State) (hf : ∀ t, (f t).queue = t.queue := by exact fun _ => rfl) :
    HandedOver b s (s.modStr b f) := modStr (fun t => (hf t).symm ▸ List.prefix_rfl) s

theorem modEng (e : EngineId) (f : Engine → Engine) (s : State) : HandedOver b s (s.modEng e f) :=
  ⟨rfl, fun _ => rfl, fun _ _ => ⟨rfl, rfl, rfl, rfl⟩, List.prefix_rfl⟩

theorem modPort (c : Bay) (f : ScanPort → ScanPort) (s : State) : HandedOver b s (s.modPort c f) :=
  ⟨rfl, fun _ => rfl, fun _ _ => ⟨rfl, rfl, rfl, rfl⟩, List.prefix_rfl⟩

theorem report (i : Slot) (st : Status) (d : BitVec 16) (r : BitVec 64) (s : State) :
    HandedOver b s (Machine.report i st d r s) := by
  refine ⟨rfl, fun k => ?_, fun _ _ => ⟨rfl, rfl, rfl, rfl⟩, List.prefix_rfl⟩
  rw [Machine.report, State.modSlot_slots, upd_get]
  split <;> rfl

/-- R18: a record offered stands behind those that wait. -/
theorem queue_offer (r : Record) (t : Stream) : t.queue <+: (t.offer r).queue := by
  unfold Stream.offer Stream.take
  split
  · split
    · exact List.prefix_append _ _
    · exact List.prefix_rfl
  · exact List.prefix_rfl

theorem offer (body : RecordBody) (t : Tick) (s : State) : HandedOver b s (Machine.offer b body t s) :=
  modStr (queue_offer _) s

/-! #### Ports, sequencers and streams -/

theorem sendBegin (i : Slot) (s : State) : HandedOver b s (Machine.sendBegin b i s) := by
  unfold Machine.sendBegin
  simp only
  split
  · exact modCon _ s
  · exact report _ _ _ _ s

theorem armBegin (i : Slot) (s : State) : HandedOver b s (Machine.armBegin b i s) := by
  unfold Machine.armBegin
  simp only
  split
  · exact (modSeq _ s).trans (report _ _ _ _ _)
  · split
    · exact modSeq _ s
    · exact report _ _ _ _ s

theorem toDraining (s : State) : HandedOver b s (Machine.toDraining b s) := by
  have closed : HandedOver b s (closeBatch b false s) := by
    unfold closeBatch
    split
    · exact refl s
    · exact (offer _ _ s).trans (modCon _ _)
  exact closed.trans (modStr_queue _)

theorem traceBegin (i : Slot) (s : State) : HandedOver b s (Machine.traceBegin b i s) := by
  unfold Machine.traceBegin
  simp only
  split
  · unfold traceOpen
    simp only
    split
    · exact (modStr_queue s).trans (report _ _ _ _ _)
    · exact report _ _ _ _ s
  · split
    · unfold traceClose
      simp only
      split
      · exact (toDraining s).trans (modStr_queue _)
      · split
        · exact modStr_queue s
        · exact report _ _ _ _ s
    · unfold traceFlush
      simp only
      split
      · split
        · exact modStr_queue s
        · exact report _ _ _ _ s
      · exact report _ _ _ _ s

/-! #### Driven lines -/

theorem setLevel (d : OutLine) (level : Bool) (c : DriveCause × Option Slot) (s : State) :
    HandedOver b s (Machine.setLevel b d level c s) := (modDrv _ s).trans (offer _ _ _)

theorem goActive (d : OutLine) (p : LineProg) (o : Owner) (s : State) :
    HandedOver b s (Machine.goActive b d p o s) := by
  cases p with
  | timed n w => exact (setLevel d _ _ s).trans (modDrv _ _)
  | force n => exact ((setLevel d _ _ s).trans (modDrv _ _)).trans (modDrv _ _)
  | release => exact setLevel d _ _ s

theorem startProgram (d : OutLine) (p : LineProg) (o : Owner) (s : State) :
    HandedOver b s (Machine.startProgram b d p o s) := by
  unfold Machine.startProgram
  split
  · exact goActive d p o s
  · exact modDrv _ s

theorem startBuffered (d : OutLine) (s : State) : HandedOver b s (Machine.startBuffered b d s) := by
  unfold Machine.startBuffered
  split
  · exact refl s
  · exact (modDrv _ s).trans (startProgram d _ _ _)

theorem arrive (d : OutLine) (p : LineProg) (o : Owner) (s : State) : HandedOver b s (Machine.arrive b d p o s) := by
  have released (c : DriveCause × Option Slot) (x : State) : HandedOver b x (releaseForce b d c x) :=
    ((modDrv _ x).trans (setLevel d _ _ _)).trans (modDrv _ _)
  unfold Machine.arrive
  split
  · exact refl s
  · simp only
    split
    · split
      · exact ((released _ s).trans (modDrv _ _)).trans (startBuffered d _)
      · exact modDrv _ s
    · split
      · exact startProgram d _ o s
      · split
        · exact modDrv _ s
        · exact (modDrv _ s).trans (modDrv _ _)

theorem linesBegin (i : Slot) (s : State) : HandedOver b s (Machine.linesBegin b i s) := by
  have issued (o : Owner) (xs : List LineEntry) (x : State) :
      HandedOver b x (Machine.forEach xs (issueLine b o) x) := by
    refine forEach xs (fun e y => ?_) x
    unfold issueLine
    split
    · exact arrive _ _ _ y
    · exact refl y
  have detached (x : State) : HandedOver b x (detachLines b x) := by
    unfold detachLines
    split
    · exact refl x
    · exact (modDrv _ x).trans (report _ _ _ _ _)
  have ended (x : State) : HandedOver b x (endLinesIfDone b x) := by
    unfold endLinesIfDone
    split
    · exact refl x
    · split
      · exact (modDrv _ x).trans (report _ _ _ _ _)
      · exact refl x
  unfold Machine.linesBegin
  simp only
  split
  · exact report _ _ _ _ s
  · split
    · exact report _ _ _ _ s
    · unfold issueLines
      simp only
      split
      · exact ((modDrv _ s).trans (issued _ _ _)).trans (detached _)
      · exact ((modDrv _ s).trans (issued _ _ _)).trans (ended _)

/-! #### Scan engines -/

theorem scanBegin (e : EngineId) (i : Slot) (s : State) : HandedOver b s (Machine.scanBegin e b i s) := by
  have ended (st : Status) (d : BitVec 16) (x : State) : HandedOver b x (endJob e st d x) := by
    unfold endJob
    simp only
    split
    · exact refl x
    · exact ((modEng e _ x).trans (modPort _ _ _)).trans (report _ _ _ _ _)
  unfold Machine.scanBegin
  simp only
  split
  · exact modEng e _ s
  · exact (modEng e _ s).trans (ended _ _ _)

end HandedOver

theorem handOver_handedOver (b : Bay) (i : Slot) (e : Option EngineId) (s : State) :
    HandedOver b s (handOver b i e s) := by
  unfold handOver
  split
  · split
    · exact .scanBegin _ i s
    · exact .refl s
  · exact .sendBegin i s
  · exact .linesBegin i s
  · exact .armBegin i s
  · exact .traceBegin i s
  · exact .refl s

/-! ### Dispatch (R127, R135, R139, R146) -/

/-- R139 step 1: the slot record of a job at its dispatch. -/
def servedSlot (l : Lane) (now : Tick) (r : SlotRec) : SlotRec :=
  { r with
    state := .inService
    start := now
    deadline := if l = .setup then none else r.deadline }

/-- R127, R139 step 1: a dispatch writes the start time and the state of the slot's card. -/
theorem beginService_eq (b : Bay) (l : Lane) (i : Slot) (s : State) : beginService b l i s = { s with
      slots := upd s.slots i (servedSlot l s.now)
      lanes := (beginService b l i s).lanes
      mem := [startField i (servedSlot l s.now s.slots[i.val]),
        fld (cardAddr i + 0x40) 1 (slotCode .inService)].foldl Memory.writeField s.mem } := by
  simp only [beginService, writeStart, writeCardState, writeCardTime, State.store, State.modSlot, State.modLane,
    List.foldl_cons, List.foldl_nil]
  rfl

/-- R135: a ready head is dispatched, a SCAN with its grant. -/
theorem dispatch_ready {s : State} {b : Bay} {l : Lane} {i : Slot} (h : HeadReady s b l i)
    (hg : s.slots[i.val].card.jobKind ≠ some .scan ∨ ∃ e, s.granted b = some e) :
    ∃ e, exec (.dispatch b l) s = commit s (dispatchSlot b l i e s) := by
  have hi := (readyHead_iff s b l i).2 h
  by_cases hk : s.slots[i.val].card.jobKind = some .scan
  · obtain ⟨e, he⟩ := hg.resolve_left (fun hn => hn hk)
    refine ⟨some e, ?_⟩
    change execDispatch b l s = _
    simp only [execDispatch, hi, hk, he, if_true]
  · refine ⟨none, ?_⟩
    change execDispatch b l s = _
    simp only [execDispatch, hi, hk, if_false]

/-- R18, R19: a running stream with room takes a record offered. -/
theorem Stream.offer_room {t : Stream} (hr : t.state = .running) (hq : t.queue.length < 32) (r : Record) :
    (t.offer r).queue = t.queue ++ [r] := by
  simp [Stream.offer, Stream.take, accepting, hr, queueCapacity, hq]

/-- R127: the fields of its card that a dispatch writes. -/
def serviceFields (l : Lane) (i : Slot) (s : State) : List Field :=
  [startField i (servedSlot l s.now s.slots[i.val]), fld (cardAddr i + 0x40) 1 (slotCode .inService)]

theorem serviceFields_card (l : Lane) (i : Slot) (s : State) :
    serviceFields l i s ⊆ cardFields i (servedSlot l s.now s.slots[i.val]) := by
  simp [serviceFields, cardFields, endFields, servedSlot]

/-- R127, R139: what a dispatch leaves before the hand-over. -/
theorem offerStart_eq (b : Bay) (l : Lane) (i : Slot) (s : State) : offerStart b i (beginService b l i s) = { s with
      slots := upd s.slots i (servedSlot l s.now)
      lanes := (beginService b l i s).lanes
      str := upd s.str b
        (fun t => t.offer ⟨s.now, .jobStart i s.slots[i.val].card.kind.toNat s.slots[i.val].card.tag⟩)
      mem := (serviceFields l i s).foldl Memory.writeField s.mem } := by
  rw [offerStart, beginService_self, offer, State.modStr]
  conv_lhs => rw [beginService_eq]
  rfl

/-- R127, R139: what a dispatch leaves once the job is handed over. -/
theorem dispatchSlot_eq (b : Bay) (l : Lane) (i : Slot) (e : Option EngineId) (s : State) :
    dispatchSlot b l i e s = { s with
      con := (dispatchSlot b l i e s).con
      seq := (dispatchSlot b l i e s).seq
      drv := (dispatchSlot b l i e s).drv
      str := (dispatchSlot b l i e s).str
      slots := (dispatchSlot b l i e s).slots
      eng := (dispatchSlot b l i e s).eng
      port := (dispatchSlot b l i e s).port
      lanes := (beginService b l i s).lanes
      mem := (serviceFields l i s).foldl Memory.writeField s.mem } := by
  have heq := (handOver_handedOver b i e (offerStart b i (beginService b l i s))).eq
  rw [← dispatchSlot] at heq
  refine heq.trans ?_
  rw [offerStart_eq]

theorem dispatchSlot_slot (b : Bay) (l : Lane) (i : Slot) (e : Option EngineId) (s : State) :
    ∃ r, (dispatchSlot b l i e s).slots[i.val] = { servedSlot l s.now s.slots[i.val] with report := r } := by
  have h := (handOver_handedOver b i e (offerStart b i (beginService b l i s))).slot i
  rw [← dispatchSlot, offerStart_eq, upd_self] at h
  exact ⟨_, h⟩

theorem dispatchSlot_ne {i k : Slot} (hk : k ≠ i) (b : Bay) (l : Lane) (e : Option EngineId) (s : State) :
    ∃ r, (dispatchSlot b l i e s).slots[k.val] = { s.slots[k.val] with report := r } := by
  have h := (handOver_handedOver b i e (offerStart b i (beginService b l i s))).slot k
  rw [← dispatchSlot, offerStart_eq, upd_ne _ _ hk.symm] at h
  exact ⟨_, h⟩

/-- R139: a dispatch leaves the blocks of the other bays. -/
theorem dispatchSlot_other {b c : Bay} (hc : c ≠ b) (l : Lane) (i : Slot) (e : Option EngineId) (s : State) :
    (dispatchSlot b l i e s).str[c.val] = s.str[c.val] ∧ (dispatchSlot b l i e s).con[c.val] = s.con[c.val]
      ∧ (dispatchSlot b l i e s).drv[c.val] = s.drv[c.val] ∧ (dispatchSlot b l i e s).seq[c.val] = s.seq[c.val] := by
  have h := (handOver_handedOver b i e (offerStart b i (beginService b l i s))).other c hc
  rw [← dispatchSlot, offerStart_eq] at h
  obtain ⟨hstr, hcon, hdrv, hseq⟩ := h
  exact ⟨hstr.trans (upd_ne s.str _ hc.symm), hcon, hdrv, hseq⟩

/-- R139 step 2: the JOB START record stands before the records of the owner. -/
theorem dispatchSlot_queue (b : Bay) (l : Lane) (i : Slot) (e : Option EngineId) {s : State}
    (hr : s.str[b.val].state = .running) (hq : s.str[b.val].queue.length < 32) :
    ∃ more, (dispatchSlot b l i e s).str[b.val].queue = s.str[b.val].queue ++
      ⟨s.time.count, .jobStart i s.slots[i.val].card.kind.toNat s.slots[i.val].card.tag⟩ :: more := by
  obtain ⟨more, hmore⟩ := (handOver_handedOver b i e (offerStart b i (beginService b l i s))).queue
  rw [← dispatchSlot, offerStart_eq, upd_self, Stream.offer_room hr hq, List.append_assoc] at hmore
  exact ⟨more, hmore.symm⟩

/-- R127, R135, R139, R146: every dispatch of a ready head. -/
theorem dispatched {s : State} {b : Bay} {l : Lane} {i : Slot} (hw : s.mem.wf)
    (e : Option EngineId) : Dispatched s (publish s (signalLine s (dispatchSlot b l i e s))) b l i := by
  obtain ⟨r, hslot⟩ := dispatchSlot_slot b l i e s
  have hother := fun k hk => dispatchSlot_ne (i := i) (k := k) hk b l e s
  have hu := dispatchSlot_eq b l i e s
  generalize dispatchSlot b l i e s = u at *
  have hslots : (publish s (signalLine s u)).slots = u.slots := by rw [publish_slots, signalLine_slots]
  have hlanes : (publish s (signalLine s u)).lanes = (beginService b l i s).lanes := by
    rw [publish_lanes, signalLine_lanes, hu]
  have hquiet : signalLine s u = u := by
    rw [signalLine, hu, Link.signal_same]
  have hread (a : Nat) (h1 : cardAddr i ≤ a) (h2 : a < cardAddr i + 128) :
      (publish s (signalLine s u)).mem.read a = ((serviceFields l i s).foldl Memory.writeField s.mem).read a := by
    rw [publish_card s _ i h1 h2, signalLine_mem, hu]
  have hcard := serviceFields_card l i s
  refine ⟨?_, ?_, ?_, ?_, fun c m => ?_, fun k hk => ?_, ?_, ?_, ?_, ?_, ?_, ?_, ?_, ?_, ?_, ?_, ?_, ?_, ?_, ?_, ?_,
    fun a ha => ?_⟩
  iterate 4 · rw [hslots, hslot]; rfl
  · rw [State.lane_congr hlanes, beginService_lane]
  · obtain ⟨r, hk⟩ := hother k hk
    rw [hslots, hk]
    exact ⟨rfl, rfl⟩
  · rw [hread _ (by omega) (by omega)]
    exact Memory.read_of_written (card_written hw hcard (.tail _ (.head _)))
  · refine Eq.trans (congrArg leNat (Memory.readBytes_congr _ _ (fun a h1 h2 => hread a (by omega) (by omega)))) ?_
    exact card_time_written hw hcard (t := s.now) (by simp [serviceFields, startField, servedSlot])
  iterate 13 · rw [hquiet, hu]; rfl
  · rw [publish_read_other s _ a (fun h => ha (.inr h)), signalLine_mem, hu]
    exact card_unwritten s.mem hcard (fun h => ha (.inl ⟨by omega, by omega⟩))

/-- Settles O35. -/
theorem dispatchStartsTheHead : Obligations.DispatchStartsTheHead := by
  intro s b l i hready hwf _ hg
  obtain ⟨e, hexec⟩ := dispatch_ready hready hg
  refine ⟨_, hexec.trans (commit_eq _ _), dispatched hwf e, fun c hc => ?_, fun hr hq => ?_⟩
  · rw [publish_str, publish_con, publish_drv, publish_seq]
    exact dispatchSlot_other hc l i e s
  · rw [publish_str]
    exact dispatchSlot_queue b l i e hr hq

end Sys2Proof.Machine
end
